-- ==== Sys2Proof/Word.lean ====
section
/-! DEFINITION. The word and byte types of the block (spec/00_scope.md R7, R8). -/

namespace Sys2Proof

/-- A FIFO or register word, `WORD_BITS = 32` (R7). -/
abbrev Word := BitVec 32

/-- A byte of a word, of host memory or of a packet (R8). -/
abbrev Byte := BitVec 8

end Sys2Proof
end

