-- ==== Sys2Proof/Config.lean ====
section
/-! DEFINITION. What an implementation fixes: the record types of the block's configuration and
registers, the OPEN constants of spec/00_scope.md R7 as the record `Params`, and the free values,
opaque constants without a body. -/

namespace Sys2Proof

/-- The two transport blocks, `N_INSTANCES = 2` (R7, R20). -/
inductive InstId where
  | i0
  | i1
deriving DecidableEq, Repr, Inhabited

/-- Pixel data format (R22); `unknown` stands for every value outside the four legal ones (R151). -/
inductive DataFormat where
  | bpp16
  | bpp18Packed
  | bpp18NonPacked
  | bpp24
  | unknown
deriving DecidableEq, Repr, Inhabited

/-- Video-mode variant (R22). -/
inductive VideoMode where
  | burst
  | nonBurst
  | nonBurstSyncEnd
  | dcDrivenCommand
  | ganged
deriving DecidableEq, Repr, Inhabited

/-- High-speed clock-control policy (R22, R291). -/
inductive HsClkPolicy where
  | txOnly
  | continuous
  | continuousThspreprWar
  | continuousThspreprPllWar
deriving DecidableEq, Repr, Inhabited

/-- How a ganged panel is split between the two blocks (R340). -/
inductive SplitKind where
  | leftRight
  | oddEven
deriving DecidableEq, Repr, Inhabited

/-- `panel_timing` (R22), in pixels and lines. -/
structure PanelTiming where
  hActive : Nat
  hSyncWidth : Nat
  hBackPorch : Nat
  hFrontPorch : Nat
  vActive : Nat
  vSyncWidth : Nat
  vBackPorch : Nat
  vFrontPorch : Nat
deriving DecidableEq, Repr, Inhabited

/-- The nine fields of `PHY_TIMING` (R40). -/
inductive PhyField where
  | thsExit
  | thsTrail
  | tdataZero
  | thsPrepare
  | tclkTrail
  | tclkPost
  | tclkZero
  | tclkPre
  | ttlpx
deriving DecidableEq, Repr, Inhabited

/-- A value for each of the nine `PHY_TIMING` fields (R40). -/
structure PhyFields where
  thsExit : Nat
  thsTrail : Nat
  tdataZero : Nat
  thsPrepare : Nat
  tclkTrail : Nat
  tclkPost : Nat
  tclkZero : Nat
  tclkPre : Nat
  ttlpx : Nat
deriving DecidableEq, Repr, Inhabited

/-- The three fields of `BTA_TIMING` (R41). -/
structure BtaTriad where
  t0 : Nat
  t1 : Nat
  t2 : Nat
deriving DecidableEq, Repr, Inhabited

/-- A PhyTimingSet: nine fields, the BTA triad, the 16-bit timeout (R40 to R42). -/
structure PhyTimingSet where
  fields : PhyFields
  triad : BtaTriad
  timeout : BitVec 16
deriving DecidableEq, Repr, Inhabited

/-- The panel descriptor: every configuration field of R22, and the split kind of R340. -/
structure PanelDescriptor where
  nLanes : Nat
  dataFormat : DataFormat
  videoMode : VideoMode
  virtualChannel : Nat
  lpCmdClkKhz : Nat
  hsCmdClkKhz : Nat
  refreshRate : Nat
  phyFreqTarget : Nat
  hsClkPolicy : HsClkPolicy
  panelResetTimeout : Nat
  maxInitClock : Nat
  phyOverrides : Option PhyTimingSet
  teGpioPresent : Bool
  timing : PanelTiming
  split : SplitKind
deriving DecidableEq, Repr, Inhabited

/-- `CONTROL.HS_CLK_CTRL` (R32). -/
inductive HsClkCtrl where
  | txOnly
  | continuous
deriving DecidableEq, Repr, Inhabited

/-- `HOST_CONTROL.TRIGGER_MODE` (R33). -/
inductive TriggerMode where
  | immediate
  | other
deriving DecidableEq, Repr, Inhabited

/-- The fields of `CONTROL` (R32). -/
structure ControlReg where
  videoEnable : Bool
  hostEnable : Bool
  hostFifoSel : Word
  hsClkCtrl : HsClkCtrl
deriving DecidableEq, Repr, Inhabited

/-- The fields of `HOST_CONTROL` (R33). -/
structure HostControlReg where
  triggerMode : TriggerMode
  hsTransmit : Bool
  immBta : Bool
deriving DecidableEq, Repr, Inhabited

/-- The ten packet ids of a slot half (R129). -/
inductive PacketId where
  | vsyncStart
  | vsyncEnd
  | hsyncStart
  | hsyncEnd
  | blanking
  | longWrite
  | hActiveLength16Bpp
  | hActiveLength18Bpp
  | hActiveLength18BppNp
  | hActiveLength24Bpp
deriving DecidableEq, Repr, Inhabited

/-- The seven length selectors (R130). -/
inductive LenSel where
  | none
  | hsync
  | hbp
  | hact
  | hfp
  | cmd
  | idx7
deriving DecidableEq, Repr, Inhabited

/-- A sub-packet of a slot half (R129). -/
structure SubPacket where
  id : PacketId
  lenSel : LenSel
deriving DecidableEq, Repr, Inhabited

/-- A half of a packet-sequence slot (R50, R128). -/
structure SlotHalf where
  pkts : List SubPacket
  forceLp : Bool
deriving DecidableEq, Repr, Inhabited

/-- A slot: its `lo` and `hi` halves (R50). -/
structure Slot where
  lo : SlotHalf
  hi : SlotHalf
deriving DecidableEq, Repr, Inhabited

/-- The six line-type slots (R50). -/
structure SlotFile where
  s0 : Slot
  s1 : Slot
  s2 : Slot
  s3 : Slot
  s4 : Slot
  s5 : Slot
deriving DecidableEq, Repr, Inhabited

/-- The six length fields of `PKT_LEN` (R54). -/
structure PktLen where
  hsync : Nat
  hbp : Nat
  hact : Nat
  hfp : Nat
  cmdA : Nat
  cmdB : Nat
deriving DecidableEq, Repr, Inhabited

/-- The registers of the aperture that hold a value of their own (R30 to R46, R50, R54).
`RD_FIFO_COUNT` is the length of the read FIFO; `WR_DATA` and `RD_DATA` are ports. -/
structure Regs where
  ifEnable : Bool
  control : ControlReg
  hostControl : HostControlReg
  trigger : Word
  btaActive : Bool
  errorFlag : Bool
  slots : SlotFile
  pktLen : PktLen
  phy : PhyFields
  bta : BtaTriad
  timeout : BitVec 16
  solDelay : Nat
  threshold : Word
  padEnable : Bool
  syncpt : Word
deriving DecidableEq, Repr, Inhabited

/-- The DC's ganged-mode register pair (R58). -/
structure GangedPair where
  start0 : Nat
  start1 : Nat
  split0 : Nat
  split1 : Nat
deriving DecidableEq, Repr, Inhabited

/-- How the engine pushed a word (R120). -/
inductive WordKind where
  | shortWord
  | longHeader
  | payload
  | eot
deriving DecidableEq, Repr, Inhabited

/-- A word of the host FIFO with its kind (R83, R120). -/
structure FifoWord where
  kind : WordKind
  word : Word
deriving DecidableEq, Repr, Inhabited

/-- A packet descriptor (R60): what one `WriteCommand` is called with. -/
structure PacketDesc where
  cmdType : BitVec 6
  reg : Byte
  payload : List Byte
  isLong : Bool
deriving DecidableEq, Repr, Inhabited

/-- An update rectangle of `TransUpdate` (R136). -/
structure Rect where
  x : Nat
  y : Nat
  w : Nat
  h : Nat
deriving DecidableEq, Repr, Inhabited

/-- The lifecycle register (R24). -/
inductive Lifecycle where
  | uninitialized
  | transportReady
  | enabled
  | commandModeEnabled
  | disabled
deriving DecidableEq, Repr, Inhabited

/-- The host-control snapshot (R27). -/
structure Snap where
  overrideActive : Bool
  savedHostControl : HostControlReg
  savedControl : ControlReg
deriving DecidableEq, Repr, Inhabited

/-- The TE signal's state, present only with a TE GPIO (R29). -/
structure Te where
  signalled : Bool
  masked : Bool
deriving DecidableEq, Repr, Inhabited

/-- What `TransInit` has acquired (R321, R336). -/
structure Resources where
  device : Bool
  aperture : Bool
  power : Bool
  edgeHandler : Bool
deriving DecidableEq, Repr, Inhabited

/-- What is known of the trigger last written (R83, R214): `pending`, its completion not yet observed; `lost`, its
completion waited for in vain, so that the host FIFO's contents are unspecified until a packet's completion is
observed; else `none`. A record of the model's own (log 9, log 46). -/
inductive Flight where
  | none
  | pending
  | lost
deriving DecidableEq, Repr, Inhabited

/-- What `TransInit` finds in the hardware its zeroing pass does not reach (R71, R401). -/
structure Found where
  trigger : Word
  btaActive : Bool
  errorFlag : Bool
  solDelay : Nat
  syncpt : Word
  hfifo : List FifoWord
  flight : Flight
  rfifo : List Word
deriving DecidableEq, Repr, Inhabited

/-- Everything of a block that a fatal fault leaves unknown (R366, U4). -/
structure Unknown where
  cfg : PanelDescriptor
  curPhyFreq : Nat
  hsMode : Bool
  hostActive : Bool
  solDelay : Nat
  gangedHalf : Option Nat
  lifecycle : Lifecycle
  snap : Snap
  te : Option Te
  res : Resources
  padsCalibrated : Bool
  regs : Regs
  hfifo : List FifoWord
  flight : Flight
  rfifo : List Word
  staging : List Byte
  readLen : Nat
  halfStage : List SubPacket
deriving DecidableEq, Repr, Inhabited

/-- Bit positions of the one-bit fields a host's raw register write reaches (`FIELD_POS`, R7, U8),
and what a zero bit denotes in the two enumerated ones (R32, R33). -/
structure FieldLayout where
  ifEnable : Nat
  videoEnable : Nat
  hostEnable : Nat
  hostFifoSelLo : Nat
  hostFifoSelWidth : Nat
  hsClkCtrl : Nat
  hsClkCtrlOfZero : HsClkCtrl
  triggerMode : Nat
  triggerModeOfZero : TriggerMode
  hsTransmit : Nat
  immBta : Nat
  padEnable : Nat
deriving DecidableEq, Repr, Inhabited

/-- `PKT_ID(name)` for the ten packet ids (R131). -/
structure PacketIdCodes where
  vsyncStart : BitVec 6
  vsyncEnd : BitVec 6
  hsyncStart : BitVec 6
  hsyncEnd : BitVec 6
  blanking : BitVec 6
  longWrite : BitVec 6
  hActiveLength16Bpp : BitVec 6
  hActiveLength18Bpp : BitVec 6
  hActiveLength18BppNp : BitVec 6
  hActiveLength24Bpp : BitVec 6
deriving DecidableEq, Repr, Inhabited

/-- The OPEN constants of R7, under the document's names. `State.params` carries them, so every
statement about all states holds for all their values (log 5): `eotWord` too, whose byte 3 R121 (a) gives as
never other than 0. `readyPollTwice` says whether a read polls ready before its second packet as well, on
which R261 and R360, R370, R410, R418 differ (log 22). -/
structure Params where
  maxInitClockCeiling : Nat
  cmdReadyStep : Nat
  cmdReadyMax : Nat
  triggerStep : Nat
  triggerMax : Nat
  btaStep : Nat
  btaMax : Nat
  rdfifoStep : Nat
  rdfifoMax : Nat
  teWaitTimeout : Nat
  settleWait : Nat
  hostFifoDepth : Nat
  rdFifoDepth : Nat
  useSyncpt : Bool
  maxretOpcode : BitVec 6
  dcsreadOpcode : BitVec 6
  eotWord : Word
  eotOnShort : Bool
  eotOnReadCtrl : Bool
  readyPollTwice : Bool
  pktId : PacketIdCodes
  fieldMax : PhyFields
  btaFieldMax : BtaTriad
  timeoutMargin : Nat
  clockTolerance : Nat
  gangedActiveForceLp : Bool
  nopType : BitVec 6
  nopReg : Byte
  thspreprWarValue : Option Nat
  longWriteType : BitVec 6
  writeMemoryStart : Byte
  writeMemoryContinue : Byte
  updateChunkBytes : Nat
  hostFifoSel : Word
  oddEvenPair : GangedPair
  layout : FieldLayout
deriving DecidableEq, Repr, Inhabited

/-- A nanosecond requirement as the exact rational `num / (den + 1)` (R154). -/
structure NsReq where
  num : Nat
  den : Nat
deriving DecidableEq, Repr, Inhabited

namespace Config

/-- The OPEN constants of the machine at reset (log 5). -/
opaque params : Params

/-- The descriptor a host's index names beyond the descriptor table (R135; log 3). -/
opaque descriptor : Nat → PanelDescriptor

/-- `NS_SPEC(field)` as a function of the frequency in hertz (R154; log 28). -/
opaque nsSpec : PhyField → Nat → NsReq

/-- The raw per-lane-count delay of burst mode, before the running minimum that gives property P2:
format, timing, refresh rate, PHY frequency, lanes (R160; log 27). -/
opaque solBurstRaw : DataFormat → PanelTiming → Nat → Nat → Nat → Nat

/-- By how much the PHY clock is raised when the burst delay is capped: format, timing, refresh
rate, PHY frequency, lanes (R160; log 27). -/
opaque solBurstRaise : DataFormat → PanelTiming → Nat → Nat → Nat → Nat

/-- `SolDelayGanged(data_format, n_lanes, panel_timing)` (R161; log 27). -/
opaque solGanged : DataFormat → Nat → PanelTiming → Nat

/-- The raw choice behind `GangedSplit`: for a width and a lane count, how many lane-sized groups the
left half gets and a lower bound of the right half's (R341; log 27). -/
opaque gangedGroups : Nat → Nat → Nat × Nat

/-- The answer of the `k`-th read of TRIGGER, past the script (U2; log 6). -/
opaque triggerAnswer : InstId → Nat → Word

/-- The answer of the `k`-th read of `STATUS.BTA_ACTIVE`, past the script (U2; log 6). -/
opaque btaAnswer : InstId → Nat → Bool

/-- The answer of the `k`-th read of `STATUS.ERROR_FLAG`, past the script (U25; log 6). -/
opaque errorAnswer : InstId → Nat → Bool

/-- The words that have arrived at the `k`-th read of the count, past the script (U2; log 8). -/
opaque panelAnswer : InstId → Nat → List Word

/-- The answer of the `k`-th completion-counter wait, past the script (R379; log 6). -/
opaque syncptAnswer : InstId → Nat → Bool

/-- The clock service's `k`-th answer, past the script (U20; log 25). -/
opaque clockAnswer : InstId → Nat → Nat

/-- The outcome of the `k`-th clock turn-on attempt, past the script (U21; log 6). -/
opaque attemptAnswer : InstId → Nat → Bool

/-- Whether a TE edge arrives within the `k`-th timed wait, past the script (R377; log 6). -/
opaque teAnswer : InstId → Nat → Bool

/-- Whether the `k`-th environment call of a `TransInit` succeeds, past the script (R322; log 36). -/
opaque initAnswer : InstId → Nat → Bool

/-- The panel's partial-display sequence for a rectangle, past the script (N12; log 30). -/
opaque partialAnswer : Rect → InstId → Nat → List PacketDesc

/-- What a fatal fault leaves of a block (U4; log 10). -/
opaque unknown : InstId → Nat → Unknown

/-- What the `k`-th `TransInit` finds in the hardware, past the script (R401; log 49). -/
opaque foundAnswer : InstId → Nat → Found

/-- What may stand in the host FIFO before the words pushed since an unobserved completion (U3; log 9). -/
opaque unknownHfifo : InstId → Nat → List FifoWord

/-- TRIGGER after an unobserved completion (U3; log 9). -/
opaque unknownTrigger : InstId → Nat → Word

/-- `HOST_CONTROL.IMM_BTA` once a turn-around has been waited for (log 21). -/
opaque unknownImmBta : InstId → Nat → Bool

/-- A read of `RD_DATA` with an empty read FIFO (R37; log 20). -/
opaque emptyPop : InstId → Nat → Word

/-- The value of the completion counter (R46, N7; log 37). -/
opaque syncptValue : InstId → Nat → Word

/-- What length-selector index 7 holds (R130, N9; log 38). -/
opaque lenIdx7 : InstId → Nat → Nat

/-- The half a raw non-zero word written to a `PKT_SEQ` register denotes (N32; log 13). -/
opaque halfOfWord : Word → SlotHalf

/-- The lengths a raw non-zero word written to `PKT_LEN` denotes (N9; log 13). -/
opaque pktLenOfWord : Word → PktLen

/-- The fields a raw word written to `PHY_TIMING` denotes (N4; log 13). -/
opaque phyOfWord : Word → PhyFields

/-- The fields a raw word written to `BTA_TIMING` denotes (N4; log 13). -/
opaque btaOfWord : Word → BtaTriad

end Config

end Sys2Proof
end

