-- ==== Sys2Proof/Syntax.lean ====
section
/-! DEFINITION. The instructions: one constructor per row of spec/opcode_table.json (30_encoding.md
R110). Every instruction names the block it acts on, as the command word does (R135). -/

namespace Sys2Proof

/-- The operand words of `TUPDATE` (R136): w1 surface handle, w2 width, w3 height, w4 bpp, w5 and w6
the source point, w7 to w10 the update rectangle. -/
structure UpdateArgs where
  surface : Word
  width : Word
  height : Word
  bpp : Word
  srcX : Word
  srcY : Word
  rectX : Word
  rectY : Word
  rectW : Word
  rectH : Word
deriving DecidableEq, Repr, Inhabited

/-- Every row of the opcode table. -/
inductive Instr where
  -- format W32: words of the host FIFO (R111 to R118)
  | shortPkt (n : InstId) (vc : BitVec 2) (ct : BitVec 6) (reg data : Byte)
  | longHdr (n : InstId) (vc : BitVec 2) (ct : BitVec 6) (wc : BitVec 16)
  | longPayload (n : InstId) (w : Word)
  | maxret (n : InstId) (vc : BitVec 2) (len : BitVec 16)
  | dcsread (n : InstId) (vc : BitVec 2) (reg : Byte)
  | eot (n : InstId)
  -- format RESP8: read response headers (R122 to R127)
  | respLong1A (n : InstId)
  | respLong1C (n : InstId)
  | respAckerr (n : InstId)
  | respShort1x11 (n : InstId)
  | respShort1x21 (n : InstId)
  | respShort2x12 (n : InstId)
  | respShort2x22 (n : InstId)
  | respInvalid (n : InstId) (b : Byte)
  -- format SEQ: sub-packet ids of a slot half (R129)
  | pktVsyncStart (n : InstId)
  | pktVsyncEnd (n : InstId)
  | pktHsyncStart (n : InstId)
  | pktHsyncEnd (n : InstId)
  | pktBlanking (n : InstId)
  | pktLongWrite (n : InstId)
  | pktHActive16 (n : InstId)
  | pktHActive18 (n : InstId)
  | pktHActive18Np (n : InstId)
  | pktHActive24 (n : InstId)
  -- format SEQ_LEN: length selectors (R130)
  | lenNone (n : InstId)
  | lenHsync (n : InstId)
  | lenHbp (n : InstId)
  | lenHact (n : InstId)
  | lenHfp (n : InstId)
  | lenCmd (n : InstId)
  | lenIdx7 (n : InstId)
  -- format SEQ: a slot half (R128)
  | slotHalf (n : InstId) (slot : Fin 6) (hi : Bool) (forceLp : Bool)
  -- format OP: operations (R136)
  | tinit (n : InstId) (desc : BitVec 16) (flags : Word)
  | tdeinit (n : InstId)
  | enable (n : InstId)
  | disable (n : InstId)
  | cmdmode (n : InstId)
  | twrite (n : InstId) (isLong : Bool) (ct : BitVec 6) (reg : Byte) (payload : List Byte)
  | nopw (n : InstId)
  | tread (n : InstId) (isLong : Bool) (reg : Byte) (len : BitVec 16)
  | btachk (n : InstId)
  | seths (n : InstId) (enable : Bool)
  | envideo (n : InstId)
  | clkon (n : InstId)
  | seqprog (n : InstId)
  | phyt (n : InstId) (freq : Word)
  | sold (n : InstId)
  | plen (n : InstId)
  | tupdate (n : InstId) (a : UpdateArgs)
  | getfreq (n : InstId)
  | tping (n : InstId) (reg : Byte) (len : BitVec 16) (flags : Word)
  -- format MICRO: micro-operations (R136)
  | regw (n : InstId) (idx : BitVec 16) (value : Word)
  | regr (n : InstId) (idx : BitVec 16)
  | push (n : InstId) (w : Word)
  | pop (n : InstId)
  | trig (n : InstId)
  | btareq (n : InstId)
  | poll (n : InstId) (pred : BitVec 16) (step max : Word)
deriving DecidableEq, Repr, Inhabited

/-- Which of the six W32 rows a packet word is presented as: the bits do not tell (R120). -/
inductive PacketRow where
  | short
  | longHdr
  | payload
  | maxret
  | dcsread
  | eot
deriving DecidableEq, Repr, Inhabited

/-- On which lane of the port a unit is presented (log 2). `command` carries the command word and its
operand words, which name the block themselves (R135). -/
inductive Lane where
  | command
  | packet (n : InstId) (row : PacketRow)
  | response (n : InstId)
  | seqId (n : InstId)
  | seqLen (n : InstId)
  | slotHalf (n : InstId)
  | teEdge (n : InstId)
deriving DecidableEq, Repr, Inhabited

/-- A unit of the port: a word and its lane. -/
structure PortWord where
  lane : Lane
  word : Word
deriving DecidableEq, Repr, Inhabited

/-- Why the decoder rejects what the port presents. -/
inductive DecodeError where
  /-- nothing is presented -/
  | emptyPort
  /-- an `opnum` outside the table of R136 (R139) -/
  | reservedOpnum
  /-- `cw[15:9]` is not zero (R135) -/
  | reservedBits
  /-- the operand words of R136 are not there -/
  | missingOperand
  /-- `imm16` or an operand word has a bit set that R136 gives no meaning (log 17) -/
  | operandBits
  /-- no register of R30 has this index -/
  | noSuchRegister
  /-- no predicate of a bounded poll has this number (log 18) -/
  | noSuchPredicate
  /-- byte 3 of a packet-opening word is not zero (R121 (a)) -/
  | eccByteNotZero
  /-- a long header with `WC = 0` (R121 (c)) -/
  | zeroWordCount
  /-- a word on a fixed-pattern lane that does not match the row's pattern (R116 to R118) -/
  | wrongPattern
  /-- more than eight bits on the response lane -/
  | notAByte
  /-- no packet id has this number (R131) -/
  | noSuchPacketId
  /-- no length selector has this number (R130) -/
  | noSuchSelector
  /-- a slot number above 5, or a stray bit of a slot-half unit (R50) -/
  | noSuchSlot
  /-- a TE edge is no instruction -/
  | notAnInstruction
deriving DecidableEq, Repr, Inhabited

end Sys2Proof
end

