-- ==== Sys2Proof/WellFormed.lean ====
section
/-! DEFINITION. The checks an instruction passes as syntax, beyond its operand types. -/

namespace Sys2Proof

/-- The seven response headers that have a row of their own (R123 to R126). -/
def knownHeaders : List Byte := [0x1A, 0x1C, 0x02, 0x11, 0x21, 0x12, 0x22]

/-- The number of registers of R30. -/
def registerCount : Nat := 27

/-- The number of predicates a `POLL` can name (log 18). -/
def predicateCount : Nat := 3

/-- An instruction is well formed: a long header counts at least the `reg_addr` byte (R121 (c)); an
`Invalid` header is none of the seven (R127); a payload's length fits `imm16` (R136); a register index
and a predicate number exist (R30, R216). -/
def Instr.wf : Instr → Bool
  | .longHdr _ _ _ wc => wc != 0
  | .respInvalid _ b => !knownHeaders.contains b
  | .twrite _ _ _ _ payload => payload.length < 65536
  | .regw _ idx _ => idx.toNat < registerCount
  | .regr _ idx => idx.toNat < registerCount
  | .poll _ pred _ _ => pred.toNat < predicateCount
  | .shortPkt .. | .longPayload .. | .maxret .. | .dcsread .. | .eot ..
  | .respLong1A .. | .respLong1C .. | .respAckerr .. | .respShort1x11 .. | .respShort1x21 ..
  | .respShort2x12 .. | .respShort2x22 ..
  | .pktVsyncStart .. | .pktVsyncEnd .. | .pktHsyncStart .. | .pktHsyncEnd .. | .pktBlanking ..
  | .pktLongWrite .. | .pktHActive16 .. | .pktHActive18 .. | .pktHActive18Np .. | .pktHActive24 ..
  | .lenNone .. | .lenHsync .. | .lenHbp .. | .lenHact .. | .lenHfp .. | .lenCmd .. | .lenIdx7 ..
  | .slotHalf .. | .tinit .. | .tdeinit .. | .enable .. | .disable .. | .cmdmode .. | .nopw ..
  | .tread .. | .btachk .. | .seths .. | .envideo .. | .clkon .. | .seqprog .. | .phyt .. | .sold ..
  | .plen .. | .tupdate .. | .getfreq .. | .tping .. | .push .. | .pop .. | .trig .. | .btareq .. => true

end Sys2Proof
end

