-- ==== Sys2Proof/Decode.lean ====
section
/-! DEFINITION. Bit fields, byte order, the packet words of 30_encoding.md, the decoder of the port
(total, rejecting by name) and the encoder written from the same tables. -/

namespace Sys2Proof

/-! ### Bit fields and byte order (R8, R88, R89) -/

/-- `v[lo + width - 1 : lo]` as a number (R8). -/
def field (w : Word) (lo width : Nat) : Nat := w.toNat / 2 ^ lo % 2 ^ width

/-- Byte `k` of a word, byte 0 the least significant (R8). -/
def byteOf (w : Word) (k : Nat) : Byte := BitVec.ofNat 8 (w.toNat / 256 ^ k)

/-- The word with the given four bytes, byte 0 first (R8). -/
def wordOfBytes (b0 b1 b2 b3 : Byte) : Word :=
  BitVec.ofNat 32 (b0.toNat + 256 * b1.toNat + 65536 * b2.toNat + 16777216 * b3.toNat)

/-- Little-endian packing, four bytes a word, absent bytes of the last word 0 (R88). -/
def packBytes : List Byte → List Word
  | [] => []
  | [a] => [wordOfBytes a 0 0 0]
  | [a, b] => [wordOfBytes a b 0 0]
  | [a, b, c] => [wordOfBytes a b c 0]
  | a :: b :: c :: d :: r => wordOfBytes a b c d :: packBytes r

/-- The four bytes of a word, byte 0 first (R8). -/
def bytesOfWord (w : Word) : List Byte := [byteOf w 0, byteOf w 1, byteOf w 2, byteOf w 3]

/-- Little-endian unpacking (R87, R89). -/
def unpackWords : List Word → List Byte
  | [] => []
  | w :: r => bytesOfWord w ++ unpackWords r

/-! ### The packet words of format W32 -/

/-- The data identifier `byte0 = (virtual_channel << 6) | command_type` (R111). -/
def dataId (vc : BitVec 2) (ct : BitVec 6) : Nat := 64 * vc.toNat + ct.toNat

/-- `SHORT_PKT` (R112): byte 1 `reg_addr`, byte 2 the data byte, byte 3 zero (R113). -/
def shortPacketWord (vc : BitVec 2) (ct : BitVec 6) (reg data : Byte) : Word :=
  BitVec.ofNat 32 (dataId vc ct + 256 * reg.toNat + 65536 * data.toNat)

/-- `LONG_HDR` (R114): bytes 1 and 2 the little-endian word count, byte 3 zero. -/
def longHeaderWord (vc : BitVec 2) (ct : BitVec 6) (wc : BitVec 16) : Word :=
  BitVec.ofNat 32 (dataId vc ct + 256 * wc.toNat)

/-- `MAXRET` (R116): bytes 1 and 2 the requested length. -/
def maxretWord (vc : BitVec 2) (opcode : BitVec 6) (len : BitVec 16) : Word :=
  BitVec.ofNat 32 (dataId vc opcode + 256 * len.toNat)

/-- `DCSREAD` (R117): `reg_addr` zero-extended into bytes 1 and 2. -/
def dcsreadWord (vc : BitVec 2) (opcode : BitVec 6) (reg : Byte) : Word :=
  BitVec.ofNat 32 (dataId vc opcode + 256 * reg.toNat)

/-- The opcode table's pattern for `MAXRET_OPCODE` (its default; log 35). -/
def tableMaxretOpcode : BitVec 6 := 0x37

/-- The opcode table's pattern for `DCSREAD_OPCODE` (its default; log 35). -/
def tableDcsreadOpcode : BitVec 6 := 0x06

/-- The opcode table's pattern for `EOT_WORD` (its default; log 35). -/
def tableEotWord : Word := 0x000F0F08

/-! ### Operation numbers (R136) -/

/-- The 26 operations and micro-operations of the command port. -/
inductive OpCode where
  | tinit
  | tdeinit
  | enable
  | disable
  | cmdmode
  | twrite
  | nopw
  | tread
  | btachk
  | seths
  | envideo
  | clkon
  | seqprog
  | phyt
  | sold
  | plen
  | tupdate
  | getfreq
  | tping
  | regw
  | regr
  | push
  | pop
  | trig
  | btareq
  | poll
deriving DecidableEq, Repr, Inhabited

/-- `opnum` of the table of R136. -/
def OpCode.num : OpCode → Nat
  | .tinit => 0x01
  | .tdeinit => 0x02
  | .enable => 0x03
  | .disable => 0x04
  | .cmdmode => 0x05
  | .twrite => 0x06
  | .nopw => 0x07
  | .tread => 0x08
  | .btachk => 0x09
  | .seths => 0x0A
  | .envideo => 0x0B
  | .clkon => 0x0C
  | .seqprog => 0x0D
  | .phyt => 0x0E
  | .sold => 0x0F
  | .plen => 0x10
  | .tupdate => 0x11
  | .getfreq => 0x12
  | .tping => 0x13
  | .regw => 0x20
  | .regr => 0x21
  | .push => 0x22
  | .pop => 0x23
  | .trig => 0x24
  | .btareq => 0x25
  | .poll => 0x26

/-- Every operation of R136. -/
def OpCode.all : List OpCode :=
  [.tinit, .tdeinit, .enable, .disable, .cmdmode, .twrite, .nopw, .tread, .btachk, .seths, .envideo,
    .clkon, .seqprog, .phyt, .sold, .plen, .tupdate, .getfreq, .tping,
    .regw, .regr, .push, .pop, .trig, .btareq, .poll]

/-- The operation with a number, if R136 lists one (R139). -/
def OpCode.ofNum (k : Nat) : Option OpCode := OpCode.all.find? (fun o => o.num == k)

/-- How many operand words follow the command word (R136). -/
def OpCode.operandCount (o : OpCode) (imm : Nat) : Nat :=
  match o with
  | .tinit | .tread | .phyt | .regw | .push => 1
  | .tping | .poll => 2
  | .tupdate => 10
  | .twrite => 1 + (imm + 3) / 4
  | .tdeinit | .enable | .disable | .cmdmode | .nopw | .btachk | .seths | .envideo | .clkon
  | .seqprog | .sold | .plen | .getfreq | .regr | .pop | .trig | .btareq => 0

/-- How many of the low bits of `imm16` R136 gives a use. -/
def OpCode.immBits : OpCode → Nat
  | .tinit | .twrite | .tread | .tping | .regw | .regr | .poll => 16
  | .seths => 1
  | .tdeinit | .enable | .disable | .cmdmode | .nopw | .btachk | .envideo | .clkon | .seqprog | .phyt
  | .sold | .plen | .tupdate | .getfreq | .push | .pop | .trig | .btareq => 0

/-- `cw[8]` of a block (R135). -/
def InstId.bit : InstId → Nat
  | .i0 => 0
  | .i1 => 1

/-- The block `cw[8]` names (R135). -/
def InstId.ofBit (b : Nat) : InstId := if b = 0 then .i0 else .i1

/-- The command word (R135): `imm16` above the block number above `opnum`, `cw[15:9] = 0`. -/
def commandWord (o : OpCode) (n : InstId) (imm : BitVec 16) : Word :=
  BitVec.ofNat 32 (o.num + 256 * n.bit + 65536 * imm.toNat)

/-! ### Numbers of the sequencer's symbolic rows -/

/-- The default packet id numbers of R131, which the opcode table uses. -/
def PacketId.tableCode : PacketId → Nat
  | .vsyncStart => 0x01
  | .vsyncEnd => 0x11
  | .hsyncStart => 0x21
  | .hsyncEnd => 0x31
  | .blanking => 0x19
  | .longWrite => 0x39
  | .hActiveLength16Bpp => 0x0E
  | .hActiveLength18Bpp => 0x1E
  | .hActiveLength18BppNp => 0x2E
  | .hActiveLength24Bpp => 0x3E

/-- The ten packet ids. -/
def PacketId.all : List PacketId :=
  [.vsyncStart, .vsyncEnd, .hsyncStart, .hsyncEnd, .blanking, .longWrite, .hActiveLength16Bpp,
    .hActiveLength18Bpp, .hActiveLength18BppNp, .hActiveLength24Bpp]

/-- The packet id with a table number. -/
def PacketId.ofTableCode (k : Nat) : Option PacketId :=
  PacketId.all.find? (fun p => p.tableCode == k)

/-- The port's number of a length selector, in the order of R130 (log 2). -/
def LenSel.index : LenSel → Nat
  | .none => 0
  | .hsync => 1
  | .hbp => 2
  | .hact => 3
  | .hfp => 4
  | .cmd => 5
  | .idx7 => 6

/-- The seven selectors. -/
def LenSel.all : List LenSel := [.none, .hsync, .hbp, .hact, .hfp, .cmd, .idx7]

/-- The selector with a port number. -/
def LenSel.ofIndex (k : Nat) : Option LenSel := LenSel.all.find? (fun l => l.index == k)

/-- The row of a packet id. -/
def packetIdInstr (n : InstId) : PacketId → Instr
  | .vsyncStart => .pktVsyncStart n
  | .vsyncEnd => .pktVsyncEnd n
  | .hsyncStart => .pktHsyncStart n
  | .hsyncEnd => .pktHsyncEnd n
  | .blanking => .pktBlanking n
  | .longWrite => .pktLongWrite n
  | .hActiveLength16Bpp => .pktHActive16 n
  | .hActiveLength18Bpp => .pktHActive18 n
  | .hActiveLength18BppNp => .pktHActive18Np n
  | .hActiveLength24Bpp => .pktHActive24 n

/-- The row of a length selector. -/
def lenSelInstr (n : InstId) : LenSel → Instr
  | .none => .lenNone n
  | .hsync => .lenHsync n
  | .hbp => .lenHbp n
  | .hact => .lenHact n
  | .hfp => .lenHfp n
  | .cmd => .lenCmd n
  | .idx7 => .lenIdx7 n

/-- The row of a response header byte, by exact match of all 8 bits (R122). -/
def headerInstr (n : InstId) (b : Byte) : Instr :=
  if b = 0x1A then .respLong1A n
  else if b = 0x1C then .respLong1C n
  else if b = 0x02 then .respAckerr n
  else if b = 0x11 then .respShort1x11 n
  else if b = 0x21 then .respShort1x21 n
  else if b = 0x12 then .respShort2x12 n
  else if b = 0x22 then .respShort2x22 n
  else .respInvalid n b

/-! ### The decoder -/

/-- The next `k` units as operand words of a command, and what follows them. -/
def takeOperands : Nat → List PortWord → Option (List Word × List PortWord)
  | 0, us => some ([], us)
  | _ + 1, [] => none
  | k + 1, u :: us =>
    if u.lane = .command then
      match takeOperands k us with
      | some (ws, rest) => some (u.word :: ws, rest)
      | none => none
    else none

/-- An operation with its operand words (R136). Bits of an operand word that R136 gives no meaning
must be zero, but for the bytes of `TWRITE`'s last data word past `length`, which are dropped (log 17). DESIGN CHOICE
(log 55): such a command, one that names no register or no predicate, and one with an unused bit of imm16 are refused
here, before the checks of R370. -/
def buildCommand (o : OpCode) (n : InstId) (imm : BitVec 16) (ws : List Word) :
    Except DecodeError Instr :=
  match o with
  | .tinit => match ws with | [w1] => .ok (.tinit n imm w1) | _ => .error .missingOperand
  | .tdeinit => .ok (.tdeinit n)
  | .enable => .ok (.enable n)
  | .disable => .ok (.disable n)
  | .cmdmode => .ok (.cmdmode n)
  | .twrite =>
    match ws with
    | w1 :: data =>
      if field w1 14 2 = 0 ∧ field w1 17 15 = 0 then
        .ok (.twrite n (field w1 16 1 = 1) (BitVec.ofNat 6 (field w1 8 6)) (byteOf w1 0)
          ((unpackWords data).take imm.toNat))
      else .error .operandBits
    | [] => .error .missingOperand
  | .nopw => .ok (.nopw n)
  | .tread =>
    match ws with
    | [w1] =>
      if field w1 8 8 = 0 ∧ field w1 17 15 = 0 then
        .ok (.tread n (field w1 16 1 = 1) (byteOf w1 0) imm)
      else .error .operandBits
    | _ => .error .missingOperand
  | .btachk => .ok (.btachk n)
  | .seths => .ok (.seths n (imm.toNat % 2 = 1))
  | .envideo => .ok (.envideo n)
  | .clkon => .ok (.clkon n)
  | .seqprog => .ok (.seqprog n)
  | .phyt => match ws with | [w1] => .ok (.phyt n w1) | _ => .error .missingOperand
  | .sold => .ok (.sold n)
  | .plen => .ok (.plen n)
  | .tupdate =>
    match ws with
    | [w1, w2, w3, w4, w5, w6, w7, w8, w9, w10] =>
      .ok (.tupdate n ⟨w1, w2, w3, w4, w5, w6, w7, w8, w9, w10⟩)
    | _ => .error .missingOperand
  | .getfreq => .ok (.getfreq n)
  | .tping =>
    match ws with
    | [w1, w2] =>
      if field w1 8 24 = 0 then .ok (.tping n (byteOf w1 0) imm w2) else .error .operandBits
    | _ => .error .missingOperand
  | .regw =>
    match ws with
    | [w1] =>
      if imm.toNat < registerCount then .ok (.regw n imm w1) else .error .noSuchRegister
    | _ => .error .missingOperand
  | .regr => if imm.toNat < registerCount then .ok (.regr n imm) else .error .noSuchRegister
  | .push => match ws with | [w1] => .ok (.push n w1) | _ => .error .missingOperand
  | .pop => .ok (.pop n)
  | .trig => .ok (.trig n)
  | .btareq => .ok (.btareq n)
  | .poll =>
    match ws with
    | [w1, w2] =>
      if imm.toNat < predicateCount then .ok (.poll n imm w1 w2) else .error .noSuchPredicate
    | _ => .error .missingOperand

/-- A command word and what the port presents after it (R135, R136, R139). Bits of `imm16` that R136 gives no use
must be zero (log 17), and a command whose operand words are not all on the port is refused and not waited for
(log 40). -/
def decodeCommand (cw : Word) (us : List PortWord) : Except DecodeError (Instr × List PortWord) :=
  if field cw 9 7 ≠ 0 then .error .reservedBits
  else
    match OpCode.ofNum (field cw 0 8) with
    | none => .error .reservedOpnum
    | some o =>
      if field cw 16 16 < 2 ^ o.immBits then
        match takeOperands (o.operandCount (field cw 16 16)) us with
        | none => .error .missingOperand
        | some (ws, rest) =>
          match buildCommand o (InstId.ofBit (field cw 8 1)) (BitVec.ofNat 16 (field cw 16 16)) ws with
          | .ok i => .ok (i, rest)
          | .error e => .error e
      else .error .operandBits

/-- A host-FIFO word presented as one of the W32 rows (R111 to R118). -/
def decodePacket (n : InstId) (row : PacketRow) (w : Word) : Except DecodeError Instr :=
  let vc := BitVec.ofNat 2 (field w 6 2)
  let ct := BitVec.ofNat 6 (field w 0 6)
  match row with
  | .payload => .ok (.longPayload n w)
  | .eot => if w = tableEotWord then .ok (.eot n) else .error .wrongPattern
  | .short =>
    if field w 24 8 ≠ 0 then .error .eccByteNotZero
    else .ok (.shortPkt n vc ct (byteOf w 1) (byteOf w 2))
  | .longHdr =>
    if field w 24 8 ≠ 0 then .error .eccByteNotZero
    else if field w 8 16 = 0 then .error .zeroWordCount
    else .ok (.longHdr n vc ct (BitVec.ofNat 16 (field w 8 16)))
  | .maxret =>
    if field w 24 8 ≠ 0 then .error .eccByteNotZero
    else if ct ≠ tableMaxretOpcode then .error .wrongPattern
    else .ok (.maxret n vc (BitVec.ofNat 16 (field w 8 16)))
  | .dcsread =>
    if field w 24 8 ≠ 0 then .error .eccByteNotZero
    else if ct ≠ tableDcsreadOpcode ∨ field w 16 8 ≠ 0 then .error .wrongPattern
    else .ok (.dcsread n vc (byteOf w 1))

/-- A slot-half unit: `w[2:0]` the slot, `w[3]` the `hi` half, `w[4]` the force-LP flag (log 2). -/
def decodeSlotHalf (n : InstId) (w : Word) : Except DecodeError Instr :=
  if h : field w 0 3 < 6 then
    if field w 5 27 = 0 then
      .ok (.slotHalf n ⟨field w 0 3, h⟩ (field w 3 1 = 1) (field w 4 1 = 1))
    else .error .noSuchSlot
  else .error .noSuchSlot

/-- The next instruction the port presents, and what follows it. -/
def decode : List PortWord → Except DecodeError (Instr × List PortWord)
  | [] => .error .emptyPort
  | ⟨lane, w⟩ :: us =>
    match lane with
    | .command => decodeCommand w us
    | .packet n row =>
      match decodePacket n row w with
      | .ok i => .ok (i, us)
      | .error e => .error e
    | .response n =>
      if w.toNat < 256 then .ok (headerInstr n (byteOf w 0), us) else .error .notAByte
    | .seqId n =>
      match PacketId.ofTableCode w.toNat with
      | some p => .ok (packetIdInstr n p, us)
      | none => .error .noSuchPacketId
    | .seqLen n =>
      match LenSel.ofIndex w.toNat with
      | some l => .ok (lenSelInstr n l, us)
      | none => .error .noSuchSelector
    | .slotHalf n =>
      match decodeSlotHalf n w with
      | .ok i => .ok (i, us)
      | .error e => .error e
    | .teEdge _ => .error .notAnInstruction

/-! ### The encoder -/

/-- A command word with its operand words, on the command lane. -/
def commandUnits (o : OpCode) (n : InstId) (imm : BitVec 16) (ws : List Word) : List PortWord :=
  ⟨.command, commandWord o n imm⟩ :: ws.map (fun w => ⟨.command, w⟩)

/-- `w1` of `TWRITE` and `TREAD` (R136). -/
def packetOperand (isLong : Bool) (ct : BitVec 6) (reg : Byte) : Word :=
  BitVec.ofNat 32 (reg.toNat + 256 * ct.toNat + 65536 * isLong.toNat)

/-- A unit on the response lane. -/
def headerUnit (n : InstId) (b : Byte) : List PortWord := [⟨.response n, BitVec.ofNat 32 b.toNat⟩]

/-- A unit on the packet-id lane. -/
def packetIdUnit (n : InstId) (p : PacketId) : List PortWord :=
  [⟨.seqId n, BitVec.ofNat 32 p.tableCode⟩]

/-- A unit on the selector lane. -/
def lenSelUnit (n : InstId) (l : LenSel) : List PortWord := [⟨.seqLen n, BitVec.ofNat 32 l.index⟩]

/-- The units of an instruction: the same tables read the other way. -/
def encode : Instr → List PortWord
  | .shortPkt n vc ct reg data => [⟨.packet n .short, shortPacketWord vc ct reg data⟩]
  | .longHdr n vc ct wc => [⟨.packet n .longHdr, longHeaderWord vc ct wc⟩]
  | .longPayload n w => [⟨.packet n .payload, w⟩]
  | .maxret n vc len => [⟨.packet n .maxret, maxretWord vc tableMaxretOpcode len⟩]
  | .dcsread n vc reg => [⟨.packet n .dcsread, dcsreadWord vc tableDcsreadOpcode reg⟩]
  | .eot n => [⟨.packet n .eot, tableEotWord⟩]
  | .respLong1A n => headerUnit n 0x1A
  | .respLong1C n => headerUnit n 0x1C
  | .respAckerr n => headerUnit n 0x02
  | .respShort1x11 n => headerUnit n 0x11
  | .respShort1x21 n => headerUnit n 0x21
  | .respShort2x12 n => headerUnit n 0x12
  | .respShort2x22 n => headerUnit n 0x22
  | .respInvalid n b => headerUnit n b
  | .pktVsyncStart n => packetIdUnit n .vsyncStart
  | .pktVsyncEnd n => packetIdUnit n .vsyncEnd
  | .pktHsyncStart n => packetIdUnit n .hsyncStart
  | .pktHsyncEnd n => packetIdUnit n .hsyncEnd
  | .pktBlanking n => packetIdUnit n .blanking
  | .pktLongWrite n => packetIdUnit n .longWrite
  | .pktHActive16 n => packetIdUnit n .hActiveLength16Bpp
  | .pktHActive18 n => packetIdUnit n .hActiveLength18Bpp
  | .pktHActive18Np n => packetIdUnit n .hActiveLength18BppNp
  | .pktHActive24 n => packetIdUnit n .hActiveLength24Bpp
  | .lenNone n => lenSelUnit n .none
  | .lenHsync n => lenSelUnit n .hsync
  | .lenHbp n => lenSelUnit n .hbp
  | .lenHact n => lenSelUnit n .hact
  | .lenHfp n => lenSelUnit n .hfp
  | .lenCmd n => lenSelUnit n .cmd
  | .lenIdx7 n => lenSelUnit n .idx7
  | .slotHalf n slot hi lp =>
    [⟨.slotHalf n, BitVec.ofNat 32 (slot.val + 8 * hi.toNat + 16 * lp.toNat)⟩]
  | .tinit n desc flags => commandUnits .tinit n desc [flags]
  | .tdeinit n => commandUnits .tdeinit n 0 []
  | .enable n => commandUnits .enable n 0 []
  | .disable n => commandUnits .disable n 0 []
  | .cmdmode n => commandUnits .cmdmode n 0 []
  | .twrite n isLong ct reg payload =>
    commandUnits .twrite n (BitVec.ofNat 16 payload.length)
      (packetOperand isLong ct reg :: packBytes payload)
  | .nopw n => commandUnits .nopw n 0 []
  | .tread n isLong reg len => commandUnits .tread n len [packetOperand isLong 0 reg]
  | .btachk n => commandUnits .btachk n 0 []
  | .seths n enable => commandUnits .seths n (BitVec.ofNat 16 enable.toNat) []
  | .envideo n => commandUnits .envideo n 0 []
  | .clkon n => commandUnits .clkon n 0 []
  | .seqprog n => commandUnits .seqprog n 0 []
  | .phyt n freq => commandUnits .phyt n 0 [freq]
  | .sold n => commandUnits .sold n 0 []
  | .plen n => commandUnits .plen n 0 []
  | .tupdate n a =>
    commandUnits .tupdate n 0
      [a.surface, a.width, a.height, a.bpp, a.srcX, a.srcY, a.rectX, a.rectY, a.rectW, a.rectH]
  | .getfreq n => commandUnits .getfreq n 0 []
  | .tping n reg len flags => commandUnits .tping n len [packetOperand false 0 reg, flags]
  | .regw n idx value => commandUnits .regw n idx [value]
  | .regr n idx => commandUnits .regr n idx []
  | .push n w => commandUnits .push n 0 [w]
  | .pop n => commandUnits .pop n 0 []
  | .trig n => commandUnits .trig n 0 []
  | .btareq n => commandUnits .btareq n 0 []
  | .poll n pred step max => commandUnits .poll n pred [step, max]

/-! ### The opcode table's own numbering (log 2) -/

/-- A table row's bits as units of the port. The table's formats share their numbers, so the width
and the value choose the lane: eight bits are a response header of R123 to R126 or 0x99, else a packet
id, else an `Invalid` header; a word is a command of R136 where it is one (with the operand words above
it, zero where the row gives none), else the most specific W32 row whose pattern it has. -/
def tableUnits (nbits w : Nat) : List PortWord :=
  if nbits ≤ 8 then
    if (knownHeaders.map BitVec.toNat).contains w || (PacketId.ofTableCode w).isNone then
      [⟨.response .i0, BitVec.ofNat 32 w⟩]
    else [⟨.seqId .i0, BitVec.ofNat 32 w⟩]
  else
    let cw : Word := BitVec.ofNat 32 w
    let asCommand := if field cw 9 7 = 0 then OpCode.ofNum (field cw 0 8) else none
    match asCommand with
    | some o =>
      ⟨.command, cw⟩ :: (List.range (o.operandCount (field cw 16 16))).map
        (fun k => ⟨.command, BitVec.ofNat 32 (w / 2 ^ (32 * (k + 1)))⟩)
    | none =>
      let row : PacketRow :=
        if cw = tableEotWord then .eot
        else if field cw 24 8 ≠ 0 then .payload
        else if field cw 0 6 = 0x37 then .maxret
        else if field cw 0 6 = 0x06 ∧ field cw 16 8 = 0 then .dcsread
        else .short
      [⟨.packet .i0 row, cw⟩]

/-- The instruction the decoder reads from a table row's bits (log 2). -/
def decodeTableWord (nbits w : Nat) : Option Instr :=
  match decode (tableUnits nbits w) with
  | .ok (i, _) => some i
  | .error _ => none

end Sys2Proof
end

