-- ==== Sys2Proof/Machine/State.lean ====
section
/-! DEFINITION. The state of the machine as plain data (10_state.md, 20_memory.md), the reasons a step
stops, and the state before anything has run (R70). -/

namespace Sys2Proof.Machine

/-- The status codes of R360, in the order of their numbers 0 to 12. -/
inductive Status where
  | success
  | notInitialized
  | hardwareBusyTimeout
  | triggerTimeout
  | btaTimeout
  | fifoNotEmptyAtStart
  | readFifoFull
  | btaProtocolError
  | readAckError
  | readInvalidResponse
  | fatalHardwareFault
  | initFailed
  | teWaitTimeout
deriving DecidableEq, Repr, Inhabited

/-- The causes of the fatal record (R28, R366). -/
inductive FatalCause where
  | cmdModeNotReadyAfterModeSwitch
  | unknownDataFormat
  | clockEnableRetriesExhausted
deriving DecidableEq, Repr, Inhabited

/-- The lock (R25). -/
inductive Lock where
  | free
  | held
deriving DecidableEq, Repr, Inhabited

/-- The outer engine state (R26); `highSpeed` and `lowPower` are the sub-states of `HostActive`. -/
inductive Engine where
  | idle
  | hostActiveHighSpeed
  | hostActiveLowPower
deriving DecidableEq, Repr, Inhabited

/-- The inner engine state (R26). -/
inductive Phase where
  | none
  | framing
  | triggered
  | awaitingCompletion
  | success
  | timedOut
deriving DecidableEq, Repr, Inhabited

/-- The result of a bounded wait (R216). -/
inductive PollResult where
  | ready
  | timedOut
deriving DecidableEq, Repr, Inhabited

/-- A call of the environment (R382), recorded in `Env.calls` (log 24). -/
inductive EnvCall where
  | openDevice
  | closeDevice
  | mapAperture
  | unmapAperture
  | registerPowerClock
  | unregisterPowerClock
  | createSemaphore
  | destroySemaphore
  | registerEdgeHandler
  | unregisterEdgeHandler
  | clockConfigure (requestedKhz tolerance : Nat)
  | clockEnable
  | clockDisable
  | turnOnClockAttempt (k : Nat)
  | syncptWait (bound : Nat)
  | gpioUnmask
  | gpioMask
  | timedWait (bound : Nat)
  | waitVblank
  | settleWait (duration : Nat)
  | pllWorkaround
  | padCalibrate
  | dcWriteOutputActive (ctrl : Nat) (value : Bool)
  | dcWriteGanged (ctrl : Nat) (pair : GangedPair)
  | acquireFrameMutex
  | releaseFrameMutex
deriving DecidableEq, Repr, Inhabited

/-- One face of the environment: the answers still scripted, and how many have been drawn (log 6). -/
structure Oracle (α : Type) where
  script : List α
  reads : Nat
deriving DecidableEq, Repr, Inhabited

/-- The environment of a transport block (R6, R382): what it will answer and what it was asked. -/
structure Env where
  trigger : Oracle Word
  bta : Oracle Bool
  error : Oracle Bool
  panel : Oracle (List Word)
  syncpt : Oracle Bool
  clock : Oracle Nat
  attempt : Oracle Bool
  te : Oracle Bool
  initCall : Oracle Bool
  partialSeq : Oracle (List PacketDesc)
  found : Oracle Found
  calls : List EnvCall
deriving DecidableEq, Repr, Inhabited

/-- A transport block (R20): identity, configuration, live state, registers, FIFOs, environment. `hfifo` are
the words known to stand in the host FIFO; with `flight = .lost` any others may stand before them (R83; log 9). -/
structure Instance where
  id : InstId
  ctrlIndex : Nat
  cfg : PanelDescriptor
  curPhyFreq : Nat
  hsMode : Bool
  hostActive : Bool
  hostClkOn : Bool
  solDelay : Nat
  gangedHalf : Option Nat
  lifecycle : Lifecycle
  lock : Lock
  engine : Engine
  phase : Phase
  snap : Snap
  fatal : Option FatalCause
  te : Option Te
  res : Resources
  padsCalibrated : Bool
  regs : Regs
  hfifo : List FifoWord
  flight : Flight
  rfifo : List Word
  btaSeen : Bool
  staging : List Byte
  readLen : Nat
  outBuf : Nat
  halfStage : List SubPacket
  sent : List (List FifoWord)
  env : Env
  freeTick : Nat
deriving DecidableEq, Repr, Inhabited

/-- The display controller's registers DSI-PF writes (R57, R58). -/
structure DcRegs where
  outputActive : Bool
  ganged : GangedPair
deriving DecidableEq, Repr, Inhabited

/-- How far a ganged setup has come (R96): `firstEnabled` right after `Enable` of block 0. -/
inductive GangedStep where
  | idle
  | firstEnabled
deriving DecidableEq, Repr, Inhabited

/-- A register's value as a field record (R210, R211). -/
inductive RegValue where
  | powerControl (ifEnable : Bool)
  | control (c : ControlReg)
  | hostControl (h : HostControlReg)
  | trigger (w : Word)
  | status (rdFifoCount : Nat) (btaActive errorFlag : Bool)
  | rdData (w : Word)
  | pktSeq (h : SlotHalf)
  | pktLen (l : PktLen)
  | phyTiming (p : PhyFields)
  | btaTiming (t : BtaTriad)
  | timeout (v : BitVec 16)
  | solDelay (v : Nat)
  | threshold (w : Word)
  | padControl (padEnable : Bool)
  | syncpt (w : Word)
deriving DecidableEq, Repr, Inhabited

/-- What an operation delivers beside its status (R361). -/
inductive Output where
  | none
  | bytes (n : Nat)
  | khz (f : Nat)
  | word (w : Word)
  | reg (v : RegValue)
  | poll (r : PollResult)
  | phySet (t : PhyTimingSet)
  | sol (delay freq : Nat)
  | lens (l : PktLen)
  | ping (code : Status) (n : Nat)
  | packetId (code : BitVec 6)
  | length (len : Option Nat)
deriving DecidableEq, Repr, Inhabited

/-- The result of the last operation (R360). -/
structure Result where
  inst : InstId
  status : Status
  out : Output
deriving DecidableEq, Repr, Inhabited

/-- Host memory (R80 item 5): rising addresses, no entry equal to what an unlisted byte reads as. -/
abbrev Memory := List Host.Cell

/-- The whole machine. -/
structure State where
  params : Params
  inst0 : Instance
  inst1 : Instance
  dc : List (Nat × DcRegs)
  frameMutex : Bool
  gangedStep : GangedStep
  mem : Memory
  descTable : List PanelDescriptor
  port : List PortWord
  result : Option Result
deriving DecidableEq, Repr, Inhabited

/-- Why the machine is stuck. -/
inductive Fault where
  /-- an operation that takes the lock is presented while another holds it: acquisition blocks without
  bound (R25, D37); safe, it only makes claims unprovable; raised by `State.whenFree` -/
  | blockedOnLock
  /-- `TransPing` is presented while the DC holds `frame_mutex` (R97); safe; raised by `execTping` -/
  | blockedOnFrameMutex
deriving DecidableEq, Repr, Inhabited

/-- Why an instruction has no meaning for these operands (R10 (c)); every one is safe: it only makes
claims unprovable. -/
inductive Refusal where
  /-- an arm of `exec` without a meaning; raised by `exec` alone -/
  | notModelled (mnemonic : String)
  /-- the port presents nothing the decoder accepts (R139, R121); raised by `step` -/
  | illegalCommand (e : DecodeError)
  /-- a long payload whose `length + 1` does not fit 16 bits (R114, R224 (c)); raised by `TWRITE` and
  what sends packets -/
  | wordCountOverflow
  /-- more words between two triggers than the host FIFO holds (R84, R224 (c), R412); raised by
  `TWRITE`, `NOPW`, `TREAD`, `TPING` and what sends packets -/
  | packetTooLarge
  /-- a single push onto a full host FIFO (R84); raised by `PUSH`, `REGW WR_DATA` and the W32 rows -/
  | hostFifoFull
  /-- a push while TRIGGER is not zero (R410); raised by `PUSH`, `REGW WR_DATA` and the W32 rows -/
  | pushWhileBusy
  /-- a write of a read-only register (R210); raised by `REGW` -/
  | readOnlyRegister
  /-- a read of the write-only `WR_DATA` (R36, R211); raised by `REGR` -/
  | writeOnlyRegister
  /-- no register of R30 has this index, or the platform has no completion counter (R46); raised by
  `REGW` and `REGR` -/
  | noSuchRegister
  /-- no predicate has this number (log 18); raised by `POLL` -/
  | noSuchPredicate
  /-- `STEP` or `MAX` is zero (R216); raised by `POLL` -/
  | zeroPollBound
  /-- a slot, length or SOL write while the interface is enabled (R98, R414); raised by `SEQPROG`,
  `REGW` and `SLOT_HALF` -/
  | liveProgramWrite
  /-- frequency zero without overrides (R152); raised by `PHYT` -/
  | zeroFrequency
  /-- a PHY override above its field's ceiling (R152); raised by what computes PHY timing -/
  | overrideTooLarge
  /-- a descriptor with lanes outside 1 to 4 or a channel above 3 (R321); raised by `TINIT` -/
  | badDescriptor
  /-- `TransUpdate` outside `CommandModeEnabled` (R337 (f)); raised by `TUPDATE` -/
  | notInCommandMode
  /-- `TransDeinit` while the lock is held (R336, R426); raised by `TDEINIT` -/
  | deinitWhileLocked
  /-- a ganged `Enable` of block 1 that does not follow that of block 0 (R96, R417); raised by
  `ENABLE` -/
  | gangedOutOfOrder
deriving DecidableEq, Repr, Inhabited

/-- Nothing scripted, nothing drawn (log 6). -/
def Oracle.fresh (α : Type) : Oracle α := ⟨[], 0⟩

/-- An environment that has been asked nothing. -/
def Env.fresh : Env :=
  ⟨.fresh _, .fresh _, .fresh _, .fresh _, .fresh _, .fresh _, .fresh _, .fresh _, .fresh _, .fresh _,
    .fresh _, []⟩

/-- The all-zero half (R50). -/
def zeroHalf : SlotHalf := ⟨[], false⟩

/-- The all-zero slot file (R50, R71). -/
def zeroSlots : SlotFile :=
  let z : Slot := ⟨zeroHalf, zeroHalf⟩
  ⟨z, z, z, z, z, z⟩

/-- All lengths 0 (R54, R71). -/
def zeroPktLen : PktLen := ⟨0, 0, 0, 0, 0, 0⟩

/-- `CONTROL` with all fields 0; what a zero `HS_CLK_CTRL` denotes is the platform's (R32; log 14). -/
def zeroControl (p : Params) : ControlReg := ⟨false, false, 0, p.layout.hsClkCtrlOfZero⟩

/-- `HOST_CONTROL` with all fields 0 (R33; log 14). -/
def zeroHostControl (p : Params) : HostControlReg := ⟨p.layout.triggerModeOfZero, false, false⟩

/-- The configuration of a zeroed structure (R70; log 12). -/
def zeroDescriptor : PanelDescriptor :=
  ⟨0, .bpp16, .burst, 0, 0, 0, 0, 0, .txOnly, 0, 0, none, false, ⟨0, 0, 0, 0, 0, 0, 0, 0⟩, .leftRight⟩

/-- The registers at power-on: the spec gives no value, the model takes zeros (R70; log 11). -/
def resetRegs (p : Params) : Regs where
  ifEnable := false
  control := zeroControl p
  hostControl := zeroHostControl p
  trigger := 0
  btaActive := false
  errorFlag := false
  slots := zeroSlots
  pktLen := zeroPktLen
  phy := ⟨0, 0, 0, 0, 0, 0, 0, 0, 0⟩
  bta := ⟨0, 0, 0⟩
  timeout := 0
  solDelay := 0
  threshold := 0
  padEnable := false
  syncpt := 0

/-- A transport block before its first `TransInit`: the structure is zero (R70), the hardware has the
values of log 11. -/
def Instance.reset (p : Params) (n : InstId) (ctrlIndex : Nat) : Instance where
  id := n
  ctrlIndex := ctrlIndex
  cfg := zeroDescriptor
  curPhyFreq := 0
  hsMode := false
  hostActive := false
  hostClkOn := false
  solDelay := 0
  gangedHalf := none
  lifecycle := .uninitialized
  lock := .free
  engine := .idle
  phase := .none
  snap := ⟨false, zeroHostControl p, zeroControl p⟩
  fatal := none
  te := none
  res := ⟨false, false, false, false⟩
  padsCalibrated := false
  regs := resetRegs p
  hfifo := []
  flight := .none
  rfifo := []
  btaSeen := false
  staging := []
  readLen := 0
  outBuf := 0
  halfStage := []
  sent := []
  env := .fresh
  freeTick := 0

/-- The machine before anything has run, with given OPEN constants. -/
def State.resetWith (p : Params) : State where
  params := p
  inst0 := .reset p .i0 0
  inst1 := .reset p .i1 1
  dc := []
  frameMutex := false
  gangedStep := .idle
  mem := []
  descTable := []
  port := []
  result := none

/-- The machine before anything has run (R70, R400 (a)): the OPEN constants are the free value
`Config.params` (log 5). -/
def State.reset : State := State.resetWith Config.params

end Sys2Proof.Machine
end

