-- ==== Sys2Proof/Machine/Ops.lean ====
section
/-! DEFINITION. The shared operations: sparse maps and host memory, the environment's answers, register
and FIFO access, the exit path and the fatal fault (60_exceptions.md R366, R372), the TE handler (R376),
the checks every operation begins with (R370), and fetching from the port. -/

namespace Sys2Proof.Machine

/-- What an instruction answers. -/
abbrev Out := Host.Outcome State Fault Refusal

/-! ### Sparse maps: rising keys, no entry equal to the default -/

/-- The value at a key; `d` where nothing is listed. -/
def sparseGet {α : Type} (d : α) : List (Nat × α) → Nat → α
  | [], _ => d
  | (a, x) :: r, k => if a = k then x else sparseGet d r k

/-- Write a value at a key; writing the default removes the entry. -/
def sparseSet {α : Type} [DecidableEq α] (d : α) (k : Nat) (v : α) :
    List (Nat × α) → List (Nat × α)
  | [] => if v = d then [] else [(k, v)]
  | (a, x) :: r =>
    if k < a then (if v = d then (a, x) :: r else (k, v) :: (a, x) :: r)
    else if k = a then (if v = d then r else (k, v) :: r)
    else (a, x) :: sparseSet d k v r

/-- The canonical form, with every key at least `lo`. -/
def sparseWf {α : Type} [DecidableEq α] (d : α) : Nat → List (Nat × α) → Bool
  | _, [] => true
  | lo, (a, x) :: r => lo ≤ a && x != d && sparseWf d (a + 1) r

/-! ### Host memory (R80 item 5, R90) -/

/-- What a byte of host memory that nothing has written reads as (log 15). -/
def unlistedByte : Byte := 0

/-- One byte of host memory. -/
def Memory.read (m : Memory) (a : Nat) : Byte := sparseGet unlistedByte m a

/-- Write one byte of host memory. -/
def Memory.write (m : Memory) (a : Nat) (b : Byte) : Memory := sparseSet unlistedByte a b m

/-- `MemRead(addr, n)` (R9). -/
def Memory.readBytes (m : Memory) (a n : Nat) : List Byte :=
  (List.range n).map (fun k => m.read (a + k))

/-- `MemWrite(addr, n, bytes)` (R9): byte `k` at `addr + k`. -/
def Memory.writeBytes (m : Memory) (a : Nat) : List Byte → Memory
  | [] => m
  | b :: r => (m.write a b).writeBytes (a + 1) r

/-- The canonical form of host memory. -/
def Memory.wf (m : Memory) : Bool := sparseWf unlistedByte 0 m

/-- DC registers nothing has written (log 11). -/
def unlistedDc : DcRegs := ⟨false, ⟨0, 0, 0, 0⟩⟩

/-- The DC's registers of a controller (R57, R58). -/
def State.dcRegs (s : State) (ctrl : Nat) : DcRegs := sparseGet unlistedDc s.dc ctrl

/-- `env.DcRegWrite` (R382), on the state. -/
def State.setDcRegs (s : State) (ctrl : Nat) (d : DcRegs) : State :=
  { s with dc := sparseSet unlistedDc ctrl d s.dc }

/-! ### The two blocks -/

/-- A transport block of the machine (R20). -/
def State.inst (s : State) : InstId → Instance
  | .i0 => s.inst0
  | .i1 => s.inst1

/-- Replace a transport block. -/
def State.setInst (s : State) (n : InstId) (i : Instance) : State :=
  match n with
  | .i0 => { s with inst0 := i }
  | .i1 => { s with inst1 := i }

/-- `initialized` as a function of the lifecycle (R24). -/
def Instance.initialized (i : Instance) : Bool :=
  match i.lifecycle with
  | .transportReady | .enabled | .commandModeEnabled => true
  | .uninitialized | .disabled => false

/-- `enabled` as a function of the lifecycle (R24). -/
def Instance.enabled (i : Instance) : Bool :=
  match i.lifecycle with
  | .enabled | .commandModeEnabled => true
  | .uninitialized | .transportReady | .disabled => false

/-! ### The environment (R6, R382) -/

/-- Draw the next answer: the script's, or past it the free value of this draw (log 6). -/
def Oracle.draw {α : Type} (past : Nat → α) (o : Oracle α) : α × Oracle α :=
  match o.script with
  | [] => (past o.reads, { o with reads := o.reads + 1 })
  | a :: r => (a, ⟨r, o.reads + 1⟩)

/-- Record a call of the environment, the newest first. -/
def Instance.call (i : Instance) (c : EnvCall) : Instance :=
  { i with env := { i.env with calls := c :: i.env.calls } }

/-- `env.ClockConfigure(module, khz, CLOCK_TOLERANCE)` (R382): the answer is greater than 0 (log 25). -/
def Instance.clockConfigure (p : Params) (khz : Nat) (i : Instance) : Nat × Instance :=
  let d := i.env.clock.draw (Config.clockAnswer i.id)
  (max d.1 1,
    ({ i with env := { i.env with clock := d.2 } }).call (.clockConfigure khz p.clockTolerance))

/-- `n` returns of `env.DcWaitVblank()` (R382; R381 (d)). -/
def Instance.waitVblanks (i : Instance) : Nat → Instance
  | 0 => i
  | k + 1 => (i.call .waitVblank).waitVblanks k

/-- A value nothing constrains, for the use numbered by `freeTick`; the tick is then used up. -/
def Instance.useTick (i : Instance) : Instance := { i with freeTick := i.freeTick + 1 }

/-! ### Registers and FIFOs -/

/-- Write `CONTROL`. -/
def Instance.setControl (i : Instance) (c : ControlReg) : Instance :=
  { i with regs := { i.regs with control := c } }

/-- Write `HOST_CONTROL`. -/
def Instance.setHostControl (i : Instance) (h : HostControlReg) : Instance :=
  { i with regs := { i.regs with hostControl := h } }

/-- Write `POWER_CONTROL.IF_ENABLE` (R31). -/
def Instance.setIfEnable (i : Instance) (b : Bool) : Instance :=
  { i with regs := { i.regs with ifEnable := b } }

/-- Write `PHY_TIMING`, `BTA_TIMING` and `TIMEOUT` from one PhyTimingSet (R40, R420). -/
def Instance.programPhy (t : PhyTimingSet) (i : Instance) : Instance :=
  { i with regs := { i.regs with phy := t.fields, bta := t.triad, timeout := t.timeout } }

/-- A slot of the program (R50). -/
def slotGet (f : SlotFile) (k : Fin 6) : Slot :=
  match k with
  | 0 => f.s0
  | 1 => f.s1
  | 2 => f.s2
  | 3 => f.s3
  | 4 => f.s4
  | 5 => f.s5

/-- Replace a slot of the program (R50). -/
def slotSet (f : SlotFile) (k : Fin 6) (v : Slot) : SlotFile :=
  match k with
  | 0 => { f with s0 := v }
  | 1 => { f with s1 := v }
  | 2 => { f with s2 := v }
  | 3 => { f with s3 := v }
  | 4 => { f with s4 := v }
  | 5 => { f with s5 := v }

/-- `RegRead(PKT_SEQ_<k>_LO / HI)` (R50). -/
def halfGet (f : SlotFile) (k : Fin 6) (hi : Bool) : SlotHalf :=
  if hi then (slotGet f k).hi else (slotGet f k).lo

/-- `RegWrite(PKT_SEQ_<k>_LO / HI, h)` (R50). -/
def halfSet (f : SlotFile) (k : Fin 6) (hi : Bool) (h : SlotHalf) : SlotFile :=
  slotSet f k (if hi then { slotGet f k with hi := h } else { slotGet f k with lo := h })

/-- Write a half of the slot program. -/
def Instance.setHalf (i : Instance) (k : Fin 6) (hi : Bool) (h : SlotHalf) : Instance :=
  { i with regs := { i.regs with slots := halfSet i.regs.slots k hi h } }

/-- `FifoPush` (R84, R212) with the kind the engine pushes the word as (R120). -/
def Instance.pushWord (i : Instance) (w : FifoWord) : Instance := { i with hfifo := i.hfifo ++ [w] }

/-- The words of a packet pushed in order (R84). -/
def Instance.pushWords (i : Instance) (ws : List FifoWord) : Instance :=
  { i with hfifo := i.hfifo ++ ws }

/-- `FifoPop` (R86, R213); the value read from an empty FIFO is free (R37; log 20). -/
def Instance.popWord (i : Instance) : Word × Instance :=
  match i.rfifo with
  | w :: r => (w, { i with rfifo := r })
  | [] => (Config.emptyPop i.id i.freeTick, i.useTick)

/-- The drain of R255: the words counted, in order. -/
def Instance.drain (i : Instance) (c : Nat) : List Word × Instance :=
  (i.rfifo.take c, { i with rfifo := i.rfifo.drop c })

/-- The words known to stand in the host FIFO once a push is allowed again: those of a trigger whose completion is
pending are gone by then (R83, R410). -/
def Instance.queued (i : Instance) : List FifoWord := if i.flight = .pending then [] else i.hfifo

/-- The words nothing is known of: after an unobserved completion any words may stand before those pushed since, a
free value fresh for each packet handed over (R83, D15, U3; log 9). -/
def Instance.unspecified (i : Instance) : List FifoWord :=
  if i.flight = .lost then Config.unknownHfifo i.id i.sent.length else []

/-- The contents of the host FIFO (R83). -/
def Instance.contents (i : Instance) : List FifoWord := i.unspecified ++ i.hfifo

/-- What the next packet will go out behind (R83, R227). -/
def Instance.ahead (i : Instance) : List FifoWord := i.unspecified ++ i.queued

/-- After a read of TRIGGER that gave zero: a pending completion is observed; contents that are unspecified stay so
(R83). -/
def settledFlight : Flight → Flight
  | .none | .pending => .none
  | .lost => .lost

/-- After a trigger: its completion is pending; contents that are unspecified stay so until it is observed (R83). -/
def triggeredFlight : Flight → Flight
  | .none | .pending => .pending
  | .lost => .lost

/-- A completion observed: the words the trigger sent have left the host FIFO (R83, D15). -/
def Instance.complete (i : Instance) : Instance := { i with hfifo := i.queued, flight := settledFlight i.flight }

/-- Write `TRIGGER` (R34, R214): a non-zero value in immediate mode hands the queued words to the
packetiser. Model's choices where the spec is silent (log 46): `phase` stays `Triggered` after a host's own
write, a write of 0 starts nothing and leaves `phase`, and a write while an earlier trigger is in flight hands
the same words over again. Words handed over from unspecified contents join them (R83; log 9). -/
def Instance.writeTrigger (i : Instance) (v : Word) : Instance :=
  { i with
    regs := { i.regs with trigger := v }
    phase := if v = 0 then i.phase else .triggered
    hfifo := if v ≠ 0 ∧ i.flight = .lost then [] else i.hfifo
    flight := if v = 0 then i.flight else triggeredFlight i.flight
    sent := if v ≠ 0 ∧ i.regs.hostControl.triggerMode = .immediate then i.contents :: i.sent
      else i.sent }

/-- `Trigger()` (R214): the value written is 1 (D14). -/
def Instance.trigger (i : Instance) : Instance := i.writeTrigger 1

/-- `BtaRequest()` (R252). The bit reads 1 from then on until something writes `HOST_CONTROL` or a turn-around
of the engine has been waited for; a host's own request is made whatever `RD_FIFO_COUNT` is, and `phase` stays
`Triggered` after it (log 21, log 46, log 48). -/
def Instance.btaRequest (i : Instance) : Instance :=
  { i with
    regs := { i.regs with hostControl := { i.regs.hostControl with immBta := true }, btaActive := true }
    phase := .triggered
    btaSeen := true }

/-! ### Entering and leaving an operation -/

/-- `HostActive(HighSpeed)` or `HostActive(LowPower)` by `st.hs_mode` (R26). -/
def hostEngine (hs : Bool) : Engine := if hs then .hostActiveHighSpeed else .hostActiveLowPower

/-- Step (2) of R220 after the lock: `HostClkAcquire` (R217) and the outer engine state. DESIGN CHOICE (log 56): the
clock service's `ClockEnable`, and `ClockDisable` on the exit path, never fail, where R217 describes no failure. -/
def Instance.enterHost (i : Instance) : Instance :=
  { i.call .clockEnable with hostClkOn := true, engine := hostEngine i.hsMode }

/-- The host-control override (R94, R221). A saved `IMM_BTA = 1` is written back and requests no turn-around,
the model's choice (log 21). -/
def Instance.overrideHost (i : Instance) : Instance :=
  if i.hostActive then i
  else
    { i with
      snap := ⟨true, i.regs.hostControl, i.regs.control⟩
      regs := { i.regs with
        hostControl := { i.regs.hostControl with triggerMode := .immediate }
        control := { i.regs.control with videoEnable := false, hostEnable := true } } }

/-- Write the saved `CONTROL` and `HOST_CONTROL` back if they were overridden (R229). -/
def Instance.restoreHost (i : Instance) : Instance :=
  if i.snap.overrideActive then
    { i with
      regs := { i.regs with control := i.snap.savedControl, hostControl := i.snap.savedHostControl }
      snap := { i.snap with overrideActive := false } }
  else i

/-- THE EXIT PATH (R229, R372), the same on success and on every raised status: restore, release the
host clock gate, `engine <- Idle`, `phase <- None`. The lock is released by the operation that took it. -/
def Instance.exitPath (i : Instance) : Instance :=
  { i.restoreHost.call .clockDisable with hostClkOn := false, engine := .idle, phase := .none }

/-- TAKING A FATAL FAULT (R366): the record is set, the exit path closes the operation (R372), and every other
piece of the block's state becomes a free value (U4; log 10). -/
def Instance.raiseFatal (cause : FatalCause) (i : Instance) : Instance :=
  let u := Config.unknown i.id i.freeTick
  { i with
    fatal := some cause
    cfg := u.cfg
    curPhyFreq := u.curPhyFreq
    hsMode := u.hsMode
    hostActive := u.hostActive
    solDelay := u.solDelay
    gangedHalf := u.gangedHalf
    lifecycle := u.lifecycle
    te := u.te
    res := u.res
    padsCalibrated := u.padsCalibrated
    regs := u.regs
    hfifo := u.hfifo
    flight := u.flight
    rfifo := u.rfifo
    staging := u.staging
    readLen := u.readLen
    halfStage := u.halfStage
    hostClkOn := false
    engine := .idle
    phase := .none
    snap := { u.snap with overrideActive := false }
    freeTick := i.freeTick + 1 }

/-- The link after an unobserved completion: TRIGGER is a free value, and the host FIFO's contents are unspecified
from then on (R83, D15, U3): no word of them is known, and `Instance.unspecified` is drawn afresh at each use (log 9). -/
def Instance.wedge (i : Instance) : Instance :=
  { i with
    hfifo := []
    flight := .lost
    regs := { i.regs with trigger := Config.unknownTrigger i.id i.freeTick }
    freeTick := i.freeTick + 1 }

/-- After a turn-around has been waited for, whether `IMM_BTA` still reads 1 is a free value (log 21). -/
def Instance.settleImmBta (i : Instance) : Instance :=
  { i with
    regs := { i.regs with
      hostControl := { i.regs.hostControl with immBta := Config.unknownImmBta i.id i.freeTick } }
    freeTick := i.freeTick + 1 }

/-- `TeHandler` (R376), the edge interrupt: an unmasked edge signals the handle and masks itself, a
masked one is lost. -/
def Instance.teHandler (i : Instance) : Instance :=
  match i.te with
  | some t => if t.masked then i else { i with te := some ⟨true, true⟩ }
  | none => i

/-- Release what was acquired, in reverse order (R322, R336). -/
def Instance.teardown (i : Instance) : Instance :=
  let i1 := if i.res.edgeHandler then i.call .unregisterEdgeHandler else i
  let i2 := if i.te.isSome then i1.call .destroySemaphore else i1
  let i3 := if i.res.power then i2.call .unregisterPowerClock else i2
  let i4 := if i.res.aperture then i3.call .unmapAperture else i3
  if i.res.device then i4.call .closeDevice else i4

/-- The structure zeroed (R70, R322, R336): everything the driver keeps for the block, not the hardware. -/
def Instance.zeroStructure (p : Params) (i : Instance) : Instance :=
  { i with
    cfg := zeroDescriptor
    curPhyFreq := 0
    hsMode := false
    hostActive := false
    hostClkOn := false
    solDelay := 0
    gangedHalf := none
    lifecycle := .uninitialized
    lock := .free
    engine := .idle
    phase := .none
    snap := ⟨false, zeroHostControl p, zeroControl p⟩
    fatal := none
    te := none
    res := ⟨false, false, false, false⟩
    padsCalibrated := false }

/-! ### Results, checks, the lock -/

/-- An operation ends with a status and what it delivers (R360). Any operation between the two halves
of a ganged setup ends it (R96; log 26). -/
def State.finish (s : State) (n : InstId) (st : Status) (out : Output) : Out :=
  .next { s with result := some ⟨n, st, out⟩, gangedStep := .idle }

/-- Checks (1) and (2) of R370: the fatal record, then `initialized`; nothing is touched. -/
def State.guarded (s : State) (n : InstId) (k : Out) : Out :=
  if (s.inst n).fatal.isSome then s.finish n .fatalHardwareFault .none
  else if (s.inst n).initialized then k
  else s.finish n .notInitialized .none

/-- Replace the block and end with a status. -/
def State.finishWith (s : State) (n : InstId) (i : Instance) (st : Status) (out : Output) : Out :=
  (s.setInst n i).finish n st out

/-- Take the lock (R25). -/
def Instance.acquire (i : Instance) : Instance := { i with lock := .held }

/-- Release the lock (R25). -/
def Instance.release (i : Instance) : Instance := { i with lock := .free }

/-- Run `k` if the lock is free; else the operation makes no step (R25; log 4). An operation is one step, so one
that has no use for the lock inside it need not take it (R82; log 44). -/
def State.whenFree (s : State) (n : InstId) (k : Out) : Out :=
  match (s.inst n).lock with
  | .free => k
  | .held => .fault .blockedOnLock

/-- An operation of one block under its lock (R25): acquire, run, release on every exit, end. -/
def State.onLocked (s : State) (n : InstId) (f : Instance → Status × Output × Instance) : Out :=
  s.whenFree n
    (let r := f (s.inst n).acquire
     s.finishWith n r.2.2.release r.1 r.2.1)

/-- A TE edge arriving between two operations (R371, R376; log 32). -/
def State.teEdge (s : State) (n : InstId) : State := s.setInst n (s.inst n).teHandler

/-! ### Fetching from the port (R135) -/

/-- What a step finds on the port. -/
inductive Fetched where
  /-- nothing is presented: the machine waits -/
  | idle
  /-- a TE edge, and the port behind it -/
  | edge (n : InstId) (rest : List PortWord)
  /-- an instruction, and the port behind it -/
  | instr (i : Instr) (rest : List PortWord)
  /-- a presentation the decoder rejects -/
  | illegal (e : DecodeError)
deriving DecidableEq, Repr, Inhabited

/-- Fetch from the port. -/
def fetch (port : List PortWord) : Fetched :=
  match port with
  | [] => .idle
  | ⟨.teEdge n, _⟩ :: rest => .edge n rest
  | us =>
    match decode us with
    | .ok (i, rest) => .instr i rest
    | .error e => .illegal e

end Sys2Proof.Machine
end

