-- ==== Sys2Proof/Machine/Flags.lean ====
section
/-! DEFINITION. The status flags and what reads them (10_state.md R34, R35, R63): every read is an
answer of the environment (U2), the bounded poll over them (42_packet_framer_write.md R216), the
completion wait (R215), the TE wait (60_exceptions.md R377), and the status codes (R360). -/

namespace Sys2Proof.Machine

/-- `RegRead(TRIGGER)` (R34, R211): an environment draw; the register shows what was read, and a zero read is
the completion of a trigger in flight (R83). -/
def Instance.readTrigger (i : Instance) : Word × Instance :=
  let d := i.env.trigger.draw (Config.triggerAnswer i.id)
  let j := { i with env := { i.env with trigger := d.2 }, regs := { i.regs with trigger := d.1 } }
  (d.1, if d.1 = 0 then j.complete else j)

/-- `RegRead(STATUS).BTA_ACTIVE` (R35). -/
def Instance.readBtaActive (i : Instance) : Bool × Instance :=
  let d := i.env.bta.draw (Config.btaAnswer i.id)
  (d.1, { i with env := { i.env with bta := d.2 }, regs := { i.regs with btaActive := d.1 } })

/-- `RegRead(STATUS).ERROR_FLAG` (R35). -/
def Instance.readErrorFlag (i : Instance) : Bool × Instance :=
  let d := i.env.error.draw (Config.errorAnswer i.id)
  (d.1, { i with env := { i.env with error := d.2 }, regs := { i.regs with errorFlag := d.1 } })

/-- Words of the panel that have arrived by this read of the count: none before a bus turn-around has
been requested (R85; log 8). -/
def Instance.arrivals (i : Instance) : Instance :=
  if i.btaSeen then
    let d := i.env.panel.draw (Config.panelAnswer i.id)
    { i with env := { i.env with panel := d.2 }, rfifo := i.rfifo ++ d.1 }
  else i

/-- `RegRead(STATUS).RD_FIFO_COUNT` (R35, R85). -/
def Instance.readCount (i : Instance) : Nat × Instance := (i.arrivals.rfifo.length, i.arrivals)

/-- The predicate "TRIGGER reads zero" (R34). -/
def Instance.triggerIsZero (i : Instance) : Bool × Instance :=
  let r := i.readTrigger
  (r.1 == 0, r.2)

/-- The predicate "BTA_ACTIVE is clear" (R253). -/
def Instance.btaIsClear (i : Instance) : Bool × Instance :=
  let r := i.readBtaActive
  (!r.1, r.2)

/-- The predicate "the read FIFO is not empty" (R254). -/
def Instance.countIsNonZero (i : Instance) : Bool × Instance :=
  let r := i.readCount
  (r.1 != 0, r.2)

/-- `N = ceil(MAX / STEP)` (R216). -/
def pollCount (step max : Nat) : Nat := (max + step - 1) / step

/-- `Poll` (R216): at most `N` reads, the first true one ends it. -/
def poll (pred : Instance → Bool × Instance) : Nat → Instance → PollResult × Instance
  | 0, i => (.timedOut, i)
  | k + 1, i =>
    match pred i with
    | (true, i') => (.ready, i')
    | (false, i') => poll pred k i'

/-- The ready poll (R222). -/
def Instance.readyPoll (p : Params) (i : Instance) : PollResult × Instance :=
  poll Instance.triggerIsZero (pollCount p.cmdReadyStep p.cmdReadyMax) i

/-- The completion-counter wait, one draw (R215, R379). -/
def Instance.syncptWait (p : Params) (i : Instance) : PollResult × Instance :=
  let d := i.env.syncpt.draw (Config.syncptAnswer i.id)
  (if d.1 then .ready else .timedOut,
    ({ i with env := { i.env with syncpt := d.2 } }).call (.syncptWait p.triggerMax))

/-- `AwaitCompletion` (R215): on `Ready` the host FIFO is empty, on `TimedOut` the link is wedged. -/
def Instance.awaitCompletion (p : Params) (i : Instance) : PollResult × Instance :=
  let i0 := { i with phase := .awaitingCompletion }
  let r := if p.useSyncpt then i0.syncptWait p
    else poll Instance.triggerIsZero (pollCount p.triggerStep p.triggerMax) i0
  match r.1 with
  | .ready => (.ready, { r.2 with hfifo := [], flight := .none, phase := .success })
  | .timedOut => (.timedOut, { r.2.wedge with phase := .timedOut })

/-- `TeWait` (R377): discard, re-arm, wait; a signal is consumed, an expired wait masks again. -/
def Instance.teWait (p : Params) (i : Instance) : PollResult × Instance :=
  let armed := ({ i with te := some ⟨false, false⟩ }).call .gpioUnmask
  let waiting := armed.call (.timedWait p.teWaitTimeout)
  let d := waiting.env.te.draw (Config.teAnswer i.id)
  let asked := { waiting with env := { waiting.env with te := d.2 } }
  if d.1 then
    let signalled := asked.teHandler
    (.ready, { signalled with te := some ⟨false, true⟩ })
  else (.timedOut, ({ asked with te := some ⟨false, true⟩ }).call .gpioMask)

/-- The number of a status (R360). -/
def Status.code : Status → Nat
  | .success => 0
  | .notInitialized => 1
  | .hardwareBusyTimeout => 2
  | .triggerTimeout => 3
  | .btaTimeout => 4
  | .fifoNotEmptyAtStart => 5
  | .readFifoFull => 6
  | .btaProtocolError => 7
  | .readAckError => 8
  | .readInvalidResponse => 9
  | .fatalHardwareFault => 10
  | .initFailed => 11
  | .teWaitTimeout => 12

/-- The public Boolean of a status (R362). -/
def Status.ok (st : Status) : Bool := st == .success

/-- The code of a fatal cause (R366). -/
def FatalCause.code : FatalCause → Nat
  | .cmdModeNotReadyAfterModeSwitch => 1
  | .unknownDataFormat => 2
  | .clockEnableRetriesExhausted => 3

end Sys2Proof.Machine
end

