-- ==== Sys2Proof/Machine/Operands.lean ====
section
/-! DEFINITION. Operand forms: the words of a packet (42_packet_framer_write.md R223 to R226) and when they
are refused (R224), the registers a host names by index (10_state.md R30) and what a raw word written to
one denotes, the lengths a selector names (30_encoding.md R130). -/

namespace Sys2Proof.Machine

/-! ### Steps in sequence -/

/-- The next step of an operation, run only after a `Success`: the first failing step ends it (R370). -/
def andThen (r : Status × Instance) (k : Instance → Status × Instance) : Status × Instance :=
  match r.1 with
  | .success => k r.2
  | _ => r

/-! ### Packets -/

/-- The block's virtual channel as the two bits of a data identifier (R111). -/
def Instance.channel (i : Instance) : BitVec 2 := BitVec.ofNat 2 i.cfg.virtualChannel

/-- The end-of-transmission marker, in high-speed mode only and where `on` says it follows (R226). -/
def Instance.eotWords (p : Params) (i : Instance) (on : Bool) : List FifoWord :=
  if i.hsMode && on then [⟨.eot, p.eotWord⟩] else []

/-- The words of a short packet (R223): the first payload byte, or 0. -/
def Instance.shortWords (p : Params) (i : Instance) (d : PacketDesc) : List FifoWord :=
  ⟨.shortWord, shortPacketWord i.channel d.cmdType d.reg (d.payload.headD 0)⟩ ::
    i.eotWords p p.eotOnShort

/-- The payload words of a long packet (R115, R225): `reg_addr` first, then the caller's data. -/
def payloadWords (d : PacketDesc) : List FifoWord :=
  (packBytes (d.reg :: d.payload)).map (fun w => ⟨.payload, w⟩)

/-- The words of a long packet (R225): `WC = length + 1`. -/
def Instance.longWords (p : Params) (i : Instance) (d : PacketDesc) : List FifoWord :=
  ⟨.longHeader, longHeaderWord i.channel d.cmdType (BitVec.ofNat 16 (d.payload.length + 1))⟩ ::
    (payloadWords d ++ i.eotWords p true)

/-- The words of a packet (R223, R225, R226). -/
def Instance.packetWords (p : Params) (i : Instance) (d : PacketDesc) : List FifoWord :=
  if d.isLong then i.longWords p d else i.shortWords p d

/-- Refusal (c) of R224: a word count that does not fit, or more words than the host FIFO holds beside `queued`
others. -/
def Instance.packetRefusal (p : Params) (i : Instance) (queued : Nat) (d : PacketDesc) : Option Refusal :=
  if d.isLong ∧ 65535 < d.payload.length + 1 then some .wordCountOverflow
  else if p.hostFifoDepth < queued + (i.packetWords p d).length then some .packetTooLarge
  else none

/-- The refusal of a packet that joins what is queued: between two completions the host FIFO takes no more than
its depth (R84, R412; log 23). -/
def Instance.sendRefusal (p : Params) (i : Instance) (d : PacketDesc) : Option Refusal :=
  i.packetRefusal p i.queued.length d

/-- The packet of `NopWrite` (R235). -/
def nopPacket (p : Params) : PacketDesc := ⟨p.nopType, p.nopReg, [], false⟩

/-- The max-return-packet-size packet (R116, R260). -/
def Instance.maxretWords (p : Params) (i : Instance) (len : BitVec 16) : List FifoWord :=
  ⟨.shortWord, maxretWord i.channel p.maxretOpcode len⟩ :: i.eotWords p p.eotOnReadCtrl

/-- The read request (R117, R261). -/
def Instance.dcsreadWords (p : Params) (i : Instance) (reg : Byte) : List FifoWord :=
  ⟨.shortWord, dcsreadWord i.channel p.dcsreadOpcode reg⟩ :: i.eotWords p p.eotOnReadCtrl

/-- The refusal of a read one of whose two control packets the host FIFO cannot hold, the first with what is
queued (R84, R412; log 23). -/
def Instance.readRefusal (p : Params) (i : Instance) (reg : Byte) (len : BitVec 16) : Option Refusal :=
  if p.hostFifoDepth < i.queued.length + (i.maxretWords p len).length ∨
      p.hostFifoDepth < (i.dcsreadWords p reg).length then some .packetTooLarge
  else none

/-! ### Registers by index (R30) -/

/-- The registers of the aperture. -/
inductive RegName where
  | powerControl
  | control
  | hostControl
  | trigger
  | status
  | wrData
  | rdData
  | pktSeq (slot : Fin 6) (hi : Bool)
  | pktLen
  | phyTiming
  | btaTiming
  | timeout
  | solDelay
  | threshold
  | padControl
  | syncpt
deriving DecidableEq, Repr, Inhabited

/-- The `i`-th register of the list of R30: index `7 + 2 k` is `PKT_SEQ_k_LO`, `8 + 2 k` is
`PKT_SEQ_k_HI`. -/
def RegName.ofIndex (i : Nat) : Option RegName :=
  match i with
  | 0 => some .powerControl
  | 1 => some .control
  | 2 => some .hostControl
  | 3 => some .trigger
  | 4 => some .status
  | 5 => some .wrData
  | 6 => some .rdData
  | 7 => some (.pktSeq 0 false)
  | 8 => some (.pktSeq 0 true)
  | 9 => some (.pktSeq 1 false)
  | 10 => some (.pktSeq 1 true)
  | 11 => some (.pktSeq 2 false)
  | 12 => some (.pktSeq 2 true)
  | 13 => some (.pktSeq 3 false)
  | 14 => some (.pktSeq 3 true)
  | 15 => some (.pktSeq 4 false)
  | 16 => some (.pktSeq 4 true)
  | 17 => some (.pktSeq 5 false)
  | 18 => some (.pktSeq 5 true)
  | 19 => some .pktLen
  | 20 => some .phyTiming
  | 21 => some .btaTiming
  | 22 => some .timeout
  | 23 => some .solDelay
  | 24 => some .threshold
  | 25 => some .padControl
  | 26 => some .syncpt
  | _ => none

/-! ### What a raw word denotes (U8; log 13) -/

/-- A bit of a word (R8). -/
def bitOf (w : Word) (k : Nat) : Bool := field w k 1 = 1

/-- The other clock-lane behaviour (R32). -/
def otherHsClkCtrl : HsClkCtrl → HsClkCtrl
  | .txOnly => .continuous
  | .continuous => .txOnly

/-- The other trigger mode (R33). -/
def otherTriggerMode : TriggerMode → TriggerMode
  | .immediate => .other
  | .other => .immediate

/-- The fields of a word written to `CONTROL`. -/
def controlOfWord (l : FieldLayout) (w : Word) : ControlReg where
  videoEnable := bitOf w l.videoEnable
  hostEnable := bitOf w l.hostEnable
  hostFifoSel := BitVec.ofNat 32 (field w l.hostFifoSelLo l.hostFifoSelWidth)
  hsClkCtrl := if bitOf w l.hsClkCtrl then otherHsClkCtrl l.hsClkCtrlOfZero else l.hsClkCtrlOfZero

/-- The fields of a word written to `HOST_CONTROL`. -/
def hostControlOfWord (l : FieldLayout) (w : Word) : HostControlReg where
  triggerMode := if bitOf w l.triggerMode then otherTriggerMode l.triggerModeOfZero else l.triggerModeOfZero
  hsTransmit := bitOf w l.hsTransmit
  immBta := bitOf w l.immBta

/-- The half a word written to a `PKT_SEQ` register denotes: 0 is the all-zero half (R50). Another word may denote
any half, one in which a sync id carries a length selector among them, though no packet of R129 is such a one
(log 13). -/
def halfOfRaw (w : Word) : SlotHalf := if w = 0 then zeroHalf else Config.halfOfWord w

/-- The lengths a word written to `PKT_LEN` denotes: 0 is all lengths 0 (R54). -/
def pktLenOfRaw (w : Word) : PktLen := if w = 0 then zeroPktLen else Config.pktLenOfWord w

/-- Every PHY field at most its ceiling (R40). -/
def clampFields (m f : PhyFields) : PhyFields where
  thsExit := min f.thsExit m.thsExit
  thsTrail := min f.thsTrail m.thsTrail
  tdataZero := min f.tdataZero m.tdataZero
  thsPrepare := min f.thsPrepare m.thsPrepare
  tclkTrail := min f.tclkTrail m.tclkTrail
  tclkPost := min f.tclkPost m.tclkPost
  tclkZero := min f.tclkZero m.tclkZero
  tclkPre := min f.tclkPre m.tclkPre
  ttlpx := min f.ttlpx m.ttlpx

/-- Every field of the triad at most its ceiling (R41). -/
def clampTriad (m t : BtaTriad) : BtaTriad := ⟨min t.t0 m.t0, min t.t1 m.t1, min t.t2 m.t2⟩

/-- The fields a word written to `PHY_TIMING` denotes, within their ceilings (R40; log 29). -/
def phyOfRaw (p : Params) (w : Word) : PhyFields := clampFields p.fieldMax (Config.phyOfWord w)

/-- The fields a word written to `BTA_TIMING` denotes, within their ceilings (R41; log 29). -/
def triadOfRaw (p : Params) (w : Word) : BtaTriad := clampTriad p.btaFieldMax (Config.btaOfWord w)

/-! ### Length selectors (R130) -/

/-- The length a selector names among the fields of `PKT_LEN`: `L_NONE` names none, index 7 what the model's free value
says (log 38). R130 names both copies of the command length for `L_CMD`; they are equal wherever the engine writes them
(R164). DESIGN CHOICE (log 54): `LEN_CMD_A`, where a host's raw write of `PKT_LEN` left them different. -/
def Instance.selectedLength (i : Instance) (l : LenSel) : Option Nat :=
  match l with
  | .none => none
  | .hsync => some i.regs.pktLen.hsync
  | .hbp => some i.regs.pktLen.hbp
  | .hact => some i.regs.pktLen.hact
  | .hfp => some i.regs.pktLen.hfp
  | .cmd => some i.regs.pktLen.cmdA
  | .idx7 => some (Config.lenIdx7 i.id i.freeTick)

end Sys2Proof.Machine
end

