-- ==== Sys2Proof/Machine/Packet.lean ====
section
/-! DEFINITION. The packet framer (42_packet_framer_write.md): the ready wait, framing and triggering, the
`WriteCommand` every write goes through, and the meanings of the W32 rows, `TWRITE` and `NOPW`. -/

namespace Sys2Proof.Machine

/-- The ready poll of R222. -/
def Instance.waitReady (p : Params) (i : Instance) : Status × Instance :=
  match i.readyPoll p with
  | (.ready, i1) => (.success, i1)
  | (.timedOut, i1) => (.hardwareBusyTimeout, { i1 with phase := .timedOut })

/-- Push the words of one packet, trigger, await completion (R220 steps (5) and (6), R227). -/
def Instance.sendWords (p : Params) (ws : List FifoWord) (i : Instance) : Status × Instance :=
  match (({ i with phase := .framing }).pushWords ws).trigger.awaitCompletion p with
  | (.ready, i1) => (.success, i1)
  | (.timedOut, i1) => (.triggerTimeout, i1)

/-- `WriteCommand` under the lock (R220 steps (2) to (7)). -/
def Instance.writeCommand (p : Params) (d : PacketDesc) (i : Instance) : Status × Instance :=
  let r := andThen (i.enterHost.overrideHost.waitReady p)
    (fun j => j.sendWords p (j.packetWords p d))
  (r.1, r.2.exitPath)

/-- `WriteCommand` as an operation (R220, R224): checks, refusals, lock, body. -/
def writeOperation (s : State) (n : InstId) (d : PacketDesc) : Out :=
  s.guarded n
    (match (s.inst n).sendRefusal s.params d with
     | some r => .refused r
     | none =>
       s.onLocked n (fun i =>
         let r := i.writeCommand s.params d
         (r.1, .none, r.2)))

/-- A single push (R84, R212): refused while TRIGGER reads non-zero (R410; log 7) or the FIFO is full (R84). -/
def Instance.checkedPush (p : Params) (w : FifoWord) (i : Instance) : Except Refusal Instance :=
  match i.triggerIsZero with
  | (false, _) => .error .pushWhileBusy
  | (true, j) => if p.hostFifoDepth ≤ j.hfifo.length then .error .hostFifoFull else .ok (j.pushWord w)

/-- One word pushed with its kind (R84, R120; log 1). -/
def pushRow (s : State) (n : InstId) (w : FifoWord) : Out :=
  s.guarded n
    (s.whenFree n
      (match (s.inst n).checkedPush s.params w with
       | .error e => .refused e
       | .ok i => s.finishWith n i .success .none))

/-- `SHORT_PKT` (R112, R223). The channel is the one presented, whatever the block is configured for (log 1). -/
def execShortPkt (n : InstId) (vc : BitVec 2) (ct : BitVec 6) (reg data : Byte) (s : State) : Out :=
  pushRow s n ⟨.shortWord, shortPacketWord vc ct reg data⟩

/-- `LONG_HDR` (R114, R225). -/
def execLongHdr (n : InstId) (vc : BitVec 2) (ct : BitVec 6) (wc : BitVec 16) (s : State) : Out :=
  pushRow s n ⟨.longHeader, longHeaderWord vc ct wc⟩

/-- `LONG_PAYLOAD` (R115, R225). -/
def execLongPayload (n : InstId) (w : Word) (s : State) : Out := pushRow s n ⟨.payload, w⟩

/-- `MAXRET` (R116, R260): the word carries the parameter `MAXRET_OPCODE` (log 35). -/
def execMaxret (n : InstId) (vc : BitVec 2) (len : BitVec 16) (s : State) : Out :=
  pushRow s n ⟨.shortWord, maxretWord vc s.params.maxretOpcode len⟩

/-- `DCSREAD` (R117, R261): the word carries the parameter `DCSREAD_OPCODE` (log 35). -/
def execDcsread (n : InstId) (vc : BitVec 2) (reg : Byte) (s : State) : Out :=
  pushRow s n ⟨.shortWord, dcsreadWord vc s.params.dcsreadOpcode reg⟩

/-- `EOT` (R118, R226): `EOT_WORD` in high-speed mode; in low-power mode it is never pushed (R423). -/
def execEot (n : InstId) (s : State) : Out :=
  if (s.inst n).hsMode then pushRow s n ⟨.eot, s.params.eotWord⟩
  else s.guarded n (s.whenFree n (s.finish n .success .none))

/-- `TWRITE` (R220). -/
def execTwrite (n : InstId) (isLong : Bool) (ct : BitVec 6) (reg : Byte) (payload : List Byte)
    (s : State) : Out :=
  writeOperation s n ⟨ct, reg, payload, isLong⟩

/-- `NOPW` (R235). -/
def execNopw (n : InstId) (s : State) : Out := writeOperation s n (nopPacket s.params)

end Sys2Proof.Machine
end

