-- ==== Sys2Proof/Machine/Response.lean ====
section
/-! DEFINITION. The BTA sequence and what reads a response (43_bta_read.md): `BtaCheckError`,
`ReadCommand`, the classification of a response header, and the meanings of the RESP8 rows, `BTACHK` and
`TREAD`. -/

namespace Sys2Proof.Machine

/-! ### The BTA sequence -/

/-- Steps 4 and 5 (R254, R255): the brief poll, whose time-out is no error, the strict depth check, the
drain. -/
def Instance.collectResponse (p : Params) (i : Instance) : Status × List Word × Instance :=
  let i1 := (poll Instance.countIsNonZero (pollCount p.rdfifoStep p.rdfifoMax) i).2
  match i1.readCount with
  | (c, i2) =>
    if p.rdFifoDepth < c then (.readFifoFull, [], i2)
    else
      let d := i2.drain c
      (.success, d.1, { d.2 with phase := .success })

/-- `BtaSequence` (R257): the empty check (R251), the request (R252), the wait (R253), the response. -/
def Instance.btaSequence (p : Params) (i : Instance) : Status × List Word × Instance :=
  match i.readCount with
  | (0, i1) =>
    let asked := { i1.btaRequest with phase := .awaitingCompletion }
    match poll Instance.btaIsClear (pollCount p.btaStep p.btaMax) asked with
    | (.ready, i2) => i2.settleImmBta.collectResponse p
    | (.timedOut, i2) => (.btaTimeout, [], { i2.settleImmBta with phase := .timedOut })
  | (_ + 1, i1) => (.fifoNotEmptyAtStart, [], i1)

/-- The acceptable single-word responses after the 24-bit mask (R7 `BTA_OK_PATTERNS`). -/
def btaOkPatterns : List Nat := [0x000102, 0x004002]

/-- `ClassifyBta` (R256). -/
def classifyBta (words : List Word) : Status :=
  match words with
  | [] => .success
  | [w] => if btaOkPatterns.contains (field w 0 24) then .success else .btaProtocolError
  | _ :: _ :: _ => .btaProtocolError

/-- `BtaCheckError` without the lock and the host clock gate (R250). -/
def Instance.btaCheck (p : Params) (i : Instance) : Status × Instance :=
  match i.btaSequence p with
  | (.success, words, i1) => (classifyBta words, i1)
  | (st, _, i1) => (st, i1)

/-- `BtaCheckError` called from inside an operation whose own host access is over (R250, R302): in HostActive again
(R26, R380), under the caller's lock. DEDUCED (log 51): the clock gate stays shut, since R250 has it opened for one issued
on its own. -/
def Instance.nestedBtaCheck (p : Params) (i : Instance) : Status × Instance :=
  let r := ({ i with engine := hostEngine i.hsMode } : Instance).btaCheck p
  (r.1, { r.2 with engine := .idle, phase := .none })

/-- `BTACHK`: `BtaCheckError` issued on its own (R250). DEDUCED (log 50): it opens and shuts the host clock gate, as
R250 says, where R38 and R385 (b) name the gate for the three packet operations only and R372 the lock only. -/
def execBtachk (n : InstId) (s : State) : Out :=
  s.guarded n
    (s.onLocked n (fun i =>
      let r := i.enterHost.btaCheck s.params
      (r.1, .none, r.2.exitPath)))

/-! ### Response headers (R122 to R127) -/

/-- The five classes of a reply (R122). -/
inductive RespClass where
  | long
  | short1
  | short2
  | ackError
  | invalid
deriving DecidableEq, Repr, Inhabited

/-- The class of a header byte, by exact match of all 8 bits (R122). -/
def classifyHeader (b : Byte) : RespClass :=
  if b = 0x1A then .long
  else if b = 0x1C then .long
  else if b = 0x02 then .ackError
  else if b = 0x11 then .short1
  else if b = 0x21 then .short1
  else if b = 0x12 then .short2
  else if b = 0x22 then .short2
  else .invalid

/-- The class of a response: an empty one is `Invalid` (R127). -/
def classifyResponse (b : List Byte) : RespClass :=
  match b with
  | [] => .invalid
  | h :: _ => classifyHeader h

/-- The header skip of a class (R123 to R127). -/
def RespClass.skip : RespClass → Nat
  | .long => 4
  | .short1 | .short2 | .ackError => 1
  | .invalid => 0

/-- The payload length of a class in a response (R123 to R127): a long response carries it in bytes 1
and 2, little-endian; an invalid one is whatever is there. -/
def RespClass.payloadLength (c : RespClass) (b : List Byte) : Nat :=
  match c with
  | .long => (b.getD 1 0).toNat + 256 * (b.getD 2 0).toNat
  | .short1 => 1
  | .short2 => 2
  | .ackError => 2
  | .invalid => b.length

/-- The status of a class (R123 to R127, R265). -/
def RespClass.status : RespClass → Status
  | .long | .short1 | .short2 => .success
  | .ackError => .readAckError
  | .invalid => .readInvalidResponse

/-- `n` of R262: the payload length clamped to what was asked and to what arrived. -/
def RespClass.copyCount (c : RespClass) (b : List Byte) (len : Nat) : Nat :=
  min (c.payloadLength b) (min len (b.length - c.skip))

/-- The bytes copied (R262): `b[skip .. skip + n)`. -/
def RespClass.copied (c : RespClass) (b : List Byte) (len : Nat) : List Byte :=
  (b.drop c.skip).take (c.copyCount b len)

/-- `MemWrite(out_buffer, n, ..)` of R262, at the address the block's register names (log 16). -/
def State.copyOut (s : State) (n : InstId) (bytes : List Byte) : State :=
  { s with mem := Memory.writeBytes s.mem (s.inst n).outBuf bytes }

/-- A header row applied to the staged response (R262, R263; log 34). -/
def respRow (s : State) (n : InstId) (c : RespClass) : Out :=
  s.guarded n
    (s.whenFree n
      (let bytes := c.copied (s.inst n).staging (s.inst n).readLen
       (s.copyOut n bytes).finish n c.status (.bytes bytes.length)))

/-- `RESP_LONG_1A` (R123). -/
def execRespLong1A (n : InstId) (s : State) : Out := respRow s n .long

/-- `RESP_LONG_1C` (R123). -/
def execRespLong1C (n : InstId) (s : State) : Out := respRow s n .long

/-- `RESP_ACKERR` (R124). -/
def execRespAckerr (n : InstId) (s : State) : Out := respRow s n .ackError

/-- `RESP_SHORT1_11` (R125). -/
def execRespShort1x11 (n : InstId) (s : State) : Out := respRow s n .short1

/-- `RESP_SHORT1_21` (R125). -/
def execRespShort1x21 (n : InstId) (s : State) : Out := respRow s n .short1

/-- `RESP_SHORT2_12` (R126). -/
def execRespShort2x12 (n : InstId) (s : State) : Out := respRow s n .short2

/-- `RESP_SHORT2_22` (R126). -/
def execRespShort2x22 (n : InstId) (s : State) : Out := respRow s n .short2

/-- `RESP_INVALID` (R127): the header byte is part of what is copied, so it is not read apart. -/
def execRespInvalid (n : InstId) (_b : Byte) (s : State) : Out := respRow s n .invalid

/-! ### ReadCommand -/

/-- The response bytes staged for classification, with the length the caller asked for (R87, R262). -/
def Instance.stage (len : Nat) (words : List Word) (i : Instance) : Instance :=
  { i with staging := unpackWords words, readLen := len }

/-- The second packet's ready poll in a read, where the block makes one: R360, R370, R410 and R418 name it, R261 says
that it is not made, and no ruling settles it, so both are modelled (log 22). -/
def Instance.waitReadyAgain (p : Params) (i : Instance) : Status × Instance :=
  if p.readyPollTwice then i.waitReady p else (.success, i)

/-- The two control packets of a read (R260, R261), each with its own trigger and completion. -/
def Instance.requestRead (p : Params) (reg : Byte) (len : BitVec 16) (i : Instance) :
    Status × Instance :=
  andThen (i.waitReady p) (fun j =>
    andThen (j.sendWords p (j.maxretWords p len)) (fun k =>
      andThen (k.waitReadyAgain p) (fun l => l.sendWords p (l.dcsreadWords p reg))))

/-- `ReadCommand` under the lock up to the staged response (R258 steps (2) to (6)); the exit path is the
caller's. -/
def Instance.readSteps (p : Params) (reg : Byte) (len : BitVec 16) (i : Instance) :
    Status × Instance :=
  andThen (i.requestRead p reg len) (fun j =>
    match j.btaSequence p with
    | (.success, words, k) => (.success, k.stage len.toNat words)
    | (st, _, k) => (st, k))

/-- `ReadCommand` under the lock (R258): the status, the bytes to copy when a response was classified,
and the block after the exit path. -/
def Instance.readCommand (p : Params) (reg : Byte) (len : BitVec 16) (i : Instance) :
    Status × Option (List Byte) × Instance :=
  let r := i.enterHost.overrideHost.readSteps p reg len
  match r.1 with
  | .success =>
    let c := classifyResponse r.2.staging
    (c.status, some (c.copied r.2.staging len.toNat), r.2.exitPath)
  | st => (st, none, r.2.exitPath)

/-- Copy the bytes of a classified response, if there is one (R262). -/
def State.copyOut? (s : State) (n : InstId) (bytes : Option (List Byte)) : State :=
  match bytes with
  | some b => s.copyOut n b
  | none => s

/-- What a read delivers beside its status (R361). -/
def readOutput : Option (List Byte) → Output
  | some b => .bytes b.length
  | none => .none

/-- `TREAD` (R258); `is_long` has no effect (U27). -/
def execTread (n : InstId) (_isLong : Bool) (reg : Byte) (len : BitVec 16) (s : State) : Out :=
  s.guarded n
    (match (s.inst n).readRefusal s.params reg len with
     | some r => .refused r
     | none =>
       s.whenFree n
         (let r := (s.inst n).acquire.readCommand s.params reg len
          ((s.setInst n r.2.2.release).copyOut? n r.2.1).finish n r.1 (readOutput r.2.1)))

end Sys2Proof.Machine
end

