-- ==== Sys2Proof/Machine/Sequence.lean ====
section
/-! DEFINITION. The packet sequencer (41_packet_sequencer.md): the program of each video mode, the meanings
of the sub-packet ids, the length selectors and the slot half (30_encoding.md R128 to R132), and
`SEQPROG`. -/

namespace Sys2Proof.Machine

/-! ### The program (R182 to R197) -/

/-- `ACT` (R183); an unknown format selects none (R182). -/
def activeId : DataFormat → Option PacketId
  | .bpp16 => some .hActiveLength16Bpp
  | .bpp18Packed => some .hActiveLength18Bpp
  | .bpp18NonPacked => some .hActiveLength18BppNp
  | .bpp24 => some .hActiveLength24Bpp
  | .unknown => none

/-- A sync short packet (R129). -/
def syncPkt (id : PacketId) : SubPacket := ⟨id, .none⟩

/-- A blanking packet with a length selector. -/
def blank (l : LenSel) : SubPacket := ⟨.blanking, l⟩

/-- A slot whose one packet is in the `lo` half (R186). -/
def single (id : PacketId) (lp : Bool) : Slot := ⟨⟨[syncPkt id], lp⟩, zeroHalf⟩

/-- The zero slot. -/
def zeroSlot : Slot := ⟨zeroHalf, zeroHalf⟩

/-- The active line of the modes without sync end: hsync start, back porch, active data (R185, R191). -/
def activeLine (act : PacketId) (lp : Bool) : SlotHalf :=
  ⟨[syncPkt .hsyncStart, blank .hbp, ⟨act, .hact⟩], lp⟩

/-- Slots 0 to 4 of a mode over what slot 5 holds (R184 to R192, table R197). -/
def modeProgram (p : Params) (m : VideoMode) (act : PacketId) (s5 : Slot) : SlotFile :=
  match m with
  | .dcDrivenCommand =>
    ⟨zeroSlot, zeroSlot, zeroSlot,
      ⟨⟨[⟨.longWrite, .cmd⟩, blank .idx7], false⟩, zeroHalf⟩, zeroSlot, s5⟩
  | .ganged =>
    ⟨single .vsyncStart false, ⟨activeLine act p.gangedActiveForceLp, zeroHalf⟩,
      single .hsyncStart true, ⟨activeLine act p.gangedActiveForceLp, zeroHalf⟩,
      single .hsyncStart true, s5⟩
  | .nonBurstSyncEnd =>
    ⟨single .vsyncStart true, single .vsyncEnd true, single .hsyncStart true,
      ⟨⟨[syncPkt .hsyncStart, blank .hsync], true⟩,
        ⟨[syncPkt .hsyncEnd, blank .hbp, ⟨act, .hact⟩, blank .hfp], true⟩⟩,
      single .hsyncStart true, s5⟩
  | .nonBurst =>
    ⟨single .vsyncStart true, single .hsyncStart true, single .hsyncStart true,
      ⟨activeLine act true, ⟨[blank .hfp], true⟩⟩, single .hsyncStart true, s5⟩
  | .burst =>
    ⟨single .vsyncStart true, single .hsyncStart true, single .hsyncStart true,
      ⟨activeLine act false, ⟨[blank .hfp], false⟩⟩, single .hsyncStart false, s5⟩

/-- Slot 5 mirrors what slot 3 reads back as (R194). -/
def mirrorSlot (f : SlotFile) : SlotFile := { f with s5 := f.s3 }

/-- Write the slot file. -/
def Instance.setSlots (i : Instance) (f : SlotFile) : Instance :=
  { i with regs := { i.regs with slots := f } }

/-- `ProgramSequence` (R182): an unknown format is fatal and writes no slot (R195). -/
def Instance.programSequence (p : Params) (i : Instance) : Status × Instance :=
  match activeId i.cfg.dataFormat with
  | none => (.fatalHardwareFault, i.raiseFatal .unknownDataFormat)
  | some act =>
    (.success, i.setSlots (mirrorSlot (modeProgram p i.cfg.videoMode act i.regs.slots.s5)))

/-- `SEQPROG` (R182): refused while the interface is enabled (R98, R414). -/
def execSeqprog (n : InstId) (s : State) : Out :=
  s.guarded n
    (s.whenFree n
      (if (s.inst n).regs.ifEnable then .refused .liveProgramWrite
       else
         let r := (s.inst n).programSequence s.params
         s.finishWith n r.2 r.1 .none))

/-! ### Building a half by hand (R128 to R132; log 33) -/

/-- `PKT_ID(name)` (R131). -/
def packetIdCode (c : PacketIdCodes) : PacketId → BitVec 6
  | .vsyncStart => c.vsyncStart
  | .vsyncEnd => c.vsyncEnd
  | .hsyncStart => c.hsyncStart
  | .hsyncEnd => c.hsyncEnd
  | .blanking => c.blanking
  | .longWrite => c.longWrite
  | .hActiveLength16Bpp => c.hActiveLength16Bpp
  | .hActiveLength18Bpp => c.hActiveLength18Bpp
  | .hActiveLength18BppNp => c.hActiveLength18BppNp
  | .hActiveLength24Bpp => c.hActiveLength24Bpp

/-- Is it a sync short packet, which carries `L_NONE` (R129)? -/
def isSync : PacketId → Bool
  | .vsyncStart | .vsyncEnd | .hsyncStart | .hsyncEnd => true
  | .blanking | .longWrite | .hActiveLength16Bpp | .hActiveLength18Bpp | .hActiveLength18BppNp
  | .hActiveLength24Bpp => false

/-- A sub-packet id appended to the half under construction, with no length yet. -/
def stageId (s : State) (n : InstId) (id : PacketId) : Out :=
  s.guarded n
    (s.whenFree n
      (s.finishWith n { s.inst n with halfStage := (s.inst n).halfStage ++ [⟨id, .none⟩] } .success
        (.packetId (packetIdCode s.params.pktId id))))

/-- A selector given to the last sub-packet staged; a sync packet keeps `L_NONE` (R129). -/
def selectLast (l : LenSel) : List SubPacket → List SubPacket
  | [] => []
  | [k] => [if isSync k.id then k else { k with lenSel := l }]
  | k :: r => k :: selectLast l r

/-- A length selector applied to the half under construction, and the length it names (R130). -/
def stageLen (s : State) (n : InstId) (l : LenSel) : Out :=
  s.guarded n
    (s.whenFree n
      (s.finishWith n { s.inst n with halfStage := selectLast l (s.inst n).halfStage } .success
        (.length ((s.inst n).selectedLength l))))

/-- `PKT_VsyncStart` (R129). -/
def execPktVsyncStart (n : InstId) (s : State) : Out := stageId s n .vsyncStart

/-- `PKT_VsyncEnd` (R129). -/
def execPktVsyncEnd (n : InstId) (s : State) : Out := stageId s n .vsyncEnd

/-- `PKT_HsyncStart` (R129). -/
def execPktHsyncStart (n : InstId) (s : State) : Out := stageId s n .hsyncStart

/-- `PKT_HsyncEnd` (R129). -/
def execPktHsyncEnd (n : InstId) (s : State) : Out := stageId s n .hsyncEnd

/-- `PKT_Blanking` (R129). -/
def execPktBlanking (n : InstId) (s : State) : Out := stageId s n .blanking

/-- `PKT_LongWrite` (R129). -/
def execPktLongWrite (n : InstId) (s : State) : Out := stageId s n .longWrite

/-- `PKT_HActiveLength16Bpp` (R129, R183). -/
def execPktHActive16 (n : InstId) (s : State) : Out := stageId s n .hActiveLength16Bpp

/-- `PKT_HActiveLength18Bpp` (R129, R183). -/
def execPktHActive18 (n : InstId) (s : State) : Out := stageId s n .hActiveLength18Bpp

/-- `PKT_HActiveLength18BppNp` (R129, R183). -/
def execPktHActive18Np (n : InstId) (s : State) : Out := stageId s n .hActiveLength18BppNp

/-- `PKT_HActiveLength24Bpp` (R129, R183). -/
def execPktHActive24 (n : InstId) (s : State) : Out := stageId s n .hActiveLength24Bpp

/-- `L_NONE` (R130). -/
def execLenNone (n : InstId) (s : State) : Out := stageLen s n .none

/-- `L_HSYNC` (R130). -/
def execLenHsync (n : InstId) (s : State) : Out := stageLen s n .hsync

/-- `L_HBP` (R130). -/
def execLenHbp (n : InstId) (s : State) : Out := stageLen s n .hbp

/-- `L_HACT` (R130). -/
def execLenHact (n : InstId) (s : State) : Out := stageLen s n .hact

/-- `L_HFP` (R130). -/
def execLenHfp (n : InstId) (s : State) : Out := stageLen s n .hfp

/-- `L_CMD` (R130). -/
def execLenCmd (n : InstId) (s : State) : Out := stageLen s n .cmd

/-- `L_IDX7` (R130): the length it names is a free value, fresh at each use (log 38). -/
def execLenIdx7 (n : InstId) (s : State) : Out :=
  s.guarded n
    (s.whenFree n
      (s.finishWith n
        ({ s.inst n with halfStage := selectLast .idx7 (s.inst n).halfStage }).useTick .success
        (.length ((s.inst n).selectedLength .idx7))))

/-- `SLOT_HALF` (R128, R132): the half under construction written to `PKT_SEQ_k_LO` or `_HI`; the list has
no bound (R128 forbids assuming a smaller capacity than stated). -/
def execSlotHalf (n : InstId) (slot : Fin 6) (hi forceLp : Bool) (s : State) : Out :=
  s.guarded n
    (s.whenFree n
      (if (s.inst n).regs.ifEnable then .refused .liveProgramWrite
       else
         s.finishWith n
           { (s.inst n).setHalf slot hi ⟨(s.inst n).halfStage, forceLp⟩ with halfStage := [] }
           .success .none))

end Sys2Proof.Machine
end

