-- ==== Sys2Proof/Machine/Timing.lean ====
section
/-! DEFINITION. The timing calculator (40_timing_calculator.md): PHY timing, SOL delay and packet lengths as
pure functions of the configuration, and the meanings of `PHYT`, `SOLD` and `PLEN`. -/

namespace Sys2Proof.Machine

/-! ### Common definitions -/

/-- `Bpp` in quarters of a byte: 2, 9/4, 3, 3 (R151). -/
def bppQuarters : DataFormat → Option Nat
  | .bpp16 => some 8
  | .bpp18Packed => some 9
  | .bpp18NonPacked => some 12
  | .bpp24 => some 12
  | .unknown => none

/-- `B(w) = floor(w x Bpp)` (R165, R166). -/
def byteCount (q w : Nat) : Nat := w * q / 4

/-- The panel timing in force: in ganged mode this block's half replaces `h_active` (R326 step (2)). -/
def Instance.activeTiming (i : Instance) : PanelTiming :=
  { i.cfg.timing with hActive := i.gangedHalf.getD i.cfg.timing.hActive }

/-! ### ComputePhyTiming (R152 to R156) -/

/-- `ceil(NS_SPEC / T_byte)` with `T_byte = 4 x 10^9 / f` ns (R153, R154). -/
def ceilPeriods (ns : NsReq) (fHz : Nat) : Nat :=
  (ns.num * fHz + ((ns.den + 1) * 4000000000 - 1)) / ((ns.den + 1) * 4000000000)

/-- A derived field, saturated at its ceiling (R154). -/
def derivedField (m fHz : Nat) (f : PhyField) : Nat := min (ceilPeriods (Config.nsSpec f fHz) fHz) m

/-- The nine derived fields (R154): `THS_PREPARE` is at least 1. -/
def derivedFields (p : Params) (fHz : Nat) : PhyFields where
  thsExit := derivedField p.fieldMax.thsExit fHz .thsExit
  thsTrail := derivedField p.fieldMax.thsTrail fHz .thsTrail
  tdataZero := derivedField p.fieldMax.tdataZero fHz .tdataZero
  thsPrepare := max (derivedField p.fieldMax.thsPrepare fHz .thsPrepare) 1
  tclkTrail := derivedField p.fieldMax.tclkTrail fHz .tclkTrail
  tclkPost := derivedField p.fieldMax.tclkPost fHz .tclkPost
  tclkZero := derivedField p.fieldMax.tclkZero fHz .tclkZero
  tclkPre := derivedField p.fieldMax.tclkPre fHz .tclkPre
  ttlpx := derivedField p.fieldMax.ttlpx fHz .ttlpx

/-- The BTA triad of `TTLPX` (R155): five, two and four times it, each saturated. -/
def triadOf (m : BtaTriad) (ttlpx : Nat) : BtaTriad :=
  ⟨min (5 * ttlpx) m.t0, min (2 * ttlpx) m.t1, min (4 * ttlpx) m.t2⟩

/-- `frame_pixels`: the whole raster (R156). -/
def framePixels (t : PanelTiming) : Nat :=
  (t.hActive + t.hFrontPorch + t.hSyncWidth + t.hBackPorch) *
    (t.vActive + t.vFrontPorch + t.vSyncWidth + t.vBackPorch)

/-- The timeout, the one value masked and not saturated (R156, C4). -/
def timeoutValue (margin q lanes : Nat) (t : PanelTiming) : BitVec 16 :=
  BitVec.ofNat 16 (framePixels t * q / (4 * lanes) + margin)

/-- `Derive(freq)` (R153 to R156), `freq` in kHz. -/
def derivePhy (p : Params) (q lanes : Nat) (t : PanelTiming) (khz : Nat) : PhyTimingSet :=
  let fields := derivedFields p (1000 * khz)
  ⟨fields, triadOf p.btaFieldMax fields.ttlpx, timeoutValue p.timeoutMargin q lanes t⟩

/-- `ComputePhyTiming(freq, phy_overrides)` (R152): overrides verbatim, else derived; an unknown format
gives none (R367). -/
def Instance.computePhy (p : Params) (i : Instance) (khz : Nat) : Option PhyTimingSet :=
  match i.cfg.phyOverrides with
  | some t => some t
  | none =>
    match bppQuarters i.cfg.dataFormat with
    | some q => some (derivePhy p q i.cfg.nLanes i.activeTiming khz)
    | none => none

/-- Every field of `f` within `m`. -/
def fieldsFit (m f : PhyFields) : Bool := clampFields m f = f

/-- Every field of `t` within `m`. -/
def triadFits (m t : BtaTriad) : Bool := clampTriad m t = t

/-- The override set, if any, is within the field ceilings; else it is refused (R152). -/
def overridesFit (p : Params) (d : PanelDescriptor) : Bool :=
  match d.phyOverrides with
  | some t => fieldsFit p.fieldMax t.fields && triadFits p.btaFieldMax t.triad
  | none => true

/-- Compute the PHY timing of `cur_phy_freq` and write it (R420). -/
def Instance.applyPhy (p : Params) (i : Instance) : Status × Instance :=
  match i.computePhy p i.curPhyFreq with
  | some t => (.success, i.programPhy t)
  | none => (.fatalHardwareFault, i.raiseFatal .unknownDataFormat)

/-- `cur_phy_freq` is what the clock service answers, and PHY timing follows it (R294, R420). -/
def Instance.setFrequency (p : Params) (khz : Nat) (i : Instance) : Status × Instance :=
  let c := i.clockConfigure p khz
  ({ c.2 with curPhyFreq := c.1 }).applyPhy p

/-! ### ComputeSolDelay (R158 to R161) -/

/-- The least of `f 1 .. f n`, `f 1` where `n` is 0: a sequence that does not rise with `n`. -/
def runningMin (f : Nat → Nat) : Nat → Nat
  | 0 => f 1
  | k + 1 => min (runningMin f k) (f (k + 1))

/-- `SOL_DELAY_CAP` (R7). -/
def solDelayCap : Nat := 1920

/-- The uncapped burst delay: it does not rise with the lane count (R160 (iii); log 27). -/
def solBurstUncapped (d : PanelDescriptor) (t : PanelTiming) : Nat :=
  runningMin (Config.solBurstRaw d.dataFormat t d.refreshRate d.phyFreqTarget) d.nLanes

/-- `SolDelayBurst` (R160): capped, and the clock raised when the cap is hit. -/
def solBurst (d : PanelDescriptor) (t : PanelTiming) : Nat × Nat :=
  let u := solBurstUncapped d t
  (min u solDelayCap,
    if solDelayCap < u then
      d.phyFreqTarget + Config.solBurstRaise d.dataFormat t d.refreshRate d.phyFreqTarget d.nLanes
    else d.phyFreqTarget)

/-- `floor(8 x Bpp / n_lanes)` (R159). -/
def solNonBurst (q lanes : Nat) : Nat := 8 * q / (4 * lanes)

/-- `ComputeSolDelay` (R158): the delay and the PHY frequency to program; none on an unknown format. The value of
DC-driven command mode is taken from the burst function and is UNVALIDATED (R158, D27; log 27). -/
def Instance.computeSol (i : Instance) : Option (Nat × Nat) :=
  match bppQuarters i.cfg.dataFormat with
  | none => none
  | some q =>
    match i.cfg.videoMode with
    | .nonBurst | .nonBurstSyncEnd => some (solNonBurst q i.cfg.nLanes, i.cfg.phyFreqTarget)
    | .burst | .dcDrivenCommand => some (solBurst i.cfg i.activeTiming)
    | .ganged =>
      some (Config.solGanged i.cfg.dataFormat i.cfg.nLanes i.activeTiming, i.cfg.phyFreqTarget)

/-! ### ComputePacketLengths (R163 to R166) -/

/-- Protocol overhead of the hsync segment (R7). -/
def ovhHsync : Nat := 10

/-- Protocol overhead of the front-porch segment (R7). -/
def ovhHfp : Nat := 8

/-- Protocol overhead of the back-porch segment (R7). -/
def ovhHbp : Nat := 14

/-- The lengths of DC-driven command mode (R164): two copies. -/
def commandLengths (q : Nat) (t : PanelTiming) : PktLen :=
  let n := byteCount q t.hActive + 1
  ⟨0, 0, 0, 0, n, n⟩

/-- The lengths of every other mode (R165); a subtraction saturates at 0 (R166). -/
def videoLengths (m : VideoMode) (q : Nat) (t : PanelTiming) : PktLen :=
  let sync := if m = .nonBurstSyncEnd then 0 else t.hSyncWidth
  ⟨byteCount q t.hSyncWidth - ovhHsync, byteCount q (t.hBackPorch + sync) - ovhHbp,
    byteCount q t.hActive, byteCount q t.hFrontPorch - ovhHfp, 0, 0⟩

/-- `ComputePacketLengths` (R163); none on an unknown format. -/
def Instance.computeLengths (i : Instance) : Option PktLen :=
  match bppQuarters i.cfg.dataFormat with
  | none => none
  | some q =>
    match i.cfg.videoMode with
    | .dcDrivenCommand => some (commandLengths q i.activeTiming)
    | m => some (videoLengths m q i.activeTiming)

/-! ### The operations -/

/-- A fatal fault that ends an operation issued by the host (R366). -/
def finishFatal (s : State) (n : InstId) (cause : FatalCause) : Out :=
  s.finishWith n ((s.inst n).raiseFatal cause) .fatalHardwareFault .none

/-- `PHYT` (R152): pure; an override above a ceiling is refused, and frequency 0 where no override stands in for
it: with overrides the frequency is not looked at (V-PHY-10; log 47). -/
def execPhyt (n : InstId) (freq : Word) (s : State) : Out :=
  s.guarded n
    (s.whenFree n
      (if !overridesFit s.params (s.inst n).cfg then .refused .overrideTooLarge
       else if freq = 0 ∧ (s.inst n).cfg.phyOverrides = none then .refused .zeroFrequency
       else
         match (s.inst n).computePhy s.params freq.toNat with
         | some t => s.finish n .success (.phySet t)
         | none => finishFatal s n .unknownDataFormat))

/-- `SOLD` (R158): pure. -/
def execSold (n : InstId) (s : State) : Out :=
  s.guarded n
    (s.whenFree n
      (match (s.inst n).computeSol with
       | some r => s.finish n .success (.sol r.1 r.2)
       | none => finishFatal s n .unknownDataFormat))

/-- `PLEN` (R163): pure. -/
def execPlen (n : InstId) (s : State) : Out :=
  s.guarded n
    (s.whenFree n
      (match (s.inst n).computeLengths with
       | some l => s.finish n .success (.lens l)
       | none => finishFatal s n .unknownDataFormat))

end Sys2Proof.Machine
end

