-- ==== Sys2Proof/Machine/ClockLane.lean ====
section
/-! DEFINITION. The clock-lane mode-switch controller and the enable-time programming
(44_clock_lane_mode.md): `SetHighSpeedMode`, `TurnOnDsiClock`, `EnableVideoTransmission`, and the meanings of
`SETHS`, `CLKON` and `ENVIDEO`. -/

namespace Sys2Proof.Machine

/-! ### SetHighSpeedMode (R292 to R294) -/

/-- The command-mode clock target of a mode (R292). -/
def commandClock (d : PanelDescriptor) (enable : Bool) : Nat :=
  if enable then d.hsCmdClkKhz else d.lpCmdClkKhz

/-- `HOST_CONTROL.HS_TRANSMIT` and `st.hs_mode` flipped together (R290); an `IMM_BTA = 1` written back with it
requests no turn-around (log 21). -/
def Instance.setMode (enable : Bool) (i : Instance) : Instance :=
  { i.setHostControl { i.regs.hostControl with hsTransmit := enable } with hsMode := enable }

/-- The final check of a mode switch (R292, R293): a link not ready is a fatal fault. -/
def Instance.checkSwitched (p : Params) (i : Instance) : Status × Instance :=
  match i.readyPoll p with
  | (.ready, j) => (.success, j)
  | (.timedOut, j) => (.fatalHardwareFault, j.raiseFatal .cmdModeNotReadyAfterModeSwitch)

/-- `SetHighSpeedMode` (R292); nothing is touched if the mode is the one asked (R294 (a)). -/
def Instance.setHighSpeed (p : Params) (enable : Bool) (i : Instance) : Status × Instance :=
  if i.hsMode = enable then (.success, i)
  else
    andThen (i.setFrequency p (commandClock i.cfg enable))
      (fun j => (j.setMode enable).checkSwitched p)

/-- `SETHS` issued on its own (R292): the lock; an override above a ceiling is refused when it would be
written (R152). -/
def execSeths (n : InstId) (enable : Bool) (s : State) : Out :=
  s.guarded n
    (if (s.inst n).hsMode ≠ enable ∧ !overridesFit s.params (s.inst n).cfg then
       .refused .overrideTooLarge
     else
       s.onLocked n (fun i =>
         let r := i.setHighSpeed s.params enable
         (r.1, .none, r.2)))

/-! ### TurnOnDsiClock (R305) -/

/-- `TURN_ON_CLOCK_RETRIES` (R7). -/
def turnOnClockRetries : Nat := 5

/-- Attempts `k`, `k + 1`, .. while some are left; the first success ends it. -/
def Instance.clockAttempts : Nat → Nat → Instance → Status × Instance
  | 0, _, i => (.fatalHardwareFault, i.raiseFatal .clockEnableRetriesExhausted)
  | left + 1, k, i =>
    let d := i.env.attempt.draw (Config.attemptAnswer i.id)
    let j := ({ i with env := { i.env with attempt := d.2 } }).call (.turnOnClockAttempt k)
    if d.1 then (.success, j) else Instance.clockAttempts left (k + 1) j

/-- `TurnOnDsiClock` (R305). -/
def Instance.turnOnClock (i : Instance) : Status × Instance :=
  Instance.clockAttempts turnOnClockRetries 1 i

/-- `CLKON` (R305). -/
def execClkon (n : InstId) (s : State) : Out :=
  s.guarded n
    (s.whenFree n
      (let r := (s.inst n).turnOnClock
       s.finishWith n r.2 r.1 .none))

/-! ### EnableVideoTransmission (R295 to R303) -/

/-- Write `CONTROL.HS_CLK_CTRL`. -/
def Instance.setHsClkCtrl (c : HsClkCtrl) (i : Instance) : Instance :=
  i.setControl { i.regs.control with hsClkCtrl := c }

/-- The first half of R296: disable, host-FIFO-select, command-mode clock. -/
def Instance.disableInterface (p : Params) (i : Instance) : Instance :=
  let j := i.setIfEnable false
  ((j.setControl { j.regs.control with hostFifoSel := p.hostFifoSel }).clockConfigure p
    i.curPhyFreq).2

/-- Write `PKT_LEN` and `SOL_DELAY` (R298). -/
def Instance.setLengths (l : PktLen) (i : Instance) : Instance :=
  { i with regs := { i.regs with pktLen := l, solDelay := i.solDelay } }

/-- R298, between the disable and the re-enable: program, lengths, SOL delay. -/
def Instance.programVideo (p : Params) (i : Instance) : Status × Instance :=
  andThen (i.programSequence p) (fun j =>
    match j.computeLengths with
    | some l => (.success, j.setLengths l)
    | none => (.fatalHardwareFault, j.raiseFatal .unknownDataFormat))

/-- R297: `CONTROL` with the clock lane transmit-only whatever the policy (C9), video on, host off. -/
def Instance.constructControl (i : Instance) : Instance :=
  i.setControl { i.regs.control with hsClkCtrl := .txOnly, videoEnable := true, hostEnable := false }

/-- Does the policy ask for a continuous clock (R291)? -/
def isContinuous : HsClkPolicy → Bool
  | .txOnly => false
  | .continuous | .continuousThspreprWar | .continuousThspreprPllWar => true

/-- `THS_PREPARE` rewritten between two settle waits (R300; the ceiling: log 29). DESIGN CHOICE (log 57): a given value of
0 is written as 0, without the floor of R154 and R167, and a given value stays in `PHY_TIMING` after the operation,
since R300 restores nothing, where R420 calls the difference transient. -/
def Instance.thspreprWar (p : Params) (i : Instance) : Instance :=
  let j := i.call (.settleWait p.settleWait)
  let v := (p.thspreprWarValue.getD j.regs.phy.thsPrepare)
  let w := { j.regs.phy with thsPrepare := min v p.fieldMax.thsPrepare }
  let k := { j with regs := { j.regs with
    phy := if p.thspreprWarValue.isSome then w else j.regs.phy } }
  k.call (.settleWait p.settleWait)

/-- R300 and R301: what the policy's name adds. -/
def Instance.applyWorkaround (p : Params) (i : Instance) : Instance :=
  match i.cfg.hsClkPolicy with
  | .txOnly | .continuous => i
  | .continuousThspreprWar => i.thspreprWar p
  | .continuousThspreprPllWar => (i.thspreprWar p).call .pllWorkaround

/-- The self-check (R302): `NopWrite`, then `BtaCheckError`, under the caller's lock. -/
def Instance.selfCheck (p : Params) (i : Instance) : Status × Instance :=
  andThen (i.writeCommand p (nopPacket p)) (fun j => j.nestedBtaCheck p)

/-- The fallback (R303): transmit-only clock, low-power mode. -/
def Instance.fallBack (p : Params) (i : Instance) : Status × Instance :=
  (i.setHsClkCtrl .txOnly).setHighSpeed p false

/-- R302 and R303: a failed check is absorbed. -/
def Instance.checkOrFallBack (p : Params) (i : Instance) : Status × Instance :=
  match i.selfCheck p with
  | (.success, j) => (.success, j)
  | (_, j) => j.fallBack p

/-- R299 to R303: continuous high-speed clock, workaround, self-check. -/
def Instance.enterContinuous (p : Params) (i : Instance) : Status × Instance :=
  andThen i.turnOnClock (fun j =>
    andThen (j.setHighSpeed p true) (fun k =>
      ((k.setHsClkCtrl .continuous).applyWorkaround p).checkOrFallBack p))

/-- `EnableVideoTransmission` under the lock (R295). -/
def Instance.enableVideo (p : Params) (i : Instance) : Status × Instance :=
  andThen ((i.disableInterface p).programVideo p) (fun j =>
    let k := (j.setIfEnable true).constructControl
    if isContinuous k.cfg.hsClkPolicy then k.enterContinuous p else (.success, k))

/-- What of `EnableVideoTransmission` is refused before it starts (log 42): with a continuous policy an
override above its ceiling (R152) and a self-check packet the host FIFO cannot hold (R224 (c)). -/
def Instance.videoRefusal (p : Params) (i : Instance) : Option Refusal :=
  if isContinuous i.cfg.hsClkPolicy then
    if !overridesFit p i.cfg then some .overrideTooLarge
    else ({ i with hsMode := true }).sendRefusal p (nopPacket p)
  else none

/-- `ENVIDEO` (R295). -/
def execEnvideo (n : InstId) (s : State) : Out :=
  s.guarded n
    (match (s.inst n).videoRefusal s.params with
     | some r => .refused r
     | none =>
       s.onLocked n (fun i =>
         let r := i.enableVideo s.params
         (r.1, .none, r.2)))

end Sys2Proof.Machine
end

