-- ==== Sys2Proof/Machine/Lifecycle.lean ====
section
/-! DEFINITION. The lifecycle manager (45_lifecycle.md): `TINIT`, `TDEINIT`, `ENABLE` with the ganged setup,
`DISABLE`, `CMDMODE` and `GETFREQ`. -/

namespace Sys2Proof.Machine

/-! ### TransInit (R321 to R323) -/

/-- The descriptor `imm16` names (R135): the host's table, past it a free value (log 3). -/
def State.descriptor (s : State) (k : Nat) : PanelDescriptor := s.descTable.getD k (Config.descriptor k)

/-- Step (2) of R321: the lane count and the channel the block has a meaning for. -/
def descriptorOk (d : PanelDescriptor) : Bool :=
  1 ≤ d.nLanes && d.nLanes ≤ 4 && d.virtualChannel ≤ 3

/-- The configuration copied from a descriptor (R22): the initialisation clock clamped. -/
def configuration (p : Params) (d : PanelDescriptor) : PanelDescriptor :=
  { d with maxInitClock := min d.maxInitClock p.maxInitClockCeiling }

/-- An environment call of `TransInit` that may fail (R322); `grant` records what it acquired. -/
def Instance.initCall (c : EnvCall) (grant : Instance → Instance) (i : Instance) : Status × Instance :=
  let d := i.env.initCall.draw (Config.initAnswer i.id)
  let j := ({ i with env := { i.env with initCall := d.2 } }).call c
  if d.1 then (.success, grant j) else (.initFailed, j)

/-- Steps (3) to (6) of R321: device, aperture, configuration, power and clock registration. -/
def Instance.acquireResources (p : Params) (d : PanelDescriptor) (i : Instance) : Status × Instance :=
  andThen (i.initCall .openDevice (fun j => { j with res := { j.res with device := true } }))
    (fun j => andThen (j.initCall .mapAperture
        (fun k => { k with res := { k.res with aperture := true }, cfg := configuration p d }))
      (fun k => k.initCall .registerPowerClock (fun l => { l with res := { l.res with power := true } })))

/-- What the zeroing pass does not name is whatever the hardware holds (R71, R401; log 49); the host FIFO holds no
more than its depth (R83). -/
def Instance.findHardware (p : Params) (i : Instance) : Instance :=
  let d := i.env.found.draw (Config.foundAnswer i.id)
  { i with
    env := { i.env with found := d.2 }
    regs := { i.regs with
      trigger := d.1.trigger
      btaActive := d.1.btaActive
      errorFlag := d.1.errorFlag
      solDelay := d.1.solDelay
      syncpt := d.1.syncpt }
    hfifo := d.1.hfifo.take p.hostFifoDepth
    flight := d.1.flight
    rfifo := d.1.rfifo }

/-- Step (7) of R321, the zeroing pass. -/
def Instance.zeroRegisters (p : Params) (i : Instance) : Instance :=
  let j := i.findHardware p
  { j with regs := { j.regs with
      slots := zeroSlots
      pktLen := zeroPktLen
      control := zeroControl p
      hostControl := zeroHostControl p
      ifEnable := false
      threshold := 0 } }

/-- Step (8) of R321: the initial frequency and its PHY timing; an unknown format ends it (R367). -/
def Instance.initialTiming (p : Params) (i : Instance) : Status × Instance :=
  let c := i.clockConfigure p (min i.cfg.lpCmdClkKhz i.cfg.maxInitClock)
  let j := { c.2 with curPhyFreq := c.1 }
  match j.computePhy p j.curPhyFreq with
  | some t => (.success, j.programPhy t)
  | none => (.fatalHardwareFault, j)

/-- Step (8) preceded by whether the clock service fails (log 36). -/
def Instance.startClock (p : Params) (i : Instance) : Status × Instance :=
  let d := i.env.initCall.draw (Config.initAnswer i.id)
  let j := { i with env := { i.env with initCall := d.2 } }
  if d.1 then j.initialTiming p else (.initFailed, (j.clockConfigure p
    (min i.cfg.lpCmdClkKhz i.cfg.maxInitClock)).2)

/-- Step (9) of R321. -/
def Instance.enablePads (i : Instance) : Instance :=
  { i with regs := { i.regs with padEnable := true } }

/-- Step (10), TE wiring (R323): the handle not signalled, the interrupt masked. -/
def Instance.wireTe (i : Instance) : Status × Instance :=
  if i.cfg.teGpioPresent then
    andThen (i.initCall .createSemaphore (fun j => { j with te := some ⟨false, true⟩ }))
      (fun j => j.initCall .registerEdgeHandler
        (fun k => { k with res := { k.res with edgeHandler := true } }))
  else (.success, i)

/-- Steps (3) to (11) of R321, before any unwinding. -/
def Instance.initSteps (p : Params) (d : PanelDescriptor) (i : Instance) : Status × Instance :=
  andThen (i.acquireResources p d) (fun j =>
    andThen ((j.zeroRegisters p).startClock p) (fun k =>
      andThen k.enablePads.wireTe (fun l => (.success, { l with lifecycle := .transportReady }))))

/-- Release what was acquired and zero the structure (R322). -/
def Instance.unwind (p : Params) (i : Instance) : Instance := i.teardown.zeroStructure p

/-- `TransInit` of a block that is not initialised: on failure it unwinds (R322), and an unknown format
leaves the fatal record set besides (R367). -/
def Instance.transInit (p : Params) (d : PanelDescriptor) (i : Instance) : Status × Instance :=
  match (i.zeroStructure p).initSteps p d with
  | (.success, j) => (.success, j)
  | (.fatalHardwareFault, j) => (.fatalHardwareFault, (j.unwind p).raiseFatal .unknownDataFormat)
  | (st, j) => (st, j.unwind p)

/-- `TINIT` (R321, R337): idempotent when initialised; `flags` is ignored (U27). -/
def execTinit (n : InstId) (desc : BitVec 16) (_flags : Word) (s : State) : Out :=
  if (s.inst n).fatal.isSome then s.finish n .fatalHardwareFault .none
  else if (s.inst n).initialized then s.finish n .success .none
  else if !descriptorOk (s.descriptor desc.toNat) then .refused .badDescriptor
  else if !overridesFit s.params (s.descriptor desc.toNat) then .refused .overrideTooLarge
  else
    let r := (s.inst n).transInit s.params (s.descriptor desc.toNat)
    s.finishWith n r.2 r.1 .none

/-! ### TransDeinit (R336) -/

/-- Tear down, zero, clear the fatal record (R336). -/
def Instance.transDeinit (p : Params) (i : Instance) : Instance :=
  { i.teardown.zeroStructure p with lifecycle := .disabled }

/-- `TDEINIT` (R336): accepted in every state but under a held lock (R426). -/
def execTdeinit (n : InstId) (s : State) : Out :=
  match (s.inst n).lock with
  | .held => .refused .deinitWhileLocked
  | .free => s.finishWith n ((s.inst n).transDeinit s.params) .success .none

/-! ### Ganged mode (R340 to R342) -/

/-- The result of `GangedSplit` (R341). -/
structure Split where
  left : Nat
  right : Nat
  pad : Nat
deriving DecidableEq, Repr, Inhabited

/-- `GangedSplit(h_active, n_lanes)` (R341): two halves in whole lane groups that cover the width; how
many groups each gets is a free choice (log 27). -/
def gangedSplit (w lanes : Nat) : Split :=
  let g := Config.gangedGroups w lanes
  let left := lanes * g.1
  let right := lanes * max g.2 ((w - left + (lanes - 1)) / lanes)
  ⟨left, right, left + right - w⟩

/-- The split of a block's panel (R340, R341). DESIGN CHOICE (log 26): each block's own configuration is split, and that
the two blocks of a ganged setup hold one panel's is not checked. -/
def Instance.split (i : Instance) : Split := gangedSplit i.cfg.timing.hActive i.cfg.nLanes

/-- This block's half of a ganged panel; a panel of one block has none (R326 step (2)). -/
def Instance.halfWidth (i : Instance) : Option Nat :=
  if i.cfg.videoMode = .ganged then
    match i.id with
    | .i0 => some i.split.left
    | .i1 => some i.split.right
  else none

/-- The DC's ganged pair (R342): left and right, or the opaque odd and even values. -/
def gangedPair (p : Params) (k : SplitKind) (d : Split) : GangedPair :=
  match k with
  | .leftRight => ⟨0, d.left, d.left, d.right⟩
  | .oddEven => p.oddEvenPair

/-! ### Enable (R326) -/

/-- Step (3) of R326: the SOL delay latched, and the frequency to program. -/
def Instance.latchSol (p : Params) (i : Instance) : Status × Instance :=
  match i.computeSol with
  | some r => ({ i with solDelay := r.1 }).setFrequency p r.2
  | none => (.fatalHardwareFault, i.raiseFatal .unknownDataFormat)

/-- Steps (6) to (8) of R326 on the block. -/
def Instance.becomeEnabled (i : Instance) : Instance :=
  { (i.call (.dcWriteOutputActive i.ctrlIndex true)).call .padCalibrate with
    padsCalibrated := true
    hostActive := false
    lifecycle := .enabled }

/-- `Enable` under the lock (R326). -/
def Instance.enableLink (p : Params) (i : Instance) : Status × Instance :=
  andThen (({ i with gangedHalf := i.halfWidth }).latchSol p) (fun j =>
    andThen (j.enableVideo p) (fun k => (.success, k.becomeEnabled)))

/-- The DC's writes that end an `Enable`: the output path active (R57), and after block 1 of a ganged
panel the pair (R342, R340 step (4)), from block 1's own configuration (log 26). -/
def State.dcAfterEnable (s : State) (n : InstId) : State :=
  let i := s.inst n
  let d := s.dcRegs i.ctrlIndex
  if i.cfg.videoMode = .ganged ∧ n = .i1 then
    let pair := gangedPair s.params i.cfg.split i.split
    (s.setInst n (i.call (.dcWriteGanged i.ctrlIndex pair))).setDcRegs i.ctrlIndex
      ⟨true, pair⟩
  else s.setDcRegs i.ctrlIndex { d with outputActive := true }

/-- Where a ganged setup stands after a successful `Enable` of a block (R96). -/
def gangedAfter (i : Instance) : GangedStep :=
  if i.cfg.videoMode = .ganged ∧ i.id = .i0 then .firstEnabled else .idle

/-- May this `Enable` come now? Block 1 of a ganged panel only right after block 0 (R96, R407). -/
def enableInOrder (s : State) (n : InstId) : Bool :=
  match n with
  | .i0 => true
  | .i1 => (s.inst n).cfg.videoMode ≠ .ganged || s.gangedStep = .firstEnabled

/-- What of `Enable` is refused before it starts (log 42). -/
def enableRefusal (s : State) (n : InstId) : Option Refusal :=
  if !enableInOrder s n then some .gangedOutOfOrder
  else if !overridesFit s.params (s.inst n).cfg then some .overrideTooLarge
  else (s.inst n).videoRefusal s.params

/-- The end of an `Enable`: on success the DC is written and a ganged setup advances. -/
def finishEnable (s : State) (n : InstId) (r : Status × Instance) : Out :=
  match r.1 with
  | .success =>
    .next { (s.setInst n r.2.release).dcAfterEnable n with
      result := some ⟨n, .success, .none⟩
      gangedStep := gangedAfter r.2 }
  | st => s.finishWith n r.2.release st .none

/-- `ENABLE` (R326). -/
def execEnable (n : InstId) (s : State) : Out :=
  s.guarded n
    (match enableRefusal s n with
     | some r => .refused r
     | none =>
       s.whenFree n (finishEnable s n ((s.inst n).acquire.enableLink s.params)))

/-! ### Disable (R333) -/

/-- `Disable` on the block. -/
def Instance.disableLink (i : Instance) : Instance :=
  { (i.setIfEnable false).call (.dcWriteOutputActive i.ctrlIndex false) with
    hostActive := false
    lifecycle := .transportReady }

/-- `DISABLE` (R333); in `TransportReady` nothing is touched (R337 (e)). -/
def execDisable (n : InstId) (s : State) : Out :=
  s.guarded n
    (s.whenFree n
      (if (s.inst n).lifecycle = .transportReady then s.finish n .success .none
       else
         let c := (s.inst n).ctrlIndex
         ((s.setInst n (s.inst n).disableLink).setDcRegs c
           { s.dcRegs c with outputActive := false }).finish n .success .none))

/-! ### TransEnableCommandMode (R330) -/

/-- FIFO ownership to the host (R330, D42). -/
def Instance.ownHost (i : Instance) : Instance :=
  { (i.setControl { i.regs.control with videoEnable := false, hostEnable := true }).setHostControl
      { i.regs.hostControl with triggerMode := .immediate } with hostActive := true }

/-- The low-power command clock (R330). -/
def Instance.toLowPower (p : Params) (i : Instance) : Status × Instance :=
  if i.hsMode then i.setHighSpeed p false else i.setFrequency p i.cfg.lpCmdClkKhz

/-- `TransEnableCommandMode` under the lock (R330). -/
def Instance.enableCommandMode (p : Params) (i : Instance) : Status × Instance :=
  andThen (i.ownHost.toLowPower p) (fun j => (.success, { j with lifecycle := .commandModeEnabled }))

/-- `CMDMODE` (R330). -/
def execCmdmode (n : InstId) (s : State) : Out :=
  s.guarded n
    (if overridesFit s.params (s.inst n).cfg then
       s.onLocked n (fun i =>
         let r := i.enableCommandMode s.params
         (r.1, .none, r.2))
     else .refused .overrideTooLarge)

/-! ### TransGetPhyFreq (R347) -/

/-- `GETFREQ` (R347): no register, no lock. -/
def execGetfreq (n : InstId) (s : State) : Out :=
  s.guarded n (s.finish n .success (.khz (s.inst n).curPhyFreq))

end Sys2Proof.Machine
end

