-- ==== Sys2Proof/Machine/Public.lean ====
section
/-! DEFINITION. The composite public operations (45_lifecycle.md R345, R348): `TUPDATE` and `TPING`. -/

namespace Sys2Proof.Machine

/-! ### TransUpdate (R345; log 30) -/

/-- The update rectangle of the operand words (R136). -/
def updateRect (a : UpdateArgs) : Rect := ⟨a.rectX.toNat, a.rectY.toNat, a.rectW.toNat, a.rectH.toNat⟩

/-- Bytes of one pixel of the surface (R345). -/
def pixelBytes (a : UpdateArgs) : Nat := a.bpp.toNat / 8

/-- The pixels of row `r` of the rectangle, from `src_point` on the surface. DESIGN CHOICE (log 30): the surface handle
of R136 is the byte address in host memory of the surface's first pixel, and rows follow each other without a gap. -/
def rowBytes (m : Memory) (a : UpdateArgs) (r : Nat) : List Byte :=
  m.readBytes
    (a.surface.toNat + (a.srcY.toNat + r) * (a.width.toNat * pixelBytes a) + a.srcX.toNat * pixelBytes a)
    (a.rectW.toNat * pixelBytes a)

/-- The pixel bytes of the rectangle, row-major. -/
def updatePixels (m : Memory) (a : UpdateArgs) : List Byte :=
  (List.range a.rectH.toNat).flatMap (rowBytes m a)

/-- Cut into pieces of `k` bytes, the last one shorter; `fuel` bounds the number of pieces. -/
def chunksOf (k : Nat) : Nat → List Byte → List (List Byte)
  | 0, _ => []
  | _ + 1, [] => []
  | fuel + 1, b :: r => (b :: r).take k :: chunksOf k fuel ((b :: r).drop k)

/-- Chunk 0 starts the memory write, every later chunk continues it. DESIGN CHOICE (log 30): without a pixel byte (an
empty rectangle, fewer than 8 bits a pixel) there is no chunk and no packet. -/
def pixelPackets (p : Params) (bs : List Byte) : List PacketDesc :=
  match chunksOf (max p.updateChunkBytes 1) bs.length bs with
  | [] => []
  | c :: r =>
    ⟨p.longWriteType, p.writeMemoryStart, c, true⟩ ::
      r.map (fun d => ⟨p.longWriteType, p.writeMemoryContinue, d, true⟩)

/-- The panel's partial-display sequence for a rectangle, an input of the environment (N12). -/
def Instance.drawPartial (i : Instance) (rect : Rect) : List PacketDesc × Instance :=
  let d := i.env.partialSeq.draw (Config.partialAnswer rect i.id)
  (d.1, { i with env := { i.env with partialSeq := d.2 } })

/-- The packets of an update; with DC-driven pixels only the partial-display sequence. -/
def updatePackets (s : State) (n : InstId) (a : UpdateArgs) : List PacketDesc :=
  let cmds := ((s.inst n).drawPartial (updateRect a)).1
  if (s.inst n).cfg.videoMode = .dcDrivenCommand then cmds
  else cmds ++ pixelPackets s.params (updatePixels s.mem a)

/-- The first refusal among the packets of an operation, the first of which joins `queued` words (R224 (c);
log 23, log 42). -/
def packetsRefusal (p : Params) (i : Instance) (queued : Nat) : List PacketDesc → Option Refusal
  | [] => none
  | d :: r =>
    match i.packetRefusal p queued d with
    | some e => some e
    | none => packetsRefusal p i 0 r

/-- One `WriteCommand` after another; the first status other than `Success` ends it. -/
def Instance.sendAll (p : Params) : List PacketDesc → Instance → Status × Instance
  | [], i => (.success, i)
  | d :: r, i => andThen (i.writeCommand p d) (Instance.sendAll p r)

/-- Step (1) of R345: wait for TE where there is a handle. -/
def Instance.waitTe (p : Params) (i : Instance) : Status × Instance :=
  match i.te with
  | none => (.success, i)
  | some _ =>
    match i.teWait p with
    | (.ready, j) => (.success, j)
    | (.timedOut, j) => (.teWaitTimeout, j)

/-- `env.DcWaitVblank()` in place of the pixels of a DC-driven panel (R345). -/
def Instance.awaitPixels (i : Instance) : Instance :=
  if i.cfg.videoMode = .dcDrivenCommand then i.waitVblanks 1 else i

/-- `TransUpdate` under the lock. -/
def Instance.update (p : Params) (rect : Rect) (ps : List PacketDesc) (i : Instance) :
    Status × Instance :=
  andThen (i.waitTe p) (fun j =>
    andThen (Instance.sendAll p ps (j.drawPartial rect).2) (fun k => (.success, k.awaitPixels)))

/-- `TUPDATE` (R345): only in `CommandModeEnabled` (R337 (f)). -/
def execTupdate (n : InstId) (a : UpdateArgs) (s : State) : Out :=
  s.guarded n
    (if (s.inst n).lifecycle ≠ .commandModeEnabled then .refused .notInCommandMode
     else
       match packetsRefusal s.params (s.inst n) (s.inst n).queued.length (updatePackets s n a) with
       | some r => .refused r
       | none =>
         s.onLocked n (fun i =>
           let r := i.update s.params (updateRect a) (updatePackets s n a)
           (r.1, .none, r.2)))

/-! ### TransPing (R348) -/

/-- `PING_SETTLE_FRAMES` (R7). -/
def pingSettleFrames : Nat := 3

/-- The video-mode state written for the read: the override of R221, and the host as FIFO owner (R348). DESIGN CHOICE
(log 53): the two writes are made also when the host owns the FIFO already, where R221's own step does nothing. -/
def Instance.pingOverride (i : Instance) : Instance :=
  { (i.setHostControl { i.regs.hostControl with triggerMode := .immediate }).setControl
      { i.regs.control with videoEnable := false, hostEnable := true } with hostActive := true }

/-- The video-mode state of `i` written back (R348, whatever the status). -/
def Instance.pingRestore (i j : Instance) : Instance :=
  { (j.setControl i.regs.control).setHostControl i.regs.hostControl with hostActive := i.hostActive }

/-- `TransPing` under the lock and the frame mutex: save, settle, read, restore. -/
def Instance.ping (p : Params) (reg : Byte) (len : BitVec 16) (i : Instance) :
    Status × Option (List Byte) × Instance :=
  let r := (i.pingOverride.waitVblanks pingSettleFrames).readCommand p reg len
  (r.1, r.2.1, i.pingRestore r.2.2)

/-- The count a ping delivers: 0 where no response was classified. -/
def copiedCount : Option (List Byte) → Nat
  | some b => b.length
  | none => 0

/-- `TPING` (R348): the DC's frame mutex first (R97), then the lock; `flags` is ignored (U27). -/
def execTping (n : InstId) (reg : Byte) (len : BitVec 16) (_flags : Word) (s : State) : Out :=
  s.guarded n
    (match (s.inst n).readRefusal s.params reg len with
     | some r => .refused r
     | none =>
       if s.frameMutex then .fault .blockedOnFrameMutex
       else
         s.whenFree n
           (let r := ((s.inst n).call .acquireFrameMutex).acquire.ping s.params reg len
            ((s.setInst n (r.2.2.release.call .releaseFrameMutex)).copyOut? n r.2.1).finish n r.1
              (.ping r.1 (copiedCount r.2.1))))

end Sys2Proof.Machine
end

