-- ==== Sys2Proof/Machine/Micro.lean ====
section
/-! DEFINITION. The micro-operations issued directly (42_packet_framer_write.md R210 to R216, 43_bta_read.md
R252): `REGW`, `REGR`, `PUSH`, `POP`, `TRIG`, `BTAREQ`, `POLL`. -/

namespace Sys2Proof.Machine

/-- Replace the registers of a block. -/
def Instance.mapRegs (i : Instance) (f : Regs → Regs) : Instance := { i with regs := f i.regs }

/-- A write of the program, the lengths or the SOL delay: refused while the interface is enabled (R98,
R414). -/
def Instance.programWrite (i : Instance) (j : Instance) : Except Refusal Instance :=
  if i.regs.ifEnable then .error .liveProgramWrite else .ok j

/-- Write `HOST_CONTROL`: writing 1 to `IMM_BTA` requests a turn-around (R33, R252). DESIGN CHOICE (log 52): a host's
write may flip `HS_TRANSMIT` (R210), and `hs_mode` stays as it was, where R33 and R290 have `SetHighSpeedMode` alone
flip it and R294 (b) has no rule make the two disagree. -/
def Instance.writeHostControl (h : HostControlReg) (i : Instance) : Instance :=
  if h.immBta then (i.setHostControl h).btaRequest else i.setHostControl h

/-- `RegWrite(NAME, v)` (R210). DESIGN CHOICE (log 52): a host's write is made also where another rule has the engine
alone write the field: `CONTROL.HS_CLK_CTRL` (R290), and `PHY_TIMING`, `BTA_TIMING`, `TIMEOUT`, which R420 has follow
the frequency. -/
def regWrite (p : Params) (r : RegName) (w : Word) (i : Instance) : Except Refusal Instance :=
  match r with
  | .powerControl => .ok (i.setIfEnable (bitOf w p.layout.ifEnable))
  | .control => .ok (i.setControl (controlOfWord p.layout w))
  | .hostControl => .ok (i.writeHostControl (hostControlOfWord p.layout w))
  | .trigger => .ok (i.writeTrigger w)
  | .status => .error .readOnlyRegister
  | .wrData => i.checkedPush p ⟨.shortWord, w⟩
  | .rdData => .error .readOnlyRegister
  | .pktSeq slot hi => i.programWrite (i.setHalf slot hi (halfOfRaw w))
  | .pktLen => i.programWrite (i.mapRegs (fun g => { g with pktLen := pktLenOfRaw w }))
  | .phyTiming => .ok (i.mapRegs (fun g => { g with phy := phyOfRaw p w }))
  | .btaTiming => .ok (i.mapRegs (fun g => { g with bta := triadOfRaw p w }))
  | .timeout => .ok (i.mapRegs (fun g => { g with timeout := BitVec.ofNat 16 w.toNat }))
  | .solDelay => i.programWrite (i.mapRegs (fun g => { g with solDelay := w.toNat }))
  | .threshold => .ok (i.mapRegs (fun g => { g with threshold := w }))
  | .padControl => .ok (i.mapRegs (fun g => { g with padEnable := bitOf w p.layout.padEnable }))
  | .syncpt => if p.useSyncpt then .error .readOnlyRegister else .error .noSuchRegister

/-- A micro-operation on the block, once the lock is free (R82): an updated block and what it delivers, or a
refusal. -/
def microOperation (s : State) (n : InstId) (f : Instance → Except Refusal (Output × Instance)) : Out :=
  s.guarded n
    (s.whenFree n
      (match f (s.inst n) with
       | .error e => .refused e
       | .ok r => s.finishWith n r.2 .success r.1))

/-- `REGW` (R210). -/
def execRegw (n : InstId) (idx : BitVec 16) (value : Word) (s : State) : Out :=
  microOperation s n (fun i =>
    match RegName.ofIndex idx.toNat with
    | none => .error .noSuchRegister
    | some r => (regWrite s.params r value i).map (fun j => (.none, j)))

/-- `RegRead(SYNCPT)` (R46): a value nothing constrains (log 37). -/
def Instance.readSyncpt (i : Instance) : Word × Instance :=
  let v := Config.syncptValue i.id i.freeTick
  (v, ({ i with regs := { i.regs with syncpt := v } }).useTick)

/-- `RegRead(STATUS)` (R35): three answers of the environment. -/
def Instance.readStatus (i : Instance) : RegValue × Instance :=
  let c := i.readCount
  let b := c.2.readBtaActive
  let e := b.2.readErrorFlag
  (.status c.1 b.1 e.1, e.2)

/-- `RegRead(NAME)` (R211). -/
def regRead (p : Params) (r : RegName) (i : Instance) : Except Refusal (RegValue × Instance) :=
  match r with
  | .powerControl => .ok (.powerControl i.regs.ifEnable, i)
  | .control => .ok (.control i.regs.control, i)
  | .hostControl => .ok (.hostControl i.regs.hostControl, i)
  | .trigger => .ok (.trigger i.readTrigger.1, i.readTrigger.2)
  | .status => .ok i.readStatus
  | .wrData => .error .writeOnlyRegister
  | .rdData => .ok (.rdData i.popWord.1, i.popWord.2)
  | .pktSeq slot hi => .ok (.pktSeq (halfGet i.regs.slots slot hi), i)
  | .pktLen => .ok (.pktLen i.regs.pktLen, i)
  | .phyTiming => .ok (.phyTiming i.regs.phy, i)
  | .btaTiming => .ok (.btaTiming i.regs.bta, i)
  | .timeout => .ok (.timeout i.regs.timeout, i)
  | .solDelay => .ok (.solDelay i.regs.solDelay, i)
  | .threshold => .ok (.threshold i.regs.threshold, i)
  | .padControl => .ok (.padControl i.regs.padEnable, i)
  | .syncpt =>
    if p.useSyncpt then .ok (.syncpt i.readSyncpt.1, i.readSyncpt.2) else .error .noSuchRegister

/-- `REGR` (R211). -/
def execRegr (n : InstId) (idx : BitVec 16) (s : State) : Out :=
  microOperation s n (fun i =>
    match RegName.ofIndex idx.toNat with
    | none => .error .noSuchRegister
    | some r => (regRead s.params r i).map (fun v => (.reg v.1, v.2)))

/-- `PUSH` (R212); the word's kind: log 7. -/
def execPush (n : InstId) (w : Word) (s : State) : Out := pushRow s n ⟨.shortWord, w⟩

/-- `POP` (R213). -/
def execPop (n : InstId) (s : State) : Out :=
  microOperation s n (fun i => .ok (.word i.popWord.1, i.popWord.2))

/-- `TRIG` (R214). -/
def execTrig (n : InstId) (s : State) : Out := microOperation s n (fun i => .ok (.none, i.trigger))

/-- `BTAREQ` (R252). -/
def execBtareq (n : InstId) (s : State) : Out := microOperation s n (fun i => .ok (.none, i.btaRequest))

/-- The predicate with a number (R216; log 18). -/
def predicateOf (k : Nat) : Option (Instance → Bool × Instance) :=
  match k with
  | 0 => some Instance.triggerIsZero
  | 1 => some Instance.btaIsClear
  | 2 => some Instance.countIsNonZero
  | _ => none

/-- `POLL` (R216): `STEP` and `MAX` are positive. -/
def execPoll (n : InstId) (pred : BitVec 16) (step max : Word) (s : State) : Out :=
  microOperation s n (fun i =>
    match predicateOf pred.toNat with
    | none => .error .noSuchPredicate
    | some f =>
      if step = 0 ∨ max = 0 then .error .zeroPollBound
      else
        let r := poll f (pollCount step.toNat max.toNat) i
        .ok (.poll r.1, r.2))

end Sys2Proof.Machine
end

