-- ==== Sys2Proof/Machine/Dispatch.lean ====
section
/-! DEFINITION. One arm per constructor of `Instr`, in the order of spec/opcode_table.json. -/

namespace Sys2Proof.Machine

/-- What an instruction does. -/
def exec (i : Instr) (s : State) : Host.Outcome State Fault Refusal :=
  match i with
  | .shortPkt n vc ct reg data => Sys2Proof.Machine.execShortPkt n vc ct reg data s
  | .longHdr n vc ct wc => Sys2Proof.Machine.execLongHdr n vc ct wc s
  | .longPayload n w => Sys2Proof.Machine.execLongPayload n w s
  | .maxret n vc len => Sys2Proof.Machine.execMaxret n vc len s
  | .dcsread n vc reg => Sys2Proof.Machine.execDcsread n vc reg s
  | .eot n => Sys2Proof.Machine.execEot n s
  | .respLong1A n => Sys2Proof.Machine.execRespLong1A n s
  | .respLong1C n => Sys2Proof.Machine.execRespLong1C n s
  | .respAckerr n => Sys2Proof.Machine.execRespAckerr n s
  | .respShort1x11 n => Sys2Proof.Machine.execRespShort1x11 n s
  | .respShort1x21 n => Sys2Proof.Machine.execRespShort1x21 n s
  | .respShort2x12 n => Sys2Proof.Machine.execRespShort2x12 n s
  | .respShort2x22 n => Sys2Proof.Machine.execRespShort2x22 n s
  | .respInvalid n b => Sys2Proof.Machine.execRespInvalid n b s
  | .pktVsyncStart n => Sys2Proof.Machine.execPktVsyncStart n s
  | .pktVsyncEnd n => Sys2Proof.Machine.execPktVsyncEnd n s
  | .pktHsyncStart n => Sys2Proof.Machine.execPktHsyncStart n s
  | .pktHsyncEnd n => Sys2Proof.Machine.execPktHsyncEnd n s
  | .pktBlanking n => Sys2Proof.Machine.execPktBlanking n s
  | .pktLongWrite n => Sys2Proof.Machine.execPktLongWrite n s
  | .pktHActive16 n => Sys2Proof.Machine.execPktHActive16 n s
  | .pktHActive18 n => Sys2Proof.Machine.execPktHActive18 n s
  | .pktHActive18Np n => Sys2Proof.Machine.execPktHActive18Np n s
  | .pktHActive24 n => Sys2Proof.Machine.execPktHActive24 n s
  | .lenNone n => Sys2Proof.Machine.execLenNone n s
  | .lenHsync n => Sys2Proof.Machine.execLenHsync n s
  | .lenHbp n => Sys2Proof.Machine.execLenHbp n s
  | .lenHact n => Sys2Proof.Machine.execLenHact n s
  | .lenHfp n => Sys2Proof.Machine.execLenHfp n s
  | .lenCmd n => Sys2Proof.Machine.execLenCmd n s
  | .lenIdx7 n => Sys2Proof.Machine.execLenIdx7 n s
  | .slotHalf n slot hi forceLp => Sys2Proof.Machine.execSlotHalf n slot hi forceLp s
  | .tinit n desc flags => Sys2Proof.Machine.execTinit n desc flags s
  | .tdeinit n => Sys2Proof.Machine.execTdeinit n s
  | .enable n => Sys2Proof.Machine.execEnable n s
  | .disable n => Sys2Proof.Machine.execDisable n s
  | .cmdmode n => Sys2Proof.Machine.execCmdmode n s
  | .twrite n isLong ct reg payload => Sys2Proof.Machine.execTwrite n isLong ct reg payload s
  | .nopw n => Sys2Proof.Machine.execNopw n s
  | .tread n isLong reg len => Sys2Proof.Machine.execTread n isLong reg len s
  | .btachk n => Sys2Proof.Machine.execBtachk n s
  | .seths n on => Sys2Proof.Machine.execSeths n on s
  | .envideo n => Sys2Proof.Machine.execEnvideo n s
  | .clkon n => Sys2Proof.Machine.execClkon n s
  | .seqprog n => Sys2Proof.Machine.execSeqprog n s
  | .phyt n freq => Sys2Proof.Machine.execPhyt n freq s
  | .sold n => Sys2Proof.Machine.execSold n s
  | .plen n => Sys2Proof.Machine.execPlen n s
  | .tupdate n a => Sys2Proof.Machine.execTupdate n a s
  | .getfreq n => Sys2Proof.Machine.execGetfreq n s
  | .tping n reg len flags => Sys2Proof.Machine.execTping n reg len flags s
  | .regw n idx value => Sys2Proof.Machine.execRegw n idx value s
  | .regr n idx => Sys2Proof.Machine.execRegr n idx s
  | .push n w => Sys2Proof.Machine.execPush n w s
  | .pop n => Sys2Proof.Machine.execPop n s
  | .trig n => Sys2Proof.Machine.execTrig n s
  | .btareq n => Sys2Proof.Machine.execBtareq n s
  | .poll n pred step max => Sys2Proof.Machine.execPoll n pred step max s

end Sys2Proof.Machine
end

