-- ==== Sys2Proof/Machine/Step.lean ====
section
/-! DEFINITION. One step of the machine (00_scope.md R6, 30_encoding.md R135): what the port presents next
is fetched and run; and a table row's instruction presented first on the port. -/

namespace Sys2Proof.Machine

/-- One step. An empty port leaves the machine waiting (log 40). -/
def step (s : State) : Host.Outcome State Fault Refusal :=
  match fetch s.port with
  | .idle => .next s
  | .edge n rest => .next (({ s with port := rest }).teEdge n)
  | .illegal e => .refused (.illegalCommand e)
  | .instr i rest => exec i { s with port := rest }

/-- `s` with a table row's instruction presented next on the port (log 3). -/
def State.withFetchWord (s : State) (nbits w : Nat) : State :=
  { s with port := tableUnits nbits w ++ s.port }

end Sys2Proof.Machine
end

