-- ==== Sys2Proof/Safety.lean ====
section
/-! DEFINITION. The terms the statements use: what holds of a machine between two operations, what the
environment is about to answer, how an operation ends, and what it may change. -/

namespace Sys2Proof.Machine

/-! ### Between two operations -/

/-- The nine fields and the triad of a block are within their ceilings (10_state.md R40, R41); a ceiling
of 0 for `THS_PREPARE` contradicts its floor of 1 (40_timing_calculator.md R154) and binds nothing. -/
def PhyInRange (p : Params) (r : Regs) : Prop :=
  1 ≤ p.fieldMax.thsPrepare →
    fieldsFit p.fieldMax r.phy = true ∧ triadFits p.btaFieldMax r.bta = true

/-- A block that is initialised and not faulted has a legal configuration, a clock, and PHY registers in
range (R22, R382, R40). -/
def ConfigOk (p : Params) (i : Instance) : Prop :=
  i.fatal = none → i.initialized = true →
    descriptorOk i.cfg = true ∧ overridesFit p i.cfg = true ∧ 0 < i.curPhyFreq ∧ PhyInRange p i.regs

/-- Between two operations: the lock is free, the host clock gate shut, the engine idle, no override in
force (R25, R26, R27, R38), and the TE interrupt masked (60_exceptions.md R378) unless a fatal fault has left the
handle unknown (R366). -/
def AtRest (i : Instance) : Prop :=
  i.lock = .free ∧ i.hostClkOn = false ∧ i.engine = .idle ∧ i.snap.overrideActive = false ∧
    (i.fatal = none → ∀ t, i.te = some t → t.masked = true)

/-- A block of the machine between two operations, under its own name. -/
def BlockOk (p : Params) (n : InstId) (i : Instance) : Prop := i.id = n ∧ AtRest i ∧ ConfigOk p i

/-- Host memory and the DC's registers keep their canonical form (20_memory.md R80). -/
def MemoryOk (s : State) : Prop :=
  Memory.wf s.mem = true ∧ sparseWf unlistedDc 0 s.dc = true

/-- The invariant every step keeps. -/
def Inv (s : State) : Prop :=
  MemoryOk s ∧ BlockOk s.params .i0 s.inst0 ∧ BlockOk s.params .i1 s.inst1

/-- The checks every operation but `TINIT` and `TDEINIT` begins with pass (60_exceptions.md R370). -/
def Accepts (s : State) (n : InstId) : Prop :=
  (s.inst n).fatal = none ∧ (s.inst n).initialized = true

/-- The checks pass and the lock is free: an operation that waits for it runs (R25). -/
def Open (s : State) (n : InstId) : Prop := Accepts s n ∧ (s.inst n).lock = .free

/-! ### What the environment is about to answer (R6, U2) -/

/-- The answer of the `k`-th draw from now. -/
def Oracle.answer {α : Type} (past : Nat → α) (o : Oracle α) (k : Nat) : α :=
  o.script.getD k (past (o.reads + k))

/-- The oracle after `k` draws. -/
def Oracle.advance {α : Type} (k : Nat) (o : Oracle α) : Oracle α := ⟨o.script.drop k, o.reads + k⟩

/-- The `k`-th coming read of TRIGGER. -/
def Instance.triggerAt (i : Instance) (k : Nat) : Word :=
  i.env.trigger.answer (Config.triggerAnswer i.id) k

/-- The `k`-th coming read of `STATUS.BTA_ACTIVE`. -/
def Instance.btaAt (i : Instance) (k : Nat) : Bool := i.env.bta.answer (Config.btaAnswer i.id) k

/-- The words arriving at the `k`-th coming read of the count, once a turn-around has been requested. -/
def Instance.panelAt (i : Instance) (k : Nat) : List Word :=
  i.env.panel.answer (Config.panelAnswer i.id) k

/-- The `k`-th coming completion-counter wait. -/
def Instance.syncptAt (i : Instance) (k : Nat) : Bool :=
  i.env.syncpt.answer (Config.syncptAnswer i.id) k

/-- The frequency the clock service answers at its `k`-th coming call: greater than 0 (R382). -/
def Instance.clockAt (i : Instance) (k : Nat) : Nat :=
  max (i.env.clock.answer (Config.clockAnswer i.id) k) 1

/-- The `k`-th coming clock turn-on attempt. -/
def Instance.attemptAt (i : Instance) (k : Nat) : Bool :=
  i.env.attempt.answer (Config.attemptAnswer i.id) k

/-- Whether a TE edge arrives within the `k`-th coming timed wait. -/
def Instance.teAt (i : Instance) (k : Nat) : Bool := i.env.te.answer (Config.teAnswer i.id) k

/-- Whether the `k`-th coming environment call of a `TransInit` succeeds. -/
def Instance.initAt (i : Instance) (k : Nat) : Bool :=
  i.env.initCall.answer (Config.initAnswer i.id) k

/-- What the `k`-th coming `TransInit` finds in the hardware (R401). -/
def Instance.foundAt (i : Instance) (k : Nat) : Found := i.env.found.answer (Config.foundAnswer i.id) k

/-- TRIGGER reads zero at the `m`-th read from the `a`-th, and not before (R34). -/
def Instance.ReadyAfter (i : Instance) (a m : Nat) : Prop :=
  (∀ j, j < m → i.triggerAt (a + j) ≠ 0) ∧ i.triggerAt (a + m) = 0

/-- The block after `k` reads of TRIGGER, the last of which gave `w`. -/
def Instance.sawTrigger (k : Nat) (w : Word) (i : Instance) : Instance :=
  { i with
    env := { i.env with trigger := i.env.trigger.advance k }
    regs := { i.regs with trigger := w } }

/-- The two waits for TRIGGER read at least once (R216: `STEP > 0`, `MAX > 0`). -/
def PollsOk (p : Params) : Prop :=
  0 < pollCount p.cmdReadyStep p.cmdReadyMax ∧ 0 < pollCount p.triggerStep p.triggerMax

/-- How many reads of TRIGGER `polls` ready polls and `packets` completions make on a link that is ready at once:
with a completion counter a completion reads none (R215). -/
def linkReads (p : Params) (polls packets : Nat) : Nat := polls + if p.useSyncpt then 0 else packets

/-- How many waits on the completion counter `packets` completions make (R215). -/
def counterWaits (p : Params) (packets : Nat) : Nat := if p.useSyncpt then packets else 0

/-- A link that is ready at each of its next `polls` ready polls and completes each of its next `packets`
packets, all at once. -/
def LinkReady (p : Params) (polls packets : Nat) (i : Instance) : Prop :=
  (∀ k, k < linkReads p polls packets → i.triggerAt k = 0) ∧
    ∀ k, k < counterWaits p packets → i.syncptAt k = true

/-- How many ready polls a read makes (R261 against R360, R370, R410, R418; log 22). -/
def readPolls (p : Params) : Nat := 1 + if p.readyPollTwice then 1 else 0

/-- The calls `packets` completions make (R215; log 24). -/
def counterCalls (p : Params) (packets : Nat) : List EnvCall :=
  List.replicate (counterWaits p packets) (.syncptWait p.triggerMax)

/-- The environment after `polls` ready polls and `packets` completions on a link that is ready at once. -/
def Env.afterLink (p : Params) (polls packets : Nat) (e : Env) : Env :=
  { e with
    trigger := e.trigger.advance (linkReads p polls packets)
    syncpt := e.syncpt.advance (counterWaits p packets)
    calls := counterCalls p packets ++ e.calls }

/-- How many answers of the panel the empty check of R251 uses up: none before the first turn-around
(R85; log 8). -/
def Instance.panelStart (i : Instance) : Nat := if i.btaSeen then 1 else 0

/-- `BTA_ACTIVE` is seen clear at the `m`-th coming read, and not before (R253). -/
def Instance.BtaClearsAfter (i : Instance) (m : Nat) : Prop :=
  (∀ j, j < m → i.btaAt j = true) ∧ i.btaAt m = false

/-- From the `a`-th coming read of the count on, at most `n` reads wait for words: either `ws` arrive at
one of them and nothing more at the next, or `ws` is empty and nothing arrives at all (R254). -/
def Instance.PanelSends (i : Instance) (a n : Nat) (ws : List Word) : Prop :=
  (∃ k, k < n ∧ ws ≠ [] ∧ (∀ j, j < k → i.panelAt (a + j) = []) ∧ i.panelAt (a + k) = ws ∧
      i.panelAt (a + k + 1) = []) ∨
    (ws = [] ∧ ∀ j, j < n + 1 → i.panelAt (a + j) = [])

/-- A turn-around runs to its end and brings `ws`: nothing is queued before it, the bus comes back within
the bound, and what arrives fits the read FIFO (R251 to R254). -/
def PanelAnswers (p : Params) (i : Instance) (ws : List Word) : Prop :=
  i.rfifo = [] ∧ (i.btaSeen = true → i.panelAt 0 = []) ∧
    (∃ m, m < pollCount p.btaStep p.btaMax ∧ i.BtaClearsAfter m) ∧
    i.PanelSends i.panelStart (pollCount p.rdfifoStep p.rdfifoMax) ws ∧ ws.length ≤ p.rdFifoDepth

/-! ### How an operation ends, and what it may change -/

/-- The block an instruction acts on (R135). -/
def blockOf : Instr → InstId
  | .shortPkt n _ _ _ _ | .longHdr n _ _ _ | .longPayload n _ | .maxret n _ _ | .dcsread n _ _ | .eot n
  | .respLong1A n | .respLong1C n | .respAckerr n | .respShort1x11 n | .respShort1x21 n
  | .respShort2x12 n | .respShort2x22 n | .respInvalid n _
  | .pktVsyncStart n | .pktVsyncEnd n | .pktHsyncStart n | .pktHsyncEnd n | .pktBlanking n
  | .pktLongWrite n | .pktHActive16 n | .pktHActive18 n | .pktHActive18Np n | .pktHActive24 n
  | .lenNone n | .lenHsync n | .lenHbp n | .lenHact n | .lenHfp n | .lenCmd n | .lenIdx7 n
  | .slotHalf n _ _ _ | .tinit n _ _ | .tdeinit n | .enable n | .disable n | .cmdmode n
  | .twrite n _ _ _ _ | .nopw n | .tread n _ _ _ | .btachk n | .seths n _ | .envideo n | .clkon n
  | .seqprog n | .phyt n _ | .sold n | .plen n | .tupdate n _ | .getfreq n | .tping n _ _ _
  | .regw n _ _ | .regr n _ | .push n _ | .pop n | .trig n | .btareq n | .poll n _ _ _ => n

/-- Is it one of the nineteen operations of 00_scope.md R3 (format OP)? -/
def isOperation : Instr → Bool
  | .tinit .. | .tdeinit .. | .enable .. | .disable .. | .cmdmode .. | .twrite .. | .nopw .. | .tread ..
  | .btachk .. | .seths .. | .envideo .. | .clkon .. | .seqprog .. | .phyt .. | .sold .. | .plen ..
  | .tupdate .. | .getfreq .. | .tping .. => true
  | .shortPkt .. | .longHdr .. | .longPayload .. | .maxret .. | .dcsread .. | .eot ..
  | .respLong1A .. | .respLong1C .. | .respAckerr .. | .respShort1x11 .. | .respShort1x21 ..
  | .respShort2x12 .. | .respShort2x22 .. | .respInvalid ..
  | .pktVsyncStart .. | .pktVsyncEnd .. | .pktHsyncStart .. | .pktHsyncEnd .. | .pktBlanking ..
  | .pktLongWrite .. | .pktHActive16 .. | .pktHActive18 .. | .pktHActive18Np .. | .pktHActive24 ..
  | .lenNone .. | .lenHsync .. | .lenHbp .. | .lenHact .. | .lenHfp .. | .lenCmd .. | .lenIdx7 ..
  | .slotHalf .. | .regw .. | .regr .. | .push .. | .pop .. | .trig .. | .btareq .. | .poll .. => false

/-- Does it write the caller's `out_buffer` (20_memory.md R80 item 5)? -/
def storesBytes : Instr → Bool
  | .respLong1A .. | .respLong1C .. | .respAckerr .. | .respShort1x11 .. | .respShort1x21 ..
  | .respShort2x12 .. | .respShort2x22 .. | .respInvalid .. | .tread .. | .tping .. => true
  | .shortPkt .. | .longHdr .. | .longPayload .. | .maxret .. | .dcsread .. | .eot ..
  | .pktVsyncStart .. | .pktVsyncEnd .. | .pktHsyncStart .. | .pktHsyncEnd .. | .pktBlanking ..
  | .pktLongWrite .. | .pktHActive16 .. | .pktHActive18 .. | .pktHActive18Np .. | .pktHActive24 ..
  | .lenNone .. | .lenHsync .. | .lenHbp .. | .lenHact .. | .lenHfp .. | .lenCmd .. | .lenIdx7 ..
  | .slotHalf .. | .tinit .. | .tdeinit .. | .enable .. | .disable .. | .cmdmode .. | .twrite ..
  | .nopw .. | .btachk .. | .seths .. | .envideo .. | .clkon .. | .seqprog .. | .phyt .. | .sold ..
  | .plen .. | .tupdate .. | .getfreq .. | .regw .. | .regr .. | .push .. | .pop .. | .trig ..
  | .btareq .. | .poll .. => false

/-- How many bytes of `out_buffer` an operation says it wrote (43_bta_read.md R262, R361). -/
def deliveredBytes : Option Result → Nat
  | some ⟨_, _, .bytes n⟩ => n
  | some ⟨_, _, .ping _ n⟩ => n
  | _ => 0

/-- The packet a write sends (R220, R235). -/
def writtenPacket (p : Params) : Instr → Option PacketDesc
  | .twrite _ isLong ct reg payload => some ⟨ct, reg, payload, isLong⟩
  | .nopw _ => some (nopPacket p)
  | _ => none

/-- The software-visible structure of a block is zero (10_state.md R70). -/
def StructureZero (p : Params) (i : Instance) : Prop :=
  i.cfg = zeroDescriptor ∧ i.curPhyFreq = 0 ∧ i.hsMode = false ∧ i.hostActive = false ∧
    i.hostClkOn = false ∧ i.solDelay = 0 ∧ i.gangedHalf = none ∧ i.lock = .free ∧ i.engine = .idle ∧
    i.phase = .none ∧ i.snap = ⟨false, zeroHostControl p, zeroControl p⟩ ∧ i.te = none ∧
    i.res = ⟨false, false, false, false⟩ ∧ i.padsCalibrated = false

/-- The operation ends with a status and what it delivers, block `n` being `i` and the rest of the
machine as it was (R10 (a), R360). -/
def Ends (s : State) (n : InstId) (i : Instance) (st : Status) (out : Output) : Out :=
  .next { s.setInst n i with result := some ⟨n, st, out⟩, gangedStep := .idle }

/-- The host-control snapshot an operation leaves behind: taken only where the host was not the owner of
the FIFO (R27, R221). -/
def Instance.snapAfter (i : Instance) : Snap :=
  if i.hostActive then i.snap else ⟨false, i.regs.hostControl, i.regs.control⟩

/-- Does a trigger hand the queued words to the packetiser at once? Under the override always, else in
immediate mode (R214, R221). -/
def Instance.sendsAtOnce (i : Instance) : Bool :=
  !i.hostActive || i.regs.hostControl.triggerMode = .immediate

/-- The packets handed over, the newest first, after `ws` is sent behind what was queued and, on a
wedged link, behind unspecified words (R214, R221, R227, R83; log 9). -/
def Instance.handedOver (ws : List FifoWord) (i : Instance) : List (List FifoWord) :=
  if i.sendsAtOnce then (i.ahead ++ ws) :: i.sent else i.sent

/-- What each trigger of several packets hands over: the first what stood before it besides (R227, R83). -/
def Instance.burst (p : Params) (i : Instance) : List PacketDesc → List (List FifoWord)
  | [] => []
  | d :: r => (i.ahead ++ i.packetWords p d) :: r.map (i.packetWords p)

/-- `j` is `i` but for what a wait, a push or a trigger changes. -/
def LinkStep (i j : Instance) : Prop :=
  ∃ e tr h fl se ph ft, j = { i with
    env := e, regs := { i.regs with trigger := tr }, hfifo := h, flight := fl, sent := se, phase := ph,
    freeTick := ft }

/-- `j` is `i` but for the link's traffic: the environment's answers used up and the calls made, TRIGGER,
the host FIFO and whether a trigger is in flight, the record of what was sent, the phase, the snapshot, the
free-value counter. -/
def OnlyLink (i j : Instance) : Prop :=
  ∃ e tr h fl se ph sn ft, j = { i with
    env := e, regs := { i.regs with trigger := tr }, hfifo := h, flight := fl, sent := se, phase := ph,
    snap := sn, freeTick := ft }

/-- `j` is `i` but for what a step of a read changes. -/
def ReadStep (i j : Instance) : Prop :=
  ∃ e tr ba im h fl rf bs sg rl se ph ft, j = { i with
    env := e
    regs := { i.regs with
      trigger := tr, btaActive := ba, hostControl := { i.regs.hostControl with immBta := im } }
    hfifo := h, flight := fl, rfifo := rf, btaSeen := bs, staging := sg, readLen := rl, sent := se,
    phase := ph, freeTick := ft }

/-- `j` is `i` but for the link's traffic and a turn-around: besides, `IMM_BTA`, `BTA_ACTIVE`, the read
FIFO and the staged response. -/
def OnlyRead (i j : Instance) : Prop :=
  ∃ e tr ba im h fl rf bs sg rl se ph sn ft, j = { i with
    env := e
    regs := { i.regs with
      trigger := tr, btaActive := ba, hostControl := { i.regs.hostControl with immBta := im } }
    hfifo := h, flight := fl, rfifo := rf, btaSeen := bs, staging := sg, readLen := rl, sent := se,
    phase := ph, snap := sn, freeTick := ft }

/-! ### A continuous clock (44_clock_lane_mode.md R299 to R303) -/

/-- `j` is `i` but for the video path: the environment, the mode and the clock, the registers written on the way,
the link's traffic and a turn-around. -/
def OnlyVideo (i j : Instance) : Prop :=
  ∃ e f hs r hf fl rf bs se ph sn ft, j = { i with
    env := e, curPhyFreq := f, hsMode := hs, regs := r, hfifo := hf, flight := fl, rfifo := rf,
    btaSeen := bs, sent := se, phase := ph, snap := sn, freeTick := ft } ∧
    r.hostControl.triggerMode = i.regs.hostControl.triggerMode ∧ r.errorFlag = i.regs.errorFlag ∧
    r.threshold = i.regs.threshold ∧ r.padEnable = i.regs.padEnable ∧ r.syncpt = i.regs.syncpt

/-- How many mode switches a continuous-clock policy makes: one into high speed unless the block is there, one
back when the self-check fails (R299, R303). -/
def Instance.modeSwitches (i : Instance) (checked : Status) : Nat :=
  (if i.hsMode then 0 else 1) + if checked = .success then 0 else 1

/-- The PHY fields after the policy's workaround (R300, R301; log 29). -/
def warFields (p : Params) (c : HsClkPolicy) (f : PhyFields) : PhyFields :=
  match c with
  | .txOnly | .continuous => f
  | .continuousThspreprWar | .continuousThspreprPllWar =>
    match p.thspreprWarValue with
    | some v => { f with thsPrepare := min v p.fieldMax.thsPrepare }
    | none => f

/-- The calls of the policy's workaround, the newest first (R300, R301; log 24). -/
def warCalls (p : Params) (c : HsClkPolicy) : List EnvCall :=
  match c with
  | .txOnly | .continuous => []
  | .continuousThspreprWar => [.settleWait p.settleWait, .settleWait p.settleWait]
  | .continuousThspreprPllWar => [.pllWorkaround, .settleWait p.settleWait, .settleWait p.settleWait]

/-- The numbered attempts up to the `m`-th, the newest first (R305; log 24). -/
def attemptCalls (m : Nat) : List EnvCall :=
  ((List.range m).map (fun k => EnvCall.turnOnClockAttempt (k + 1))).reverse

/-- The block inside `Enable` when its clock is set: the half of a ganged panel, the SOL delay, the frequency and
PHY timing (R326 steps (2) to (4)). -/
def Instance.latched (p : Params) (sol f : Nat) (t : PhyTimingSet) (i : Instance) : Instance :=
  { i with
    gangedHalf := i.halfWidth, solDelay := sol, curPhyFreq := i.clockAt 0
    regs := { i.regs with phy := t.fields, bta := t.triad, timeout := t.timeout }
    env := { i.env with
      clock := i.env.clock.advance 1
      calls := .clockConfigure f p.clockTolerance :: i.env.calls } }

/-- `j` is `i` after an `EnableVideoTransmission` under a continuous-clock policy: the clock turned on at attempt
`m + 1`, the link ready at once, and `ws` the panel's answer to the self-check (R295 to R305). Where the check
fails the block has fallen back (R303). -/
structure ContinuousVideo (p : Params) (m : Nat) (ws : List Word) (act : PacketId) (l : PktLen)
    (i j : Instance) : Prop where
  /-- nothing but the video path changes -/
  frame : OnlyVideo i j
  /-- high speed where the check succeeds, else low power (R302, R303) -/
  hsMode : j.hsMode = (classifyBta ws == .success)
  /-- a mode switch writes `HS_TRANSMIT` (R290) -/
  hsTransmit : i.modeSwitches (classifyBta ws) ≠ 0 → j.regs.hostControl.hsTransmit = j.hsMode
  /-- the interface is on again (R297) -/
  ifEnable : j.regs.ifEnable = true
  /-- `CONTROL` built anew, the clock lane continuous where the check succeeds (R297, R299, R303) -/
  control : j.regs.control =
    ⟨true, false, p.hostFifoSel, if classifyBta ws = .success then .continuous else .txOnly⟩
  /-- the program of the mode (R298) -/
  slots : j.regs.slots = mirrorSlot (modeProgram p i.cfg.videoMode act i.regs.slots.s5)
  /-- the lengths (R298) -/
  pktLen : j.regs.pktLen = l
  /-- the SOL delay (R298) -/
  solDelay : j.regs.solDelay = i.solDelay
  /-- the clock service's answer to the last mode switch (R292) -/
  freq : j.curPhyFreq = if i.modeSwitches (classifyBta ws) = 0 then i.curPhyFreq
    else i.clockAt (i.modeSwitches (classifyBta ws))
  /-- PHY timing follows the clock, with the workaround where the check succeeds (R294, R300) -/
  timing : ∃ T : PhyTimingSet,
    (if i.modeSwitches (classifyBta ws) = 0 then T = ⟨i.regs.phy, i.regs.bta, i.regs.timeout⟩
      else i.computePhy p j.curPhyFreq = some T) ∧
    j.regs.phy = (if classifyBta ws = .success then warFields p i.cfg.hsClkPolicy T.fields else T.fields) ∧
    j.regs.bta = T.triad ∧ j.regs.timeout = T.timeout
  /-- nothing is left in the host FIFO (R83) -/
  hfifo : j.hfifo = [] ∧ j.flight = .none
  /-- nothing is left in the read FIFO (R255) -/
  rfifo : j.rfifo = []
  /-- the self-check's packet went out in high-speed mode (R302) -/
  sent : j.sent = i.handedOver (({ i with hsMode := true }).packetWords p (nopPacket p))
  /-- the answers used up (log 6) -/
  env : j.env.trigger = i.env.trigger.advance (linkReads p (i.modeSwitches (classifyBta ws) + 1) 1) ∧
    j.env.syncpt = i.env.syncpt.advance (counterWaits p 1) ∧
    j.env.clock = i.env.clock.advance (1 + i.modeSwitches (classifyBta ws)) ∧
    j.env.attempt = i.env.attempt.advance (m + 1)
  /-- the calls made, the newest first (log 24) -/
  calls : j.env.calls =
    (if classifyBta ws = .success then [] else [.clockConfigure i.cfg.lpCmdClkKhz p.clockTolerance]) ++
    .clockDisable :: (counterCalls p 1 ++ .clockEnable :: (warCalls p i.cfg.hsClkPolicy ++
    ((if i.hsMode then [] else [.clockConfigure i.cfg.hsCmdClkKhz p.clockTolerance]) ++
    (attemptCalls (m + 1) ++ .clockConfigure i.curPhyFreq p.clockTolerance :: i.env.calls))))

end Sys2Proof.Machine
end

