-- ==== Sys2Proof/Certificates/Slice0/Obligations.lean ====
section
/-! DEFINITION. The statements for the provers, from the numbered rules of spec/. -/

open Sys2Proof Sys2Proof.Machine

/-! ### Encoding (30_encoding.md) -/

/-- Every well-formed instruction is decoded back from its own units, whatever the port presents behind
them (formats W32, RESP8, SEQ, OP, MICRO of R110). The lanes of the port are the model's choice (log 2). -/
def Obligations.EncodeThenDecode : Prop :=
  ∀ (i : Instr) (rest : List PortWord), i.wf = true → decode (encode i ++ rest) = .ok (i, rest)

/-- The decoder answers only with well-formed instructions and takes its instruction's units from the front of the
port and nothing else: on the command lane the command word and the operand words its row has (R135, R136), on
every other lane one unit. The lanes of the port are the model's choice (log 2). -/
def Obligations.DecodedIsWellFormed : Prop :=
  ∀ (us : List PortWord) (i : Instr) (rest : List PortWord), decode us = .ok (i, rest) →
    i.wf = true ∧ ∃ u us', us = u :: us' ∧
      (u.lane ≠ .command → rest = us') ∧
      (u.lane = .command → ∃ o, OpCode.ofNum (field u.word 0 8) = some o ∧
        o.operandCount (field u.word 16 16) ≤ us'.length ∧
        rest = us'.drop (o.operandCount (field u.word 16 16)))

/-- Words written out from the spec's encodings decode to what they stand for: V-OP-2, V-OP-5, V-OP-7,
V-OP-9, V-SW-3, V-LW-6, V-RC-3 of 95_test_vectors.md, and one unit of each other lane. The lanes of the port and
the unit of a slot half are the model's choice (log 2). -/
def Obligations.WrittenWordsDecode : Prop :=
  decode [⟨.command, 0x00020101⟩, ⟨.command, 0x00000000⟩] = .ok (.tinit .i1 2 0, []) ∧
  decode [⟨.command, 0x00040006⟩, ⟨.command, 0x0001392A⟩, ⟨.command, 0x3F010000⟩] =
    .ok (.twrite .i0 true 0x39 0x2A [0x00, 0x00, 0x01, 0x3F], []) ∧
  decode [⟨.command, 0x00010008⟩, ⟨.command, 0x0000000A⟩] = .ok (.tread .i0 false 0x0A 1, []) ∧
  decode [⟨.command, 0x0001000A⟩] = .ok (.seths .i0 true, []) ∧
  decode [⟨.packet .i0 .short, 0x00773A95⟩] = .ok (.shortPkt .i0 2 0x15 0x3A 0x77, []) ∧
  decode [⟨.packet .i0 .longHdr, 0x001234F9⟩] = .ok (.longHdr .i0 3 0x39 0x1234, []) ∧
  decode [⟨.packet .i1 .maxret, 0x00010077⟩] = .ok (.maxret .i1 1 256, []) ∧
  decode [⟨.response .i0, 0x1C⟩] = .ok (.respLong1C .i0, []) ∧
  decode [⟨.seqId .i0, 0x3E⟩] = .ok (.pktHActive24 .i0, []) ∧
  decode [⟨.seqLen .i1, 0x03⟩] = .ok (.lenHact .i1, []) ∧
  decode [⟨.slotHalf .i0, 0x1B⟩] = .ok (.slotHalf .i0 3 true true, [])

/-- Every operation number R136 does not list is refused, and so is a set bit of `cw[15:9]` (R139, R135), and a set
bit of `imm16` where the table of R136 gives it no use, which is the model's choice (log 17). So are a
packet-opening word or marker with a byte 3 that is not zero and a long header with `WC = 0`: R121 says that such
words are never produced, and refusing one at the port is the model's choice (log 1, log 2). -/
def Obligations.ReservedEncodingsRefused : Prop :=
  (∀ (s : State) (w : Word) (rest : List PortWord), s.port = ⟨.command, w⟩ :: rest →
    (field w 0 8 = 0 ∨ (0x14 ≤ field w 0 8 ∧ field w 0 8 ≤ 0x1F) ∨ 0x27 ≤ field w 0 8 ∨
      field w 9 7 ≠ 0 ∨
      field w 0 8 ∉ [0x01, 0x06, 0x08, 0x0A, 0x13, 0x20, 0x21, 0x26] ∧ field w 16 16 ≠ 0 ∨
      field w 0 8 = 0x0A ∧ 2 ≤ field w 16 16) →
    ∃ e, step s = .refused (.illegalCommand e)) ∧
  (∀ (s : State) (w : Word) (n : InstId) (row : PacketRow) (rest : List PortWord),
    s.port = ⟨.packet n row, w⟩ :: rest →
    (row ≠ .payload ∧ field w 24 8 ≠ 0 ∨ row = .longHdr ∧ field w 8 16 = 0) →
    ∃ e, step s = .refused (.illegalCommand e))

/-- A step runs the instruction the port presents, with the port moved past its units; so does a step from
a state whose port `withFetchWord` has filled. How the port and `withFetchWord` are laid out is the model's
choice (log 2, log 3). -/
def Obligations.StepRunsDecoded : Prop :=
  (∀ (s : State) (i : Instr) (rest : List PortWord), decode s.port = .ok (i, rest) →
    step s = exec i { s with port := rest }) ∧
  (∀ (s : State) (nbits w : Nat) (i : Instr) (rest : List PortWord),
    decode (tableUnits nbits w ++ s.port) = .ok (i, rest) →
    step (s.withFetchWord nbits w) = exec i { s with port := rest })

/-! ### The whole machine -/

/-- Before anything has run (R70): both structures zero, nothing initialised or faulted, the invariant. The zero
of an enumeration is the model's choice (log 12). -/
def Obligations.ResetIsZeroAndInvariant : Prop :=
  Inv State.reset ∧ ∀ n, StructureZero State.reset.params (State.reset.inst n) ∧
    (State.reset.inst n).lifecycle = .uninitialized ∧ (State.reset.inst n).fatal = none ∧
    (State.reset.inst n).initialized = false ∧ (State.reset.inst n).enabled = false

/-- Every step keeps the invariant: lock free, clock gate shut, engine idle and no override between
operations (R25, R26, R27, R38), the TE interrupt masked (R378), PHY registers within their ceilings and a
clock above 0 on a block that is initialised and not faulted (R40, R382), memories canonical. That a raw write
of a PHY register saturates and that the clock service answers above 0 are the model's choice (log 29, log
25). -/
def Obligations.StepKeepsInvariant : Prop :=
  ∀ s t : State, Inv s → step s = .next t → Inv t

/-- Between two operations the one thing that blocks is a ping while the DC holds its frame mutex (R25, R97); and
while a block's lock is held no instruction of an initialised block makes a step but `TransGetPhyFreq`, which takes
no lock (R347), and a repeated `TransInit`, which touches nothing (R337 (c)). That one operation is one step, that
waiting is a fault that moves nothing, and that the micro-operations and rows wait too is the model's choice (log
4, log 31, log 44). -/
def Obligations.OnlyTheFrameMutexBlocks : Prop :=
  (∀ (s : State) (f : Fault), Inv s → step s = .fault f → f = .blockedOnFrameMutex ∧ s.frameMutex = true ∧
    ∃ n reg len flags rest, decode s.port = .ok (.tping n reg len flags, rest)) ∧
  (∀ (i : Instr) (s t : State), Accepts s (blockOf i) → (s.inst (blockOf i)).lock = .held →
    (∀ n, i ≠ .getfreq n) → (∀ n d f, i ≠ .tinit n d f) → exec i s ≠ .next t)

/-- An instruction changes no other block, no parameter, no descriptor, not the port and not the frame
mutex (R20, R383); and a block between two operations keeps its identity (R21). -/
def Obligations.OneBlockChanges : Prop :=
  ∀ (i : Instr) (s t : State), exec i s = .next t →
    (∀ n, n ≠ blockOf i → t.inst n = s.inst n) ∧ t.params = s.params ∧ t.descTable = s.descTable ∧
    t.port = s.port ∧ t.frameMutex = s.frameMutex ∧
    (BlockOk s.params (blockOf i) (s.inst (blockOf i)) →
      (t.inst (blockOf i)).id = (s.inst (blockOf i)).id ∧
      (t.inst (blockOf i)).ctrlIndex = (s.inst (blockOf i)).ctrlIndex)

/-- Host memory is written by reads only, at the `out_buffer` of the block, and no further than the count
the result carries: every other byte reads as before (R80 item 5, R262). The DC's registers are written by
`Enable` and `Disable` only, and only at the controller of the block (R57, R58, R382). Where `out_buffer`
points is the model's own register (log 16). -/
def Obligations.MemoryAndDcFrame : Prop :=
  ∀ (i : Instr) (s t : State), exec i s = .next t →
    (∀ a : Nat, (storesBytes i = true → a < (s.inst (blockOf i)).outBuf ∨
      (s.inst (blockOf i)).outBuf + deliveredBytes t.result ≤ a) → t.mem.read a = s.mem.read a) ∧
    ((∀ n, i ≠ .enable n ∧ i ≠ .disable n) → t.dc = s.dc) ∧
    (BlockOk s.params (blockOf i) (s.inst (blockOf i)) →
      ∀ c, c ≠ (s.inst (blockOf i)).ctrlIndex → t.dcRegs c = s.dcRegs c)

/-! ### Checks (60_exceptions.md R364, R366, R370) -/

/-- A fatal record is sticky: every operation but `TransDeinit` answers `FatalHardwareFault` and touches
nothing; `TransDeinit` clears it (R28). -/
def Obligations.FatalIsSticky : Prop :=
  (∀ (i : Instr) (s : State), isOperation i = true → (∀ n, i ≠ .tdeinit n) →
    (s.inst (blockOf i)).fatal ≠ none →
    exec i s = Ends s (blockOf i) (s.inst (blockOf i)) .fatalHardwareFault .none) ∧
  (∀ (n : InstId) (s : State), (s.inst n).lock = .free →
    ∃ j, exec (.tdeinit n) s = Ends s n j .success .none ∧ j.fatal = none)

/-- Every operation but `TransInit` and `TransDeinit` answers `NotInitialized` on a block that is not
initialised, after the fatal check and before the lock, and touches nothing (R364). -/
def Obligations.NotInitializedFirst : Prop :=
  ∀ (i : Instr) (s : State), isOperation i = true → (∀ n d f, i ≠ .tinit n d f) →
    (∀ n, i ≠ .tdeinit n) → (s.inst (blockOf i)).fatal = none →
    (s.inst (blockOf i)).initialized = false →
    exec i s = Ends s (blockOf i) (s.inst (blockOf i)) .notInitialized .none

/-- The same two checks stand before the engine's micro-operations and the table's other rows: the model's
choice (log 19). -/
def Obligations.RowsAreChecked : Prop :=
  ∀ (i : Instr) (s : State), isOperation i = false →
    ((s.inst (blockOf i)).fatal ≠ none →
      exec i s = Ends s (blockOf i) (s.inst (blockOf i)) .fatalHardwareFault .none) ∧
    ((s.inst (blockOf i)).fatal = none → (s.inst (blockOf i)).initialized = false →
      exec i s = Ends s (blockOf i) (s.inst (blockOf i)) .notInitialized .none)

/-! ### Lifecycle (45_lifecycle.md) -/

/-- A successful `TransInit` leaves the block's reset state (R71): every entry of the table, in every field it names.
What the zeroing pass does not reach (TRIGGER, the STATUS bits, SOL_DELAY, SYNCPT, both FIFOs and whether a trigger
is in flight) R71 and R401 leave unspecified: it is what the hardware is found to hold, one answer of the
environment, the model's choice (log 49). The numbering of the calls that may fail is the model's choice too (log
36), and so is checking the overrides up front (log 42). -/
def Obligations.TransInitLeavesResetState : Prop :=
  ∀ (n : InstId) (desc : BitVec 16) (flags : Word) (s : State),
    let p := s.params
    let i := s.inst n
    let d := s.descriptor desc.toNat
    i.fatal = none → i.initialized = false → descriptorOk d = true → overridesFit p d = true →
    (d.dataFormat ≠ .unknown ∨ d.phyOverrides ≠ none) →
    (∀ k, k < (if d.teGpioPresent then 6 else 4) → i.initAt k = true) →
    ∃ j T, exec (.tinit n desc flags) s = Ends s n j .success .none ∧
      j.lifecycle = .transportReady ∧ j.initialized = true ∧ j.enabled = false ∧
      j.hsMode = false ∧ j.hostActive = false ∧ j.fatal = none ∧ j.lock = .free ∧
      j.engine = .idle ∧ j.phase = .none ∧ j.snap.overrideActive = false ∧ j.hostClkOn = false ∧
      j.solDelay = 0 ∧ j.padsCalibrated = false ∧
      j.te = (if d.teGpioPresent then some ⟨false, true⟩ else none) ∧
      j.cfg = { d with maxInitClock := min d.maxInitClock p.maxInitClockCeiling } ∧
      EnvCall.clockConfigure (min d.lpCmdClkKhz (min d.maxInitClock p.maxInitClockCeiling))
        p.clockTolerance ∈ j.env.calls ∧
      j.curPhyFreq = i.clockAt 0 ∧ j.computePhy p j.curPhyFreq = some T ∧
      j.regs = {
        ifEnable := false, control := zeroControl p, hostControl := zeroHostControl p
        trigger := (i.foundAt 0).trigger, btaActive := (i.foundAt 0).btaActive
        errorFlag := (i.foundAt 0).errorFlag
        slots := zeroSlots, pktLen := zeroPktLen, threshold := 0
        phy := T.fields, bta := T.triad, timeout := T.timeout, padEnable := true
        solDelay := (i.foundAt 0).solDelay, syncpt := (i.foundAt 0).syncpt } ∧
      j.hfifo = (i.foundAt 0).hfifo.take p.hostFifoDepth ∧ j.flight = (i.foundAt 0).flight ∧
      j.rfifo = (i.foundAt 0).rfifo

/-- The other ends of `TransInit`: initialised already, nothing happens (R337 (c)); an illegal descriptor is
refused (R321 step (2), R152); a call that fails unwinds to a zero structure (R322), the TE calls also on an unknown
format whose overrides are in force; an unknown format without overrides is a fatal fault (R367). The numbering of the calls that may fail is the model's choice (log 36), and so is
checking the overrides up front (log 42). -/
def Obligations.TransInitOtherEnds : Prop :=
  ∀ (n : InstId) (desc : BitVec 16) (flags : Word) (s : State),
    let p := s.params
    let i := s.inst n
    let d := s.descriptor desc.toNat
    i.fatal = none →
    (i.initialized = true → exec (.tinit n desc flags) s = Ends s n i .success .none) ∧
    (i.initialized = false → descriptorOk d = false →
      exec (.tinit n desc flags) s = .refused .badDescriptor) ∧
    (i.initialized = false → descriptorOk d = true → overridesFit p d = false →
      exec (.tinit n desc flags) s = .refused .overrideTooLarge) ∧
    (i.initialized = false → descriptorOk d = true → overridesFit p d = true →
      (∃ k, i.initAt k = false ∧ (∀ m, m < k → i.initAt m = true) ∧
        (k < 4 ∨ k < 6 ∧ d.teGpioPresent = true ∧ (d.dataFormat ≠ .unknown ∨ d.phyOverrides ≠ none))) →
      ∃ j, exec (.tinit n desc flags) s = Ends s n j .initFailed .none ∧ StructureZero p j ∧
        j.lifecycle = .uninitialized ∧ j.fatal = none) ∧
    (i.initialized = false → descriptorOk d = true → d.dataFormat = .unknown → d.phyOverrides = none →
      (∀ k, k < 4 → i.initAt k = true) →
      ∃ j, exec (.tinit n desc flags) s = Ends s n j .fatalHardwareFault .none ∧
        j.fatal = some .unknownDataFormat)

/-- `TransDeinit` (R336): what was acquired is released in reverse order and nothing else is (the newest
call stands first), the structure is zero, the registers and FIFOs keep what they hold; with the lock held
it is refused (R426). The record of the calls is the model's own (log 24). -/
def Obligations.TransDeinitTearsDown : Prop :=
  ∀ (n : InstId) (s : State), let i := s.inst n
    (i.lock = .free → ∃ j, exec (.tdeinit n) s = Ends s n j .success .none ∧
      StructureZero s.params j ∧ j.lifecycle = .disabled ∧ j.fatal = none ∧
      j.env.calls =
        (if i.res.device then [.closeDevice] else []) ++
        (if i.res.aperture then [.unmapAperture] else []) ++
        (if i.res.power then [.unregisterPowerClock] else []) ++
        (if i.te.isSome then [.destroySemaphore] else []) ++
        (if i.res.edgeHandler then [.unregisterEdgeHandler] else []) ++ i.env.calls ∧
      j.regs = i.regs ∧ j.hfifo = i.hfifo ∧ j.rfifo = i.rfifo) ∧
    (i.lock = .held → exec (.tdeinit n) s = .refused .deinitWhileLocked)

/-- `Enable` (R326, R295 to R305) in every video mode and under every clock policy: the block and the DC after it,
with the calls it made (their record is the model's own, log 24). A ganged panel's half replaces its width (R340),
and the pair of a left-right panel is written after block 1 (R342; log 26). With a transmit-only clock nothing else
happens; with a continuous one the clock comes on at attempt `m + 1`, the link is ready and the panel answers the
self-check with `ws`, and the block is as `ContinuousVideo` says. What is refused before anything is touched is the
model's choice (log 42, log 23), and so are the draws of the environment (log 6, log 8) and that the self-check's
turn-around opens no clock gate of its own (log 51). The SOL delay of the burst and ganged modes, and the split, are
free within their stated properties (log 27). -/
def Obligations.EnableProgramsTheLink : Prop :=
  ∀ (n : InstId) (s : State),
    let p := s.params
    let i := s.inst n
    let g := { i with gangedHalf := i.halfWidth }
    let check := Instance.sendRefusal p { i with hsMode := true } (nopPacket p)
    let half : GangedPair := ⟨0, i.split.left, i.split.left, i.split.right⟩
    let last := i.cfg.videoMode = .ganged ∧ n = .i1
    let ends (j : Instance) : Prop := ∃ t, exec (.enable n) s = .next t ∧
      t.inst n = { j with
        padsCalibrated := true, hostActive := false, lifecycle := .enabled
        env := { j.env with calls :=
          (if last then [.dcWriteGanged i.ctrlIndex (gangedPair p i.cfg.split i.split)] else []) ++
            .padCalibrate :: .dcWriteOutputActive i.ctrlIndex true :: j.env.calls } } ∧
      (t.dcRegs i.ctrlIndex).outputActive = true ∧
      (¬ last → (t.dcRegs i.ctrlIndex).ganged = (s.dcRegs i.ctrlIndex).ganged) ∧
      (last → i.cfg.split = .leftRight → (t.dcRegs i.ctrlIndex).ganged = half) ∧
      (last → i.cfg.split = .oddEven → (t.dcRegs i.ctrlIndex).ganged = p.oddEvenPair) ∧
      t.result = some ⟨n, .success, .none⟩ ∧
      (i.id = n → t.gangedStep = if i.cfg.videoMode = .ganged ∧ n = .i0 then .firstEnabled else .idle)
    Accepts s n → MemoryOk s → i.lock = .free →
    (last → s.gangedStep = .firstEnabled) →
    (overridesFit p i.cfg = false → exec (.enable n) s = .refused .overrideTooLarge) ∧
    (overridesFit p i.cfg = true → i.cfg.hsClkPolicy ≠ .txOnly →
      ∀ r, check = some r → exec (.enable n) s = .refused r) ∧
    (overridesFit p i.cfg = true → i.cfg.dataFormat ≠ .unknown →
      ∃ sol f act L T, g.computeSol = some (sol, f) ∧ activeId i.cfg.dataFormat = some act ∧
        g.computeLengths = some L ∧ g.computePhy p (i.clockAt 0) = some T ∧
        (i.cfg.hsClkPolicy = .txOnly → ends { i with
          gangedHalf := i.halfWidth, solDelay := sol, curPhyFreq := i.clockAt 0
          regs := { i.regs with
            ifEnable := true, control := ⟨true, false, p.hostFifoSel, .txOnly⟩
            slots := mirrorSlot (modeProgram p i.cfg.videoMode act i.regs.slots.s5)
            pktLen := L, solDelay := sol, phy := T.fields, bta := T.triad, timeout := T.timeout }
          env := { i.env with
            clock := i.env.clock.advance 2
            calls := .clockConfigure (i.clockAt 0) p.clockTolerance ::
              .clockConfigure f p.clockTolerance :: i.env.calls } }) ∧
        (∀ m ws, i.cfg.hsClkPolicy ≠ .txOnly → check = none → AtRest i → PollsOk p →
          m < 5 → (∀ k, k < m → i.attemptAt k = false) → i.attemptAt m = true →
          LinkReady p (i.modeSwitches (classifyBta ws) + 1) 1 i → PanelAnswers p i ws →
          ∃ k, ContinuousVideo p m ws act L (i.latched p sol f T) k ∧ ends k))

/-- Ganged setup: an `Enable` of block 1 that does not come right after that of block 0 is given no meaning
(R96, R407); the halves of the split cover the width with the padding, each in whole lane groups (R341,
property P8). The split is free within these properties (log 27). -/
def Obligations.GangedSetup : Prop :=
  (∀ (s : State), Accepts s .i1 → s.inst1.cfg.videoMode = .ganged → s.gangedStep ≠ .firstEnabled →
    exec (.enable .i1) s = .refused .gangedOutOfOrder) ∧
  (∀ (w lanes : Nat), 0 < lanes →
    (gangedSplit w lanes).left + (gangedSplit w lanes).right = w + (gangedSplit w lanes).pad ∧
      (gangedSplit w lanes).left % lanes = 0 ∧ (gangedSplit w lanes).right % lanes = 0)

/-- `Disable` (R333): interface off, output path inactive, back to `TransportReady`, and nothing else of the
block; in `TransportReady` nothing is touched (R337 (e)). The record of the calls is the model's own (log 24). -/
def Obligations.DisableStopsTheLink : Prop :=
  ∀ (n : InstId) (s : State), let i := s.inst n
    Accepts s n → i.lock = .free →
    (i.lifecycle = .transportReady → exec (.disable n) s = Ends s n i .success .none) ∧
    (i.lifecycle ≠ .transportReady → MemoryOk s → ∃ t, exec (.disable n) s = .next t ∧
      t.inst n = { i with
        regs := { i.regs with ifEnable := false }
        hostActive := false, lifecycle := .transportReady
        env := { i.env with calls := .dcWriteOutputActive i.ctrlIndex false :: i.env.calls } } ∧
      t.dcRegs i.ctrlIndex = { s.dcRegs i.ctrlIndex with outputActive := false } ∧
      t.mem = s.mem ∧ t.result = some ⟨n, .success, .none⟩)

/-- `TransEnableCommandMode` (R330): the host owns the FIFO path, the clock service is asked for the low-power
target, PHY timing follows its answer, and nothing else of the block changes. From low-power mode that is all;
from high-speed mode it goes through `SetHighSpeedMode(false)` (R292), which ends in low-power mode on a link
that is ready, else in the fatal fault (R293); a link seen ready has sent what a trigger in flight was sending
(R83; log 46). The record of the calls is the model's own (log 24), the up-front check of the overrides its choice
(log 42). -/
def Obligations.CommandModeSwitches : Prop :=
  ∀ (n : InstId) (s : State),
    let p := s.params
    let i := s.inst n
    Accepts s n → i.lock = .free → overridesFit p i.cfg = true →
    (i.cfg.dataFormat ≠ .unknown ∨ i.cfg.phyOverrides ≠ none) →
    ∃ T, i.computePhy p (i.clockAt 0) = some T ∧
    (i.hsMode = false →
      exec (.cmdmode n) s = Ends s n { i with
        hostActive := true, curPhyFreq := i.clockAt 0, lifecycle := .commandModeEnabled
        regs := { i.regs with
          control := { i.regs.control with videoEnable := false, hostEnable := true }
          hostControl := { i.regs.hostControl with triggerMode := .immediate }
          phy := T.fields, bta := T.triad, timeout := T.timeout }
        env := { i.env with
          clock := i.env.clock.advance 1
          calls := .clockConfigure i.cfg.lpCmdClkKhz p.clockTolerance :: i.env.calls } }
        .success .none) ∧
    (∀ m, i.hsMode = true → m < pollCount p.cmdReadyStep p.cmdReadyMax → i.ReadyAfter 0 m →
      exec (.cmdmode n) s = Ends s n { i with
        hostActive := true, hsMode := false, curPhyFreq := i.clockAt 0
        lifecycle := .commandModeEnabled, hfifo := i.queued, flight := settledFlight i.flight
        regs := { i.regs with
          trigger := 0
          control := { i.regs.control with videoEnable := false, hostEnable := true }
          hostControl := { i.regs.hostControl with triggerMode := .immediate, hsTransmit := false }
          phy := T.fields, bta := T.triad, timeout := T.timeout }
        env := { i.env with
          clock := i.env.clock.advance 1, trigger := i.env.trigger.advance (m + 1)
          calls := .clockConfigure i.cfg.lpCmdClkKhz p.clockTolerance :: i.env.calls } }
        .success .none) ∧
    (i.hsMode = true → (∀ k, k < pollCount p.cmdReadyStep p.cmdReadyMax → i.triggerAt k ≠ 0) →
      ∃ j, exec (.cmdmode n) s = Ends s n j .fatalHardwareFault .none ∧
        j.fatal = some .cmdModeNotReadyAfterModeSwitch ∧ j.lock = .free)

/-- `TransGetPhyFreq` (R347): `cur_phy_freq`, whatever the lock, and nothing changes. -/
def Obligations.GetFreqReads : Prop :=
  ∀ (n : InstId) (s : State), Accepts s n →
    exec (.getfreq n) s = Ends s n (s.inst n) .success (.khz (s.inst n).curPhyFreq)

/-! ### Packets and writes (30_encoding.md, 42_packet_framer_write.md) -/

/-- The payload words of a long packet (R115): `reg_addr` and then the caller's data, four bytes a word,
byte 0 first and absent bytes 0, `ceil(WC / 4)` words, one word for an empty payload; they follow the header
and only the marker of R226 follows them. -/
def Obligations.LongPayloadWords : Prop :=
  ∀ (p : Params) (i : Instance) (d : PacketDesc), d.isLong = true →
    ∃ (h : FifoWord) (ws : List Word), h.kind = .longHeader ∧
      i.packetWords p d =
        h :: (ws.map (fun w => ⟨.payload, w⟩) ++ if i.hsMode then [⟨.eot, p.eotWord⟩] else []) ∧
      ws.length = (d.payload.length + 1 + 3) / 4 ∧
      (∀ k j, k < ws.length → j < 4 →
        byteOf (ws.getD k 0) j = (d.reg :: d.payload).getD (4 * k + j) 0) ∧
      (unpackWords ws).take (d.payload.length + 1) = d.reg :: d.payload

/-- The packet-opening words byte by byte: the data identifier in byte 0 (R111), the short packet's two parameter bytes
(R112), the long header's 16-bit word count, low byte first (R114), the two read control words (R116, R117), and
byte 3 zero in each (R113). -/
def Obligations.OpeningWords : Prop :=
  ∀ (vc : BitVec 2) (ct : BitVec 6) (reg data : Byte) (wc : BitVec 16),
    shortPacketWord vc ct reg data = BitVec.append (0 : BitVec 8) (data ++ reg ++ vc ++ ct) ∧
    longHeaderWord vc ct wc = BitVec.append (0 : BitVec 8) (wc ++ vc ++ ct) ∧
    maxretWord vc ct wc = BitVec.append (0 : BitVec 8) (wc ++ vc ++ ct) ∧
    dcsreadWord vc ct reg = BitVec.append (0 : BitVec 16) (reg ++ vc ++ ct)

/-- The packet of a write (R223, R225): a short packet is one word with the first payload byte or 0, a long
one opens with its header; the marker ends a packet in high-speed mode and never otherwise (R226, R118,
R423), and so for the two read control packets (R260, R261). -/
def Obligations.MarkerOnlyInHighSpeed : Prop :=
  ∀ (p : Params) (i : Instance) (d : PacketDesc) (reg : Byte) (len : BitVec 16),
    let vc : BitVec 2 := BitVec.ofNat 2 i.cfg.virtualChannel
    let mark (on : Bool) : List FifoWord := if i.hsMode && on then [⟨.eot, p.eotWord⟩] else []
    (d.isLong = false → i.packetWords p d =
      ⟨.shortWord, shortPacketWord vc d.cmdType d.reg (d.payload.headD 0)⟩ :: mark p.eotOnShort) ∧
    (d.isLong = true → ∃ ws : List Word, i.packetWords p d =
      ⟨.longHeader, longHeaderWord vc d.cmdType (BitVec.ofNat 16 (d.payload.length + 1))⟩ ::
        (ws.map (fun w => ⟨.payload, w⟩) ++ mark true)) ∧
    i.maxretWords p len = ⟨.shortWord, maxretWord vc p.maxretOpcode len⟩ :: mark p.eotOnReadCtrl ∧
    i.dcsreadWords p reg = ⟨.shortWord, dcsreadWord vc p.dcsreadOpcode reg⟩ :: mark p.eotOnReadCtrl

/-- `WriteCommand` and `NopWrite` (R220, R235) on a link that is ready at the `m`-th read and completes at the
`k`-th after the trigger: exactly those reads of TRIGGER, the packet handed over, the host FIFO empty, the
registers as before but TRIGGER (R221, R229). That each read of TRIGGER is one draw of the environment and
that the packet's words are recorded are the model's choice (log 6, log 7, log 24). -/
def Obligations.WriteCompletes : Prop :=
  ∀ (x : Instr) (s : State) (d : PacketDesc) (m k : Nat),
    let p := s.params
    let n := blockOf x
    let i := s.inst n
    writtenPacket p x = some d → Accepts s n → AtRest i → p.useSyncpt = false →
    i.sendRefusal p d = none →
    m < pollCount p.cmdReadyStep p.cmdReadyMax → k < pollCount p.triggerStep p.triggerMax →
    i.ReadyAfter 0 m → i.ReadyAfter (m + 1) k →
    exec x s = Ends s n { i with
      env := { i.env with
        trigger := i.env.trigger.advance (m + 1 + (k + 1))
        calls := .clockDisable :: .clockEnable :: i.env.calls }
      regs := { i.regs with trigger := 0 }
      hfifo := [], flight := .none, sent := i.handedOver (i.packetWords p d), phase := .none
      snap := i.snapAfter }
      .success .none

/-- The same where completion is learnt from the completion counter (R215, R379): one draw, no read. The counter's
answer is one draw of the environment, the model's choice (log 6). -/
def Obligations.WriteCompletesOnCounter : Prop :=
  ∀ (x : Instr) (s : State) (d : PacketDesc) (m : Nat),
    let p := s.params
    let n := blockOf x
    let i := s.inst n
    writtenPacket p x = some d → Accepts s n → AtRest i → p.useSyncpt = true →
    i.sendRefusal p d = none → m < pollCount p.cmdReadyStep p.cmdReadyMax → i.ReadyAfter 0 m →
    ∃ j, exec x s = Ends s n j (if i.syncptAt 0 then .success else .triggerTimeout) .none ∧
      OnlyLink i j ∧ j.env.trigger = i.env.trigger.advance (m + 1) ∧
      j.env.syncpt = i.env.syncpt.advance 1 ∧
      j.sent = i.handedOver (i.packetWords p d) ∧
      (i.syncptAt 0 = true → j.hfifo = [] ∧ j.flight = .none)

/-- A link that is never ready (R222, property P7): `HardwareBusyTimeout` after exactly
`ceil(CMD_READY_MAX / CMD_READY_STEP)` reads of TRIGGER, with nothing pushed, triggered or sent, `CONTROL` and
`HOST_CONTROL` as before. One draw of the environment a read is the model's choice (log 6, log 7). -/
def Obligations.BusyLinkTimesOut : Prop :=
  ∀ (x : Instr) (s : State) (d : PacketDesc),
    let p := s.params
    let n := blockOf x
    let i := s.inst n
    writtenPacket p x = some d → Accepts s n → AtRest i → i.sendRefusal p d = none →
    (∀ j, j < pollCount p.cmdReadyStep p.cmdReadyMax → i.triggerAt j ≠ 0) →
    ∃ w, exec x s = Ends s n { i with
      env := { i.env with
        trigger := i.env.trigger.advance (pollCount p.cmdReadyStep p.cmdReadyMax)
        calls := .clockDisable :: .clockEnable :: i.env.calls }
      regs := { i.regs with trigger := w }, phase := .none, snap := i.snapAfter }
      .hardwareBusyTimeout .none

/-- Completion not observed within the bound (R227): `TriggerTimeout`, the packet handed over under one
trigger with everything that was queued, and only the host FIFO's contents and TRIGGER left open (R83): TRIGGER is a
free value, and the FIFO is `lost`, so that any words, a free value at each use, stand in it until a packet's completion
is observed (log 9). -/
def Obligations.CompletionTimesOut : Prop :=
  ∀ (x : Instr) (s : State) (d : PacketDesc) (m : Nat),
    let p := s.params
    let n := blockOf x
    let i := s.inst n
    writtenPacket p x = some d → Accepts s n → AtRest i → p.useSyncpt = false →
    i.sendRefusal p d = none → m < pollCount p.cmdReadyStep p.cmdReadyMax → i.ReadyAfter 0 m →
    (∀ j, j < pollCount p.triggerStep p.triggerMax → i.triggerAt (m + 1 + j) ≠ 0) →
    ∃ tr, exec x s = Ends s n { i with
      env := { i.env with
        trigger := i.env.trigger.advance (m + 1 + pollCount p.triggerStep p.triggerMax)
        calls := .clockDisable :: .clockEnable :: i.env.calls }
      regs := { i.regs with trigger := tr }
      hfifo := [], flight := .lost, sent := i.handedOver (i.packetWords p d), phase := .none
      snap := i.snapAfter, freeTick := i.freeTick + 1 }
      .triggerTimeout .none

/-- The refusals of a write (R224 (c), R114, R412): a long payload whose `length + 1` does not fit 16 bits, and
more words between two triggers than the host FIFO holds: 1 for a short packet, `1 + ceil((length + 1) / 4)` for a
long one, one more where the marker follows, beside what is queued. That words queued by the host count is the
model's choice (log 23). -/
def Obligations.WriteRefusals : Prop :=
  ∀ (x : Instr) (s : State) (d : PacketDesc),
    let p := s.params
    let n := blockOf x
    let i := s.inst n
    let words := (if d.isLong then 1 + (d.payload.length + 1 + 3) / 4 else 1) +
      (if i.hsMode && (d.isLong || p.eotOnShort) then 1 else 0)
    writtenPacket p x = some d → Accepts s n →
    (d.isLong = true → 65535 < d.payload.length + 1 → exec x s = .refused .wordCountOverflow) ∧
    (¬(d.isLong = true ∧ 65535 < d.payload.length + 1) → p.hostFifoDepth < i.queued.length + words →
      exec x s = .refused .packetTooLarge)

/-- Whatever a write answers, it changes only the link's traffic: the environment's answers and calls,
TRIGGER, the host FIFO, what was sent, the phase, the snapshot (R372). -/
def Obligations.WriteFrame : Prop :=
  ∀ (x : Instr) (s t : State) (d : PacketDesc), writtenPacket s.params x = some d →
    AtRest (s.inst (blockOf x)) → exec x s = .next t →
    OnlyLink (s.inst (blockOf x)) (t.inst (blockOf x)) ∧ t.mem = s.mem ∧ t.dc = s.dc

/-- The W32 rows (R83, R84, R120, R410): like a host's push, a row whose read of TRIGGER gives zero appends its word
with its kind to what is queued; a read that is not zero refuses it, and so does a full FIFO; the marker is pushed
in high-speed mode only (R118). That a row stands for a push with its read of TRIGGER and which kind it has is the
model's choice (log 1, log 7, log 35). -/
def Obligations.PacketRowsPush : Prop :=
  ∀ (n : InstId) (s : State) (vc : BitVec 2) (ct : BitVec 6) (reg data : Byte) (wc len : BitVec 16) (w : Word),
    let p := s.params
    let i := s.inst n
    let pushed (k : WordKind) (w : Word) := Ends s n { i with
      hfifo := i.queued ++ [⟨k, w⟩], flight := settledFlight i.flight
      regs := { i.regs with trigger := 0 }
      env := { i.env with trigger := i.env.trigger.advance 1 } } .success .none
    let refused (r : Refusal) : Prop :=
      exec (.shortPkt n vc ct reg data) s = .refused r ∧
      exec (.longHdr n vc ct wc) s = .refused r ∧
      exec (.longPayload n w) s = .refused r ∧
      exec (.maxret n vc len) s = .refused r ∧
      exec (.dcsread n vc reg) s = .refused r ∧
      (i.hsMode = true → exec (.eot n) s = .refused r)
    Open s n →
    (i.triggerAt 0 = 0 → i.queued.length < p.hostFifoDepth →
      exec (.shortPkt n vc ct reg data) s = pushed .shortWord (shortPacketWord vc ct reg data) ∧
      exec (.longHdr n vc ct wc) s = pushed .longHeader (longHeaderWord vc ct wc) ∧
      exec (.longPayload n w) s = pushed .payload w ∧
      exec (.maxret n vc len) s = pushed .shortWord (maxretWord vc p.maxretOpcode len) ∧
      exec (.dcsread n vc reg) s = pushed .shortWord (dcsreadWord vc p.dcsreadOpcode reg) ∧
      (i.hsMode = true → exec (.eot n) s = pushed .eot p.eotWord)) ∧
    (i.hsMode = false → exec (.eot n) s = Ends s n i .success .none) ∧
    (i.triggerAt 0 ≠ 0 → refused .pushWhileBusy) ∧
    (i.triggerAt 0 = 0 → p.hostFifoDepth ≤ i.queued.length → refused .hostFifoFull)

/-! ### Reads (30_encoding.md, 43_bta_read.md) -/

/-- `ReadCommand` (R258 to R263) on a ready link whose panel answers `ws`: both control packets handed over, each under
its own trigger, the response drained, staged and classified, and the bytes of its class copied to `out_buffer`; else
only a read's traffic changes. Completion is re-read from TRIGGER or learnt from the counter (R215). A control packet
the host FIFO cannot hold is refused (R412, R84; log 23). Whether a second ready
poll stands before the read request (R261 against R360, R370, R418) is a parameter (log 22). When the panel's words arrive is the model's choice (log 8), and so are `out_buffer`'s register
(log 16), the draws and the records (log 6, log 24). -/
def Obligations.ReadDelivers : Prop :=
  ∀ (n : InstId) (isLong : Bool) (reg : Byte) (len : BitVec 16) (s : State),
    let p := s.params
    let i := s.inst n
    let marker := if i.hsMode && p.eotOnReadCtrl then 1 else 0
    Accepts s n →
    ((p.hostFifoDepth < i.queued.length + 1 + marker ∨ p.hostFifoDepth < 1 + marker) →
      exec (.tread n isLong reg len) s = .refused .packetTooLarge) ∧
    (∀ ws, AtRest i → PollsOk p → i.readRefusal p reg len = none → LinkReady p (readPolls p) 2 i →
      PanelAnswers p i ws →
      let b := unpackWords ws
      let c := classifyResponse b
      ∃ j, exec (.tread n isLong reg len) s = .next { s.setInst n j with
          mem := Memory.writeBytes s.mem i.outBuf (c.copied b len.toNat)
          result := some ⟨n, c.status, .bytes (c.copied b len.toNat).length⟩
          gangedStep := .idle } ∧
        OnlyRead i j ∧ j.hfifo = [] ∧ j.flight = .none ∧ j.rfifo = [] ∧ j.staging = b ∧
        j.readLen = len.toNat ∧
        j.sent = (if i.sendsAtOnce then
          i.dcsreadWords p reg :: (i.ahead ++ i.maxretWords p len) :: i.sent else i.sent) ∧
        j.env.trigger = i.env.trigger.advance (linkReads p (readPolls p) 2) ∧
        j.env.syncpt = i.env.syncpt.advance (counterWaits p 2) ∧
        j.env.calls = .clockDisable :: (counterCalls p 2 ++ .clockEnable :: i.env.calls))

/-- The classes of a response by its first byte (R122 to R127, property P6), what of it is copied (R262), and
the classes of a BTA response (R256, property P5). -/
def Obligations.ResponseClasses : Prop :=
  (∀ (h : Byte) (r : List Byte),
    let b := h :: r
    let c := classifyResponse b
    (h = 0x1A ∨ h = 0x1C →
      c = .long ∧ c.skip = 4 ∧ c.payloadLength b = (b.getD 1 0).toNat + 256 * (b.getD 2 0).toNat ∧
        c.status = .success) ∧
    (h = 0x11 ∨ h = 0x21 → c = .short1 ∧ c.skip = 1 ∧ c.payloadLength b = 1 ∧ c.status = .success) ∧
    (h = 0x12 ∨ h = 0x22 → c = .short2 ∧ c.skip = 1 ∧ c.payloadLength b = 2 ∧ c.status = .success) ∧
    (h = 0x02 → c = .ackError ∧ c.skip = 1 ∧ c.payloadLength b = 2 ∧ c.status = .readAckError) ∧
    (h ≠ 0x1A → h ≠ 0x1C → h ≠ 0x11 → h ≠ 0x21 → h ≠ 0x12 → h ≠ 0x22 → h ≠ 0x02 →
      c = .invalid ∧ c.skip = 0 ∧ c.payloadLength b = b.length ∧ c.status = .readInvalidResponse)) ∧
  classifyResponse [] = .invalid ∧
  (∀ (c : RespClass) (b : List Byte) (len : Nat),
    let n := min (c.payloadLength b) (min len (b.length - c.skip))
    (c.copied b len).length = n ∧
      ∀ k, k < n → (c.copied b len).getD k 0 = b.getD (c.skip + k) 0) ∧
  classifyBta [] = .success ∧
  (∀ w : Word, classifyBta [w] =
    if w &&& 0x00FFFFFF = 0x00000102 ∨ w &&& 0x00FFFFFF = 0x00004002 then .success
    else .btaProtocolError) ∧
  (∀ (v w : Word) (r : List Word), classifyBta (v :: w :: r) = .btaProtocolError)

/-- The RESP8 rows applied to the staged response, at the classes of R123 to R127: header skip, payload length, status,
the bytes copied to `out_buffer` and their count (R262). That a row acts on the staged response is the model's choice
(log 34), and so is the register `out_buffer` is read from (log 16). -/
def Obligations.ResponseRows : Prop :=
  ∀ (n : InstId) (h : Byte) (s : State),
    let i := s.inst n
    let b := i.staging
    let row (skip plen : Nat) (st : Status) :=
      let k := min plen (min i.readLen (b.length - skip))
      (Host.Outcome.next { s with
        mem := Memory.writeBytes s.mem i.outBuf ((b.drop skip).take k)
        result := some ⟨n, st, .bytes k⟩, gangedStep := .idle } : Out)
    let announced := (b.getD 1 0).toNat + 256 * (b.getD 2 0).toNat
    Open s n →
    exec (.respLong1A n) s = row 4 announced .success ∧
    exec (.respLong1C n) s = row 4 announced .success ∧
    exec (.respAckerr n) s = row 1 2 .readAckError ∧
    exec (.respShort1x11 n) s = row 1 1 .success ∧
    exec (.respShort1x21 n) s = row 1 1 .success ∧
    exec (.respShort2x12 n) s = row 1 2 .success ∧
    exec (.respShort2x22 n) s = row 1 2 .success ∧
    exec (.respInvalid n h) s = row 0 b.length .readInvalidResponse

/-- `BtaCheckError` issued on its own (R250, R257) whose turn-around brings `ws`: the status is the class of
`ws`, the read FIFO is drained, nothing is pushed and TRIGGER is neither read nor written. When the panel's
words arrive is the model's choice (log 8). -/
def Obligations.BtaCheckClassifies : Prop :=
  ∀ (n : InstId) (s : State) (ws : List Word),
    let i := s.inst n
    Accepts s n → AtRest i → PanelAnswers s.params i ws →
    ∃ j, exec (.btachk n) s = Ends s n j (classifyBta ws) .none ∧ OnlyRead i j ∧ j.rfifo = [] ∧
      j.hfifo = i.hfifo ∧ j.sent = i.sent ∧ j.regs.trigger = i.regs.trigger ∧
      j.env.trigger = i.env.trigger

/-- Words queued before a turn-around (R251): `FifoNotEmptyAtStart`, nothing drained, no request made, and not
instance-fatal; so for the sequence by itself, for `BtaCheckError`, and for `ReadCommand`, which checks after both its
control packets have been sent, each under its own trigger (R258, R260, R261, R267; how many ready polls it makes, R261
against R370, is a parameter, log 22). That the count counts what has arrived by then is the model's choice (log 8). -/
def Obligations.StaleWordsFail : Prop :=
  (∀ (p : Params) (i : Instance), i.readCount.1 ≠ 0 →
    i.btaSequence p = (.fifoNotEmptyAtStart, [], i.readCount.2) ∧ i.rfifo <+: i.readCount.2.rfifo ∧
      i.readCount.2.regs = i.regs) ∧
  (∀ (n : InstId) (s : State), let i := s.inst n
    Accepts s n → AtRest i → i.rfifo ≠ [] →
    (∃ j, exec (.btachk n) s = Ends s n j .fifoNotEmptyAtStart .none ∧ i.rfifo <+: j.rfifo ∧
      j.regs = i.regs ∧ j.fatal = none) ∧
    (∀ isLong reg len, PollsOk s.params → i.readRefusal s.params reg len = none →
      LinkReady s.params (readPolls s.params) 2 i →
      ∃ j, exec (.tread n isLong reg len) s = Ends s n j .fifoNotEmptyAtStart .none ∧
        i.rfifo <+: j.rfifo ∧ j.regs.btaActive = i.regs.btaActive ∧ j.fatal = none ∧
        j.sent = (if i.sendsAtOnce then
          i.dcsreadWords s.params reg :: (i.ahead ++ i.maxretWords s.params len) :: i.sent else i.sent) ∧
        j.env.trigger = i.env.trigger.advance (linkReads s.params (readPolls s.params) 2)))

/-- A bus that does not come back (R253): `BtaTimeout` after exactly `ceil(BTA_MAX / BTA_STEP)` reads of
`BTA_ACTIVE`. When the panel's words arrive is the model's choice (log 8). -/
def Obligations.BtaTimesOut : Prop :=
  ∀ (n : InstId) (s : State),
    let p := s.params
    let i := s.inst n
    Accepts s n → AtRest i → i.rfifo = [] → (i.btaSeen = true → i.panelAt 0 = []) →
    (∀ k, k < pollCount p.btaStep p.btaMax → i.btaAt k = true) →
    ∃ j, exec (.btachk n) s = Ends s n j .btaTimeout .none ∧ OnlyRead i j ∧
      j.env.bta = i.env.bta.advance (pollCount p.btaStep p.btaMax) ∧ j.rfifo = []

/-- More words than the read FIFO holds (R254): `ReadFifoFull`, and nothing is drained. When the panel's words
arrive is the model's choice (log 8). -/
def Obligations.ReadFifoOverflows : Prop :=
  ∀ (n : InstId) (s : State) (ws : List Word) (m : Nat),
    let p := s.params
    let i := s.inst n
    Accepts s n → AtRest i → i.rfifo = [] → (i.btaSeen = true → i.panelAt 0 = []) →
    m < pollCount p.btaStep p.btaMax → i.BtaClearsAfter m →
    i.PanelSends i.panelStart (pollCount p.rdfifoStep p.rdfifoMax) ws → p.rdFifoDepth < ws.length →
    ∃ j, exec (.btachk n) s = Ends s n j .readFifoFull .none ∧ OnlyRead i j ∧ j.rfifo = ws

/-- Whatever a read answers, it changes only the link's traffic, `IMM_BTA`, `BTA_ACTIVE`, the read FIFO and
the staged response (R372); a ping leaves `CONTROL`, `HOST_CONTROL` and `host_active` as they were (R348). -/
def Obligations.ReadFrame : Prop :=
  ∀ (x : Instr) (s t : State), let n := blockOf x
    ((∃ l r k, x = .tread n l r k) ∨ x = .btachk n ∨ ∃ r k f, x = .tping n r k f) →
    AtRest (s.inst n) → exec x s = .next t →
    OnlyRead (s.inst n) (t.inst n) ∧ t.dc = s.dc ∧
    ((∃ r k f, x = .tping n r k f) →
      (t.inst n).regs.control = (s.inst n).regs.control ∧
      (t.inst n).regs.hostControl = (s.inst n).regs.hostControl ∧
      (t.inst n).hostActive = (s.inst n).hostActive)

/-! ### The packet sequencer (30_encoding.md, 41_packet_sequencer.md) -/

/-- The SEQ rows build a half by hand (R128 to R132; log 33): an id appends a sub-packet without a length, a
selector gives the last sub-packet its length (a sync packet keeps none, R129) and names that length (R130;
index 7 an open one, `L_CMD` the first of two copies, log 54), and the half so built is written to its `PKT_SEQ` register, every other half as before; a
write while the interface is enabled is refused (R98). -/
def Obligations.SequencerRows : Prop :=
  (∀ (l : LenSel) (r : List SubPacket) (k : SubPacket), selectLast l [] = [] ∧
    selectLast l (r ++ [k]) = r ++ [if isSync k.id then k else { k with lenSel := l }]) ∧
  (∀ (n : InstId) (s : State), let i := s.inst n
    Open s n →
    (∀ id, exec (packetIdInstr n id) s =
      Ends s n { i with halfStage := i.halfStage ++ [⟨id, .none⟩] } .success
        (.packetId (packetIdCode s.params.pktId id))) ∧
    (∀ l, l ≠ .idx7 → exec (lenSelInstr n l) s =
      Ends s n { i with halfStage := selectLast l i.halfStage } .success
        (.length (match l with
          | .none => none
          | .hsync => some i.regs.pktLen.hsync
          | .hbp => some i.regs.pktLen.hbp
          | .hact => some i.regs.pktLen.hact
          | .hfp => some i.regs.pktLen.hfp
          | .cmd => some i.regs.pktLen.cmdA
          | .idx7 => none))) ∧
    (∃ v, exec (.lenIdx7 n) s =
      Ends s n { i with halfStage := selectLast .idx7 i.halfStage, freeTick := i.freeTick + 1 } .success
        (.length (some v))) ∧
    (∀ slot hi lp, i.regs.ifEnable = false → ∃ f,
      exec (.slotHalf n slot hi lp) s =
        Ends s n { i with regs := { i.regs with slots := f }, halfStage := [] } .success .none ∧
      halfGet f slot hi = ⟨i.halfStage, lp⟩ ∧
      ∀ k h, (k ≠ slot ∨ h ≠ hi) → halfGet f k h = halfGet i.regs.slots k h) ∧
    (∀ slot hi lp, i.regs.ifEnable = true →
      exec (.slotHalf n slot hi lp) s = .refused .liveProgramWrite))

/-- The program of the two video modes without sync end (R191, R192), slot 5 mirroring slot 3 (R194): the whole
slot file, and nothing else of the block. -/
def Obligations.SequenceWithoutSyncEnd : Prop :=
  ∀ (n : InstId) (s : State) (act : PacketId),
    let i := s.inst n
    let z : SlotHalf := ⟨[], false⟩
    let one (k : PacketId) (lp : Bool) : Slot := ⟨⟨[⟨k, .none⟩], lp⟩, z⟩
    let line (lp : Bool) : Slot :=
      ⟨⟨[⟨.hsyncStart, .none⟩, ⟨.blanking, .hbp⟩, ⟨act, .hact⟩], lp⟩, ⟨[⟨.blanking, .hfp⟩], lp⟩⟩
    let after (lp : Bool) := Ends s n { i with regs := { i.regs with slots :=
      ⟨one .vsyncStart true, one .hsyncStart true, one .hsyncStart true, line lp, one .hsyncStart lp,
        line lp⟩ } } .success .none
    Open s n → i.regs.ifEnable = false → activeId i.cfg.dataFormat = some act →
    (i.cfg.videoMode = .nonBurst → exec (.seqprog n) s = after true) ∧
    (i.cfg.videoMode = .burst → exec (.seqprog n) s = after false)

/-- The program of the other modes (table R197), the active-length id by data format (R183); a write while the
interface is enabled is refused (R98, R414). -/
def Obligations.SequenceOtherModes : Prop :=
  (∀ (n : InstId) (s : State) (act : PacketId),
    let i := s.inst n
    let z : SlotHalf := ⟨[], false⟩
    let one (k : PacketId) (lp : Bool) : Slot := ⟨⟨[⟨k, .none⟩], lp⟩, z⟩
    let after (f : SlotFile) := Ends s n { i with regs := { i.regs with slots := f } } .success .none
    let dcd : Slot := ⟨⟨[⟨.longWrite, .cmd⟩, ⟨.blanking, .idx7⟩], false⟩, z⟩
    let gng : Slot :=
      ⟨⟨[⟨.hsyncStart, .none⟩, ⟨.blanking, .hbp⟩, ⟨act, .hact⟩], s.params.gangedActiveForceLp⟩, z⟩
    let nse : Slot :=
      ⟨⟨[⟨.hsyncStart, .none⟩, ⟨.blanking, .hsync⟩], true⟩,
        ⟨[⟨.hsyncEnd, .none⟩, ⟨.blanking, .hbp⟩, ⟨act, .hact⟩, ⟨.blanking, .hfp⟩], true⟩⟩
    Open s n →
    (i.regs.ifEnable = true → exec (.seqprog n) s = .refused .liveProgramWrite) ∧
    (i.regs.ifEnable = false → activeId i.cfg.dataFormat = some act →
      (i.cfg.videoMode = .dcDrivenCommand →
        exec (.seqprog n) s = after ⟨⟨z, z⟩, ⟨z, z⟩, ⟨z, z⟩, dcd, ⟨z, z⟩, dcd⟩) ∧
      (i.cfg.videoMode = .ganged → exec (.seqprog n) s = after
        ⟨one .vsyncStart false, gng, one .hsyncStart true, gng, one .hsyncStart true, gng⟩) ∧
      (i.cfg.videoMode = .nonBurstSyncEnd → exec (.seqprog n) s = after
        ⟨one .vsyncStart true, one .vsyncEnd true, one .hsyncStart true, nse, one .hsyncStart true,
          nse⟩))) ∧
  activeId .bpp16 = some .hActiveLength16Bpp ∧ activeId .bpp18Packed = some .hActiveLength18Bpp ∧
  activeId .bpp18NonPacked = some .hActiveLength18BppNp ∧ activeId .bpp24 = some .hActiveLength24Bpp

/-- An unrecognised data format is a fatal configuration error in whatever evaluates it first (R195, R367): the
sequencer, the three calculators, and `TransInit`. -/
def Obligations.UnknownFormatIsFatal : Prop :=
  (∀ (n : InstId) (s : State), let i := s.inst n
    let fatal (x : Instr) := ∃ j, exec x s = Ends s n j .fatalHardwareFault .none ∧
      j.fatal = some .unknownDataFormat
    Open s n → i.cfg.dataFormat = .unknown →
    (i.regs.ifEnable = false → fatal (.seqprog n)) ∧ fatal (.sold n) ∧ fatal (.plen n) ∧
    (∀ freq, freq ≠ 0 → i.cfg.phyOverrides = none → fatal (.phyt n freq))) ∧
  (∀ (n : InstId) (desc : BitVec 16) (flags : Word) (s : State),
    let i := s.inst n
    let d := s.descriptor desc.toNat
    i.fatal = none → i.initialized = false → descriptorOk d = true → d.dataFormat = .unknown →
    d.phyOverrides = none → (∀ k, k < 4 → i.initAt k = true) →
    ∃ j, exec (.tinit n desc flags) s = Ends s n j .fatalHardwareFault .none ∧
      j.fatal = some .unknownDataFormat)

/-! ### The timing calculator (40_timing_calculator.md) -/

/-- `ComputePhyTiming` besides its derived fields: overrides verbatim whatever the frequency, above a ceiling refused,
frequency 0 without overrides refused (R152, V-PHY-10); the timeout is the raster's bytes per lane plus the margin,
modulo `2^16` (R156). That an override above its ceiling is refused whole is the model's choice (log 42), and so is
looking at the frequency only where no overrides stand in for it (log 47). -/
def Obligations.PhyTimingEnds : Prop :=
  ∀ (n : InstId) (freq : Word) (s : State),
    let p := s.params
    let i := s.inst n
    let t := i.activeTiming
    Open s n →
    (overridesFit p i.cfg = false → exec (.phyt n freq) s = .refused .overrideTooLarge) ∧
    (freq = 0 → i.cfg.phyOverrides = none → exec (.phyt n freq) s = .refused .zeroFrequency) ∧
    (∀ T, overridesFit p i.cfg = true → i.cfg.phyOverrides = some T →
      exec (.phyt n freq) s = Ends s n i .success (.phySet T)) ∧
    (∀ q, freq ≠ 0 → i.cfg.phyOverrides = none → bppQuarters i.cfg.dataFormat = some q →
      ∃ T, exec (.phyt n freq) s = Ends s n i .success (.phySet T) ∧
        T.timeout.toNat =
          ((t.hActive + t.hFrontPorch + t.hSyncWidth + t.hBackPorch) *
            (t.vActive + t.vFrontPorch + t.vSyncWidth + t.vBackPorch) * q / (4 * i.cfg.nLanes) +
            p.timeoutMargin) % 65536)

/-- The derived fields of `ComputePhyTiming`: each is the least number of byte times that covers its nanosecond
requirement, saturated at its ceiling, and `THS_PREPARE` is at least 1 (R154); the BTA triad is five, two and
four times the saturated `TTLPX`, each saturated (R155). -/
def Obligations.PhyFieldsDerived : Prop :=
  ∀ (n : InstId) (freq : Word) (s : State),
    let p := s.params
    let i := s.inst n
    let f := 1000 * freq.toNat
    let periods (k : PhyField) (c : Nat) : Prop := ∀ c', c ≤ c' ↔
      (Config.nsSpec k f).num * f ≤ c' * (((Config.nsSpec k f).den + 1) * 4000000000)
    let derived (k : PhyField) (m v : Nat) : Prop := ∃ c, periods k c ∧ v = min c m
    Open s n → freq ≠ 0 → i.cfg.phyOverrides = none → i.cfg.dataFormat ≠ .unknown →
    ∃ T, exec (.phyt n freq) s = Ends s n i .success (.phySet T) ∧
      derived .thsExit p.fieldMax.thsExit T.fields.thsExit ∧
      derived .thsTrail p.fieldMax.thsTrail T.fields.thsTrail ∧
      derived .tdataZero p.fieldMax.tdataZero T.fields.tdataZero ∧
      (∃ c, periods .thsPrepare c ∧ T.fields.thsPrepare = max (min c p.fieldMax.thsPrepare) 1) ∧
      derived .tclkTrail p.fieldMax.tclkTrail T.fields.tclkTrail ∧
      derived .tclkPost p.fieldMax.tclkPost T.fields.tclkPost ∧
      derived .tclkZero p.fieldMax.tclkZero T.fields.tclkZero ∧
      derived .tclkPre p.fieldMax.tclkPre T.fields.tclkPre ∧
      derived .ttlpx p.fieldMax.ttlpx T.fields.ttlpx ∧
      T.triad = ⟨min (5 * T.fields.ttlpx) p.btaFieldMax.t0, min (2 * T.fields.ttlpx) p.btaFieldMax.t1,
        min (4 * T.fields.ttlpx) p.btaFieldMax.t2⟩

/-- `ComputeSolDelay` (R158): the non-burst delay is `floor(8 x Bpp / n_lanes)` (R159); the burst delay (and
DC-driven command mode's) is at most 1920, the clock is never lowered and is kept below the cap (R160), and
more lanes never give more delay (property P2); ganged mode keeps the clock (R161). The burst and ganged
formulas are free within these properties, and DC-driven command mode's use of the burst one is unvalidated (R158; log
27). -/
def Obligations.SolDelays : Prop :=
  (∀ (n : InstId) (s : State) (q : Nat), let i := s.inst n
    Open s n → bppQuarters i.cfg.dataFormat = some q →
    ((i.cfg.videoMode = .nonBurst ∨ i.cfg.videoMode = .nonBurstSyncEnd) →
      exec (.sold n) s =
        Ends s n i .success (.sol (8 * q / (4 * i.cfg.nLanes)) i.cfg.phyFreqTarget)) ∧
    ((i.cfg.videoMode = .burst ∨ i.cfg.videoMode = .dcDrivenCommand) →
      ∃ d f, exec (.sold n) s = Ends s n i .success (.sol d f) ∧
        d = (solBurst i.cfg i.activeTiming).1 ∧ d ≤ 1920 ∧
        i.cfg.phyFreqTarget ≤ f ∧ (d < 1920 → f = i.cfg.phyFreqTarget)) ∧
    (i.cfg.videoMode = .ganged →
      ∃ d, exec (.sold n) s = Ends s n i .success (.sol d i.cfg.phyFreqTarget))) ∧
  (∀ (d : PanelDescriptor) (t : PanelTiming) (a b : Nat), 1 ≤ a → a ≤ b → b ≤ 4 →
    (solBurst { d with nLanes := b } t).1 ≤ (solBurst { d with nLanes := a } t).1)

/-- `ComputePacketLengths`: in DC-driven command mode the active byte count plus 1, twice (R164); in every other mode the
four lengths less their overheads, the back porch with the sync width but in the sync-end variant (R165);
`B(w) = floor(w x Bpp)` with `Bpp` in quarters of a byte (R151, R166). That a length below its overhead saturates at 0
is the choice R166 makes where it leaves the model free. `h_active` is this block's half of a ganged panel (R326,
R340). -/
def Obligations.PacketLengths : Prop :=
  (∀ (n : InstId) (s : State) (q : Nat),
    let i := s.inst n
    let t := i.activeTiming
    let B (w : Nat) := w * q / 4
    Open s n → bppQuarters i.cfg.dataFormat = some q →
    (i.cfg.videoMode = .dcDrivenCommand →
      exec (.plen n) s = Ends s n i .success
        (.lens ⟨0, 0, 0, 0, B t.hActive + 1, B t.hActive + 1⟩)) ∧
    (i.cfg.videoMode ≠ .dcDrivenCommand →
      exec (.plen n) s = Ends s n i .success (.lens ⟨
        B t.hSyncWidth - 10,
        B (t.hBackPorch + if i.cfg.videoMode = .nonBurstSyncEnd then 0 else t.hSyncWidth) - 14,
        B t.hActive, B t.hFrontPorch - 8, 0, 0⟩))) ∧
  bppQuarters .bpp16 = some 8 ∧ bppQuarters .bpp18Packed = some 9 ∧
  bppQuarters .bpp18NonPacked = some 12 ∧ bppQuarters .bpp24 = some 12

/-! ### The clock lane (44_clock_lane_mode.md) -/

/-- `SetHighSpeedMode` (R290, R292 to R294): nothing where the mode is the one asked; else the clock service is
asked for the mode's command clock, PHY timing follows its answer, `HS_TRANSMIT` and `hs_mode` change together;
a link not ready afterwards is a fatal fault, and one seen ready has sent what a trigger in flight was sending (R83;
log 46). An override above its ceiling may not be written (R152); refusing the whole operation up front is the
model's choice (log 42), and the record of the calls its own (log 24). -/
def Obligations.ModeSwitches : Prop :=
  ∀ (n : InstId) (on : Bool) (s : State),
    let p := s.params
    let i := s.inst n
    let khz := if on then i.cfg.hsCmdClkKhz else i.cfg.lpCmdClkKhz
    Accepts s n → i.lock = .free →
    (i.hsMode = on → exec (.seths n on) s = Ends s n i .success .none) ∧
    (i.hsMode ≠ on → overridesFit p i.cfg = false →
      exec (.seths n on) s = .refused .overrideTooLarge) ∧
    (i.hsMode ≠ on → overridesFit p i.cfg = true →
      (i.cfg.dataFormat ≠ .unknown ∨ i.cfg.phyOverrides ≠ none) →
      ∃ T, i.computePhy p (i.clockAt 0) = some T ∧
      (∀ m, m < pollCount p.cmdReadyStep p.cmdReadyMax → i.ReadyAfter 0 m →
        exec (.seths n on) s = Ends s n { i with
          hsMode := on, curPhyFreq := i.clockAt 0, hfifo := i.queued, flight := settledFlight i.flight
          regs := { i.regs with
            trigger := 0
            hostControl := { i.regs.hostControl with hsTransmit := on }
            phy := T.fields, bta := T.triad, timeout := T.timeout }
          env := { i.env with
            clock := i.env.clock.advance 1, trigger := i.env.trigger.advance (m + 1)
            calls := .clockConfigure khz p.clockTolerance :: i.env.calls } }
          .success .none) ∧
      ((∀ k, k < pollCount p.cmdReadyStep p.cmdReadyMax → i.triggerAt k ≠ 0) →
        ∃ j, exec (.seths n on) s = Ends s n j .fatalHardwareFault .none ∧
          j.fatal = some .cmdModeNotReadyAfterModeSwitch ∧ j.lock = .free ∧
          j.env.trigger = i.env.trigger.advance (pollCount p.cmdReadyStep p.cmdReadyMax)))

/-- `TurnOnDsiClock` (R305): attempts numbered from 1 until one succeeds, and nothing but them; five failures are
a fatal fault. The record of the attempts is the model's own (log 24). -/
def Obligations.ClockTurnsOn : Prop :=
  ∀ (n : InstId) (s : State),
    let i := s.inst n
    let tried (m : Nat) : List EnvCall :=
      ((List.range m).map (fun k => EnvCall.turnOnClockAttempt (k + 1))).reverse ++ i.env.calls
    Open s n →
    (∀ m, m < 5 → (∀ k, k < m → i.attemptAt k = false) → i.attemptAt m = true →
      exec (.clkon n) s = Ends s n { i with env := { i.env with
        attempt := i.env.attempt.advance (m + 1), calls := tried (m + 1) } } .success .none) ∧
    ((∀ k, k < 5 → i.attemptAt k = false) →
      ∃ j, exec (.clkon n) s = Ends s n j .fatalHardwareFault .none ∧
        j.fatal = some .clockEnableRetriesExhausted ∧ j.env.calls = tried 5)

/-- `EnableVideoTransmission` under every clock policy (R295 to R305): the interface off and on again around the program,
the lengths and the SOL delay, `CONTROL` built anew. With a transmit-only clock that is all, with one call of the
clock service; with a continuous one the clock comes on at attempt `m + 1`, the link is ready and the panel answers
the self-check with `ws`, and the block is as `ContinuousVideo` says. An unknown format is the fatal fault (R195).
What is refused before anything is touched is the model's choice (log 42, log 23), and so are the draws of the
environment (log 6, log 8), the record of the calls (log 24) and that the self-check's turn-around opens no clock gate
of its own (log 51). -/
def Obligations.VideoStarts : Prop :=
  ∀ (n : InstId) (s : State),
    let p := s.params
    let i := s.inst n
    let check := Instance.sendRefusal p { i with hsMode := true } (nopPacket p)
    Accepts s n → i.lock = .free →
    (i.cfg.hsClkPolicy ≠ .txOnly → overridesFit p i.cfg = false →
      exec (.envideo n) s = .refused .overrideTooLarge) ∧
    (i.cfg.hsClkPolicy ≠ .txOnly → overridesFit p i.cfg = true →
      ∀ r, check = some r → exec (.envideo n) s = .refused r) ∧
    (i.cfg.dataFormat ≠ .unknown → ∃ act L, activeId i.cfg.dataFormat = some act ∧
      i.computeLengths = some L ∧
      (i.cfg.hsClkPolicy = .txOnly → exec (.envideo n) s = Ends s n { i with
        regs := { i.regs with
          ifEnable := true, control := ⟨true, false, p.hostFifoSel, .txOnly⟩
          slots := mirrorSlot (modeProgram p i.cfg.videoMode act i.regs.slots.s5)
          pktLen := L, solDelay := i.solDelay }
        env := { i.env with
          clock := i.env.clock.advance 1
          calls := .clockConfigure i.curPhyFreq p.clockTolerance :: i.env.calls } }
        .success .none) ∧
      (∀ m ws, i.cfg.hsClkPolicy ≠ .txOnly → overridesFit p i.cfg = true → check = none → AtRest i →
        PollsOk p → m < 5 → (∀ k, k < m → i.attemptAt k = false) → i.attemptAt m = true →
        LinkReady p (i.modeSwitches (classifyBta ws) + 1) 1 i → PanelAnswers p i ws →
        ∃ j, ContinuousVideo p m ws act L i j ∧ exec (.envideo n) s = Ends s n j .success .none)) ∧
    (i.cfg.dataFormat = .unknown →
      (i.cfg.hsClkPolicy = .txOnly ∨ overridesFit p i.cfg = true ∧ check = none) →
      ∃ j, exec (.envideo n) s = Ends s n j .fatalHardwareFault .none ∧ j.fatal = some .unknownDataFormat)

/-- However the environment answers, `EnableVideoTransmission` ends in `Success` or in a fatal fault (R295): a
failed self-check is absorbed (R303). After a `Success` the interface is on, video owns the FIFO path, slot 5
mirrors slot 3 (R194), and the link is in one of two modes: high speed with a continuous clock, or transmit-only
and, where the policy asked for a continuous clock, low power (R303). -/
def Obligations.VideoEndsInOneMode : Prop :=
  ∀ (n : InstId) (s t : State), AtRest (s.inst n) → Accepts s n → exec (.envideo n) s = .next t →
    (t.result = some ⟨n, .fatalHardwareFault, .none⟩ ∧ (t.inst n).fatal ≠ none) ∨
    (t.result = some ⟨n, .success, .none⟩ ∧ (t.inst n).fatal = none ∧
      let r := (t.inst n).regs
      r.ifEnable = true ∧ r.control.videoEnable = true ∧ r.control.hostEnable = false ∧
      r.slots.s5 = r.slots.s3 ∧
      ((s.inst n).cfg.hsClkPolicy = .txOnly →
        (t.inst n).hsMode = (s.inst n).hsMode ∧ r.control.hsClkCtrl = .txOnly) ∧
      ((s.inst n).cfg.hsClkPolicy ≠ .txOnly →
        ((t.inst n).hsMode = true ∧ r.control.hsClkCtrl = .continuous) ∨
        ((t.inst n).hsMode = false ∧ r.control.hsClkCtrl = .txOnly)))

/-! ### The composite operations (45_lifecycle.md R345, R348) -/

/-- `TransUpdate` (R345): outside `CommandModeEnabled` it has no meaning (R337 (f)), nor where one of its packets has none
(R224 (c)); a TE edge that does not come is `TeWaitTimeout` and nothing is sent (R377); on a ready link every packet
is sent, each under its own trigger, in order, the first behind what was queued, and the handle is left masked
(R378). Completion is re-read from TRIGGER or learnt from the counter (R215). Whatever it answers, it changes only the
link's traffic and the handle. Refusing the whole operation for one packet is the model's choice (log 42, log 23),
and so are the draws and TE among them (log 6, log 32), the records of packets and calls (log 24), and the packets of
one update (log 30). -/
def Obligations.UpdateRuns : Prop :=
  ∀ (n : InstId) (a : UpdateArgs) (s : State),
    let p := s.params
    let i := s.inst n
    let ps := updatePackets s n a
    let te' := i.te.map (fun _ => (⟨false, true⟩ : Te))
    Accepts s n → AtRest i →
    (i.lifecycle ≠ .commandModeEnabled → exec (.tupdate n a) s = .refused .notInCommandMode) ∧
    (i.lifecycle = .commandModeEnabled →
      (∀ r, packetsRefusal p i i.queued.length ps = some r → exec (.tupdate n a) s = .refused r) ∧
      (packetsRefusal p i i.queued.length ps = none →
        (∀ b, i.te = some b → i.teAt 0 = false →
          ∃ j, exec (.tupdate n a) s = Ends s n j .teWaitTimeout .none ∧ j.te = te' ∧
            j.hfifo = i.hfifo ∧ j.sent = i.sent ∧ j.env.trigger = i.env.trigger ∧ j.regs = i.regs) ∧
        ((i.te = none ∨ i.teAt 0 = true) → PollsOk p → LinkReady p ps.length ps.length i →
          ∃ j, exec (.tupdate n a) s = Ends s n j .success .none ∧
            OnlyLink { i with te := te' } j ∧
            j.env.trigger = i.env.trigger.advance (linkReads p ps.length ps.length) ∧
            j.env.syncpt = i.env.syncpt.advance (counterWaits p ps.length) ∧
            (ps ≠ [] → j.hfifo = [] ∧ j.flight = .none) ∧
            (i.sendsAtOnce = true → j.sent = (i.burst p ps).reverse ++ i.sent) ∧
            (i.sendsAtOnce = false → j.sent = i.sent) ∧
            (i.cfg.videoMode = .dcDrivenCommand → j.env.calls.head? = some .waitVblank)))) ∧
    (∀ t, exec (.tupdate n a) s = .next t →
      OnlyLink { i with te := te' } (t.inst n) ∧ t.mem = s.mem ∧ t.dc = s.dc)

/-- The pixel packets of an update (R345; log 30): the rectangle's bytes row by row from the surface, whose handle is
its byte address in host memory; cut without loss into long writes of at most the chunk size, the first a memory start, every later one a memory continue;
they follow the partial-display sequence, and with DC-driven pixels only that sequence is sent. -/
def Obligations.PixelPackets : Prop :=
  (∀ (p : Params) (bs : List Byte),
    let ps := pixelPackets p bs
    (ps.map PacketDesc.payload).flatten = bs ∧
    (∀ d, d ∈ ps → d.isLong = true ∧ d.cmdType = p.longWriteType ∧ d.payload ≠ [] ∧
      d.payload.length ≤ max p.updateChunkBytes 1) ∧
    (∀ d r, ps = d :: r → d.reg = p.writeMemoryStart ∧ ∀ e, e ∈ r → e.reg = p.writeMemoryContinue)) ∧
  (∀ (m : Memory) (a : UpdateArgs) (r c : Nat),
    let k := a.bpp.toNat / 8
    let w := a.rectW.toNat * k
    (updatePixels m a).length = a.rectH.toNat * w ∧
    (r < a.rectH.toNat → c < w → (updatePixels m a).getD (r * w + c) 0 =
      m.read (a.surface.toNat + (a.srcY.toNat + r) * (a.width.toNat * k) + a.srcX.toNat * k + c))) ∧
  (∀ (n : InstId) (a : UpdateArgs) (s : State),
    let partialSeq := ((s.inst n).drawPartial (updateRect a)).1
    ((s.inst n).cfg.videoMode = .dcDrivenCommand → updatePackets s n a = partialSeq) ∧
    ((s.inst n).cfg.videoMode ≠ .dcDrivenCommand →
      updatePackets s n a = partialSeq ++ pixelPackets s.params (updatePixels s.mem a)))

/-- `TransPing` (R348): after three frames in which no video is sent, the read of R258, its bytes copied, and the
video-mode state as before; it waits for nobody but the DC's frame mutex (R97). A control packet the host FIFO cannot
hold is refused (R412, R84; log 23). The frame mutex is a flag the host sets (log 31); `out_buffer`'s register (log
16), when the panel's words arrive (log 8), the draws and the records (log 6, log 24) and the override where the host
owns the FIFO already (log 53), so that both packets leave at once, are the model's choices too, and how many ready
polls the read makes (R261 against R370) is a parameter (log 22). -/
def Obligations.PingReads : Prop :=
  ∀ (n : InstId) (reg : Byte) (len : BitVec 16) (flags : Word) (s : State),
    let p := s.params
    let i := s.inst n
    let marker := if i.hsMode && p.eotOnReadCtrl then 1 else 0
    Accepts s n →
    ((p.hostFifoDepth < i.queued.length + 1 + marker ∨ p.hostFifoDepth < 1 + marker) →
      exec (.tping n reg len flags) s = .refused .packetTooLarge) ∧
    (i.readRefusal p reg len = none → s.frameMutex = true →
      exec (.tping n reg len flags) s = .fault .blockedOnFrameMutex) ∧
    (∀ ws, AtRest i → s.frameMutex = false → PollsOk p → i.readRefusal p reg len = none →
      LinkReady p (readPolls p) 2 i → PanelAnswers p i ws →
      let b := unpackWords ws
      let c := classifyResponse b
      ∃ j, exec (.tping n reg len flags) s = .next { s.setInst n j with
          mem := Memory.writeBytes s.mem i.outBuf (c.copied b len.toNat)
          result := some ⟨n, c.status, .ping c.status (c.copied b len.toNat).length⟩
          gangedStep := .idle } ∧
        OnlyRead i j ∧ j.regs.control = i.regs.control ∧ j.regs.hostControl = i.regs.hostControl ∧
        j.hostActive = i.hostActive ∧ j.hfifo = [] ∧ j.flight = .none ∧ j.rfifo = [] ∧ j.staging = b ∧
        j.sent = i.dcsreadWords p reg :: (i.ahead ++ i.maxretWords p len) :: i.sent ∧
        j.env.trigger = i.env.trigger.advance (linkReads p (readPolls p) 2) ∧
        j.env.syncpt = i.env.syncpt.advance (counterWaits p 2) ∧
        j.env.calls = .releaseFrameMutex :: .clockDisable :: (counterCalls p 2 ++ ([.clockEnable, .waitVblank,
          .waitVblank, .waitVblank, .acquireFrameMutex] ++ i.env.calls)))

/-! ### The port, the TE edge (60_exceptions.md R371, R376) -/

/-- A TE edge on the port (R376; log 32): unmasked, it signals the handle and masks itself; masked, or without a
handle, it is lost. An empty port leaves the machine waiting (log 40). -/
def Obligations.TeEdgeAndIdlePort : Prop :=
  (∀ (s : State) (n : InstId) (w : Word) (rest : List PortWord), s.port = ⟨.teEdge n, w⟩ :: rest →
    (∀ b, (s.inst n).te = some ⟨b, false⟩ →
      step s = .next (({ s with port := rest }).setInst n { s.inst n with te := some ⟨true, true⟩ })) ∧
    (((s.inst n).te = none ∨ ∃ b, (s.inst n).te = some ⟨b, true⟩) →
      step s = .next { s with port := rest })) ∧
  (∀ s : State, s.port = [] → step s = .next s)

/-! ### Micro-operations and registers (10_state.md, 42_packet_framer_write.md) -/

/-- `FifoPush` appends its word to what is queued (R212), after a read of TRIGGER that gives zero, so that a trigger in
flight is complete (R410, R83); the word's kind and the draw of the read are the model's choice (log 7). `FifoPop`
takes the oldest word of a read FIFO that is not empty (R213). `BtaRequest` sets `IMM_BTA` and with it `BTA_ACTIVE`
(R252), whatever the read FIFO and the host FIFO hold and with `phase` left `Triggered`, the model's choice (log 46,
log 48). -/
def Obligations.FifosAndBtaRequest : Prop :=
  ∀ (n : InstId) (s : State), let i := s.inst n
    Open s n →
    (∀ w, i.triggerAt 0 = 0 → i.queued.length < s.params.hostFifoDepth →
      exec (.push n w) s = Ends s n { i with
        hfifo := i.queued ++ [⟨.shortWord, w⟩], flight := settledFlight i.flight
        regs := { i.regs with trigger := 0 }
        env := { i.env with trigger := i.env.trigger.advance 1 } } .success .none) ∧
    (∀ w r, i.rfifo = w :: r →
      exec (.pop n) s = Ends s n { i with rfifo := r } .success (.word w)) ∧
    exec (.btareq n) s = Ends s n { i with
      regs := { i.regs with
        hostControl := { i.regs.hostControl with immBta := true }, btaActive := true }
      phase := .triggered, btaSeen := true } .success .none

/-- `Trigger` writes 1 to TRIGGER and hands the queued words over in immediate mode (R214); a pop of an empty read
FIFO gives a free value and takes nothing (R37; log 20); a push is refused while the link is busy (R410) and when
the host FIFO is full (R84). The draw a push makes is the model's choice (log 7), and so is a trigger while an
earlier one is in flight, which hands the same words over again (log 46). -/
def Obligations.TriggerAndRefusedPushes : Prop :=
  ∀ (n : InstId) (w : Word) (s : State), let i := s.inst n
    Open s n →
    exec (.trig n) s = Ends s n { i with
      regs := { i.regs with trigger := 1 }, phase := .triggered, flight := triggeredFlight i.flight
      hfifo := if i.flight = .lost then [] else i.hfifo
      sent := if i.regs.hostControl.triggerMode = .immediate then i.contents :: i.sent else i.sent }
      .success .none ∧
    (i.rfifo = [] →
      ∃ v, exec (.pop n) s = Ends s n { i with freeTick := i.freeTick + 1 } .success (.word v)) ∧
    (i.triggerAt 0 ≠ 0 → exec (.push n w) s = .refused .pushWhileBusy) ∧
    (i.triggerAt 0 = 0 → s.params.hostFifoDepth ≤ i.queued.length →
      exec (.push n w) s = .refused .hostFifoFull)

/-- `RegWrite` (R210) for every register of R30, a raw word denoting its fields by the layout of log 13: the
register, and nothing else but the effects of `WR_DATA`, `TRIGGER` and `IMM_BTA`; a read-only register and an
index past the list are refused, and the program is not written while the interface is enabled (R98, R414). What a
write of 0 to TRIGGER does, and a write while a trigger is in flight, is the model's choice (log 46), and so is that a
write of HOST_CONTROL may flip HS_TRANSMIT and leave the software flag (log 52). -/
def Obligations.RegWrites : Prop :=
  ∀ (n : InstId) (v : Word) (s : State),
    let p := s.params
    let i := s.inst n
    let write (k : BitVec 16) := exec (.regw n k v) s
    let put (g : Regs) := Ends s n { i with regs := g } .success .none
    let h := hostControlOfWord p.layout v
    Open s n →
    write 0 = put { i.regs with ifEnable := bitOf v p.layout.ifEnable } ∧
    write 1 = put { i.regs with control := controlOfWord p.layout v } ∧
    (h.immBta = false → write 2 = put { i.regs with hostControl := h }) ∧
    (h.immBta = true → write 2 = Ends s n { i with
      regs := { i.regs with hostControl := h, btaActive := true }
      phase := .triggered, btaSeen := true } .success .none) ∧
    write 3 = Ends s n { i with
      regs := { i.regs with trigger := v }
      phase := if v = 0 then i.phase else .triggered
      hfifo := if v ≠ 0 ∧ i.flight = .lost then [] else i.hfifo
      flight := if v = 0 then i.flight else triggeredFlight i.flight
      sent := if v ≠ 0 ∧ i.regs.hostControl.triggerMode = .immediate then i.contents :: i.sent
        else i.sent } .success .none ∧
    write 4 = .refused .readOnlyRegister ∧
    write 5 = exec (.push n v) s ∧
    write 6 = .refused .readOnlyRegister ∧
    (∀ (slot : Fin 6) (hi : Bool), let k := BitVec.ofNat 16 (7 + 2 * slot.val + hi.toNat)
      (i.regs.ifEnable = true → write k = .refused .liveProgramWrite) ∧
      (i.regs.ifEnable = false → ∃ f, write k = put { i.regs with slots := f } ∧
        halfGet f slot hi = halfOfRaw v ∧
        ∀ k' h', (k' ≠ slot ∨ h' ≠ hi) → halfGet f k' h' = halfGet i.regs.slots k' h')) ∧
    (i.regs.ifEnable = true → write 19 = .refused .liveProgramWrite ∧
      write 23 = .refused .liveProgramWrite) ∧
    (i.regs.ifEnable = false → write 19 = put { i.regs with pktLen := pktLenOfRaw v } ∧
      write 23 = put { i.regs with solDelay := v.toNat }) ∧
    write 20 = put { i.regs with phy := phyOfRaw p v } ∧
    write 21 = put { i.regs with bta := triadOfRaw p v } ∧
    write 22 = put { i.regs with timeout := v.setWidth 16 } ∧
    write 24 = put { i.regs with threshold := v } ∧
    write 25 = put { i.regs with padEnable := bitOf v p.layout.padEnable } ∧
    write 26 = .refused (if p.useSyncpt then .readOnlyRegister else .noSuchRegister) ∧
    (∀ k : BitVec 16, 26 < k.toNat → write k = .refused .noSuchRegister)

/-- `RegRead` (R211) for every register of R30: what the register holds, and no change but of `TRIGGER` and
`STATUS`, whose answers come from the environment (R34, R35; a zero TRIGGER completes a trigger in flight, R83), of
`RD_DATA`, which pops (R213), and of the completion counter (log 37); `WR_DATA` and an index past the list are
refused. When the panel's words arrive
is the model's choice (log 8), and so are the draws (log 6) and the empty pop (log 20). -/
def Obligations.RegReads : Prop :=
  ∀ (n : InstId) (s : State),
    let i := s.inst n
    let read (k : BitVec 16) := exec (.regr n k) s
    let gives (v : RegValue) := Ends s n i .success (.reg v)
    Open s n →
    read 0 = gives (.powerControl i.regs.ifEnable) ∧
    read 1 = gives (.control i.regs.control) ∧
    read 2 = gives (.hostControl i.regs.hostControl) ∧
    (i.triggerAt 0 ≠ 0 → read 3 =
      Ends s n (i.sawTrigger 1 (i.triggerAt 0)) .success (.reg (.trigger (i.triggerAt 0)))) ∧
    (i.triggerAt 0 = 0 → read 3 =
      Ends s n { i.sawTrigger 1 0 with hfifo := i.queued, flight := settledFlight i.flight } .success (.reg (.trigger 0))) ∧
    (let arrived := i.rfifo ++ if i.btaSeen then i.panelAt 0 else []
     let e := i.env.error.answer (Config.errorAnswer i.id) 0
     read 4 = Ends s n { i with
        rfifo := arrived
        regs := { i.regs with btaActive := i.btaAt 0, errorFlag := e }
        env := { i.env with
          panel := i.env.panel.advance (if i.btaSeen then 1 else 0)
          bta := i.env.bta.advance 1, error := i.env.error.advance 1 } }
        .success (.reg (.status arrived.length (i.btaAt 0) e))) ∧
    read 5 = .refused .writeOnlyRegister ∧
    (∀ w r, i.rfifo = w :: r →
      read 6 = Ends s n { i with rfifo := r } .success (.reg (.rdData w))) ∧
    (i.rfifo = [] → ∃ w,
      read 6 = Ends s n { i with freeTick := i.freeTick + 1 } .success (.reg (.rdData w))) ∧
    (∀ (slot : Fin 6) (hi : Bool),
      read (BitVec.ofNat 16 (7 + 2 * slot.val + hi.toNat)) =
        gives (.pktSeq (halfGet i.regs.slots slot hi))) ∧
    read 19 = gives (.pktLen i.regs.pktLen) ∧
    read 20 = gives (.phyTiming i.regs.phy) ∧
    read 21 = gives (.btaTiming i.regs.bta) ∧
    read 22 = gives (.timeout i.regs.timeout) ∧
    read 23 = gives (.solDelay i.regs.solDelay) ∧
    read 24 = gives (.threshold i.regs.threshold) ∧
    read 25 = gives (.padControl i.regs.padEnable) ∧
    (s.params.useSyncpt = true → ∃ v, read 26 = Ends s n { i with
      regs := { i.regs with syncpt := v }, freeTick := i.freeTick + 1 } .success (.reg (.syncpt v))) ∧
    (s.params.useSyncpt = false → read 26 = .refused .noSuchRegister) ∧
    (∀ k : BitVec 16, 26 < k.toNat → read k = .refused .noSuchRegister)

/-- `Poll` (R216, property P7; predicate numbers: log 18): at most `N = ceil(MAX / STEP)` reads, the first true one
ends it, `TimedOut` after exactly `N`; a zero TRIGGER completes a trigger in flight (R83); a bound of zero and an unknown predicate are refused. -/
def Obligations.PollRuns : Prop :=
  ∀ (n : InstId) (pred : BitVec 16) (step max : Word) (s : State),
    let i := s.inst n
    let N := pollCount step.toNat max.toNat
    let run (k : BitVec 16) := exec (.poll n k step max) s
    Open s n →
    (2 < pred.toNat → run pred = .refused .noSuchPredicate) ∧
    (pred.toNat ≤ 2 → (step = 0 ∨ max = 0) → run pred = .refused .zeroPollBound) ∧
    (step ≠ 0 → max ≠ 0 →
      (∀ k, N ≤ k ↔ max.toNat ≤ k * step.toNat) ∧
      (pred.toNat ≤ 2 → ∃ j r, run pred = Ends s n j .success (.poll r)) ∧
      (∀ m, m < N → i.ReadyAfter 0 m →
        run 0 = Ends s n { i.sawTrigger (m + 1) 0 with hfifo := i.queued, flight := settledFlight i.flight } .success
          (.poll .ready)) ∧
      ((∀ k, k < N → i.triggerAt k ≠ 0) →
        ∃ w, run 0 = Ends s n (i.sawTrigger N w) .success (.poll .timedOut)) ∧
      (∀ m, m < N → i.BtaClearsAfter m →
        run 1 = Ends s n { i with
          env := { i.env with bta := i.env.bta.advance (m + 1) }
          regs := { i.regs with btaActive := false } } .success (.poll .ready)) ∧
      ((∀ k, k < N → i.btaAt k = true) →
        run 1 = Ends s n { i with
          env := { i.env with bta := i.env.bta.advance N }
          regs := { i.regs with btaActive := true } } .success (.poll .timedOut)) ∧
      (i.rfifo ≠ [] → ∃ j, run 2 = Ends s n j .success (.poll .ready) ∧ i.rfifo <+: j.rfifo) ∧
      (i.rfifo = [] → (i.btaSeen = true → ∀ k, k < N → i.panelAt k = []) →
        ∃ j, run 2 = Ends s n j .success (.poll .timedOut) ∧ j.rfifo = []))
end

