-- ==== Sys2Proof/Laws/State.lean ====
section
/-! SUPPORT. One lemma per field per update of a block, and per field of `State.setInst`. -/

namespace Sys2Proof.Machine

section call

variable (i : Instance) (c : EnvCall)

@[simp] theorem Instance.call_id : (i.call c).id = i.id := rfl
@[simp] theorem Instance.call_ctrlIndex : (i.call c).ctrlIndex = i.ctrlIndex := rfl
@[simp] theorem Instance.call_cfg : (i.call c).cfg = i.cfg := rfl
@[simp] theorem Instance.call_curPhyFreq : (i.call c).curPhyFreq = i.curPhyFreq := rfl
@[simp] theorem Instance.call_hsMode : (i.call c).hsMode = i.hsMode := rfl
@[simp] theorem Instance.call_hostActive : (i.call c).hostActive = i.hostActive := rfl
@[simp] theorem Instance.call_hostClkOn : (i.call c).hostClkOn = i.hostClkOn := rfl
@[simp] theorem Instance.call_solDelay : (i.call c).solDelay = i.solDelay := rfl
@[simp] theorem Instance.call_gangedHalf : (i.call c).gangedHalf = i.gangedHalf := rfl
@[simp] theorem Instance.call_lifecycle : (i.call c).lifecycle = i.lifecycle := rfl
@[simp] theorem Instance.call_lock : (i.call c).lock = i.lock := rfl
@[simp] theorem Instance.call_engine : (i.call c).engine = i.engine := rfl
@[simp] theorem Instance.call_phase : (i.call c).phase = i.phase := rfl
@[simp] theorem Instance.call_snap : (i.call c).snap = i.snap := rfl
@[simp] theorem Instance.call_fatal : (i.call c).fatal = i.fatal := rfl
@[simp] theorem Instance.call_te : (i.call c).te = i.te := rfl
@[simp] theorem Instance.call_res : (i.call c).res = i.res := rfl
@[simp] theorem Instance.call_padsCalibrated : (i.call c).padsCalibrated = i.padsCalibrated := rfl
@[simp] theorem Instance.call_regs : (i.call c).regs = i.regs := rfl
@[simp] theorem Instance.call_hfifo : (i.call c).hfifo = i.hfifo := rfl
@[simp] theorem Instance.call_flight : (i.call c).flight = i.flight := rfl
@[simp] theorem Instance.call_queued : (i.call c).queued = i.queued := rfl
@[simp] theorem Instance.call_rfifo : (i.call c).rfifo = i.rfifo := rfl
@[simp] theorem Instance.call_btaSeen : (i.call c).btaSeen = i.btaSeen := rfl
@[simp] theorem Instance.call_staging : (i.call c).staging = i.staging := rfl
@[simp] theorem Instance.call_readLen : (i.call c).readLen = i.readLen := rfl
@[simp] theorem Instance.call_outBuf : (i.call c).outBuf = i.outBuf := rfl
@[simp] theorem Instance.call_halfStage : (i.call c).halfStage = i.halfStage := rfl
@[simp] theorem Instance.call_sent : (i.call c).sent = i.sent := rfl
@[simp] theorem Instance.call_env : (i.call c).env = { i.env with calls := c :: i.env.calls } := rfl
@[simp] theorem Instance.call_freeTick : (i.call c).freeTick = i.freeTick := rfl

end call

section useTick

variable (i : Instance)

@[simp] theorem Instance.useTick_id : (i.useTick).id = i.id := rfl
@[simp] theorem Instance.useTick_ctrlIndex : (i.useTick).ctrlIndex = i.ctrlIndex := rfl
@[simp] theorem Instance.useTick_cfg : (i.useTick).cfg = i.cfg := rfl
@[simp] theorem Instance.useTick_curPhyFreq : (i.useTick).curPhyFreq = i.curPhyFreq := rfl
@[simp] theorem Instance.useTick_hsMode : (i.useTick).hsMode = i.hsMode := rfl
@[simp] theorem Instance.useTick_hostActive : (i.useTick).hostActive = i.hostActive := rfl
@[simp] theorem Instance.useTick_hostClkOn : (i.useTick).hostClkOn = i.hostClkOn := rfl
@[simp] theorem Instance.useTick_solDelay : (i.useTick).solDelay = i.solDelay := rfl
@[simp] theorem Instance.useTick_gangedHalf : (i.useTick).gangedHalf = i.gangedHalf := rfl
@[simp] theorem Instance.useTick_lifecycle : (i.useTick).lifecycle = i.lifecycle := rfl
@[simp] theorem Instance.useTick_lock : (i.useTick).lock = i.lock := rfl
@[simp] theorem Instance.useTick_engine : (i.useTick).engine = i.engine := rfl
@[simp] theorem Instance.useTick_phase : (i.useTick).phase = i.phase := rfl
@[simp] theorem Instance.useTick_snap : (i.useTick).snap = i.snap := rfl
@[simp] theorem Instance.useTick_fatal : (i.useTick).fatal = i.fatal := rfl
@[simp] theorem Instance.useTick_te : (i.useTick).te = i.te := rfl
@[simp] theorem Instance.useTick_res : (i.useTick).res = i.res := rfl
@[simp] theorem Instance.useTick_padsCalibrated : (i.useTick).padsCalibrated = i.padsCalibrated := rfl
@[simp] theorem Instance.useTick_regs : (i.useTick).regs = i.regs := rfl
@[simp] theorem Instance.useTick_hfifo : (i.useTick).hfifo = i.hfifo := rfl
@[simp] theorem Instance.useTick_flight : (i.useTick).flight = i.flight := rfl
@[simp] theorem Instance.useTick_queued : (i.useTick).queued = i.queued := rfl
@[simp] theorem Instance.useTick_rfifo : (i.useTick).rfifo = i.rfifo := rfl
@[simp] theorem Instance.useTick_btaSeen : (i.useTick).btaSeen = i.btaSeen := rfl
@[simp] theorem Instance.useTick_staging : (i.useTick).staging = i.staging := rfl
@[simp] theorem Instance.useTick_readLen : (i.useTick).readLen = i.readLen := rfl
@[simp] theorem Instance.useTick_outBuf : (i.useTick).outBuf = i.outBuf := rfl
@[simp] theorem Instance.useTick_halfStage : (i.useTick).halfStage = i.halfStage := rfl
@[simp] theorem Instance.useTick_sent : (i.useTick).sent = i.sent := rfl
@[simp] theorem Instance.useTick_env : (i.useTick).env = i.env := rfl
@[simp] theorem Instance.useTick_freeTick : (i.useTick).freeTick = i.freeTick + 1 := rfl

end useTick

section setControl

variable (i : Instance) (c : ControlReg)

@[simp] theorem Instance.setControl_id : (i.setControl c).id = i.id := rfl
@[simp] theorem Instance.setControl_ctrlIndex : (i.setControl c).ctrlIndex = i.ctrlIndex := rfl
@[simp] theorem Instance.setControl_cfg : (i.setControl c).cfg = i.cfg := rfl
@[simp] theorem Instance.setControl_curPhyFreq : (i.setControl c).curPhyFreq = i.curPhyFreq := rfl
@[simp] theorem Instance.setControl_hsMode : (i.setControl c).hsMode = i.hsMode := rfl
@[simp] theorem Instance.setControl_hostActive : (i.setControl c).hostActive = i.hostActive := rfl
@[simp] theorem Instance.setControl_hostClkOn : (i.setControl c).hostClkOn = i.hostClkOn := rfl
@[simp] theorem Instance.setControl_solDelay : (i.setControl c).solDelay = i.solDelay := rfl
@[simp] theorem Instance.setControl_gangedHalf : (i.setControl c).gangedHalf = i.gangedHalf := rfl
@[simp] theorem Instance.setControl_lifecycle : (i.setControl c).lifecycle = i.lifecycle := rfl
@[simp] theorem Instance.setControl_lock : (i.setControl c).lock = i.lock := rfl
@[simp] theorem Instance.setControl_engine : (i.setControl c).engine = i.engine := rfl
@[simp] theorem Instance.setControl_phase : (i.setControl c).phase = i.phase := rfl
@[simp] theorem Instance.setControl_snap : (i.setControl c).snap = i.snap := rfl
@[simp] theorem Instance.setControl_fatal : (i.setControl c).fatal = i.fatal := rfl
@[simp] theorem Instance.setControl_te : (i.setControl c).te = i.te := rfl
@[simp] theorem Instance.setControl_res : (i.setControl c).res = i.res := rfl
@[simp] theorem Instance.setControl_padsCalibrated : (i.setControl c).padsCalibrated = i.padsCalibrated := rfl
@[simp] theorem Instance.setControl_regs : (i.setControl c).regs = { i.regs with control := c } := rfl
@[simp] theorem Instance.setControl_hfifo : (i.setControl c).hfifo = i.hfifo := rfl
@[simp] theorem Instance.setControl_flight : (i.setControl c).flight = i.flight := rfl
@[simp] theorem Instance.setControl_queued : (i.setControl c).queued = i.queued := rfl
@[simp] theorem Instance.setControl_rfifo : (i.setControl c).rfifo = i.rfifo := rfl
@[simp] theorem Instance.setControl_btaSeen : (i.setControl c).btaSeen = i.btaSeen := rfl
@[simp] theorem Instance.setControl_staging : (i.setControl c).staging = i.staging := rfl
@[simp] theorem Instance.setControl_readLen : (i.setControl c).readLen = i.readLen := rfl
@[simp] theorem Instance.setControl_outBuf : (i.setControl c).outBuf = i.outBuf := rfl
@[simp] theorem Instance.setControl_halfStage : (i.setControl c).halfStage = i.halfStage := rfl
@[simp] theorem Instance.setControl_sent : (i.setControl c).sent = i.sent := rfl
@[simp] theorem Instance.setControl_env : (i.setControl c).env = i.env := rfl
@[simp] theorem Instance.setControl_freeTick : (i.setControl c).freeTick = i.freeTick := rfl

end setControl

section setHostControl

variable (i : Instance) (h : HostControlReg)

@[simp] theorem Instance.setHostControl_id : (i.setHostControl h).id = i.id := rfl
@[simp] theorem Instance.setHostControl_ctrlIndex : (i.setHostControl h).ctrlIndex = i.ctrlIndex := rfl
@[simp] theorem Instance.setHostControl_cfg : (i.setHostControl h).cfg = i.cfg := rfl
@[simp] theorem Instance.setHostControl_curPhyFreq : (i.setHostControl h).curPhyFreq = i.curPhyFreq := rfl
@[simp] theorem Instance.setHostControl_hsMode : (i.setHostControl h).hsMode = i.hsMode := rfl
@[simp] theorem Instance.setHostControl_hostActive : (i.setHostControl h).hostActive = i.hostActive := rfl
@[simp] theorem Instance.setHostControl_hostClkOn : (i.setHostControl h).hostClkOn = i.hostClkOn := rfl
@[simp] theorem Instance.setHostControl_solDelay : (i.setHostControl h).solDelay = i.solDelay := rfl
@[simp] theorem Instance.setHostControl_gangedHalf : (i.setHostControl h).gangedHalf = i.gangedHalf := rfl
@[simp] theorem Instance.setHostControl_lifecycle : (i.setHostControl h).lifecycle = i.lifecycle := rfl
@[simp] theorem Instance.setHostControl_lock : (i.setHostControl h).lock = i.lock := rfl
@[simp] theorem Instance.setHostControl_engine : (i.setHostControl h).engine = i.engine := rfl
@[simp] theorem Instance.setHostControl_phase : (i.setHostControl h).phase = i.phase := rfl
@[simp] theorem Instance.setHostControl_snap : (i.setHostControl h).snap = i.snap := rfl
@[simp] theorem Instance.setHostControl_fatal : (i.setHostControl h).fatal = i.fatal := rfl
@[simp] theorem Instance.setHostControl_te : (i.setHostControl h).te = i.te := rfl
@[simp] theorem Instance.setHostControl_res : (i.setHostControl h).res = i.res := rfl
@[simp] theorem Instance.setHostControl_padsCalibrated : (i.setHostControl h).padsCalibrated = i.padsCalibrated := rfl
@[simp] theorem Instance.setHostControl_regs : (i.setHostControl h).regs = { i.regs with hostControl := h } := rfl
@[simp] theorem Instance.setHostControl_hfifo : (i.setHostControl h).hfifo = i.hfifo := rfl
@[simp] theorem Instance.setHostControl_flight : (i.setHostControl h).flight = i.flight := rfl
@[simp] theorem Instance.setHostControl_queued : (i.setHostControl h).queued = i.queued := rfl
@[simp] theorem Instance.setHostControl_rfifo : (i.setHostControl h).rfifo = i.rfifo := rfl
@[simp] theorem Instance.setHostControl_btaSeen : (i.setHostControl h).btaSeen = i.btaSeen := rfl
@[simp] theorem Instance.setHostControl_staging : (i.setHostControl h).staging = i.staging := rfl
@[simp] theorem Instance.setHostControl_readLen : (i.setHostControl h).readLen = i.readLen := rfl
@[simp] theorem Instance.setHostControl_outBuf : (i.setHostControl h).outBuf = i.outBuf := rfl
@[simp] theorem Instance.setHostControl_halfStage : (i.setHostControl h).halfStage = i.halfStage := rfl
@[simp] theorem Instance.setHostControl_sent : (i.setHostControl h).sent = i.sent := rfl
@[simp] theorem Instance.setHostControl_env : (i.setHostControl h).env = i.env := rfl
@[simp] theorem Instance.setHostControl_freeTick : (i.setHostControl h).freeTick = i.freeTick := rfl

end setHostControl

section setIfEnable

variable (i : Instance) (b : Bool)

@[simp] theorem Instance.setIfEnable_id : (i.setIfEnable b).id = i.id := rfl
@[simp] theorem Instance.setIfEnable_ctrlIndex : (i.setIfEnable b).ctrlIndex = i.ctrlIndex := rfl
@[simp] theorem Instance.setIfEnable_cfg : (i.setIfEnable b).cfg = i.cfg := rfl
@[simp] theorem Instance.setIfEnable_curPhyFreq : (i.setIfEnable b).curPhyFreq = i.curPhyFreq := rfl
@[simp] theorem Instance.setIfEnable_hsMode : (i.setIfEnable b).hsMode = i.hsMode := rfl
@[simp] theorem Instance.setIfEnable_hostActive : (i.setIfEnable b).hostActive = i.hostActive := rfl
@[simp] theorem Instance.setIfEnable_hostClkOn : (i.setIfEnable b).hostClkOn = i.hostClkOn := rfl
@[simp] theorem Instance.setIfEnable_solDelay : (i.setIfEnable b).solDelay = i.solDelay := rfl
@[simp] theorem Instance.setIfEnable_gangedHalf : (i.setIfEnable b).gangedHalf = i.gangedHalf := rfl
@[simp] theorem Instance.setIfEnable_lifecycle : (i.setIfEnable b).lifecycle = i.lifecycle := rfl
@[simp] theorem Instance.setIfEnable_lock : (i.setIfEnable b).lock = i.lock := rfl
@[simp] theorem Instance.setIfEnable_engine : (i.setIfEnable b).engine = i.engine := rfl
@[simp] theorem Instance.setIfEnable_phase : (i.setIfEnable b).phase = i.phase := rfl
@[simp] theorem Instance.setIfEnable_snap : (i.setIfEnable b).snap = i.snap := rfl
@[simp] theorem Instance.setIfEnable_fatal : (i.setIfEnable b).fatal = i.fatal := rfl
@[simp] theorem Instance.setIfEnable_te : (i.setIfEnable b).te = i.te := rfl
@[simp] theorem Instance.setIfEnable_res : (i.setIfEnable b).res = i.res := rfl
@[simp] theorem Instance.setIfEnable_padsCalibrated : (i.setIfEnable b).padsCalibrated = i.padsCalibrated := rfl
@[simp] theorem Instance.setIfEnable_regs : (i.setIfEnable b).regs = { i.regs with ifEnable := b } := rfl
@[simp] theorem Instance.setIfEnable_hfifo : (i.setIfEnable b).hfifo = i.hfifo := rfl
@[simp] theorem Instance.setIfEnable_flight : (i.setIfEnable b).flight = i.flight := rfl
@[simp] theorem Instance.setIfEnable_queued : (i.setIfEnable b).queued = i.queued := rfl
@[simp] theorem Instance.setIfEnable_rfifo : (i.setIfEnable b).rfifo = i.rfifo := rfl
@[simp] theorem Instance.setIfEnable_btaSeen : (i.setIfEnable b).btaSeen = i.btaSeen := rfl
@[simp] theorem Instance.setIfEnable_staging : (i.setIfEnable b).staging = i.staging := rfl
@[simp] theorem Instance.setIfEnable_readLen : (i.setIfEnable b).readLen = i.readLen := rfl
@[simp] theorem Instance.setIfEnable_outBuf : (i.setIfEnable b).outBuf = i.outBuf := rfl
@[simp] theorem Instance.setIfEnable_halfStage : (i.setIfEnable b).halfStage = i.halfStage := rfl
@[simp] theorem Instance.setIfEnable_sent : (i.setIfEnable b).sent = i.sent := rfl
@[simp] theorem Instance.setIfEnable_env : (i.setIfEnable b).env = i.env := rfl
@[simp] theorem Instance.setIfEnable_freeTick : (i.setIfEnable b).freeTick = i.freeTick := rfl

end setIfEnable

section programPhy

variable (i : Instance) (t : PhyTimingSet)

@[simp] theorem Instance.programPhy_id : (i.programPhy t).id = i.id := rfl
@[simp] theorem Instance.programPhy_ctrlIndex : (i.programPhy t).ctrlIndex = i.ctrlIndex := rfl
@[simp] theorem Instance.programPhy_cfg : (i.programPhy t).cfg = i.cfg := rfl
@[simp] theorem Instance.programPhy_curPhyFreq : (i.programPhy t).curPhyFreq = i.curPhyFreq := rfl
@[simp] theorem Instance.programPhy_hsMode : (i.programPhy t).hsMode = i.hsMode := rfl
@[simp] theorem Instance.programPhy_hostActive : (i.programPhy t).hostActive = i.hostActive := rfl
@[simp] theorem Instance.programPhy_hostClkOn : (i.programPhy t).hostClkOn = i.hostClkOn := rfl
@[simp] theorem Instance.programPhy_solDelay : (i.programPhy t).solDelay = i.solDelay := rfl
@[simp] theorem Instance.programPhy_gangedHalf : (i.programPhy t).gangedHalf = i.gangedHalf := rfl
@[simp] theorem Instance.programPhy_lifecycle : (i.programPhy t).lifecycle = i.lifecycle := rfl
@[simp] theorem Instance.programPhy_lock : (i.programPhy t).lock = i.lock := rfl
@[simp] theorem Instance.programPhy_engine : (i.programPhy t).engine = i.engine := rfl
@[simp] theorem Instance.programPhy_phase : (i.programPhy t).phase = i.phase := rfl
@[simp] theorem Instance.programPhy_snap : (i.programPhy t).snap = i.snap := rfl
@[simp] theorem Instance.programPhy_fatal : (i.programPhy t).fatal = i.fatal := rfl
@[simp] theorem Instance.programPhy_te : (i.programPhy t).te = i.te := rfl
@[simp] theorem Instance.programPhy_res : (i.programPhy t).res = i.res := rfl
@[simp] theorem Instance.programPhy_padsCalibrated : (i.programPhy t).padsCalibrated = i.padsCalibrated := rfl
@[simp] theorem Instance.programPhy_regs : (i.programPhy t).regs = { i.regs with phy := t.fields, bta := t.triad, timeout := t.timeout } := rfl
@[simp] theorem Instance.programPhy_hfifo : (i.programPhy t).hfifo = i.hfifo := rfl
@[simp] theorem Instance.programPhy_flight : (i.programPhy t).flight = i.flight := rfl
@[simp] theorem Instance.programPhy_queued : (i.programPhy t).queued = i.queued := rfl
@[simp] theorem Instance.programPhy_rfifo : (i.programPhy t).rfifo = i.rfifo := rfl
@[simp] theorem Instance.programPhy_btaSeen : (i.programPhy t).btaSeen = i.btaSeen := rfl
@[simp] theorem Instance.programPhy_staging : (i.programPhy t).staging = i.staging := rfl
@[simp] theorem Instance.programPhy_readLen : (i.programPhy t).readLen = i.readLen := rfl
@[simp] theorem Instance.programPhy_outBuf : (i.programPhy t).outBuf = i.outBuf := rfl
@[simp] theorem Instance.programPhy_halfStage : (i.programPhy t).halfStage = i.halfStage := rfl
@[simp] theorem Instance.programPhy_sent : (i.programPhy t).sent = i.sent := rfl
@[simp] theorem Instance.programPhy_env : (i.programPhy t).env = i.env := rfl
@[simp] theorem Instance.programPhy_freeTick : (i.programPhy t).freeTick = i.freeTick := rfl

end programPhy

section setSlots

variable (i : Instance) (f : SlotFile)

@[simp] theorem Instance.setSlots_id : (i.setSlots f).id = i.id := rfl
@[simp] theorem Instance.setSlots_ctrlIndex : (i.setSlots f).ctrlIndex = i.ctrlIndex := rfl
@[simp] theorem Instance.setSlots_cfg : (i.setSlots f).cfg = i.cfg := rfl
@[simp] theorem Instance.setSlots_curPhyFreq : (i.setSlots f).curPhyFreq = i.curPhyFreq := rfl
@[simp] theorem Instance.setSlots_hsMode : (i.setSlots f).hsMode = i.hsMode := rfl
@[simp] theorem Instance.setSlots_hostActive : (i.setSlots f).hostActive = i.hostActive := rfl
@[simp] theorem Instance.setSlots_hostClkOn : (i.setSlots f).hostClkOn = i.hostClkOn := rfl
@[simp] theorem Instance.setSlots_solDelay : (i.setSlots f).solDelay = i.solDelay := rfl
@[simp] theorem Instance.setSlots_gangedHalf : (i.setSlots f).gangedHalf = i.gangedHalf := rfl
@[simp] theorem Instance.setSlots_lifecycle : (i.setSlots f).lifecycle = i.lifecycle := rfl
@[simp] theorem Instance.setSlots_lock : (i.setSlots f).lock = i.lock := rfl
@[simp] theorem Instance.setSlots_engine : (i.setSlots f).engine = i.engine := rfl
@[simp] theorem Instance.setSlots_phase : (i.setSlots f).phase = i.phase := rfl
@[simp] theorem Instance.setSlots_snap : (i.setSlots f).snap = i.snap := rfl
@[simp] theorem Instance.setSlots_fatal : (i.setSlots f).fatal = i.fatal := rfl
@[simp] theorem Instance.setSlots_te : (i.setSlots f).te = i.te := rfl
@[simp] theorem Instance.setSlots_res : (i.setSlots f).res = i.res := rfl
@[simp] theorem Instance.setSlots_padsCalibrated : (i.setSlots f).padsCalibrated = i.padsCalibrated := rfl
@[simp] theorem Instance.setSlots_regs : (i.setSlots f).regs = { i.regs with slots := f } := rfl
@[simp] theorem Instance.setSlots_hfifo : (i.setSlots f).hfifo = i.hfifo := rfl
@[simp] theorem Instance.setSlots_flight : (i.setSlots f).flight = i.flight := rfl
@[simp] theorem Instance.setSlots_queued : (i.setSlots f).queued = i.queued := rfl
@[simp] theorem Instance.setSlots_rfifo : (i.setSlots f).rfifo = i.rfifo := rfl
@[simp] theorem Instance.setSlots_btaSeen : (i.setSlots f).btaSeen = i.btaSeen := rfl
@[simp] theorem Instance.setSlots_staging : (i.setSlots f).staging = i.staging := rfl
@[simp] theorem Instance.setSlots_readLen : (i.setSlots f).readLen = i.readLen := rfl
@[simp] theorem Instance.setSlots_outBuf : (i.setSlots f).outBuf = i.outBuf := rfl
@[simp] theorem Instance.setSlots_halfStage : (i.setSlots f).halfStage = i.halfStage := rfl
@[simp] theorem Instance.setSlots_sent : (i.setSlots f).sent = i.sent := rfl
@[simp] theorem Instance.setSlots_env : (i.setSlots f).env = i.env := rfl
@[simp] theorem Instance.setSlots_freeTick : (i.setSlots f).freeTick = i.freeTick := rfl

end setSlots

section setLengths

variable (i : Instance) (l : PktLen)

@[simp] theorem Instance.setLengths_id : (i.setLengths l).id = i.id := rfl
@[simp] theorem Instance.setLengths_ctrlIndex : (i.setLengths l).ctrlIndex = i.ctrlIndex := rfl
@[simp] theorem Instance.setLengths_cfg : (i.setLengths l).cfg = i.cfg := rfl
@[simp] theorem Instance.setLengths_curPhyFreq : (i.setLengths l).curPhyFreq = i.curPhyFreq := rfl
@[simp] theorem Instance.setLengths_hsMode : (i.setLengths l).hsMode = i.hsMode := rfl
@[simp] theorem Instance.setLengths_hostActive : (i.setLengths l).hostActive = i.hostActive := rfl
@[simp] theorem Instance.setLengths_hostClkOn : (i.setLengths l).hostClkOn = i.hostClkOn := rfl
@[simp] theorem Instance.setLengths_solDelay : (i.setLengths l).solDelay = i.solDelay := rfl
@[simp] theorem Instance.setLengths_gangedHalf : (i.setLengths l).gangedHalf = i.gangedHalf := rfl
@[simp] theorem Instance.setLengths_lifecycle : (i.setLengths l).lifecycle = i.lifecycle := rfl
@[simp] theorem Instance.setLengths_lock : (i.setLengths l).lock = i.lock := rfl
@[simp] theorem Instance.setLengths_engine : (i.setLengths l).engine = i.engine := rfl
@[simp] theorem Instance.setLengths_phase : (i.setLengths l).phase = i.phase := rfl
@[simp] theorem Instance.setLengths_snap : (i.setLengths l).snap = i.snap := rfl
@[simp] theorem Instance.setLengths_fatal : (i.setLengths l).fatal = i.fatal := rfl
@[simp] theorem Instance.setLengths_te : (i.setLengths l).te = i.te := rfl
@[simp] theorem Instance.setLengths_res : (i.setLengths l).res = i.res := rfl
@[simp] theorem Instance.setLengths_padsCalibrated : (i.setLengths l).padsCalibrated = i.padsCalibrated := rfl
@[simp] theorem Instance.setLengths_regs : (i.setLengths l).regs = { i.regs with pktLen := l, solDelay := i.solDelay } := rfl
@[simp] theorem Instance.setLengths_hfifo : (i.setLengths l).hfifo = i.hfifo := rfl
@[simp] theorem Instance.setLengths_flight : (i.setLengths l).flight = i.flight := rfl
@[simp] theorem Instance.setLengths_queued : (i.setLengths l).queued = i.queued := rfl
@[simp] theorem Instance.setLengths_rfifo : (i.setLengths l).rfifo = i.rfifo := rfl
@[simp] theorem Instance.setLengths_btaSeen : (i.setLengths l).btaSeen = i.btaSeen := rfl
@[simp] theorem Instance.setLengths_staging : (i.setLengths l).staging = i.staging := rfl
@[simp] theorem Instance.setLengths_readLen : (i.setLengths l).readLen = i.readLen := rfl
@[simp] theorem Instance.setLengths_outBuf : (i.setLengths l).outBuf = i.outBuf := rfl
@[simp] theorem Instance.setLengths_halfStage : (i.setLengths l).halfStage = i.halfStage := rfl
@[simp] theorem Instance.setLengths_sent : (i.setLengths l).sent = i.sent := rfl
@[simp] theorem Instance.setLengths_env : (i.setLengths l).env = i.env := rfl
@[simp] theorem Instance.setLengths_freeTick : (i.setLengths l).freeTick = i.freeTick := rfl

end setLengths

section pushWords

variable (i : Instance) (ws : List FifoWord)

@[simp] theorem Instance.pushWords_id : (i.pushWords ws).id = i.id := rfl
@[simp] theorem Instance.pushWords_ctrlIndex : (i.pushWords ws).ctrlIndex = i.ctrlIndex := rfl
@[simp] theorem Instance.pushWords_cfg : (i.pushWords ws).cfg = i.cfg := rfl
@[simp] theorem Instance.pushWords_curPhyFreq : (i.pushWords ws).curPhyFreq = i.curPhyFreq := rfl
@[simp] theorem Instance.pushWords_hsMode : (i.pushWords ws).hsMode = i.hsMode := rfl
@[simp] theorem Instance.pushWords_hostActive : (i.pushWords ws).hostActive = i.hostActive := rfl
@[simp] theorem Instance.pushWords_hostClkOn : (i.pushWords ws).hostClkOn = i.hostClkOn := rfl
@[simp] theorem Instance.pushWords_solDelay : (i.pushWords ws).solDelay = i.solDelay := rfl
@[simp] theorem Instance.pushWords_gangedHalf : (i.pushWords ws).gangedHalf = i.gangedHalf := rfl
@[simp] theorem Instance.pushWords_lifecycle : (i.pushWords ws).lifecycle = i.lifecycle := rfl
@[simp] theorem Instance.pushWords_lock : (i.pushWords ws).lock = i.lock := rfl
@[simp] theorem Instance.pushWords_engine : (i.pushWords ws).engine = i.engine := rfl
@[simp] theorem Instance.pushWords_phase : (i.pushWords ws).phase = i.phase := rfl
@[simp] theorem Instance.pushWords_snap : (i.pushWords ws).snap = i.snap := rfl
@[simp] theorem Instance.pushWords_fatal : (i.pushWords ws).fatal = i.fatal := rfl
@[simp] theorem Instance.pushWords_te : (i.pushWords ws).te = i.te := rfl
@[simp] theorem Instance.pushWords_res : (i.pushWords ws).res = i.res := rfl
@[simp] theorem Instance.pushWords_padsCalibrated : (i.pushWords ws).padsCalibrated = i.padsCalibrated := rfl
@[simp] theorem Instance.pushWords_regs : (i.pushWords ws).regs = i.regs := rfl
@[simp] theorem Instance.pushWords_hfifo : (i.pushWords ws).hfifo = i.hfifo ++ ws := rfl
@[simp] theorem Instance.pushWords_flight : (i.pushWords ws).flight = i.flight := rfl
@[simp] theorem Instance.pushWords_rfifo : (i.pushWords ws).rfifo = i.rfifo := rfl
@[simp] theorem Instance.pushWords_btaSeen : (i.pushWords ws).btaSeen = i.btaSeen := rfl
@[simp] theorem Instance.pushWords_staging : (i.pushWords ws).staging = i.staging := rfl
@[simp] theorem Instance.pushWords_readLen : (i.pushWords ws).readLen = i.readLen := rfl
@[simp] theorem Instance.pushWords_outBuf : (i.pushWords ws).outBuf = i.outBuf := rfl
@[simp] theorem Instance.pushWords_halfStage : (i.pushWords ws).halfStage = i.halfStage := rfl
@[simp] theorem Instance.pushWords_sent : (i.pushWords ws).sent = i.sent := rfl
@[simp] theorem Instance.pushWords_env : (i.pushWords ws).env = i.env := rfl
@[simp] theorem Instance.pushWords_freeTick : (i.pushWords ws).freeTick = i.freeTick := rfl

end pushWords

section acquire

variable (i : Instance)

@[simp] theorem Instance.acquire_id : (i.acquire).id = i.id := rfl
@[simp] theorem Instance.acquire_ctrlIndex : (i.acquire).ctrlIndex = i.ctrlIndex := rfl
@[simp] theorem Instance.acquire_cfg : (i.acquire).cfg = i.cfg := rfl
@[simp] theorem Instance.acquire_curPhyFreq : (i.acquire).curPhyFreq = i.curPhyFreq := rfl
@[simp] theorem Instance.acquire_hsMode : (i.acquire).hsMode = i.hsMode := rfl
@[simp] theorem Instance.acquire_hostActive : (i.acquire).hostActive = i.hostActive := rfl
@[simp] theorem Instance.acquire_hostClkOn : (i.acquire).hostClkOn = i.hostClkOn := rfl
@[simp] theorem Instance.acquire_solDelay : (i.acquire).solDelay = i.solDelay := rfl
@[simp] theorem Instance.acquire_gangedHalf : (i.acquire).gangedHalf = i.gangedHalf := rfl
@[simp] theorem Instance.acquire_lifecycle : (i.acquire).lifecycle = i.lifecycle := rfl
@[simp] theorem Instance.acquire_lock : (i.acquire).lock = .held := rfl
@[simp] theorem Instance.acquire_engine : (i.acquire).engine = i.engine := rfl
@[simp] theorem Instance.acquire_phase : (i.acquire).phase = i.phase := rfl
@[simp] theorem Instance.acquire_snap : (i.acquire).snap = i.snap := rfl
@[simp] theorem Instance.acquire_fatal : (i.acquire).fatal = i.fatal := rfl
@[simp] theorem Instance.acquire_te : (i.acquire).te = i.te := rfl
@[simp] theorem Instance.acquire_res : (i.acquire).res = i.res := rfl
@[simp] theorem Instance.acquire_padsCalibrated : (i.acquire).padsCalibrated = i.padsCalibrated := rfl
@[simp] theorem Instance.acquire_regs : (i.acquire).regs = i.regs := rfl
@[simp] theorem Instance.acquire_hfifo : (i.acquire).hfifo = i.hfifo := rfl
@[simp] theorem Instance.acquire_flight : (i.acquire).flight = i.flight := rfl
@[simp] theorem Instance.acquire_queued : (i.acquire).queued = i.queued := rfl
@[simp] theorem Instance.acquire_rfifo : (i.acquire).rfifo = i.rfifo := rfl
@[simp] theorem Instance.acquire_btaSeen : (i.acquire).btaSeen = i.btaSeen := rfl
@[simp] theorem Instance.acquire_staging : (i.acquire).staging = i.staging := rfl
@[simp] theorem Instance.acquire_readLen : (i.acquire).readLen = i.readLen := rfl
@[simp] theorem Instance.acquire_outBuf : (i.acquire).outBuf = i.outBuf := rfl
@[simp] theorem Instance.acquire_halfStage : (i.acquire).halfStage = i.halfStage := rfl
@[simp] theorem Instance.acquire_sent : (i.acquire).sent = i.sent := rfl
@[simp] theorem Instance.acquire_env : (i.acquire).env = i.env := rfl
@[simp] theorem Instance.acquire_freeTick : (i.acquire).freeTick = i.freeTick := rfl

end acquire

section release

variable (i : Instance)

@[simp] theorem Instance.release_id : (i.release).id = i.id := rfl
@[simp] theorem Instance.release_ctrlIndex : (i.release).ctrlIndex = i.ctrlIndex := rfl
@[simp] theorem Instance.release_cfg : (i.release).cfg = i.cfg := rfl
@[simp] theorem Instance.release_curPhyFreq : (i.release).curPhyFreq = i.curPhyFreq := rfl
@[simp] theorem Instance.release_hsMode : (i.release).hsMode = i.hsMode := rfl
@[simp] theorem Instance.release_hostActive : (i.release).hostActive = i.hostActive := rfl
@[simp] theorem Instance.release_hostClkOn : (i.release).hostClkOn = i.hostClkOn := rfl
@[simp] theorem Instance.release_solDelay : (i.release).solDelay = i.solDelay := rfl
@[simp] theorem Instance.release_gangedHalf : (i.release).gangedHalf = i.gangedHalf := rfl
@[simp] theorem Instance.release_lifecycle : (i.release).lifecycle = i.lifecycle := rfl
@[simp] theorem Instance.release_lock : (i.release).lock = .free := rfl
@[simp] theorem Instance.release_engine : (i.release).engine = i.engine := rfl
@[simp] theorem Instance.release_phase : (i.release).phase = i.phase := rfl
@[simp] theorem Instance.release_snap : (i.release).snap = i.snap := rfl
@[simp] theorem Instance.release_fatal : (i.release).fatal = i.fatal := rfl
@[simp] theorem Instance.release_te : (i.release).te = i.te := rfl
@[simp] theorem Instance.release_res : (i.release).res = i.res := rfl
@[simp] theorem Instance.release_padsCalibrated : (i.release).padsCalibrated = i.padsCalibrated := rfl
@[simp] theorem Instance.release_regs : (i.release).regs = i.regs := rfl
@[simp] theorem Instance.release_hfifo : (i.release).hfifo = i.hfifo := rfl
@[simp] theorem Instance.release_flight : (i.release).flight = i.flight := rfl
@[simp] theorem Instance.release_queued : (i.release).queued = i.queued := rfl
@[simp] theorem Instance.release_rfifo : (i.release).rfifo = i.rfifo := rfl
@[simp] theorem Instance.release_btaSeen : (i.release).btaSeen = i.btaSeen := rfl
@[simp] theorem Instance.release_staging : (i.release).staging = i.staging := rfl
@[simp] theorem Instance.release_readLen : (i.release).readLen = i.readLen := rfl
@[simp] theorem Instance.release_outBuf : (i.release).outBuf = i.outBuf := rfl
@[simp] theorem Instance.release_halfStage : (i.release).halfStage = i.halfStage := rfl
@[simp] theorem Instance.release_sent : (i.release).sent = i.sent := rfl
@[simp] theorem Instance.release_env : (i.release).env = i.env := rfl
@[simp] theorem Instance.release_freeTick : (i.release).freeTick = i.freeTick := rfl

end release

section sawTrigger

variable (i : Instance) (k : Nat) (w : Word)

@[simp] theorem Instance.sawTrigger_id : (i.sawTrigger k w).id = i.id := rfl
@[simp] theorem Instance.sawTrigger_ctrlIndex : (i.sawTrigger k w).ctrlIndex = i.ctrlIndex := rfl
@[simp] theorem Instance.sawTrigger_cfg : (i.sawTrigger k w).cfg = i.cfg := rfl
@[simp] theorem Instance.sawTrigger_curPhyFreq : (i.sawTrigger k w).curPhyFreq = i.curPhyFreq := rfl
@[simp] theorem Instance.sawTrigger_hsMode : (i.sawTrigger k w).hsMode = i.hsMode := rfl
@[simp] theorem Instance.sawTrigger_hostActive : (i.sawTrigger k w).hostActive = i.hostActive := rfl
@[simp] theorem Instance.sawTrigger_hostClkOn : (i.sawTrigger k w).hostClkOn = i.hostClkOn := rfl
@[simp] theorem Instance.sawTrigger_solDelay : (i.sawTrigger k w).solDelay = i.solDelay := rfl
@[simp] theorem Instance.sawTrigger_gangedHalf : (i.sawTrigger k w).gangedHalf = i.gangedHalf := rfl
@[simp] theorem Instance.sawTrigger_lifecycle : (i.sawTrigger k w).lifecycle = i.lifecycle := rfl
@[simp] theorem Instance.sawTrigger_lock : (i.sawTrigger k w).lock = i.lock := rfl
@[simp] theorem Instance.sawTrigger_engine : (i.sawTrigger k w).engine = i.engine := rfl
@[simp] theorem Instance.sawTrigger_phase : (i.sawTrigger k w).phase = i.phase := rfl
@[simp] theorem Instance.sawTrigger_snap : (i.sawTrigger k w).snap = i.snap := rfl
@[simp] theorem Instance.sawTrigger_fatal : (i.sawTrigger k w).fatal = i.fatal := rfl
@[simp] theorem Instance.sawTrigger_te : (i.sawTrigger k w).te = i.te := rfl
@[simp] theorem Instance.sawTrigger_res : (i.sawTrigger k w).res = i.res := rfl
@[simp] theorem Instance.sawTrigger_padsCalibrated : (i.sawTrigger k w).padsCalibrated = i.padsCalibrated := rfl
@[simp] theorem Instance.sawTrigger_regs : (i.sawTrigger k w).regs = { i.regs with trigger := w } := rfl
@[simp] theorem Instance.sawTrigger_hfifo : (i.sawTrigger k w).hfifo = i.hfifo := rfl
@[simp] theorem Instance.sawTrigger_flight : (i.sawTrigger k w).flight = i.flight := rfl
@[simp] theorem Instance.sawTrigger_queued : (i.sawTrigger k w).queued = i.queued := rfl
@[simp] theorem Instance.sawTrigger_unspecified : (i.sawTrigger k w).unspecified = i.unspecified := rfl
@[simp] theorem Instance.sawTrigger_ahead : (i.sawTrigger k w).ahead = i.ahead := rfl
@[simp] theorem Instance.sawTrigger_rfifo : (i.sawTrigger k w).rfifo = i.rfifo := rfl
@[simp] theorem Instance.sawTrigger_btaSeen : (i.sawTrigger k w).btaSeen = i.btaSeen := rfl
@[simp] theorem Instance.sawTrigger_staging : (i.sawTrigger k w).staging = i.staging := rfl
@[simp] theorem Instance.sawTrigger_readLen : (i.sawTrigger k w).readLen = i.readLen := rfl
@[simp] theorem Instance.sawTrigger_outBuf : (i.sawTrigger k w).outBuf = i.outBuf := rfl
@[simp] theorem Instance.sawTrigger_halfStage : (i.sawTrigger k w).halfStage = i.halfStage := rfl
@[simp] theorem Instance.sawTrigger_sent : (i.sawTrigger k w).sent = i.sent := rfl
@[simp] theorem Instance.sawTrigger_env : (i.sawTrigger k w).env = { i.env with trigger := i.env.trigger.advance k } := rfl
@[simp] theorem Instance.sawTrigger_freeTick : (i.sawTrigger k w).freeTick = i.freeTick := rfl

end sawTrigger

/-- A settled record has no completion pending. -/
@[simp] theorem settledFlight_eq_pending (f : Flight) : settledFlight f = .pending ↔ False := by cases f <;> simp [settledFlight]

/-- Settling does not define contents that are unspecified (R83). -/
@[simp] theorem settledFlight_eq_lost (f : Flight) : settledFlight f = .lost ↔ f = .lost := by cases f <;> simp [settledFlight]

/-- A trigger does not define contents that are unspecified (R83). -/
@[simp] theorem triggeredFlight_eq_lost (f : Flight) : triggeredFlight f = .lost ↔ f = .lost := by
  cases f <;> simp [triggeredFlight]

section complete

variable (i : Instance)

@[simp] theorem Instance.complete_id : (i.complete).id = i.id := rfl
@[simp] theorem Instance.complete_ctrlIndex : (i.complete).ctrlIndex = i.ctrlIndex := rfl
@[simp] theorem Instance.complete_cfg : (i.complete).cfg = i.cfg := rfl
@[simp] theorem Instance.complete_curPhyFreq : (i.complete).curPhyFreq = i.curPhyFreq := rfl
@[simp] theorem Instance.complete_hsMode : (i.complete).hsMode = i.hsMode := rfl
@[simp] theorem Instance.complete_hostActive : (i.complete).hostActive = i.hostActive := rfl
@[simp] theorem Instance.complete_hostClkOn : (i.complete).hostClkOn = i.hostClkOn := rfl
@[simp] theorem Instance.complete_solDelay : (i.complete).solDelay = i.solDelay := rfl
@[simp] theorem Instance.complete_gangedHalf : (i.complete).gangedHalf = i.gangedHalf := rfl
@[simp] theorem Instance.complete_lifecycle : (i.complete).lifecycle = i.lifecycle := rfl
@[simp] theorem Instance.complete_lock : (i.complete).lock = i.lock := rfl
@[simp] theorem Instance.complete_engine : (i.complete).engine = i.engine := rfl
@[simp] theorem Instance.complete_phase : (i.complete).phase = i.phase := rfl
@[simp] theorem Instance.complete_snap : (i.complete).snap = i.snap := rfl
@[simp] theorem Instance.complete_fatal : (i.complete).fatal = i.fatal := rfl
@[simp] theorem Instance.complete_te : (i.complete).te = i.te := rfl
@[simp] theorem Instance.complete_res : (i.complete).res = i.res := rfl
@[simp] theorem Instance.complete_padsCalibrated : (i.complete).padsCalibrated = i.padsCalibrated := rfl
@[simp] theorem Instance.complete_regs : (i.complete).regs = i.regs := rfl
@[simp] theorem Instance.complete_hfifo : (i.complete).hfifo = i.queued := rfl
@[simp] theorem Instance.complete_flight : (i.complete).flight = settledFlight i.flight := rfl
@[simp] theorem Instance.complete_queued : (i.complete).queued = i.queued := by
  simp [Instance.queued, Instance.complete]
@[simp] theorem Instance.complete_unspecified : (i.complete).unspecified = i.unspecified := by
  simp [Instance.unspecified, Instance.complete]
@[simp] theorem Instance.complete_contents : (i.complete).contents = i.ahead := by
  rw [Instance.contents, i.complete_unspecified]
  rfl
@[simp] theorem Instance.complete_ahead : (i.complete).ahead = i.ahead := by
  rw [Instance.ahead, i.complete_unspecified, i.complete_queued]
  rfl
@[simp] theorem Instance.complete_rfifo : (i.complete).rfifo = i.rfifo := rfl
@[simp] theorem Instance.complete_btaSeen : (i.complete).btaSeen = i.btaSeen := rfl
@[simp] theorem Instance.complete_staging : (i.complete).staging = i.staging := rfl
@[simp] theorem Instance.complete_readLen : (i.complete).readLen = i.readLen := rfl
@[simp] theorem Instance.complete_outBuf : (i.complete).outBuf = i.outBuf := rfl
@[simp] theorem Instance.complete_halfStage : (i.complete).halfStage = i.halfStage := rfl
@[simp] theorem Instance.complete_sent : (i.complete).sent = i.sent := rfl
@[simp] theorem Instance.complete_env : (i.complete).env = i.env := rfl
@[simp] theorem Instance.complete_freeTick : (i.complete).freeTick = i.freeTick := rfl

end complete

section setInst

variable (s : State) (n : InstId) (i : Instance)

@[simp] theorem State.setInst_params : (s.setInst n i).params = s.params := by cases n <;> rfl
@[simp] theorem State.setInst_dc : (s.setInst n i).dc = s.dc := by cases n <;> rfl
@[simp] theorem State.setInst_frameMutex : (s.setInst n i).frameMutex = s.frameMutex := by cases n <;> rfl
@[simp] theorem State.setInst_gangedStep : (s.setInst n i).gangedStep = s.gangedStep := by cases n <;> rfl
@[simp] theorem State.setInst_mem : (s.setInst n i).mem = s.mem := by cases n <;> rfl
@[simp] theorem State.setInst_descTable : (s.setInst n i).descTable = s.descTable := by cases n <;> rfl
@[simp] theorem State.setInst_port : (s.setInst n i).port = s.port := by cases n <;> rfl
@[simp] theorem State.setInst_result : (s.setInst n i).result = s.result := by cases n <;> rfl

/-- The block written is the block read. -/
@[simp] theorem State.inst_setInst : (s.setInst n i).inst n = i := by cases n <;> rfl

/-- The other block is untouched. -/
theorem State.inst_setInst_other {m : InstId} (h : m ≠ n) : (s.setInst n i).inst m = s.inst m := by
  cases n <;> cases m <;> first | rfl | exact absurd rfl h

/-- Writing a block twice keeps the second. -/
@[simp] theorem State.setInst_setInst (j : Instance) : (s.setInst n i).setInst n j = s.setInst n j := by
  cases n <;> rfl

/-- Writing what a block holds changes nothing. -/
@[simp] theorem State.setInst_inst : s.setInst n (s.inst n) = s := by cases n <;> rfl

end setInst

end Sys2Proof.Machine
end

