-- ==== Sys2Proof/Laws/Env.lean ====
section
/-! SUPPORT. The environment's answers: one draw takes the next one (R6), and what the bounded polls make of
them (42_packet_framer_write.md R216). -/

namespace Sys2Proof.Machine

/-! ### Oracles -/

section oracle

variable {α : Type} (past : Nat → α) (o : Oracle α)

/-- A draw gives the next answer and moves on by one. -/
theorem Oracle.draw_eq : o.draw past = (o.answer past 0, o.advance 1) := by
  obtain ⟨script, reads⟩ := o
  cases script <;> rfl

/-- Answers after `j` draws are the later answers. -/
@[simp] theorem Oracle.answer_advance (j k : Nat) :
    (o.advance j).answer past k = o.answer past (j + k) := by
  simp [Oracle.answer, Oracle.advance, List.getD_eq_getElem?_getD, Nat.add_assoc]

/-- No draw changes nothing. -/
@[simp] theorem Oracle.advance_zero : o.advance 0 = o := rfl

/-- Draws add up. -/
@[simp] theorem Oracle.advance_advance (j k : Nat) : (o.advance j).advance k = o.advance (j + k) := by
  simp [Oracle.advance, Nat.add_assoc]

end oracle

/-! ### Reads of TRIGGER -/

/-- A read of TRIGGER: a zero is a completion (R83). -/
theorem Instance.readTrigger_eq (i : Instance) :
    i.readTrigger = (i.triggerAt 0, if i.triggerAt 0 = 0 then (i.sawTrigger 1 0).complete
      else i.sawTrigger 1 (i.triggerAt 0)) := by
  simp only [Instance.readTrigger, Oracle.draw_eq, Instance.triggerAt, Instance.sawTrigger]
  by_cases h : i.env.trigger.answer (Config.triggerAnswer i.id) 0 = 0
  · simp only [h, if_true]
  · simp only [h, if_false]

/-- The predicate of the ready poll, where it holds. -/
theorem Instance.triggerIsZero_ready {i : Instance} (h : i.triggerAt 0 = 0) :
    i.triggerIsZero = (true, (i.sawTrigger 1 0).complete) := by
  simp [Instance.triggerIsZero, Instance.readTrigger_eq, h]

/-- The predicate of the ready poll, where it does not hold. -/
theorem Instance.triggerIsZero_busy {i : Instance} (h : i.triggerAt 0 ≠ 0) :
    i.triggerIsZero = (false, i.sawTrigger 1 (i.triggerAt 0)) := by
  simp only [Instance.triggerIsZero, Instance.readTrigger_eq, if_neg h, beq_eq_false_iff_ne.mpr h]

/-- Completion reads nothing. -/
@[simp] theorem Instance.triggerAt_complete (i : Instance) (k : Nat) :
    i.complete.triggerAt k = i.triggerAt k := rfl

/-- Later answers are unchanged by earlier reads. -/
@[simp] theorem Instance.triggerAt_sawTrigger (i : Instance) (j k : Nat) (w : Word) :
    (i.sawTrigger j w).triggerAt k = i.triggerAt (j + k) := by
  simp [Instance.triggerAt, Instance.sawTrigger]

/-- Reads add up; the last value shows. -/
@[simp] theorem Instance.sawTrigger_sawTrigger (i : Instance) (j k : Nat) (v w : Word) :
    (i.sawTrigger j v).sawTrigger k w = i.sawTrigger (j + k) w := by
  simp [Instance.sawTrigger]

/-- A poll of TRIGGER that sees zero at its `m`-th read: completion is observed. -/
theorem poll_trigger_ready (m N : Nat) (i : Instance) (hm : m < N) (h : i.ReadyAfter 0 m) :
    poll Instance.triggerIsZero N i = (.ready, (i.sawTrigger (m + 1) 0).complete) := by
  induction m generalizing N i with
  | zero =>
    obtain ⟨N, rfl⟩ : ∃ K, N = K + 1 := ⟨N - 1, by omega⟩
    have h0 : i.triggerAt 0 = 0 := by simpa using h.2
    simp only [poll, Instance.triggerIsZero_ready h0]
  | succ m ih =>
    obtain ⟨N, rfl⟩ : ∃ K, N = K + 1 := ⟨N - 1, by omega⟩
    have h0 : i.triggerAt 0 ≠ 0 := by simpa using h.1 0 (by omega)
    have h' : (i.sawTrigger 1 (i.triggerAt 0)).ReadyAfter 0 m := by
      refine ⟨fun j hj => ?_, ?_⟩
      · have := h.1 (j + 1) (by omega)
        simpa [Nat.add_comm] using this
      · simpa [Nat.add_comm] using h.2
    have := ih N (i.sawTrigger 1 (i.triggerAt 0)) (by omega) h'
    simp only [poll, Instance.triggerIsZero_busy h0, this, Instance.sawTrigger_sawTrigger]
    rw [Nat.add_comm 1]

/-- A poll of TRIGGER that never sees zero reads exactly its bound. -/
theorem poll_trigger_timedOut (N : Nat) (i : Instance) (h : ∀ j, j < N → i.triggerAt j ≠ 0) :
    ∃ w, poll Instance.triggerIsZero N i = (.timedOut, i.sawTrigger N w) := by
  induction N generalizing i with
  | zero => exact ⟨i.regs.trigger, rfl⟩
  | succ N ih =>
    have h0 : i.triggerAt 0 ≠ 0 := h 0 (by omega)
    obtain ⟨w, hw⟩ := ih (i.sawTrigger 1 (i.triggerAt 0)) (fun j hj => by
      have := h (1 + j) (by omega)
      simpa using this)
    refine ⟨w, ?_⟩
    simp only [poll, Instance.triggerIsZero_busy h0, hw, Instance.sawTrigger_sawTrigger]
    rw [Nat.add_comm 1]

/-- Whatever a poll of TRIGGER answers, it has only read, and perhaps seen a completion. -/
theorem poll_trigger_reads (N : Nat) (i : Instance) :
    ∃ r k w h fl, poll Instance.triggerIsZero N i =
      (r, { i.sawTrigger k w with hfifo := h, flight := fl }) := by
  induction N generalizing i with
  | zero => exact ⟨_, 0, i.regs.trigger, i.hfifo, i.flight, rfl⟩
  | succ N ih =>
    by_cases h0 : i.triggerAt 0 = 0
    · exact ⟨.ready, 1, 0, _, _, by simp only [poll, Instance.triggerIsZero_ready h0]; rfl⟩
    · obtain ⟨r, k, w, h, fl, hw⟩ := ih (i.sawTrigger 1 (i.triggerAt 0))
      refine ⟨r, 1 + k, w, h, fl, ?_⟩
      simp only [poll, Instance.triggerIsZero_busy h0, hw, Instance.sawTrigger_sawTrigger]

/-! ### Reads of BTA_ACTIVE and of the count -/

/-- The block after `k` reads of `BTA_ACTIVE`, the last of which gave `b`. -/
def Instance.sawBta (k : Nat) (b : Bool) (i : Instance) : Instance :=
  { i with env := { i.env with bta := i.env.bta.advance k }, regs := { i.regs with btaActive := b } }

/-- A read of `BTA_ACTIVE`. -/
theorem Instance.readBtaActive_eq (i : Instance) :
    i.readBtaActive = (i.btaAt 0, i.sawBta 1 (i.btaAt 0)) := by
  simp only [Instance.readBtaActive, Oracle.draw_eq, Instance.btaAt, Instance.sawBta]

/-- Later answers are unchanged by earlier reads. -/
@[simp] theorem Instance.btaAt_sawBta (i : Instance) (j k : Nat) (b : Bool) :
    (i.sawBta j b).btaAt k = i.btaAt (j + k) := by
  simp [Instance.btaAt, Instance.sawBta]

/-- Reads add up; the last value shows. -/
@[simp] theorem Instance.sawBta_sawBta (i : Instance) (j k : Nat) (a b : Bool) :
    (i.sawBta j a).sawBta k b = i.sawBta (j + k) b := by
  simp [Instance.sawBta]

/-- A BTA wait that sees the flag clear at its `m`-th read. -/
theorem poll_bta_ready (m N : Nat) (i : Instance) (hm : m < N) (h : i.BtaClearsAfter m) :
    poll Instance.btaIsClear N i = (.ready, i.sawBta (m + 1) false) := by
  induction m generalizing N i with
  | zero =>
    obtain ⟨N, rfl⟩ : ∃ K, N = K + 1 := ⟨N - 1, by omega⟩
    simp [poll, Instance.btaIsClear, Instance.readBtaActive_eq, h.2]
  | succ m ih =>
    obtain ⟨N, rfl⟩ : ∃ K, N = K + 1 := ⟨N - 1, by omega⟩
    have h0 : i.btaAt 0 = true := h.1 0 (by omega)
    have h' : (i.sawBta 1 true).BtaClearsAfter m := by
      refine ⟨fun j hj => ?_, ?_⟩
      · have := h.1 (j + 1) (by omega)
        simpa [Nat.add_comm] using this
      · simpa [Nat.add_comm] using h.2
    have := ih N (i.sawBta 1 true) (by omega) h'
    simp only [poll, Instance.btaIsClear, Instance.readBtaActive_eq, h0, Bool.not_true, this,
      Instance.sawBta_sawBta]
    rw [Nat.add_comm 1]

/-- A BTA wait that never sees the flag clear reads exactly its bound. -/
theorem poll_bta_timedOut (N : Nat) (i : Instance) (h : ∀ j, j < N → i.btaAt j = true) :
    ∃ b, poll Instance.btaIsClear N i = (.timedOut, i.sawBta N b) := by
  induction N generalizing i with
  | zero => exact ⟨i.regs.btaActive, rfl⟩
  | succ N ih =>
    have h0 : i.btaAt 0 = true := h 0 (by omega)
    obtain ⟨b, hb⟩ := ih (i.sawBta 1 true) (fun j hj => by
      have := h (1 + j) (by omega)
      simpa using this)
    refine ⟨b, ?_⟩
    simp only [poll, Instance.btaIsClear, Instance.readBtaActive_eq, h0, Bool.not_true, hb,
      Instance.sawBta_sawBta]
    rw [Nat.add_comm 1]

/-- Whatever a BTA wait answers, it has only read. -/
theorem poll_bta_reads (N : Nat) (i : Instance) :
    ∃ r k b, poll Instance.btaIsClear N i = (r, i.sawBta k b) := by
  induction N generalizing i with
  | zero => exact ⟨_, 0, i.regs.btaActive, rfl⟩
  | succ N ih =>
    by_cases h0 : i.btaAt 0 = true
    · obtain ⟨r, k, b, hb⟩ := ih (i.sawBta 1 true)
      refine ⟨r, 1 + k, b, ?_⟩
      simp only [poll, Instance.btaIsClear, Instance.readBtaActive_eq, h0, Bool.not_true, hb,
        Instance.sawBta_sawBta]
    · have h1 : i.btaAt 0 = false := by simpa using h0
      exact ⟨.ready, 1, false, by simp [poll, Instance.btaIsClear, Instance.readBtaActive_eq, h1]⟩

/-- The block after `k` arrivals of words from the panel, `ws` in all. -/
def Instance.arrived (k : Nat) (ws : List Word) (i : Instance) : Instance :=
  { i with env := { i.env with panel := i.env.panel.advance k }, rfifo := i.rfifo ++ ws }

/-- A read of the count once a turn-around has been requested. -/
theorem Instance.arrivals_seen (i : Instance) (h : i.btaSeen = true) :
    i.arrivals = i.arrived 1 (i.panelAt 0) := by
  simp only [Instance.arrivals, h, if_true, Oracle.draw_eq, Instance.panelAt, Instance.arrived]

/-- Before the first turn-around nothing arrives. -/
theorem Instance.arrivals_unseen (i : Instance) (h : i.btaSeen = false) : i.arrivals = i := by
  simp [Instance.arrivals, h]

/-- Later arrivals are unchanged by earlier ones. -/
@[simp] theorem Instance.panelAt_arrived (i : Instance) (j k : Nat) (ws : List Word) :
    (i.arrived j ws).panelAt k = i.panelAt (j + k) := by
  simp [Instance.panelAt, Instance.arrived]

/-- Arrivals add up. -/
@[simp] theorem Instance.arrived_arrived (i : Instance) (j k : Nat) (vs ws : List Word) :
    (i.arrived j vs).arrived k ws = i.arrived (j + k) (vs ++ ws) := by
  simp [Instance.arrived]

/-- No arrival changes nothing. -/
@[simp] theorem Instance.arrived_zero (i : Instance) : i.arrived 0 [] = i := by
  simp [Instance.arrived]

/-- Whatever a read of the count gives, words have only arrived. -/
theorem Instance.arrivals_cases (i : Instance) : ∃ k ws, i.arrivals = i.arrived k ws := by
  cases h : i.btaSeen
  · exact ⟨0, [], by rw [i.arrivals_unseen h, i.arrived_zero]⟩
  · exact ⟨1, _, i.arrivals_seen h⟩

/-- A count poll whose words arrive at its `k`-th read. -/
theorem poll_count_ready (k N : Nat) (i : Instance) (ws : List Word) (hk : k < N)
    (hb : i.btaSeen = true) (hr : i.rfifo = []) (h0 : ∀ j, j < k → i.panelAt j = [])
    (hw : i.panelAt k = ws) (hne : ws ≠ []) :
    poll Instance.countIsNonZero N i = (.ready, i.arrived (k + 1) ws) := by
  induction k generalizing N i with
  | zero =>
    obtain ⟨N, rfl⟩ : ∃ K, N = K + 1 := ⟨N - 1, by omega⟩
    have h1 : (i.arrived 1 ws).rfifo.length ≠ 0 := by simp [Instance.arrived, hr, hne]
    simp only [poll, Instance.countIsNonZero, Instance.readCount, i.arrivals_seen hb, hw,
      bne_iff_ne.mpr h1]
  | succ k ih =>
    obtain ⟨N, rfl⟩ : ∃ K, N = K + 1 := ⟨N - 1, by omega⟩
    have e0 : i.panelAt 0 = [] := h0 0 (by omega)
    have h1 : (i.arrived 1 []).rfifo.length = 0 := by simp [Instance.arrived, hr]
    have := ih N (i.arrived 1 []) (by omega) hb (by simpa [Instance.arrived] using hr)
      (fun j hj => by rw [Instance.panelAt_arrived, Nat.add_comm]; exact h0 _ (by omega))
      (by rw [Instance.panelAt_arrived, Nat.add_comm]; exact hw)
    simp only [poll, Instance.countIsNonZero, Instance.readCount, i.arrivals_seen hb, e0, h1, bne_self_eq_false,
      this, Instance.arrived_arrived, List.nil_append]
    rw [Nat.add_comm 1]

/-- A count poll that sees nothing reads exactly its bound. -/
theorem poll_count_silent (N : Nat) (i : Instance) (hb : i.btaSeen = true) (hr : i.rfifo = [])
    (h0 : ∀ j, j < N → i.panelAt j = []) :
    poll Instance.countIsNonZero N i = (.timedOut, i.arrived N []) := by
  induction N generalizing i with
  | zero => simp [poll]
  | succ N ih =>
    have e0 : i.panelAt 0 = [] := h0 0 (by omega)
    have h1 : (i.arrived 1 []).rfifo.length = 0 := by simp [Instance.arrived, hr]
    have := ih (i.arrived 1 []) hb (by simpa [Instance.arrived] using hr)
      (fun j hj => by rw [Instance.panelAt_arrived, Nat.add_comm]; exact h0 _ (by omega))
    simp only [poll, Instance.countIsNonZero, Instance.readCount, i.arrivals_seen hb, e0, h1, bne_self_eq_false,
      this, Instance.arrived_arrived, List.nil_append]
    rw [Nat.add_comm 1]

/-- Whatever the count poll answers, words have only arrived. -/
theorem poll_count_reads (N : Nat) (i : Instance) :
    ∃ r k ws, poll Instance.countIsNonZero N i = (r, i.arrived k ws) := by
  induction N generalizing i with
  | zero => exact ⟨.timedOut, 0, [], by simp [poll]⟩
  | succ N ih =>
    obtain ⟨k, ws, h⟩ := i.arrivals_cases
    by_cases h0 : (i.arrived k ws).rfifo.length = 0
    · obtain ⟨r, k', ws', hw⟩ := ih (i.arrived k ws)
      refine ⟨r, k + k', ws ++ ws', ?_⟩
      simp [poll, Instance.countIsNonZero, Instance.readCount, h, h0, hw]
    · refine ⟨.ready, k, ws, ?_⟩
      simp only [poll, Instance.countIsNonZero, Instance.readCount, h, bne_iff_ne.mpr h0]

/-! ### The other faces -/

/-- A call of the clock service: what it answers, and the record of the call. -/
theorem Instance.clockConfigure_eq (p : Params) (khz : Nat) (i : Instance) :
    i.clockConfigure p khz = (i.clockAt 0,
      { i with env := { i.env with
          clock := i.env.clock.advance 1
          calls := .clockConfigure khz p.clockTolerance :: i.env.calls } }) := by
  simp only [Instance.clockConfigure, Oracle.draw_eq, Instance.clockAt, Instance.call]

/-- The clock service answers more than 0 (R382). -/
theorem Instance.clockAt_pos (i : Instance) (k : Nat) : 0 < i.clockAt k := by
  simp only [Instance.clockAt]; omega

end Sys2Proof.Machine
end

