-- ==== Sys2Proof/Laws/Ops.lean ====
section
/-! SUPPORT. What the shared operations can do: the checks of R370, the lock, how an operation ends, the
override and the exit path. -/

namespace Sys2Proof.Machine

/-! ### Checks, lock, ends -/

/-- An operation that passes the checks runs. -/
theorem State.guarded_accepts {s : State} {n : InstId} (h : Accepts s n) (k : Out) :
    s.guarded n k = k := by
  simp [State.guarded, h.1, h.2]

/-- A faulted block answers `FatalHardwareFault` (R366). -/
theorem State.guarded_fatal {s : State} {n : InstId} (h : (s.inst n).fatal.isSome = true) (k : Out) :
    s.guarded n k = Ends s n (s.inst n) .fatalHardwareFault .none := by
  simp [State.guarded, h, State.finish, Ends]

/-- A block that is not initialised answers `NotInitialized` (R364). -/
theorem State.guarded_uninitialized {s : State} {n : InstId} (h : (s.inst n).fatal = none)
    (hi : (s.inst n).initialized = false) (k : Out) :
    s.guarded n k = Ends s n (s.inst n) .notInitialized .none := by
  simp [State.guarded, h, hi, State.finish, Ends]

/-- If a checked operation answers a next state, it ran, or it ended at once and touched no block. -/
theorem State.guarded_next {s t : State} {n : InstId} {k : Out} (h : s.guarded n k = .next t) :
    (Accepts s n ∧ k = .next t) ∨
      ∃ st, t = { s with result := some ⟨n, st, .none⟩, gangedStep := .idle } := by
  unfold State.guarded at h
  split at h
  · exact .inr ⟨_, by simpa [State.finish] using h.symm⟩
  · rename_i hf
    split at h
    · rename_i hi
      exact .inl ⟨⟨by simpa using hf, hi⟩, h⟩
    · exact .inr ⟨_, by simpa [State.finish] using h.symm⟩

/-- A checked operation faults only if it runs. -/
theorem State.guarded_fault {s : State} {n : InstId} {k : Out} {f : Fault}
    (h : s.guarded n k = .fault f) : k = .fault f := by
  unfold State.guarded at h
  split at h
  · simp [State.finish] at h
  · split at h
    · exact h
    · simp [State.finish] at h

/-- `finish` in the statements' terms. -/
theorem State.finish_eq (s : State) (n : InstId) (st : Status) (out : Output) :
    s.finish n st out = Ends s n (s.inst n) st out := by
  simp [State.finish, Ends]

/-- `finishWith` in the statements' terms. -/
theorem State.finishWith_eq (s : State) (n : InstId) (i : Instance) (st : Status) (out : Output) :
    s.finishWith n i st out = Ends s n i st out := rfl

/-- With the lock free an operation runs. -/
theorem State.whenFree_free {s : State} {n : InstId} (h : (s.inst n).lock = .free) (k : Out) :
    s.whenFree n k = k := by
  simp [State.whenFree, h]

/-- An operation under the lock with the lock free. -/
theorem State.onLocked_free {s : State} {n : InstId} (h : (s.inst n).lock = .free)
    (f : Instance → Status × Output × Instance) :
    s.onLocked n f =
      Ends s n (f (s.inst n).acquire).2.2.release (f (s.inst n).acquire).1 (f (s.inst n).acquire).2.1 := by
  rw [State.onLocked, State.whenFree_free h]
  rfl

/-- An operation that waits for the lock answers a next state only with the lock free. -/
theorem State.whenFree_next {s t : State} {n : InstId} {k : Out} (h : s.whenFree n k = .next t) :
    (s.inst n).lock = .free ∧ k = .next t := by
  unfold State.whenFree at h
  split at h
  · exact ⟨by assumption, h⟩
  · cases h

/-- What an operation under the lock answers. -/
theorem State.onLocked_next {s t : State} {n : InstId} {f : Instance → Status × Output × Instance}
    (h : s.onLocked n f = .next t) :
    (s.inst n).lock = .free ∧
      t = { s.setInst n (f (s.inst n).acquire).2.2.release with
        result := some ⟨n, (f (s.inst n).acquire).1, (f (s.inst n).acquire).2.1⟩, gangedStep := .idle } := by
  obtain ⟨hl, h⟩ := State.whenFree_next h
  exact ⟨hl, by simpa [State.finishWith, State.finish] using h.symm⟩

/-- How an operation ends determines the next state. -/
theorem Ends_inj {s : State} {n : InstId} {i : Instance} {st : Status} {out : Output} {t : State}
    (h : Ends s n i st out = .next t) :
    t = { s.setInst n i with result := some ⟨n, st, out⟩, gangedStep := .idle } := by
  simpa [Ends] using h.symm

/-! ### Steps in sequence -/

/-- After a `Success` the next step runs. -/
@[simp] theorem andThen_success (i : Instance) (k : Instance → Status × Instance) :
    andThen (.success, i) k = k i := rfl

/-- A failed step ends the operation. -/
theorem andThen_failed {r : Status × Instance} (h : r.1 ≠ .success) (k : Instance → Status × Instance) :
    andThen r k = r := by
  obtain ⟨st, i⟩ := r
  cases st <;> first | rfl | exact absurd rfl h

/-- A sequence of two steps ended after the first, or the second ran. -/
theorem andThen_cases (r : Status × Instance) (k : Instance → Status × Instance) :
    (r.1 = .success ∧ andThen r k = k r.2) ∨ (r.1 ≠ .success ∧ andThen r k = r) := by
  by_cases h : r.1 = .success
  · obtain ⟨st, i⟩ := r
    cases h
    exact .inl ⟨rfl, rfl⟩
  · exact .inr ⟨h, andThen_failed h k⟩

/-- What both steps keep, the sequence keeps. -/
theorem andThen_keeps {P : Instance → Prop} {r : Status × Instance} {k : Instance → Status × Instance}
    (h1 : P r.2) (h2 : r.1 = .success → ∀ j, P j → P (k j).2) : P (andThen r k).2 := by
  rcases andThen_cases r k with ⟨hs, h⟩ | ⟨_, h⟩
  · rw [h]; exact h2 hs _ h1
  · rw [h]; exact h1

/-! ### The override and the exit path -/

/-- After the exit path the clock gate is shut and the engine idle, whatever came before (R229). -/
theorem Instance.exitPath_rest (i : Instance) :
    i.exitPath.hostClkOn = false ∧ i.exitPath.engine = .idle ∧ i.exitPath.phase = .none ∧
      i.exitPath.snap.overrideActive = false := by
  refine ⟨rfl, rfl, rfl, ?_⟩
  cases h : i.snap.overrideActive <;> simp [Instance.exitPath, Instance.restoreHost, h]

end Sys2Proof.Machine
end

