-- ==== Sys2Proof/Laws/Engine.lean ====
section
/-! SUPPORT. What the packet framer can do: its waits, one packet sent, `WriteCommand` when the link is
ready, when it is busy, when completion is not seen, and in every case (42_packet_framer_write.md). -/

namespace Sys2Proof.Machine

/-! ### The waits -/

/-- The ready poll on a link that becomes ready (R222). -/
theorem Instance.waitReady_ready {p : Params} {i : Instance} {m : Nat}
    (hm : m < pollCount p.cmdReadyStep p.cmdReadyMax) (h : i.ReadyAfter 0 m) :
    i.waitReady p = (.success, (i.sawTrigger (m + 1) 0).complete) := by
  simp [Instance.waitReady, Instance.readyPoll, poll_trigger_ready _ _ _ hm h]

/-- The ready poll on a busy link (R222). -/
theorem Instance.waitReady_busy {p : Params} {i : Instance}
    (h : ∀ j, j < pollCount p.cmdReadyStep p.cmdReadyMax → i.triggerAt j ≠ 0) :
    ∃ w, i.waitReady p = (.hardwareBusyTimeout,
      { i.sawTrigger (pollCount p.cmdReadyStep p.cmdReadyMax) w with phase := .timedOut }) := by
  obtain ⟨w, hw⟩ := poll_trigger_timedOut _ _ h
  exact ⟨w, by simp [Instance.waitReady, Instance.readyPoll, hw]⟩

/-- Completion seen by re-reading TRIGGER (R215). -/
theorem Instance.awaitCompletion_ready {p : Params} {i : Instance} {m : Nat} (hp : p.useSyncpt = false)
    (hm : m < pollCount p.triggerStep p.triggerMax) (h : i.ReadyAfter 0 m) :
    i.awaitCompletion p =
      (.ready, { i.sawTrigger (m + 1) 0 with hfifo := [], flight := .none, phase := .success }) := by
  have h' : ({ i with phase := Phase.awaitingCompletion } : Instance).ReadyAfter 0 m := h
  simp [Instance.awaitCompletion, hp, poll_trigger_ready _ _ _ hm h', Instance.sawTrigger, Instance.complete]

/-- Completion not seen (R215): the link is wedged. -/
theorem Instance.awaitCompletion_timedOut {p : Params} {i : Instance} (hp : p.useSyncpt = false)
    (h : ∀ j, j < pollCount p.triggerStep p.triggerMax → i.triggerAt j ≠ 0) :
    ∃ w, i.awaitCompletion p = (.timedOut,
      { (i.sawTrigger (pollCount p.triggerStep p.triggerMax) w).wedge with phase := .timedOut }) := by
  have h' : ∀ j, j < pollCount p.triggerStep p.triggerMax →
      ({ i with phase := Phase.awaitingCompletion } : Instance).triggerAt j ≠ 0 := h
  obtain ⟨w, hw⟩ := poll_trigger_timedOut _ _ h'
  exact ⟨w, by simp [Instance.awaitCompletion, hp, hw, Instance.sawTrigger, Instance.wedge]⟩

/-! ### Steps of the link: they keep the snapshot, the clock gate and everything they do not name -/

/-- One after another. -/
theorem LinkStep.trans {i j k : Instance} (h1 : LinkStep i j) (h2 : LinkStep j k) : LinkStep i k := by
  obtain ⟨_, _, _, _, _, _, _, rfl⟩ := h1
  obtain ⟨_, _, _, _, _, _, _, rfl⟩ := h2
  exact ⟨_, _, _, _, _, _, _, rfl⟩

/-- Whatever the ready wait answers, it is a step of the link. -/
theorem Instance.waitReady_link (p : Params) (i : Instance) : LinkStep i (i.waitReady p).2 := by
  obtain ⟨r, k, w, hf, fl, h⟩ := poll_trigger_reads (pollCount p.cmdReadyStep p.cmdReadyMax) i
  rw [Instance.waitReady, Instance.readyPoll, h]
  cases r
  · exact ⟨_, _, _, _, _, _, _, rfl⟩
  · exact ⟨_, _, _, _, _, _, _, rfl⟩

/-- Whatever the completion wait answers, it is a step of the link. -/
theorem Instance.awaitCompletion_link (p : Params) (i : Instance) :
    LinkStep i (i.awaitCompletion p).2 := by
  rw [Instance.awaitCompletion]
  by_cases hp : p.useSyncpt = true
  · simp only [hp, if_true, Instance.syncptWait, Oracle.draw_eq]
    cases i.env.syncpt.answer (Config.syncptAnswer i.id) 0
    · exact ⟨_, _, _, _, _, _, _, rfl⟩
    · exact ⟨_, _, _, _, _, _, _, rfl⟩
  · obtain ⟨r, k, w, hf, fl, h⟩ := poll_trigger_reads (pollCount p.triggerStep p.triggerMax)
      { i with phase := .awaitingCompletion }
    simp only [hp, h]
    cases r
    · exact ⟨_, _, _, _, _, _, _, rfl⟩
    · exact ⟨_, _, _, _, _, _, _, rfl⟩

/-- The words of a packet queued and the trigger written. -/
def Instance.launched (ws : List FifoWord) (i : Instance) : Instance :=
  (({ i with phase := .framing } : Instance).pushWords ws).trigger

/-- Launching is a step of the link. -/
theorem Instance.launched_link (ws : List FifoWord) (i : Instance) : LinkStep i (i.launched ws) :=
  ⟨_, _, _, _, _, _, _, rfl⟩

/-- Launching reads nothing. -/
@[simp] theorem Instance.triggerAt_launched (ws : List FifoWord) (i : Instance) (k : Nat) :
    (i.launched ws).triggerAt k = i.triggerAt k := rfl

/-- One packet, in terms of its launch. -/
theorem Instance.sendWords_eq (p : Params) (ws : List FifoWord) (i : Instance) :
    i.sendWords p ws =
      (match ((i.launched ws).awaitCompletion p).1 with
        | .ready => .success
        | .timedOut => .triggerTimeout, ((i.launched ws).awaitCompletion p).2) := by
  rw [Instance.sendWords, Instance.launched]
  cases h : Instance.awaitCompletion p _ with
  | mk r j => cases r <;> rfl

/-- One packet sent is a step of the link. -/
theorem Instance.sendWords_link (p : Params) (ws : List FifoWord) (i : Instance) :
    LinkStep i (i.sendWords p ws).2 := by
  rw [Instance.sendWords_eq]
  exact (i.launched_link ws).trans (Instance.awaitCompletion_link p _)

/-- One packet sent on a link that completes (R227). -/
theorem Instance.sendWords_ready {p : Params} {i : Instance} {m : Nat} (ws : List FifoWord)
    (hp : p.useSyncpt = false) (hm : m < pollCount p.triggerStep p.triggerMax)
    (h : i.ReadyAfter 0 m) :
    i.sendWords p ws = (.success,
      { (i.launched ws).sawTrigger (m + 1) 0 with hfifo := [], flight := .none, phase := .success }) := by
  rw [Instance.sendWords_eq, Instance.awaitCompletion_ready (i := i.launched ws) hp hm h]

/-- One packet whose completion is not seen (R227). -/
theorem Instance.sendWords_timedOut {p : Params} {i : Instance} (ws : List FifoWord)
    (hp : p.useSyncpt = false)
    (h : ∀ j, j < pollCount p.triggerStep p.triggerMax → i.triggerAt j ≠ 0) :
    ∃ w, i.sendWords p ws = (.triggerTimeout,
      { ((i.launched ws).sawTrigger (pollCount p.triggerStep p.triggerMax) w).wedge with
        phase := .timedOut }) := by
  obtain ⟨w, hw⟩ := Instance.awaitCompletion_timedOut (i := i.launched ws) hp h
  exact ⟨w, by rw [Instance.sendWords_eq, hw]⟩

/-! ### WriteCommand -/

/-- With the host the owner of the FIFO nothing is overridden (R221). -/
theorem Instance.overrideHost_owner {i : Instance} (h : i.hostActive = true) : i.overrideHost = i :=
  if_pos h

/-- Otherwise both registers are saved and the override written (R221). -/
theorem Instance.overrideHost_taken {i : Instance} (h : i.hostActive = false) :
    i.overrideHost = { i with
      snap := ⟨true, i.regs.hostControl, i.regs.control⟩
      regs := { i.regs with
        hostControl := { i.regs.hostControl with triggerMode := .immediate }
        control := { i.regs.control with videoEnable := false, hostEnable := true } } } :=
  if_neg (by rw [h]; exact Bool.false_ne_true)

/-- With no override in force nothing is restored (R229). -/
theorem Instance.restoreHost_none {i : Instance} (h : i.snap.overrideActive = false) :
    i.restoreHost = i :=
  if_neg (by rw [h]; exact Bool.false_ne_true)

/-- With an override in force both registers are written back (R229). -/
theorem Instance.restoreHost_some {i : Instance} (h : i.snap.overrideActive = true) :
    i.restoreHost = { i with
      regs := { i.regs with control := i.snap.savedControl, hostControl := i.snap.savedHostControl }
      snap := { i.snap with overrideActive := false } } :=
  if_pos h

/-- The exit path with no override in force (R229). -/
theorem Instance.exitPath_none {i : Instance} (h : i.snap.overrideActive = false) :
    i.exitPath = { i with
      env := { i.env with calls := .clockDisable :: i.env.calls }
      hostClkOn := false, engine := .idle, phase := .none } := by
  rw [Instance.exitPath, Instance.restoreHost_none h]
  rfl

/-- The exit path with an override in force (R229). -/
theorem Instance.exitPath_some {i : Instance} (h : i.snap.overrideActive = true) :
    i.exitPath = { i with
      env := { i.env with calls := .clockDisable :: i.env.calls }
      regs := { i.regs with control := i.snap.savedControl, hostControl := i.snap.savedHostControl }
      snap := { i.snap with overrideActive := false }
      hostClkOn := false, engine := .idle, phase := .none } := by
  rw [Instance.exitPath, Instance.restoreHost_some h]
  rfl

/-- What the exit path makes of a block that entered at rest and took only steps of the link (R229): the
override is undone, the clock gate shut. -/
theorem Instance.exitPath_of_link {i j : Instance} (hs : i.snap.overrideActive = false)
    (hc : i.hostClkOn = false) (he : i.engine = .idle) (h : LinkStep i.enterHost.overrideHost j) :
    j.exitPath = { i with
      env := { j.env with calls := .clockDisable :: j.env.calls }
      regs := { i.regs with trigger := j.regs.trigger }
      hfifo := j.hfifo, flight := j.flight, sent := j.sent, phase := .none, snap := i.snapAfter
      freeTick := j.freeTick } := by
  have rest : j.exitPath = { i with
      hostClkOn := false, engine := .idle
      env := { j.env with calls := .clockDisable :: j.env.calls }
      regs := { i.regs with trigger := j.regs.trigger }
      hfifo := j.hfifo, flight := j.flight, sent := j.sent, phase := .none, snap := i.snapAfter,
      freeTick := j.freeTick } := by
    obtain ⟨e, tr, hf, fl, se, ph, ft, rfl⟩ := h
    by_cases ha : i.hostActive = true
    · have hn : i.snapAfter = i.snap := if_pos ha
      rw [hn, Instance.overrideHost_owner (i := i.enterHost) ha]
      refine (Instance.exitPath_none ?_).trans rfl
      exact hs
    · have hn : i.snapAfter = ⟨false, i.regs.hostControl, i.regs.control⟩ := if_neg ha
      rw [hn, Instance.overrideHost_taken (i := i.enterHost) (Bool.eq_false_iff.mpr ha)]
      exact (Instance.exitPath_some rfl).trans rfl
  rw [rest, ← hc, ← he]

/-- Entering an operation asks nothing of the link. -/
@[simp] theorem Instance.triggerAt_entered (i : Instance) (k : Nat) :
    i.enterHost.overrideHost.triggerAt k = i.triggerAt k := by
  unfold Instance.overrideHost
  split <;> rfl

/-- Entering an operation keeps the configuration. -/
@[simp] theorem Instance.cfg_entered (i : Instance) : i.enterHost.overrideHost.cfg = i.cfg := by
  unfold Instance.overrideHost
  split <;> rfl

/-- Entering an operation keeps the mode. -/
@[simp] theorem Instance.hsMode_entered (i : Instance) : i.enterHost.overrideHost.hsMode = i.hsMode := by
  unfold Instance.overrideHost
  split <;> rfl

/-- Entering an operation opens the clock gate, and the environment is told. -/
theorem Instance.env_entered (i : Instance) :
    i.enterHost.overrideHost.env = { i.env with calls := .clockEnable :: i.env.calls } := by
  unfold Instance.overrideHost
  split <;> rfl

/-- Entering an operation uses up no free value. -/
@[simp] theorem Instance.freeTick_entered (i : Instance) :
    i.enterHost.overrideHost.freeTick = i.freeTick := by
  unfold Instance.overrideHost
  split <;> rfl

/-- Entering an operation leaves the host FIFO alone. -/
@[simp] theorem Instance.hfifo_entered (i : Instance) : i.enterHost.overrideHost.hfifo = i.hfifo := by
  unfold Instance.overrideHost
  split <;> rfl

/-- Entering an operation leaves a pending completion. -/
@[simp] theorem Instance.flight_entered (i : Instance) : i.enterHost.overrideHost.flight = i.flight := by
  unfold Instance.overrideHost
  split <;> rfl

/-- Entering an operation leaves what is queued alone. -/
@[simp] theorem Instance.queued_entered (i : Instance) : i.enterHost.overrideHost.queued = i.queued := by
  rw [Instance.queued, Instance.queued, i.hfifo_entered, i.flight_entered]

/-- Entering an operation sends nothing. -/
@[simp] theorem Instance.sent_entered (i : Instance) : i.enterHost.overrideHost.sent = i.sent := by
  unfold Instance.overrideHost
  split <;> rfl

/-- Entering an operation leaves what the next packet goes out behind alone. -/
@[simp] theorem Instance.ahead_entered (i : Instance) : i.enterHost.overrideHost.ahead = i.ahead := by
  unfold Instance.overrideHost
  split <;> rfl

/-- The words of a packet depend on the configuration and the mode only. -/
theorem Instance.packetWords_congr {i j : Instance} (p : Params) (d : PacketDesc) (hc : j.cfg = i.cfg)
    (hm : j.hsMode = i.hsMode) : j.packetWords p d = i.packetWords p d := by
  simp [Instance.packetWords, Instance.longWords, Instance.shortWords, Instance.channel,
    Instance.eotWords, hc, hm]

/-- What a launch hands over: the contents of the host FIFO and its own words (R214, R227). -/
theorem Instance.launched_contents (ws : List FifoWord) (j : Instance) : (j.launched ws).sent =
    if j.regs.hostControl.triggerMode = .immediate then (j.contents ++ ws) :: j.sent else j.sent := by
  show (if (1 : Word) ≠ 0 ∧ j.regs.hostControl.triggerMode = .immediate then
    (j.unspecified ++ (j.hfifo ++ ws)) :: j.sent else j.sent) = _
  simp [Instance.contents]

/-- What a launch hands over once the link was ready, in terms of the block before it entered (R214, R221). -/
theorem Instance.launched_sent (ws : List FifoWord) (i : Instance) (k : Nat) (w : Word) :
    ((i.enterHost.overrideHost.sawTrigger k w).complete.launched ws).sent = i.handedOver ws := by
  rw [Instance.launched_contents, Instance.handedOver, Instance.sendsAtOnce]
  simp only [Instance.complete_regs, Instance.sawTrigger_regs, Instance.complete_contents, Instance.sawTrigger_ahead,
    Instance.complete_sent, Instance.sawTrigger_sent, i.ahead_entered, i.sent_entered]
  cases ha : i.hostActive
  · rw [Instance.overrideHost_taken (i := i.enterHost) ha]
    simp
  · rw [Instance.overrideHost_owner (i := i.enterHost) ha]
    by_cases ht : i.regs.hostControl.triggerMode = .immediate <;>
      simp [Instance.enterHost, ht]

/-- `WriteCommand` when the link becomes ready and completes (R220). -/
theorem Instance.writeCommand_ready {p : Params} {i : Instance} (d : PacketDesc) {m k : Nat}
    (hs : i.snap.overrideActive = false) (hc : i.hostClkOn = false) (he : i.engine = .idle)
    (hp : p.useSyncpt = false) (hm : m < pollCount p.cmdReadyStep p.cmdReadyMax)
    (hk : k < pollCount p.triggerStep p.triggerMax) (h1 : i.ReadyAfter 0 m)
    (h2 : i.ReadyAfter (m + 1) k) :
    i.writeCommand p d = (.success, { i with
      env := { i.env with
        trigger := i.env.trigger.advance (m + 1 + (k + 1))
        calls := .clockDisable :: .clockEnable :: i.env.calls }
      regs := { i.regs with trigger := 0 }
      hfifo := [], flight := .none, sent := i.handedOver (i.packetWords p d), phase := .none
      snap := i.snapAfter }) := by
  have w := Instance.waitReady_ready (i := i.enterHost.overrideHost) hm
    (by simpa [Instance.ReadyAfter] using h1)
  have l1 := Instance.waitReady_link p i.enterHost.overrideHost
  rw [w] at l1
  generalize hj : (i.enterHost.overrideHost.sawTrigger (m + 1) 0).complete = j at *
  have q : j.packetWords p d = i.packetWords p d := by
    subst hj; exact Instance.packetWords_congr p d (i.cfg_entered) (i.hsMode_entered)
  have r2 : j.ReadyAfter 0 k := by subst hj; simpa [Instance.ReadyAfter] using h2
  have v := Instance.sendWords_ready (i.packetWords p d) hp hk r2
  have l2 := Instance.sendWords_link p (i.packetWords p d) j
  rw [v] at l2
  have e1 : j.env = { i.env with
      trigger := i.env.trigger.advance (m + 1), calls := .clockEnable :: i.env.calls } := by
    subst hj; rw [Instance.complete_env, Instance.sawTrigger_env, i.env_entered]
  have e2 : j.freeTick = i.freeTick := by subst hj; exact i.freeTick_entered
  have e3 : (j.launched (i.packetWords p d)).sent = i.handedOver (i.packetWords p d) := by
    subst hj; exact i.launched_sent (i.packetWords p d) _ _
  have e4 : (j.launched (i.packetWords p d)).env = j.env := rfl
  have e5 : (j.launched (i.packetWords p d)).freeTick = j.freeTick := rfl
  rw [Instance.writeCommand, w, andThen_success, q, v]
  refine Prod.ext rfl ?_
  refine (Instance.exitPath_of_link hs hc he (l1.trans l2)).trans ?_
  simp only [Instance.sawTrigger_env, Instance.sawTrigger_sent, Instance.sawTrigger_freeTick,
    Instance.sawTrigger_regs, e1, e2, e3, e4, e5, Oracle.advance_advance]

/-- A block that entered at rest and took only steps of the link leaves only the link's traffic changed. -/
theorem Instance.exitPath_onlyLink {i j : Instance} (hs : i.snap.overrideActive = false)
    (hc : i.hostClkOn = false) (he : i.engine = .idle) (h : LinkStep i.enterHost.overrideHost j) :
    OnlyLink i j.exitPath := by
  rw [Instance.exitPath_of_link hs hc he h]
  exact ⟨_, _, _, _, _, _, _, _, rfl⟩

/-- A sequence of two steps of the link is one. -/
theorem LinkStep.andThen {i : Instance} {r : Status × Instance} {k : Instance → Status × Instance}
    (h : LinkStep i r.2) (hk : ∀ j, LinkStep j (k j).2) : LinkStep i (Sys2Proof.Machine.andThen r k).2 :=
  andThen_keeps (P := LinkStep i) h (fun _ j hj => hj.trans (hk j))

/-- `WriteCommand`, whatever its status, changes only the link's traffic (R372). -/
theorem Instance.writeCommand_link (p : Params) (d : PacketDesc) {i : Instance}
    (hs : i.snap.overrideActive = false) (hc : i.hostClkOn = false) (he : i.engine = .idle) :
    OnlyLink i (i.writeCommand p d).2 :=
  Instance.exitPath_onlyLink hs hc he
    (LinkStep.andThen (Instance.waitReady_link p _) (fun j => j.sendWords_link p _))

/-- `WriteCommand` on a busy link (R231): the poll's reads, and nothing pushed, triggered or sent. -/
theorem Instance.writeCommand_busy {p : Params} {i : Instance} (d : PacketDesc)
    (hs : i.snap.overrideActive = false) (hc : i.hostClkOn = false) (he : i.engine = .idle)
    (h : ∀ j, j < pollCount p.cmdReadyStep p.cmdReadyMax → i.triggerAt j ≠ 0) :
    ∃ w, i.writeCommand p d = (.hardwareBusyTimeout, { i with
      env := { i.env with
        trigger := i.env.trigger.advance (pollCount p.cmdReadyStep p.cmdReadyMax)
        calls := .clockDisable :: .clockEnable :: i.env.calls }
      regs := { i.regs with trigger := w }
      phase := .none, snap := i.snapAfter }) := by
  obtain ⟨w, hw⟩ := Instance.waitReady_busy (p := p) (i := i.enterHost.overrideHost)
    (by simpa using h)
  have l1 := Instance.waitReady_link p i.enterHost.overrideHost
  rw [hw] at l1
  refine ⟨w, ?_⟩
  rw [Instance.writeCommand, hw, andThen_failed (by simp)]
  refine Prod.ext rfl ((Instance.exitPath_of_link hs hc he l1).trans ?_)
  simp only [Instance.sawTrigger_env, Instance.sawTrigger_hfifo, Instance.sawTrigger_sent,
    Instance.sawTrigger_freeTick, Instance.sawTrigger_regs, i.env_entered, i.freeTick_entered,
    i.hfifo_entered, i.flight_entered, i.sent_entered, Instance.sawTrigger_flight]

/-- `WriteCommand` whose completion is not seen (R227): a status, the link's traffic, no fatal fault. -/
theorem Instance.writeCommand_timedOut {p : Params} {i : Instance} (d : PacketDesc) {m : Nat}
    (hs : i.snap.overrideActive = false) (hc : i.hostClkOn = false) (he : i.engine = .idle)
    (hp : p.useSyncpt = false) (hm : m < pollCount p.cmdReadyStep p.cmdReadyMax)
    (h1 : i.ReadyAfter 0 m)
    (h2 : ∀ j, j < pollCount p.triggerStep p.triggerMax → i.triggerAt (m + 1 + j) ≠ 0) :
    ∃ tr, i.writeCommand p d = (.triggerTimeout, { i with
      env := { i.env with
        trigger := i.env.trigger.advance (m + 1 + pollCount p.triggerStep p.triggerMax)
        calls := .clockDisable :: .clockEnable :: i.env.calls }
      regs := { i.regs with trigger := tr }
      hfifo := [], flight := .lost, sent := i.handedOver (i.packetWords p d), phase := .none
      snap := i.snapAfter, freeTick := i.freeTick + 1 }) := by
  have w := Instance.waitReady_ready (i := i.enterHost.overrideHost) hm
    (by simpa [Instance.ReadyAfter] using h1)
  have l1 := Instance.waitReady_link p i.enterHost.overrideHost
  rw [w] at l1
  generalize hj : (i.enterHost.overrideHost.sawTrigger (m + 1) 0).complete = j at *
  have q : j.packetWords p d = i.packetWords p d := by
    subst hj; exact Instance.packetWords_congr p d (i.cfg_entered) (i.hsMode_entered)
  have r2 : ∀ a, a < pollCount p.triggerStep p.triggerMax → j.triggerAt a ≠ 0 := by
    subst hj; simpa using h2
  obtain ⟨v, hv⟩ := Instance.sendWords_timedOut (i.packetWords p d) hp r2
  have l2 := Instance.sendWords_link p (i.packetWords p d) j
  rw [hv] at l2
  have e1 : j.env = { i.env with
      trigger := i.env.trigger.advance (m + 1), calls := .clockEnable :: i.env.calls } := by
    subst hj; rw [Instance.complete_env, Instance.sawTrigger_env, i.env_entered]
  have e2 : j.freeTick = i.freeTick := by subst hj; exact i.freeTick_entered
  have e3 : (j.launched (i.packetWords p d)).sent = i.handedOver (i.packetWords p d) := by
    subst hj; exact i.launched_sent (i.packetWords p d) _ _
  have e4 : (j.launched (i.packetWords p d)).env = j.env := rfl
  have e5 : (j.launched (i.packetWords p d)).freeTick = j.freeTick := rfl
  have x := Instance.exitPath_of_link hs hc he (l1.trans l2)
  let x' := ((j.launched (i.packetWords p d)).sawTrigger (pollCount p.triggerStep p.triggerMax) v).wedge
  refine ⟨x'.regs.trigger, ?_⟩
  rw [Instance.writeCommand, w, andThen_success, q, hv]
  refine Prod.ext rfl (x.trans ?_)
  simp only [x', Instance.wedge, Instance.sawTrigger_env, Instance.sawTrigger_sent,
    Instance.sawTrigger_freeTick, e1, e2, e3, e4, e5,
    Oracle.advance_advance]

/-! ### A link that is ready at once, with or without a completion counter -/

/-- Reads of TRIGGER add up. -/
theorem linkReads_add (p : Params) (a b c d : Nat) :
    linkReads p (a + c) (b + d) = linkReads p a b + linkReads p c d := by
  unfold linkReads; split <;> omega

/-- Waits on the counter add up. -/
theorem counterWaits_add (p : Params) (b d : Nat) :
    counterWaits p (b + d) = counterWaits p b + counterWaits p d := by
  unfold counterWaits; split <;> omega

/-- Without a packet nothing waits on the counter. -/
@[simp] theorem counterWaits_zero (p : Params) : counterWaits p 0 = 0 := by
  unfold counterWaits; split <;> rfl

/-- A ready poll reads once. -/
@[simp] theorem linkReads_polls (p : Params) (a : Nat) : linkReads p a 0 = a := by
  unfold linkReads; split <;> rfl

/-- The calls add up, the newest first. -/
theorem counterCalls_add (p : Params) (b d : Nat) :
    counterCalls p (b + d) = counterCalls p b ++ counterCalls p d := by
  rw [counterCalls, counterWaits_add, counterCalls, counterCalls, List.replicate_append_replicate]

/-- Without a packet there is no such call. -/
@[simp] theorem counterCalls_zero (p : Params) : counterCalls p 0 = [] := by simp [counterCalls]

/-- What comes first of a ready link is ready. -/
theorem LinkReady.first {p : Params} {i : Instance} {a b c d : Nat} (h : LinkReady p (a + c) (b + d) i) :
    LinkReady p a b i :=
  ⟨fun k hk => h.1 k (by rw [linkReads_add]; omega), fun k hk => h.2 k (by rw [counterWaits_add]; omega)⟩

/-- What is left of a ready link is ready. -/
theorem LinkReady.rest {p : Params} {i j : Instance} {a b c d : Nat} (h : LinkReady p (a + c) (b + d) i)
    (hid : j.id = i.id) (ht : j.env.trigger = i.env.trigger.advance (linkReads p a b))
    (hs : j.env.syncpt = i.env.syncpt.advance (counterWaits p b)) : LinkReady p c d j := by
  constructor
  · intro k hk
    rw [Instance.triggerAt, ht, hid, Oracle.answer_advance]
    exact h.1 _ (by rw [linkReads_add]; omega)
  · intro k hk
    rw [Instance.syncptAt, hs, hid, Oracle.answer_advance]
    exact h.2 _ (by rw [counterWaits_add]; omega)

/-- The block after a ready poll that sees the link ready at once. -/
def Instance.readied (i : Instance) : Instance := (i.sawTrigger 1 0).complete

/-- The ready poll (R222). -/
theorem Instance.waitReady_linkReady {p : Params} {i : Instance} (hp : PollsOk p) (h : LinkReady p 1 0 i) :
    i.waitReady p = (.success, i.readied) :=
  Instance.waitReady_ready hp.1 ⟨fun _ hj => absurd hj (Nat.not_lt_zero _), h.1 0 (by simp)⟩

/-- The block after a completion that is observed at once. -/
def Instance.completed (p : Params) (i : Instance) : Instance :=
  { i with
    env := i.env.afterLink p 0 1
    regs := { i.regs with trigger := if p.useSyncpt then i.regs.trigger else 0 }
    hfifo := [], flight := .none, phase := .success }

/-- Completion observed at once, by re-reading TRIGGER or on the counter (R215). -/
theorem Instance.awaitCompletion_linkReady {p : Params} {i : Instance} (hp : PollsOk p)
    (h : LinkReady p 0 1 i) : i.awaitCompletion p = (.ready, i.completed p) := by
  by_cases hs : p.useSyncpt = true
  · have h1 : i.env.syncpt.answer (Config.syncptAnswer i.id) 0 = true := h.2 0 (by simp [counterWaits, hs])
    simp only [Instance.awaitCompletion, hs, if_true, Instance.syncptWait, Oracle.draw_eq, h1,
      Instance.completed, Env.afterLink, linkReads, counterCalls, counterWaits, Instance.call]
    rfl
  · have hs' : p.useSyncpt = false := by simpa using hs
    have h1 : i.ReadyAfter 0 0 :=
      ⟨fun _ hj => absurd hj (Nat.not_lt_zero _), h.1 0 (by simp [linkReads, hs'])⟩
    rw [Instance.awaitCompletion_ready hs' hp.2 h1]
    simp only [Instance.completed, Env.afterLink, linkReads, counterCalls, counterWaits, hs', Bool.false_eq_true,
      if_false, Instance.sawTrigger]
    rfl

/-- One packet on a ready link (R227). -/
theorem Instance.sendWords_linkReady {p : Params} {i : Instance} (hp : PollsOk p) (h : LinkReady p 0 1 i)
    (ws : List FifoWord) : i.sendWords p ws = (.success, (i.launched ws).completed p) := by
  rw [Instance.sendWords_eq, Instance.awaitCompletion_linkReady (i := i.launched ws) hp h]

/-- `WriteCommand` on a ready link (R220). -/
theorem Instance.writeCommand_linkReady {p : Params} {i : Instance} (d : PacketDesc)
    (hs : i.snap.overrideActive = false) (hc : i.hostClkOn = false) (he : i.engine = .idle)
    (hp : PollsOk p) (h : LinkReady p 1 1 i) :
    i.writeCommand p d = (.success, { i with
      env := { i.env.afterLink p 1 1 with
        calls := .clockDisable :: (counterCalls p 1 ++ .clockEnable :: i.env.calls) }
      regs := { i.regs with trigger := if p.useSyncpt then 1 else 0 }
      hfifo := [], flight := .none, sent := i.handedOver (i.packetWords p d), phase := .none
      snap := i.snapAfter }) := by
  have eid : i.enterHost.overrideHost.id = i.id := by unfold Instance.overrideHost; split <;> rfl
  have h0 : LinkReady p (1 + 0) (0 + 1) i.enterHost.overrideHost :=
    LinkReady.rest (a := 0) (b := 0) (by simpa using h) eid (by rw [i.env_entered]; simp)
      (by rw [i.env_entered]; simp)
  have w := Instance.waitReady_linkReady hp h0.first
  have l1 := Instance.waitReady_link p i.enterHost.overrideHost
  rw [w] at l1
  generalize hj : i.enterHost.overrideHost.readied = j at *
  have q : j.packetWords p d = i.packetWords p d := by
    subst hj; exact Instance.packetWords_congr p d (i.cfg_entered) (i.hsMode_entered)
  have r2 : LinkReady p 0 1 j := h0.rest (by subst hj; rfl) (by subst hj; simp [Instance.readied])
    (by subst hj; simp [Instance.readied])
  have v := Instance.sendWords_linkReady hp r2 (i.packetWords p d)
  have l2 := Instance.sendWords_link p (i.packetWords p d) j
  rw [v] at l2
  have e1 : j.env = { i.env with
      trigger := i.env.trigger.advance 1, calls := .clockEnable :: i.env.calls } := by
    subst hj; rw [Instance.readied, Instance.complete_env, Instance.sawTrigger_env, i.env_entered]
  have e2 : j.freeTick = i.freeTick := by subst hj; exact i.freeTick_entered
  have e3 : (j.launched (i.packetWords p d)).sent = i.handedOver (i.packetWords p d) := by
    subst hj; exact i.launched_sent (i.packetWords p d) _ _
  rw [Instance.writeCommand, w, andThen_success, q, v]
  refine Prod.ext rfl ((Instance.exitPath_of_link hs hc he (l1.trans l2)).trans ?_)
  have f1 : ((j.launched (i.packetWords p d)).completed p).env =
      { i.env.afterLink p 1 1 with calls := counterCalls p 1 ++ .clockEnable :: i.env.calls } := by
    show j.env.afterLink p 0 1 = _
    rw [e1]
    simp only [Env.afterLink, Oracle.advance_advance, linkReads, Nat.zero_add]
  have f2 : ((j.launched (i.packetWords p d)).completed p).regs.trigger = if p.useSyncpt then 1 else 0 := rfl
  have f3 : ((j.launched (i.packetWords p d)).completed p).hfifo = [] := rfl
  have f4 : ((j.launched (i.packetWords p d)).completed p).flight = .none := rfl
  have f5 : ((j.launched (i.packetWords p d)).completed p).sent = i.handedOver (i.packetWords p d) := e3
  have f6 : ((j.launched (i.packetWords p d)).completed p).freeTick = i.freeTick := e2
  simp only [f1, f2, f3, f4, f5, f6]

end Sys2Proof.Machine
end

