-- ==== Sys2Proof/Laws/Reading.lean ====
section
/-! SUPPORT. What the BTA sequence and the read operations can do (43_bta_read.md): in every case, when the
panel answers, when the read FIFO is not empty, when the bus does not come back. -/

namespace Sys2Proof.Machine

/-! ### Steps of a read -/

/-- One after another. -/
theorem ReadStep.trans {i j k : Instance} (h1 : ReadStep i j) (h2 : ReadStep j k) : ReadStep i k := by
  obtain ⟨_, _, _, _, _, _, _, _, _, _, _, _, _, rfl⟩ := h1
  obtain ⟨_, _, _, _, _, _, _, _, _, _, _, _, _, rfl⟩ := h2
  exact ⟨_, _, _, _, _, _, _, _, _, _, _, _, _, rfl⟩

/-- Nothing changed. -/
theorem ReadStep.refl (i : Instance) : ReadStep i i := ⟨_, _, _, _, _, _, _, _, _, _, _, _, _, rfl⟩

/-- A step of the link is one of a read. -/
theorem LinkStep.read {i j : Instance} (h : LinkStep i j) : ReadStep i j := by
  obtain ⟨_, _, _, _, _, _, _, rfl⟩ := h
  exact ⟨_, _, _, _, _, _, _, _, _, _, _, _, _, rfl⟩

/-- A sequence of two steps of a read is one. -/
theorem ReadStep.andThen {i : Instance} {r : Status × Instance} {k : Instance → Status × Instance}
    (h : ReadStep i r.2) (hk : ∀ j, ReadStep j (k j).2) : ReadStep i (Sys2Proof.Machine.andThen r k).2 :=
  andThen_keeps (P := ReadStep i) h (fun _ j hj => hj.trans (hk j))

/-- Words arriving. -/
theorem Instance.arrived_read (i : Instance) (k : Nat) (ws : List Word) : ReadStep i (i.arrived k ws) :=
  ⟨_, _, _, _, _, _, _, _, _, _, _, _, _, rfl⟩

/-- A read of the count. -/
theorem Instance.readCount_read (i : Instance) : ReadStep i i.readCount.2 := by
  obtain ⟨k, ws, h⟩ := i.arrivals_cases
  rw [Instance.readCount, h]
  exact i.arrived_read k ws

/-- The request, with the phase that follows it. -/
theorem Instance.btaRequest_read (i : Instance) (ph : Phase) :
    ReadStep i { i.btaRequest with phase := ph } :=
  ⟨_, _, _, _, _, _, _, _, _, _, _, _, _, rfl⟩

/-- The response collected, whatever it is (R254, R255). -/
theorem Instance.collectResponse_read (p : Params) (i : Instance) :
    ReadStep i (i.collectResponse p).2.2 := by
  obtain ⟨r, k, ws, h⟩ := poll_count_reads (pollCount p.rdfifoStep p.rdfifoMax) i
  have h1 := i.arrived_read k ws
  have h2 := h1.trans (Instance.readCount_read (i.arrived k ws))
  rw [Instance.collectResponse, h]
  cases hc : (i.arrived k ws).readCount with
  | mk c j =>
    rw [hc] at h2
    by_cases hd : p.rdFifoDepth < c
    · simpa only [hc, if_pos hd] using h2
    · simp only [if_neg hd]
      exact h2.trans ⟨_, _, _, _, _, _, _, _, _, _, _, _, _, rfl⟩

/-- The BTA sequence, whatever its outcome (R257). -/
theorem Instance.btaSequence_read (p : Params) (i : Instance) : ReadStep i (i.btaSequence p).2.2 := by
  have h1 := i.readCount_read
  rw [Instance.btaSequence]
  cases hc : i.readCount with
  | mk c j =>
    rw [hc] at h1
    cases c with
    | succ c => exact h1
    | zero =>
      obtain ⟨r, k, b, h⟩ := poll_bta_reads (pollCount p.btaStep p.btaMax)
        { j.btaRequest with phase := .awaitingCompletion }
      have h2 := h1.trans (j.btaRequest_read .awaitingCompletion)
      simp only [h]
      cases r
      · exact (h2.trans ⟨_, _, _, _, _, _, _, _, _, _, _, _, _, rfl⟩).trans
          (Instance.collectResponse_read p _)
      · exact h2.trans ⟨_, _, _, _, _, _, _, _, _, _, _, _, _, rfl⟩

/-- `BtaCheckError`, whatever its status. -/
theorem Instance.btaCheck_read (p : Params) (i : Instance) : ReadStep i (i.btaCheck p).2 := by
  have h := i.btaSequence_read p
  rw [Instance.btaCheck]
  cases hb : i.btaSequence p with
  | mk st r =>
    obtain ⟨ws, j⟩ := r
    rw [hb] at h
    cases st <;> exact h

/-- A nested `BtaCheckError`, whatever its status. -/
theorem Instance.nestedBtaCheck_read (p : Params) {i : Instance} (h : i.engine = .idle) :
    ReadStep i (i.nestedBtaCheck p).2 := by
  have hb := Instance.btaCheck_read p { i with engine := hostEngine i.hsMode }
  rw [Instance.nestedBtaCheck]
  obtain ⟨e, tr, ba, im, hf, fl, rf, bs, sg, rl, se, ph, ft, e1⟩ := hb
  simp only [e1]
  refine ⟨e, tr, ba, im, hf, fl, rf, bs, sg, rl, se, .none, ft, ?_⟩
  rw [← h]

/-- The second ready poll, whatever it answers. -/
theorem Instance.waitReadyAgain_link (p : Params) (i : Instance) : LinkStep i (i.waitReadyAgain p).2 := by
  unfold Instance.waitReadyAgain
  split
  · exact i.waitReady_link p
  · exact ⟨_, _, _, _, _, _, _, rfl⟩

/-- The two control packets, whatever their status. -/
theorem Instance.requestRead_link (p : Params) (reg : Byte) (len : BitVec 16) (i : Instance) :
    LinkStep i (i.requestRead p reg len).2 :=
  LinkStep.andThen (i.waitReady_link p)
    (fun j => LinkStep.andThen (j.sendWords_link p _) (fun k =>
      LinkStep.andThen (k.waitReadyAgain_link p) (fun l => l.sendWords_link p _)))

/-- `ReadCommand` up to the staged response, whatever its status. -/
theorem Instance.readSteps_read (p : Params) (reg : Byte) (len : BitVec 16) (i : Instance) :
    ReadStep i (i.readSteps p reg len).2 := by
  refine ReadStep.andThen (i.requestRead_link p reg len).read (fun j => ?_)
  have h := j.btaSequence_read p
  cases hb : j.btaSequence p with
  | mk st r =>
    obtain ⟨ws, k⟩ := r
    rw [hb] at h
    cases st <;> first | exact h | exact h.trans ⟨_, _, _, _, _, _, _, _, _, _, _, _, _, rfl⟩

/-! ### The exit path after a read -/

/-- A block that entered at rest, overrode the host control if need be and took only steps of a read
leaves only a read's traffic changed (R229). -/
theorem Instance.exitPath_onlyRead {i j : Instance} (hs : i.snap.overrideActive = false)
    (hc : i.hostClkOn = false) (he : i.engine = .idle) (h : ReadStep i.enterHost.overrideHost j) :
    OnlyRead i j.exitPath := by
  suffices rest : ∃ e tr ba im hf fl rf bs sg rl se ph sn ft, j.exitPath = { i with
      hostClkOn := false, engine := .idle, env := e
      regs := { i.regs with
        trigger := tr, btaActive := ba, hostControl := { i.regs.hostControl with immBta := im } }
      hfifo := hf, flight := fl, rfifo := rf, btaSeen := bs, staging := sg, readLen := rl, sent := se, phase := ph,
      snap := sn, freeTick := ft } by
    obtain ⟨e, tr, ba, im, hf, fl, rf, bs, sg, rl, se, ph, sn, ft, h⟩ := rest
    exact ⟨e, tr, ba, im, hf, fl, rf, bs, sg, rl, se, ph, sn, ft, by rw [h, ← hc, ← he]⟩
  obtain ⟨e, tr, ba, im, hf, fl, rf, bs, sg, rl, se, ph, ft, rfl⟩ := h
  by_cases ha : i.hostActive = true
  · rw [Instance.overrideHost_owner (i := i.enterHost) ha]
    exact ⟨_, tr, ba, im, hf, fl, rf, bs, sg, rl, se, _, i.snap, ft,
      (Instance.exitPath_none (by exact hs)).trans rfl⟩
  · rw [Instance.overrideHost_taken (i := i.enterHost) (Bool.eq_false_iff.mpr ha)]
    exact ⟨_, tr, ba, i.regs.hostControl.immBta, hf, fl, rf, bs, sg, rl, se, _,
      ⟨false, i.regs.hostControl, i.regs.control⟩, ft, (Instance.exitPath_some rfl).trans rfl⟩

/-- `ReadCommand`, whatever its status, changes only a read's traffic (R372). -/
theorem Instance.readCommand_read (p : Params) (reg : Byte) (len : BitVec 16) {i : Instance}
    (hs : i.snap.overrideActive = false) (hc : i.hostClkOn = false) (he : i.engine = .idle) :
    OnlyRead i (i.readCommand p reg len).2.2 := by
  have h := Instance.exitPath_onlyRead hs hc he
    (Instance.readSteps_read p reg len i.enterHost.overrideHost)
  rw [Instance.readCommand]
  split <;> exact h

/-! ### The BTA sequence when the panel answers -/

/-- The empty check with nothing queued and nothing arriving (R251). -/
theorem Instance.readCount_empty {i : Instance} (hr : i.rfifo = [])
    (h0 : i.btaSeen = true → i.panelAt 0 = []) : i.readCount = (0, i.arrived i.panelStart []) := by
  rw [Instance.readCount, Instance.panelStart]
  cases hb : i.btaSeen
  · simp [i.arrivals_unseen hb, hr]
  · simp [i.arrivals_seen hb, h0 hb, hr, Instance.arrived]

/-- The block after a turn-around the panel answered (R252 to R255), the environment being `e`. -/
def Instance.answered (e : Env) (i : Instance) : Instance :=
  { i with
    env := e
    regs := { i.regs with
      btaActive := false
      hostControl := { i.regs.hostControl with immBta := Config.unknownImmBta i.id i.freeTick } }
    rfifo := [], btaSeen := true, phase := .success, freeTick := i.freeTick + 1 }

/-- The response collected: the poll, the count, the drain (R254, R255). -/
theorem Instance.collectResponse_sent {p : Params} {i : Instance} {ws : List Word} (hb : i.btaSeen = true)
    (hr : i.rfifo = []) (hs : i.PanelSends 0 (pollCount p.rdfifoStep p.rdfifoMax) ws)
    (hd : ws.length ≤ p.rdFifoDepth) :
    ∃ k, i.collectResponse p = (.success, ws,
      { i with env := { i.env with panel := i.env.panel.advance k }, phase := .success }) := by
  have fin : ∀ k, (poll Instance.countIsNonZero (pollCount p.rdfifoStep p.rdfifoMax) i).2 =
      i.arrived k ws → i.panelAt k = [] → i.collectResponse p = (.success, ws,
      { i with env := { i.env with panel := i.env.panel.advance (k + 1) }, phase := .success }) := by
    intro k hk hz
    have j4 : (i.arrived k ws).btaSeen = true := hb
    have j5 : (i.arrived k ws).arrivals = i.arrived (k + 1) ws := by
      rw [Instance.arrivals_seen _ j4, Instance.panelAt_arrived, Nat.add_zero, hz,
        Instance.arrived_arrived, List.append_nil]
    have j6 : (i.arrived (k + 1) ws).rfifo = ws := by simp [Instance.arrived, hr]
    simp only [Instance.collectResponse, hk, Instance.readCount, j5, j6, if_neg (Nat.not_lt.mpr hd),
      Instance.drain, List.take_length, List.drop_length]
    refine Prod.ext rfl (Prod.ext rfl ?_)
    rw [Instance.arrived, ← hr]
  rcases hs with ⟨k, hk, hne, h0, hw, hz⟩ | ⟨rfl, h0⟩
  · refine ⟨k + 1 + 1, fin (k + 1) ?_ ?_⟩
    · rw [poll_count_ready k _ i ws hk hb hr (fun j hj => by simpa using h0 j hj) (by simpa using hw) hne]
    · simpa using hz
  · refine ⟨_, fin (pollCount p.rdfifoStep p.rdfifoMax) ?_ ?_⟩
    · rw [poll_count_silent _ i hb hr (fun j hj => by simpa using h0 j (by omega))]
    · simpa using h0 _ (Nat.lt_succ_self _)

/-- The BTA sequence when the panel answers (R257). -/
theorem Instance.btaSequence_answered {p : Params} {i : Instance} {ws : List Word}
    (h : PanelAnswers p i ws) :
    ∃ e, i.btaSequence p = (.success, ws, i.answered e) ∧
      e = { i.env with bta := e.bta, panel := e.panel } := by
  obtain ⟨hr, h0, ⟨m, hm, hb⟩, hs, hd⟩ := h
  rw [Instance.btaSequence, Instance.readCount_empty hr h0]
  have b1 : ({ (i.arrived i.panelStart []).btaRequest with phase := .awaitingCompletion } :
      Instance).BtaClearsAfter m := hb
  simp only [poll_bta_ready m _ _ hm b1]
  generalize hj : (({ (i.arrived i.panelStart []).btaRequest with phase := .awaitingCompletion } :
    Instance).sawBta (m + 1) false).settleImmBta = j
  have j1 : j.btaSeen = true := by subst hj; rfl
  have j2 : j.rfifo = [] := by subst hj; exact (List.append_nil i.rfifo).trans hr
  have j3 : ∀ k, j.panelAt k = i.panelAt (i.panelStart + k) := by
    subst hj; intro k; exact Instance.panelAt_arrived i i.panelStart k []
  have j4 : j.PanelSends 0 (pollCount p.rdfifoStep p.rdfifoMax) ws := by
    rcases hs with ⟨k, hk, hne, g0, hw, hz⟩ | ⟨rfl, g0⟩
    · refine .inl ⟨k, hk, hne, fun a ha => ?_, ?_, ?_⟩
      · rw [j3, Nat.zero_add]; exact g0 a ha
      · rw [j3, Nat.zero_add]; exact hw
      · rw [j3, Nat.zero_add]; exact hz
    · exact .inr ⟨rfl, fun a ha => by rw [j3, Nat.zero_add]; exact g0 a ha⟩
  obtain ⟨k, hk⟩ := Instance.collectResponse_sent j1 j2 j4 hd
  rw [hk]
  refine ⟨{ j.env with panel := j.env.panel.advance k }, Prod.ext rfl (Prod.ext rfl ?_), by subst hj; rfl⟩
  subst hj
  simp [Instance.answered, Instance.arrived, Instance.settleImmBta, Instance.sawBta,
    Instance.btaRequest, hr]

/-! ### ReadCommand when the link is ready and the panel answers -/

/-- What one trigger hands over (R214). -/
def Instance.handOver (ws : List FifoWord) (i : Instance) : List (List FifoWord) :=
  if i.regs.hostControl.triggerMode = .immediate then (i.contents ++ ws) :: i.sent else i.sent

/-- What a launch hands over (R214). -/
theorem Instance.launched_handOver (ws : List FifoWord) (i : Instance) :
    (i.launched ws).sent = i.handOver ws :=
  Instance.launched_contents ws i

/-- The words of the max-return packet depend on the configuration and the mode only. -/
theorem Instance.maxretWords_congr {i j : Instance} (p : Params) (len : BitVec 16) (hc : j.cfg = i.cfg)
    (hm : j.hsMode = i.hsMode) : j.maxretWords p len = i.maxretWords p len := by
  simp [Instance.maxretWords, Instance.channel, Instance.eotWords, hc, hm]

/-- The words of the read request depend on the configuration and the mode only. -/
theorem Instance.dcsreadWords_congr {i j : Instance} (p : Params) (reg : Byte) (hc : j.cfg = i.cfg)
    (hm : j.hsMode = i.hsMode) : j.dcsreadWords p reg = i.dcsreadWords p reg := by
  simp [Instance.dcsreadWords, Instance.channel, Instance.eotWords, hc, hm]

/-- The second ready poll of a read, where there is one (R261, R370; log 22). -/
theorem Instance.waitReadyAgain_linkReady {p : Params} {i : Instance} (hp : PollsOk p)
    (h : LinkReady p (if p.readyPollTwice then 1 else 0) 0 i) :
    ∃ j, i.waitReadyAgain p = (.success, j) ∧ j.env = i.env.afterLink p (if p.readyPollTwice then 1 else 0) 0 ∧
      j.id = i.id ∧ j.cfg = i.cfg ∧ j.hsMode = i.hsMode ∧ j.regs.hostControl = i.regs.hostControl ∧
      j.sent = i.sent ∧ (i.contents = [] → j.contents = []) := by
  unfold Instance.waitReadyAgain
  split
  · rename_i hr
    simp only [hr, if_true] at h
    refine ⟨_, Instance.waitReady_linkReady hp h, ?_, rfl, rfl, rfl, rfl, rfl, fun he => ?_⟩
    · simp [Instance.readied, Env.afterLink]
    · obtain ⟨hu, hh⟩ := List.append_eq_nil_iff.mp he
      have e : i.readied.contents = i.ahead := by simp [Instance.readied]
      rw [e, Instance.ahead, hu, Instance.queued, hh, ite_self, List.append_nil]
  · exact ⟨i, rfl, by simp [Env.afterLink], rfl, rfl, rfl, rfl, rfl, fun h => h⟩

/-- The environment after more of a ready link. -/
theorem Env.afterLink_afterLink (p : Params) (a b c d : Nat) (e : Env) :
    (e.afterLink p a b).afterLink p c d = e.afterLink p (a + c) (b + d) := by
  simp only [Env.afterLink, Oracle.advance_advance, linkReads_add, counterWaits_add, ← List.append_assoc,
    ← counterCalls_add, Nat.add_comm d b]

/-- The two control packets of a read on a ready link (R260, R261). -/
theorem Instance.requestRead_linkReady {p : Params} {i : Instance} (hp : PollsOk p)
    (h : LinkReady p (readPolls p) 2 i) (reg : Byte) (len : BitVec 16) :
    ∃ j, i.requestRead p reg len = (.success, j) ∧ LinkStep i j ∧ j.hfifo = [] ∧ j.flight = .none ∧
      j.env = i.env.afterLink p (readPolls p) 2 ∧
      j.sent = (if i.regs.hostControl.triggerMode = .immediate then
        i.dcsreadWords p reg :: (i.ahead ++ i.maxretWords p len) :: i.sent else i.sent) := by
  have h1 : LinkReady p (1 + ((if p.readyPollTwice then 1 else 0) + 0)) (0 + (1 + 1)) i := h
  have hw := Instance.waitReady_linkReady hp h1.first
  have je : i.readied.env = i.env.afterLink p 1 0 := by simp [Instance.readied, Env.afterLink]
  have jq : i.readied.contents = i.ahead := by simp [Instance.readied]
  have js : i.readied.sent = i.sent := rfl
  have jr : i.readied.regs.hostControl = i.regs.hostControl := rfl
  have jw : i.readied.maxretWords p len = i.maxretWords p len := Instance.maxretWords_congr p len rfl rfl
  have h2 : LinkReady p (0 + ((if p.readyPollTwice then 1 else 0) + 0)) (1 + (0 + 1)) i.readied := by
    have := h1.rest (j := i.readied) rfl (by rw [je]; rfl) (by rw [je]; rfl)
    simpa using this
  have jd : i.readied.id = i.id ∧ i.readied.cfg = i.cfg ∧ i.readied.hsMode = i.hsMode := ⟨rfl, rfl, rfl⟩
  generalize i.readied = j at *
  have sj := Instance.sendWords_linkReady hp h2.first (i.maxretWords p len)
  have ke : ((j.launched (i.maxretWords p len)).completed p).env = j.env.afterLink p 0 1 := rfl
  have kh : ((j.launched (i.maxretWords p len)).completed p).contents = [] := rfl
  have ks : ((j.launched (i.maxretWords p len)).completed p).sent = j.handOver (i.maxretWords p len) :=
    Instance.launched_handOver _ _
  have kr : ((j.launched (i.maxretWords p len)).completed p).regs.hostControl = j.regs.hostControl := rfl
  have h3 := h2.rest (j := (j.launched (i.maxretWords p len)).completed p) rfl (by rw [ke]; rfl) (by rw [ke]; rfl)
  have kd : ((j.launched (i.maxretWords p len)).completed p).id = j.id ∧
      ((j.launched (i.maxretWords p len)).completed p).cfg = j.cfg ∧
      ((j.launched (i.maxretWords p len)).completed p).hsMode = j.hsMode := ⟨rfl, rfl, rfl⟩
  generalize (j.launched (i.maxretWords p len)).completed p = k at *
  obtain ⟨l, lw, le, li, lc, lm, lr, ls, lh⟩ := Instance.waitReadyAgain_linkReady hp h3.first
  have lq : l.dcsreadWords p reg = i.dcsreadWords p reg :=
    Instance.dcsreadWords_congr p reg (lc.trans (kd.2.1.trans jd.2.1)) (lm.trans (kd.2.2.trans jd.2.2))
  have h4 : LinkReady p 0 1 l := h3.rest li (by rw [le]; rfl) (by rw [le]; rfl)
  have sl := Instance.sendWords_linkReady hp h4 (i.dcsreadWords p reg)
  have r : i.requestRead p reg len = (.success, (l.launched (i.dcsreadWords p reg)).completed p) := by
    rw [Instance.requestRead, hw, andThen_success, jw, sj, andThen_success, lw, andThen_success, lq, sl]
  have x := i.requestRead_link p reg len
  rw [r] at x
  refine ⟨_, r, x, rfl, rfl, ?_, ?_⟩
  · show l.env.afterLink p 0 1 = _
    rw [le, ke, je]
    simp only [Env.afterLink_afterLink]
    rfl
  · show (l.launched (i.dcsreadWords p reg)).sent = _
    rw [Instance.launched_handOver, Instance.handOver, lh kh, ls, lr, ks, kr, Instance.handOver, jr, jq, js]
    split <;> rfl

/-- Entering an operation asks nothing of the panel. -/
theorem PanelAnswers.entered {p : Params} {i : Instance} {ws : List Word} (h : PanelAnswers p i ws) :
    PanelAnswers p i.enterHost.overrideHost ws := by
  unfold Instance.overrideHost
  split <;> exact h

/-- A step of a ready link asks nothing of the panel. -/
theorem PanelAnswers.link {p : Params} {i j : Instance} {ws : List Word} {a b : Nat}
    (h : PanelAnswers p i ws) (hl : LinkStep i j) (he : j.env = i.env.afterLink p a b) :
    PanelAnswers p j ws := by
  obtain ⟨e, tr, hf, fl, se, ph, ft, rfl⟩ := hl
  cases he
  exact h

/-- The trigger mode an operation triggers in, and what it hands over (R221). -/
theorem Instance.entered_immediate (i : Instance) :
    i.enterHost.overrideHost.regs.hostControl.triggerMode = .immediate ↔ i.sendsAtOnce = true := by
  rw [Instance.sendsAtOnce]
  cases ha : i.hostActive
  · rw [Instance.overrideHost_taken (i := i.enterHost) ha]
    simp
  · rw [Instance.overrideHost_owner (i := i.enterHost) ha]
    simp [Instance.enterHost, Instance.call]

/-- The two control packets of a read, in terms of the block before it entered (R221, R260, R261). -/
theorem Instance.requestRead_entered {p : Params} {i : Instance} (hp : PollsOk p)
    (hl : LinkReady p (readPolls p) 2 i) (reg : Byte) (len : BitVec 16) :
    ∃ k, i.enterHost.overrideHost.requestRead p reg len = (.success, k) ∧
      LinkStep i.enterHost.overrideHost k ∧ k.hfifo = [] ∧ k.flight = .none ∧
      k.env = i.enterHost.overrideHost.env.afterLink p (readPolls p) 2 ∧
      k.sent = (if i.sendsAtOnce then
        i.dcsreadWords p reg :: (i.ahead ++ i.maxretWords p len) :: i.sent else i.sent) := by
  have eid : i.enterHost.overrideHost.id = i.id := by unfold Instance.overrideHost; split <;> rfl
  have hl' : LinkReady p (readPolls p) 2 i.enterHost.overrideHost :=
    LinkReady.rest (a := 0) (b := 0) (by simpa using hl) eid (by rw [i.env_entered]; simp)
      (by rw [i.env_entered]; simp)
  have w1 := Instance.maxretWords_congr (i := i) (j := i.enterHost.overrideHost) p len i.cfg_entered
    i.hsMode_entered
  have w2 := Instance.dcsreadWords_congr (i := i) (j := i.enterHost.overrideHost) p reg i.cfg_entered
    i.hsMode_entered
  obtain ⟨k, kr, kl, kh, kf, ke, ks⟩ := Instance.requestRead_linkReady hp hl' reg len
  refine ⟨k, kr, kl, kh, kf, ke, ks.trans ?_⟩
  rw [w1, w2, i.ahead_entered, i.sent_entered]
  by_cases hi : i.sendsAtOnce = true
  · rw [if_pos (i.entered_immediate.mpr hi), if_pos hi]
  · rw [if_neg (fun h => hi (i.entered_immediate.mp h)), if_neg hi]

/-- What the exit path leaves alone. -/
theorem Instance.exitPath_fields (j : Instance) :
    j.exitPath.hfifo = j.hfifo ∧ j.exitPath.rfifo = j.rfifo ∧ j.exitPath.staging = j.staging ∧
      j.exitPath.readLen = j.readLen ∧ j.exitPath.sent = j.sent ∧
      j.exitPath.env = { j.env with calls := .clockDisable :: j.env.calls } ∧
      j.exitPath.flight = j.flight := by
  unfold Instance.exitPath Instance.restoreHost
  split <;> exact ⟨rfl, rfl, rfl, rfl, rfl, rfl, rfl⟩

/-- `ReadCommand` when the link is ready and the panel answers `ws` (R258): both packets handed over, the
response drained, classified and staged. -/
theorem Instance.readCommand_answered {p : Params} {i : Instance} {ws : List Word}
    (hs : i.snap.overrideActive = false) (hc : i.hostClkOn = false) (he : i.engine = .idle)
    (hp : PollsOk p) (hl : LinkReady p (readPolls p) 2 i) (ha : PanelAnswers p i ws) (reg : Byte)
    (len : BitVec 16) :
    ∃ j, i.readCommand p reg len =
        ((classifyResponse (unpackWords ws)).status,
          some ((classifyResponse (unpackWords ws)).copied (unpackWords ws) len.toNat), j) ∧
      OnlyRead i j ∧ j.hfifo = [] ∧ j.flight = .none ∧ j.rfifo = [] ∧ j.staging = unpackWords ws ∧
      j.readLen = len.toNat ∧
      j.sent = (if i.sendsAtOnce then
        i.dcsreadWords p reg :: (i.ahead ++ i.maxretWords p len) :: i.sent else i.sent) ∧
      j.env.trigger = i.env.trigger.advance (linkReads p (readPolls p) 2) ∧
      j.env.syncpt = i.env.syncpt.advance (counterWaits p 2) ∧
      j.env.calls = .clockDisable :: (counterCalls p 2 ++ .clockEnable :: i.env.calls) := by
  obtain ⟨k, kr, kl, kh, kf, ke, ks⟩ := Instance.requestRead_entered hp hl reg len
  obtain ⟨e', kb, ke'⟩ := Instance.btaSequence_answered (ha.entered.link kl ke)
  have rs : i.enterHost.overrideHost.readSteps p reg len =
      (.success, (k.answered e').stage len.toNat ws) := by
    rw [Instance.readSteps, kr, andThen_success, kb]
  have x := Instance.readCommand_read p reg len hs hc he
  have e : i.readCommand p reg len =
      ((classifyResponse (unpackWords ws)).status,
        some ((classifyResponse (unpackWords ws)).copied (unpackWords ws) len.toNat),
        ((k.answered e').stage len.toNat ws).exitPath) := by
    rw [Instance.readCommand, rs]
    rfl
  rw [e] at x
  obtain ⟨f1, f2, f3, f4, f5, f6, f7⟩ := ((k.answered e').stage len.toNat ws).exitPath_fields
  refine ⟨_, e, x, by rw [f1]; exact kh, by rw [f7]; exact kf, by rw [f2]; rfl, by rw [f3]; rfl,
    by rw [f4]; rfl, ?_, ?_, ?_, ?_⟩
  · rw [f5]
    exact ks
  · rw [f6]
    show e'.trigger = _
    rw [ke']
    show k.env.trigger = _
    rw [ke, i.env_entered]
    rfl
  · rw [f6]
    show e'.syncpt = _
    rw [ke']
    show k.env.syncpt = _
    rw [ke, i.env_entered]
    rfl
  · rw [f6]
    show _ :: e'.calls = _
    rw [ke']
    show _ :: k.env.calls = _
    rw [ke, i.env_entered]
    rfl

end Sys2Proof.Machine
end

