-- ==== Sys2Proof/Laws/Holds.lean ====
section
/-! SUPPORT. What holds of a block at rest is kept by everything an operation does to it under its lock: the
packet framer, reads, mode switches, the enable sequence, the lifecycle operations, raw register access. -/

namespace Sys2Proof.Machine

/-- A block at rest but for its lock, under its own name, with a legal configuration; what a fatal fault leaves
unknown is said of a block without one only (R366). -/
structure Holds (p : Params) (n : InstId) (x : Nat) (l : Lock) (c : Lifecycle) (i : Instance) : Prop where
  id : i.id = n
  ctrl : i.ctrlIndex = x
  lock : i.lock = l
  lifecycle : i.fatal = none → i.lifecycle = c
  clk : i.hostClkOn = false
  engine : i.engine = .idle
  snap : i.snap.overrideActive = false
  te : i.fatal = none → ∀ t, i.te = some t → t.masked = true
  cfg : ConfigOk p i

/-- At rest is at rest with the lock free. -/
theorem blockOk_iff {p : Params} {n : InstId} {i : Instance} : BlockOk p n i ↔ Holds p n i.ctrlIndex .free
    i.lifecycle i := by
  constructor
  · rintro ⟨h1, ⟨h2, h3, h4, h5, h6⟩, h7⟩
    exact ⟨h1, rfl, h2, fun _ => rfl, h3, h4, h5, h6, h7⟩
  · rintro ⟨h1, -, h2, -, h3, h4, h5, h6, h7⟩
    exact ⟨h1, ⟨h2, h3, h4, h5, h6⟩, h7⟩

section

variable {p : Params} {n : InstId} {x : Nat} {l : Lock} {c : Lifecycle} {i : Instance}

/-- Taking the lock. -/
theorem Holds.acquire (h : Holds p n x l c i) : Holds p n x .held c i.acquire :=
  ⟨h.id, h.ctrl, rfl, h.lifecycle, h.clk, h.engine, h.snap, h.te, h.cfg⟩

/-- Releasing the lock. -/
theorem Holds.release (h : Holds p n x l c i) : Holds p n x .free c i.release :=
  ⟨h.id, h.ctrl, rfl, h.lifecycle, h.clk, h.engine, h.snap, h.te, h.cfg⟩

/-- A fatal fault leaves a block at rest (R366). -/
theorem Holds.raiseFatal (h : Holds p n x l c i) (e : FatalCause) : Holds p n x l c (i.raiseFatal e) :=
  ⟨h.id, h.ctrl, h.lock, (fun hf => nomatch hf), rfl, rfl, rfl, (fun hf => nomatch hf), fun hf => nomatch hf⟩

/-- What a block's state rests on here; everything else may change. -/
structure SameCore (i j : Instance) : Prop where
  id : j.id = i.id
  ctrl : j.ctrlIndex = i.ctrlIndex
  lock : j.lock = i.lock
  clk : j.hostClkOn = i.hostClkOn
  engine : j.engine = i.engine
  snap : j.snap = i.snap
  te : j.te = i.te
  fatal : j.fatal = i.fatal
  lifecycle : j.lifecycle = i.lifecycle
  cfg : j.cfg = i.cfg
  freq : j.curPhyFreq = i.curPhyFreq
  phy : j.regs.phy = i.regs.phy
  bta : j.regs.bta = i.regs.bta

/-- A configuration stays legal while what it rests on stays. -/
theorem configOk_congr {j : Instance} (hf : j.fatal = i.fatal) (hl : j.lifecycle = i.lifecycle)
    (hc : j.cfg = i.cfg) (hq : j.curPhyFreq = i.curPhyFreq) (hp : j.regs.phy = i.regs.phy)
    (hb : j.regs.bta = i.regs.bta) (h : ConfigOk p i) : ConfigOk p j := by
  intro f1 f2
  have i2 : i.initialized = true := by
    rw [Instance.initialized, hl] at f2; exact f2
  have := h (hf ▸ f1) i2
  rw [hc, hq, PhyInRange, hp, hb]
  exact this

/-- Changing nothing it rests on. -/
theorem Holds.same {j : Instance} (h : Holds p n x l c i) (s : SameCore i j) : Holds p n x l c j :=
  ⟨s.id.trans h.id, s.ctrl.trans h.ctrl, s.lock.trans h.lock, (fun f => s.lifecycle.trans (h.lifecycle (s.fatal ▸ f))), s.clk.trans h.clk, s.engine.trans h.engine,
    by rw [s.snap]; exact h.snap, by rw [s.te, s.fatal]; exact h.te,
    configOk_congr s.fatal s.lifecycle s.cfg s.freq s.phy s.bta h.cfg⟩

/-! ### Packets and reads -/

/-- A write. -/
theorem Holds.writeCommand (h : Holds p n x l c i) (d : PacketDesc) : Holds p n x l c (i.writeCommand p d).2 := by
  obtain ⟨_, _, _, _, _, _, _, _, e⟩ := Instance.writeCommand_link p d h.snap h.clk h.engine
  have r := Instance.exitPath_rest
    (andThen (i.enterHost.overrideHost.waitReady p) (fun j => j.sendWords p (j.packetWords p d))).2
  rw [show (i.writeCommand p d).2 = (andThen (i.enterHost.overrideHost.waitReady p)
    (fun j => j.sendWords p (j.packetWords p d))).2.exitPath from rfl] at e ⊢
  refine ⟨?_, ?_, ?_, ?_, r.1, r.2.1, r.2.2.2, ?_, ?_⟩
  · rw [e]; exact h.id
  · rw [e]; exact h.ctrl
  · rw [e]; exact h.lock
  · rw [e]; exact h.lifecycle
  · rw [e]; exact h.te
  · rw [e]; exact configOk_congr rfl rfl rfl rfl rfl rfl h.cfg

/-- A block that leaves an operation with only a read's traffic changed. -/
theorem Holds.onlyRead {j : Instance} (h : Holds p n x l c i) (hj : OnlyRead i j)
    (hs : j.snap.overrideActive = false) : Holds p n x l c j := by
  obtain ⟨_, _, _, _, _, _, _, _, _, _, _, _, _, _, rfl⟩ := hj
  exact ⟨h.id, h.ctrl, h.lock, h.lifecycle, h.clk, h.engine, hs, h.te, configOk_congr rfl rfl rfl rfl rfl rfl h.cfg⟩

/-- A read. -/
theorem Holds.readCommand (h : Holds p n x l c i) (reg : Byte) (len : BitVec 16) :
    Holds p n x l c (i.readCommand p reg len).2.2 := by
  refine h.onlyRead (Instance.readCommand_read p reg len h.snap h.clk h.engine) ?_
  rw [Instance.readCommand]
  split <;> exact (Instance.exitPath_rest _).2.2.2

/-- Steps of a read, without the gate: what a nested BTA check does. -/
theorem Holds.readStep {j : Instance} (h : Holds p n x l c i) (hj : ReadStep i j) : Holds p n x l c j := by
  obtain ⟨_, _, _, _, _, _, _, _, _, _, _, _, _, rfl⟩ := hj
  exact h.same ⟨rfl, rfl, rfl, rfl, rfl, rfl, rfl, rfl, rfl, rfl, rfl, rfl, rfl⟩

/-- `BtaCheckError` issued on its own. -/
theorem Holds.btaAlone (h : Holds p n x l c i) : Holds p n x l c (i.enterHost.btaCheck p).2.exitPath := by
  have hb := i.enterHost.btaCheck_read p
  have r := Instance.exitPath_rest (i.enterHost.btaCheck p).2
  obtain ⟨_, _, _, _, _, _, _, _, _, _, _, _, _, e⟩ := hb
  rw [e] at r ⊢
  refine ⟨?_, ?_, ?_, ?_, r.1, r.2.1, r.2.2.2, ?_, ?_⟩ <;>
    rw [Instance.exitPath_none (by exact h.snap)]
  · exact h.id
  · exact h.ctrl
  · exact h.lock
  · exact h.lifecycle
  · exact h.te
  · exact configOk_congr rfl rfl rfl rfl rfl rfl h.cfg

/-! ### PHY timing -/

/-- Fields clamped fit. -/
theorem fieldsFit_clamp (m f : PhyFields) : fieldsFit m (clampFields m f) = true := by
  simp [fieldsFit, clampFields]

/-- A triad clamped fits. -/
theorem triadFits_clamp (m t : BtaTriad) : triadFits m (clampTriad m t) = true := by
  simp [triadFits, clampTriad]

/-- A computed set is within the ceilings (R152 to R155). -/
theorem Instance.computePhy_inRange {t : PhyTimingSet} {khz : Nat} (h : i.computePhy p khz = some t)
    (ho : overridesFit p i.cfg = true) (g : Regs) :
    PhyInRange p { g with phy := t.fields, bta := t.triad, timeout := t.timeout } := by
  intro hm
  rw [Instance.computePhy] at h
  rw [overridesFit] at ho
  cases hov : i.cfg.phyOverrides with
  | some u =>
    rw [hov] at h ho
    cases h
    simpa using ho
  | none =>
    rw [hov] at h
    cases hq : bppQuarters i.cfg.dataFormat with
    | none => simp [hq] at h
    | some q =>
      simp only [hq, Option.some.injEq] at h
      subst h
      constructor
      · simp [fieldsFit, clampFields, derivePhy, derivedFields, derivedField, hm]
      · simp [triadFits, clampTriad, derivePhy, triadOf]

/-- The PHY registers written for a positive frequency. -/
theorem Holds.applyPhy (h : Holds p n x l c i) : Holds p n x l c (i.applyPhy p).2 := by
  rw [Instance.applyPhy]
  split
  · rename_i t ht
    refine ⟨h.id, h.ctrl, h.lock, h.lifecycle, h.clk, h.engine, h.snap, h.te, fun f1 f2 => ?_⟩
    obtain ⟨c1, c2, c3, -⟩ := h.cfg f1 f2
    exact ⟨c1, c2, c3, Instance.computePhy_inRange ht c2 i.regs⟩
  · exact h.raiseFatal _

/-- The frequency set to the clock service's answer, and PHY timing with it. -/
theorem Holds.setFrequency (h : Holds p n x l c i) (khz : Nat) : Holds p n x l c (i.setFrequency p khz).2 := by
  rw [Instance.setFrequency, Instance.clockConfigure_eq]
  refine Holds.applyPhy ⟨h.id, h.ctrl, h.lock, h.lifecycle, h.clk, h.engine, h.snap, h.te, fun f1 f2 => ?_⟩
  obtain ⟨c1, c2, c3, c4⟩ := h.cfg f1 f2
  exact ⟨c1, c2, i.clockAt_pos 0, c4⟩

/-! ### Mode switches and the enable sequence -/

/-- The final check of a mode switch. -/
theorem Holds.checkSwitched (h : Holds p n x l c i) : Holds p n x l c (i.checkSwitched p).2 := by
  obtain ⟨r, k, w, hf, fl, e⟩ := poll_trigger_reads (pollCount p.cmdReadyStep p.cmdReadyMax) i
  have hs : Holds p n x l c { i.sawTrigger k w with hfifo := hf, flight := fl } :=
    h.same ⟨rfl, rfl, rfl, rfl, rfl, rfl, rfl, rfl, rfl, rfl, rfl, rfl, rfl⟩
  rw [Instance.checkSwitched, Instance.readyPoll, e]
  cases r
  · exact hs
  · exact hs.raiseFatal _

/-- A mode switch. -/
theorem Holds.setHighSpeed (h : Holds p n x l c i) (on : Bool) : Holds p n x l c (i.setHighSpeed p on).2 := by
  rw [Instance.setHighSpeed]
  split
  · exact h
  · exact andThen_keeps (P := Holds p n x l c) (h.setFrequency _) (fun _ j hj =>
      Holds.checkSwitched (hj.same ⟨rfl, rfl, rfl, rfl, rfl, rfl, rfl, rfl, rfl, rfl, rfl, rfl, rfl⟩))

/-- The attempts to turn the clock on. -/
theorem Holds.clockAttempts (m k : Nat) (h : Holds p n x l c i) :
    Holds p n x l c (Instance.clockAttempts m k i).2 := by
  induction m generalizing k i with
  | zero => exact h.raiseFatal _
  | succ m ih =>
    have hj : ∀ o e, Holds p n x l c { i with env := { i.env with attempt := o, calls := e } } := fun o e =>
      h.same ⟨rfl, rfl, rfl, rfl, rfl, rfl, rfl, rfl, rfl, rfl, rfl, rfl, rfl⟩
    rw [Instance.clockAttempts]
    split
    · exact hj _ _
    · exact ih (k + 1) (hj _ _)

/-- The program written. -/
theorem Holds.programSequence (h : Holds p n x l c i) : Holds p n x l c (i.programSequence p).2 := by
  rw [Instance.programSequence]
  split
  · exact h.raiseFatal _
  · exact h.same ⟨rfl, rfl, rfl, rfl, rfl, rfl, rfl, rfl, rfl, rfl, rfl, rfl, rfl⟩

/-- Program, lengths, SOL delay. -/
theorem Holds.programVideo (h : Holds p n x l c i) : Holds p n x l c (i.programVideo p).2 := by
  refine andThen_keeps (P := Holds p n x l c) h.programSequence (fun _ j hj => ?_)
  split
  · exact hj.same ⟨rfl, rfl, rfl, rfl, rfl, rfl, rfl, rfl, rfl, rfl, rfl, rfl, rfl⟩
  · exact hj.raiseFatal _

/-- A value of `THS_PREPARE` within its ceiling keeps a set within the ceilings. -/
theorem fieldsFit_set_thsPrepare {m f : PhyFields} (h : fieldsFit m f = true) (v : Nat) :
    fieldsFit m { f with thsPrepare := min v m.thsPrepare } = true := by
  obtain ⟨a, b, c, d, e, g, k, l, o⟩ := f
  simp [fieldsFit, clampFields] at h ⊢
  exact ⟨h.1, h.2.1, h.2.2.1, h.2.2.2.2.1, h.2.2.2.2.2.1, h.2.2.2.2.2.2.1, h.2.2.2.2.2.2.2.1,
    h.2.2.2.2.2.2.2.2⟩

/-- The workaround. -/
theorem Holds.thspreprWar (h : Holds p n x l c i) : Holds p n x l c (i.thspreprWar p) := by
  refine ⟨h.id, h.ctrl, h.lock, h.lifecycle, h.clk, h.engine, h.snap, h.te, fun f1 f2 => ?_⟩
  obtain ⟨c1, c2, c3, c4⟩ := h.cfg f1 f2
  refine ⟨c1, c2, c3, fun hm => ?_⟩
  obtain ⟨r1, r2⟩ := c4 hm
  refine ⟨?_, r2⟩
  have hg : ∀ v, fieldsFit p.fieldMax { i.regs.phy with thsPrepare := min v p.fieldMax.thsPrepare } = true :=
    fun v => fieldsFit_set_thsPrepare r1 v
  show fieldsFit p.fieldMax (if p.thspreprWarValue.isSome then _ else _) = true
  split
  · exact hg _
  · exact r1

/-- The workaround a policy names. -/
theorem Holds.applyWorkaround (h : Holds p n x l c i) : Holds p n x l c (i.applyWorkaround p) := by
  rw [Instance.applyWorkaround]
  split
  · exact h
  · exact h
  · exact h.thspreprWar
  · exact h.thspreprWar.same ⟨rfl, rfl, rfl, rfl, rfl, rfl, rfl, rfl, rfl, rfl, rfl, rfl, rfl⟩

/-- The self-check and what follows it. -/
theorem Holds.checkOrFallBack (h : Holds p n x l c i) : Holds p n x l c (i.checkOrFallBack p).2 := by
  have hs : Holds p n x l c (i.selfCheck p).2 :=
    andThen_keeps (P := Holds p n x l c) (h.writeCommand _) (fun _ _ hj =>
      hj.readStep (Instance.nestedBtaCheck_read p hj.engine))
  have hf : ∀ j, Holds p n x l c j → Holds p n x l c (j.fallBack p).2 := fun j hj =>
    (hj.same (j := j.setHsClkCtrl .txOnly)
      ⟨rfl, rfl, rfl, rfl, rfl, rfl, rfl, rfl, rfl, rfl, rfl, rfl, rfl⟩).setHighSpeed false
  rw [Instance.checkOrFallBack]
  split
  · rename_i e; rw [e] at hs; exact hs
  · rename_i e; rw [e] at hs; exact hf _ hs

/-- The continuous clock. -/
theorem Holds.enterContinuous (h : Holds p n x l c i) : Holds p n x l c (i.enterContinuous p).2 :=
  andThen_keeps (P := Holds p n x l c) (h.clockAttempts _ _) (fun _ _ hj =>
    andThen_keeps (P := Holds p n x l c) (hj.setHighSpeed true) (fun _ k hk =>
      ((hk.same (j := k.setHsClkCtrl .continuous)
        ⟨rfl, rfl, rfl, rfl, rfl, rfl, rfl, rfl, rfl, rfl, rfl, rfl, rfl⟩).applyWorkaround).checkOrFallBack))

/-- `EnableVideoTransmission`. -/
theorem Holds.enableVideo (h : Holds p n x l c i) : Holds p n x l c (i.enableVideo p).2 := by
  have hd : Holds p n x l c (i.disableInterface p) :=
    h.same ⟨rfl, rfl, rfl, rfl, rfl, rfl, rfl, rfl, rfl, rfl, rfl, rfl, rfl⟩
  refine andThen_keeps (P := Holds p n x l c) hd.programVideo (fun _ j hj => ?_)
  have hk : Holds p n x l c (j.setIfEnable true).constructControl :=
    hj.same ⟨rfl, rfl, rfl, rfl, rfl, rfl, rfl, rfl, rfl, rfl, rfl, rfl, rfl⟩
  show Holds p n x l c (if _ then _ else _ : Status × Instance).2
  split
  · exact hk.enterContinuous
  · exact hk

end

end Sys2Proof.Machine
end

