-- ==== Sys2Proof/Laws/Lifecycle.lean ====
section
/-! SUPPORT. The lifecycle operations, the composite ones and raw register access keep what holds of a block
at rest (45_lifecycle.md). -/

namespace Sys2Proof.Machine

/-- Two steps in sequence that succeed both succeed. -/
theorem andThen_eq_success {r : Status × Instance} {k : Instance → Status × Instance} {j : Instance}
    (h : andThen r k = (.success, j)) : r.1 = .success ∧ k r.2 = (.success, j) := by
  rcases andThen_cases r k with ⟨hs, he⟩ | ⟨hs, he⟩
  · exact ⟨hs, he ▸ h⟩
  · rw [he] at h; exact absurd (by rw [h]) hs

/-- What a sequence of two steps ends with, from what the first leaves. -/
theorem andThen_ends {P Q : Instance → Prop} {r : Status × Instance}
    {k : Instance → Status × Instance} (h1 : P r.2) (h2 : ∀ j, P j → Q (k j).2) (h3 : ∀ {j}, P j → Q j) :
    Q (andThen r k).2 := by
  rcases andThen_cases r k with ⟨_, h⟩ | ⟨_, h⟩
  · rw [h]; exact h2 _ h1
  · rw [h]; exact h3 h1

section

variable {p : Params} {n : InstId} {x : Nat} {l : Lock} {c : Lifecycle} {i : Instance} {d : PanelDescriptor}

/-! ### TransInit and TransDeinit -/

/-- A block on its way through `TransInit`: at rest, not yet initialised. -/
structure Starting (n : InstId) (x : Nat) (i : Instance) : Prop where
  id : i.id = n
  ctrl : i.ctrlIndex = x
  lock : i.lock = .free
  lifecycle : i.lifecycle = .uninitialized
  clk : i.hostClkOn = false
  engine : i.engine = .idle
  snap : i.snap.overrideActive = false
  te : ∀ t, i.te = some t → t.masked = true

/-- A block not initialised has no configuration to answer for. -/
theorem Starting.holds (h : Starting n x i) : Holds p n x .free .uninitialized i :=
  ⟨h.id, h.ctrl, h.lock, fun _ => h.lifecycle, h.clk, h.engine, h.snap, fun _ => h.te, fun _ f => by
    simp [Instance.initialized, h.lifecycle] at f⟩

/-- Tearing down makes calls only. -/
theorem Instance.teardown_id (i : Instance) :
    i.teardown.id = i.id ∧ i.teardown.ctrlIndex = i.ctrlIndex := by
  have h : ∀ (b : Bool) (c : EnvCall) (j : Instance), (if b then j.call c else j).id = j.id ∧
      (if b then j.call c else j).ctrlIndex = j.ctrlIndex := by
    intro b c j
    cases b <;> exact ⟨rfl, rfl⟩
  simp only [Instance.teardown, h, and_self]

/-- A zeroed structure (R70). -/
theorem Starting.zero (h : i.id = n) (hx : i.ctrlIndex = x) : Starting n x (i.zeroStructure p) :=
  ⟨h, hx, rfl, rfl, rfl, rfl, rfl, fun _ e => nomatch e⟩

/-- Unwinding (R322). -/
theorem Starting.unwind (h : i.id = n) (hx : i.ctrlIndex = x) : Starting n x (i.unwind p) :=
  Starting.zero (i.teardown_id.1.trans h) (i.teardown_id.2.trans hx)

/-- An environment call keeps a block starting. -/
theorem Starting.initCall (h : Starting n x i) (c : EnvCall) {g : Instance → Instance}
    (hg : ∀ j, Starting n x j → Starting n x (g j)) : Starting n x (i.initCall c g).2 := by
  have hj : ∀ o c, Starting n x { i with env := { i.env with initCall := o, calls := c } } := fun _ _ =>
    ⟨h.id, h.ctrl, h.lock, h.lifecycle, h.clk, h.engine, h.snap, h.te⟩
  rw [Instance.initCall]
  split
  · exact hg _ (hj _ _)
  · exact hj _ _

/-- Steps (3) to (6) of R321. -/
theorem Starting.acquireResources (h : Starting n x i) : Starting n x (i.acquireResources p d).2 := by
  have k : ∀ j, Starting n x j → ∀ r, Starting n x { j with res := r } := fun _ h _ =>
    ⟨h.id, h.ctrl, h.lock, h.lifecycle, h.clk, h.engine, h.snap, h.te⟩
  refine andThen_keeps (P := Starting n x) (h.initCall _ fun j hj => k j hj _) fun _ j hj => ?_
  refine andThen_keeps (P := Starting n x) (hj.initCall _ fun j h => ?_) fun _ j hj => ?_
  · exact ⟨h.id, h.ctrl, h.lock, h.lifecycle, h.clk, h.engine, h.snap, h.te⟩
  · exact hj.initCall _ fun j hj => k j hj _

/-- A call that only grants a resource keeps the configuration. -/
theorem Instance.initCall_cfg {c : EnvCall} {g : Instance → Instance}
    (hg : ∀ j, (g j).cfg = j.cfg) : (i.initCall c g).2.cfg = i.cfg := by
  rw [Instance.initCall]
  split
  · exact hg _
  · rfl

/-- The configuration steps (3) to (6) leave when they succeed. -/
theorem Instance.acquireResources_cfg {j : Instance} (h : i.acquireResources p d = (.success, j)) :
    j.cfg = configuration p d := by
  obtain ⟨-, h⟩ := andThen_eq_success h
  obtain ⟨h1, h⟩ := andThen_eq_success h
  have hc : ∀ q : Instance, (q.initCall .mapAperture
      (fun k => { k with res := { k.res with aperture := true }, cfg := configuration p d })).1 = .success →
      (q.initCall .mapAperture
      (fun k => { k with res := { k.res with aperture := true }, cfg := configuration p d })).2.cfg =
        configuration p d := by
    intro q hq
    rw [Instance.initCall] at hq ⊢
    by_cases hd : (q.env.initCall.draw (Config.initAnswer q.id)).1 = true
    · rw [if_pos hd]
    · rw [if_neg hd] at hq; cases hq
  have := Instance.initCall_cfg (c := .registerPowerClock)
    (g := fun l : Instance => { l with res := { l.res with power := true } }) (fun _ => rfl)
    (i := (Instance.initCall .mapAperture
      (fun k => { k with res := { k.res with aperture := true }, cfg := configuration p d })
      (i.initCall .openDevice (fun j => { j with res := { j.res with device := true } })).2).2)
  rw [h] at this
  exact this.trans (hc _ h1)

/-- The zeroing pass, then the clock. -/
theorem Starting.startClock (h : Starting n x i) : Starting n x ((i.zeroRegisters p).startClock p).2 := by
  rw [Instance.startClock]
  split
  · rw [Instance.initialTiming, Instance.clockConfigure_eq]
    split <;> exact ⟨h.id, h.ctrl, h.lock, h.lifecycle, h.clk, h.engine, h.snap, h.te⟩
  · exact ⟨h.id, h.ctrl, h.lock, h.lifecycle, h.clk, h.engine, h.snap, h.te⟩

/-- What step (8) leaves when it succeeds. -/
theorem Instance.startClock_config {j : Instance} (h : i.startClock p = (.success, j)) 
    (ho : overridesFit p i.cfg = true) : j.cfg = i.cfg ∧ 0 < j.curPhyFreq ∧ PhyInRange p j.regs := by
  rw [Instance.startClock] at h
  split at h
  · rw [Instance.initialTiming, Instance.clockConfigure_eq] at h
    split at h
    · rename_i t ht
      rw [← (Prod.mk.inj h).2]
      exact ⟨rfl, Instance.clockAt_pos _ 0, Instance.computePhy_inRange ht ho i.regs⟩
    · cases (Prod.mk.inj h).1
  · cases (Prod.mk.inj h).1

/-- TE wiring (R323). -/
theorem Starting.wireTe (h : Starting n x i) : Starting n x i.wireTe.2 := by
  rw [Instance.wireTe]
  split
  · refine andThen_keeps (P := Starting n x) (h.initCall _ fun j h => ?_) fun _ j hj =>
      hj.initCall _ fun j h => ⟨h.id, h.ctrl, h.lock, h.lifecycle, h.clk, h.engine, h.snap, h.te⟩
    exact ⟨h.id, h.ctrl, h.lock, h.lifecycle, h.clk, h.engine, h.snap, fun t e => by cases e; rfl⟩
  · exact h

/-- TE wiring leaves the configuration, the clock and the registers. -/
theorem Instance.wireTe_config (i : Instance) :
    i.wireTe.2.cfg = i.cfg ∧ i.wireTe.2.curPhyFreq = i.curPhyFreq ∧ i.wireTe.2.regs = i.regs := by
  let P : Instance → Prop := fun j => j.cfg = i.cfg ∧ j.curPhyFreq = i.curPhyFreq ∧ j.regs = i.regs
  have hc : ∀ (q : Instance) c (g : Instance → Instance), (∀ j, P j → P (g j)) → P q →
      P (q.initCall c g).2 := by
    intro q c g hg hq
    rw [Instance.initCall]
    split
    · exact hg _ hq
    · exact hq
  show P _
  rw [Instance.wireTe]
  split
  · exact andThen_keeps (P := P) (hc _ _ _ (fun _ h => h) ⟨rfl, rfl, rfl⟩) fun _ j hj =>
      hc _ _ _ (fun _ h => h) hj
  · exact ⟨rfl, rfl, rfl⟩

/-- Steps (3) to (11) of R321 when they succeed. -/
theorem Holds.initSteps {j : Instance} (h : Starting n x i) (hd : descriptorOk d = true)
    (ho : overridesFit p d = true) (hj : i.initSteps p d = (.success, j)) : Holds p n x .free .transportReady j := by
  obtain ⟨h1, hj⟩ := andThen_eq_success hj
  obtain ⟨h2, hj⟩ := andThen_eq_success hj
  obtain ⟨h3, hj⟩ := andThen_eq_success hj
  rw [← (Prod.mk.inj hj).2]
  have s1 := h.acquireResources (p := p) (d := d)
  have c1 := Instance.acquireResources_cfg (Prod.ext h1 rfl :
    i.acquireResources p d = (.success, (i.acquireResources p d).2))
  generalize hA : (i.acquireResources p d).2 = A at *
  have s2 := s1.startClock (p := p)
  have c2 := Instance.startClock_config (Prod.ext h2 rfl :
    (A.zeroRegisters p).startClock p = (.success, ((A.zeroRegisters p).startClock p).2))
    (by rw [show (A.zeroRegisters p).cfg = A.cfg from rfl, c1]; exact ho)
  generalize ((A.zeroRegisters p).startClock p).2 = B at *
  have s3 : Starting n x B.enablePads.wireTe.2 := Starting.wireTe
    ⟨s2.id, s2.ctrl, s2.lock, s2.lifecycle, s2.clk, s2.engine, s2.snap, s2.te⟩
  have c3 := B.enablePads.wireTe_config
  generalize B.enablePads.wireTe.2 = C at *
  refine ⟨s3.id, s3.ctrl, s3.lock, fun _ => rfl, s3.clk, s3.engine, s3.snap, fun _ => s3.te, fun _ _ => ?_⟩
  have hcfg : C.cfg = configuration p d := c3.1.trans (c2.1.trans c1)
  refine ⟨?_, ?_, ?_, ?_⟩
  · show descriptorOk C.cfg = true
    rw [hcfg]; exact hd
  · show overridesFit p C.cfg = true
    rw [hcfg]; exact ho
  · show 0 < C.curPhyFreq
    rw [c3.2.1]; exact c2.2.1
  · show PhyInRange p C.regs
    rw [c3.2.2]; exact c2.2.2

/-- Whatever steps (3) to (11) end with, the block is still itself. -/
theorem Starting.initSteps_id (h : Starting n x i) :
    (i.initSteps p d).2.id = n ∧ (i.initSteps p d).2.ctrlIndex = x := by
  have out : ∀ {j}, Starting n x j → j.id = n ∧ j.ctrlIndex = x := fun h => ⟨h.id, h.ctrl⟩
  refine andThen_ends (Q := fun j => j.id = n ∧ j.ctrlIndex = x) h.acquireResources (fun j hj => ?_) out
  refine andThen_ends (Q := fun j => j.id = n ∧ j.ctrlIndex = x) hj.startClock (fun k hk => ?_) out
  refine andThen_ends (P := Starting n x) (Q := fun j => j.id = n ∧ j.ctrlIndex = x) (Starting.wireTe (i := k.enablePads)
    ⟨hk.id, hk.ctrl, hk.lock, hk.lifecycle, hk.clk, hk.engine, hk.snap, hk.te⟩) (fun l hl => ⟨hl.id, hl.ctrl⟩) out

/-- `TransInit` (R321, R322, R367). -/
theorem Holds.transInit (h : i.id = n) (hx : i.ctrlIndex = x) (hd : descriptorOk d = true)
    (ho : overridesFit p d = true) :
    ∃ c, Holds p n x .free c (i.transInit p d).2 := by
  have hz : Starting n x (i.zeroStructure p) := Starting.zero h hx
  have hid := hz.initSteps_id (p := p) (d := d)
  rw [Instance.transInit]
  split
  · rename_i j e
    exact ⟨_, Holds.initSteps hz hd ho e⟩
  · rename_i j e
    rw [e] at hid
    exact ⟨_, (Starting.unwind (p := p) hid.1 hid.2).holds.raiseFatal _⟩
  · rename_i j _ _ e
    rw [e] at hid
    exact ⟨_, (Starting.unwind (p := p) hid.1 hid.2).holds⟩

/-- `TransDeinit` (R336). -/
theorem Holds.transDeinit (h : i.id = n) (hx : i.ctrlIndex = x) : Holds p n x .free .disabled (i.transDeinit p) :=
  ⟨i.teardown_id.1.trans h, i.teardown_id.2.trans hx, rfl, (fun _ => rfl), rfl, rfl, rfl, (fun _ _ e => nomatch e),
    fun _ f => nomatch f⟩

/-! ### Enable, Disable, command mode -/

/-- A block that stays initialised keeps its configuration's promise. -/
theorem Holds.relabel {c' : Lifecycle} (h : Holds p n x l c i) (hi : i.fatal = none → i.initialized = true) :
    Holds p n x l c' { i with lifecycle := c' } :=
  ⟨h.id, h.ctrl, h.lock, fun _ => rfl, h.clk, h.engine, h.snap, h.te, fun f _ => h.cfg f (hi f)⟩

/-- A SOL delay and a half of a ganged panel change nothing that is at rest. -/
theorem Holds.setSol (h : Holds p n x l c i) (d : Nat) (g : Option Nat) :
    Holds p n x l c { i with solDelay := d, gangedHalf := g } :=
  h.same ⟨rfl, rfl, rfl, rfl, rfl, rfl, rfl, rfl, rfl, rfl, rfl, rfl, rfl⟩

/-- Step (3) of R326. -/
theorem Holds.latchSol (h : Holds p n x l c i) : Holds p n x l c (i.latchSol p).2 := by
  rw [Instance.latchSol]
  split
  · exact (h.setSol _ _).setFrequency _
  · exact h.raiseFatal _

/-- `initialized` is the lifecycle's. -/
theorem Holds.initialized (h : Holds p n x l c i) (hf : i.fatal = none) :
    i.initialized = ({ i with lifecycle := c }).initialized := by
  simp [Instance.initialized, h.lifecycle hf]

/-- A block whose lifecycle says initialised is. -/
theorem Holds.initialized_of {j : Instance} (h : Holds p n x l c i) (hf : i.fatal = none)
    (hi : i.initialized = true) (hj : Holds p n x l c j) (hg : j.fatal = none) : j.initialized = true := by
  rw [Instance.initialized, h.lifecycle hf] at hi
  rw [hj.initialized hg]
  exact hi

/-- `Enable` on the block (R326). -/
theorem Holds.enableLink (h : Holds p n x l c i) (hf : i.fatal = none) (hi : i.initialized = true) :
    ∃ c', Holds p n x l c' (i.enableLink p).2 := by
  refine andThen_ends (P := Holds p n x l c) (Q := fun j => ∃ c', Holds p n x l c' j)
    (h.setSol i.solDelay i.halfWidth).latchSol (fun j hj => ?_) (fun hj => ⟨_, hj⟩)
  refine andThen_ends (P := Holds p n x l c) (Q := fun j => ∃ c', Holds p n x l c' j) hj.enableVideo
    (fun k hk => ⟨.enabled, ?_⟩) (fun hj => ⟨_, hj⟩)
  exact ⟨hk.id, hk.ctrl, hk.lock, fun _ => rfl, hk.clk, hk.engine, hk.snap, hk.te, fun f _ =>
    hk.cfg f (h.initialized_of hf hi hk f)⟩

/-- `Disable` on the block (R333). -/
theorem Holds.disableLink (h : Holds p n x l c i) (hi : i.initialized = true) :
    Holds p n x l .transportReady i.disableLink :=
  ⟨h.id, h.ctrl, h.lock, fun _ => rfl, h.clk, h.engine, h.snap, h.te, fun f _ => h.cfg f hi⟩

/-- `TransEnableCommandMode` (R330). -/
theorem Holds.enableCommandMode (h : Holds p n x l c i) (hf : i.fatal = none) (hi : i.initialized = true) :
    ∃ c', Holds p n x l c' (i.enableCommandMode p).2 := by
  have ho : Holds p n x l c i.ownHost :=
    h.same ⟨rfl, rfl, rfl, rfl, rfl, rfl, rfl, rfl, rfl, rfl, rfl, rfl, rfl⟩
  refine andThen_ends (P := Holds p n x l c) (Q := fun j => ∃ c', Holds p n x l c' j) ?_
    (fun j hj => ⟨.commandModeEnabled, ?_⟩) (fun hj => ⟨_, hj⟩)
  · rw [Instance.toLowPower]
    split
    · exact ho.setHighSpeed _
    · exact ho.setFrequency _
  · exact hj.relabel (h.initialized_of hf hi hj)

/-! ### Composite operations -/

/-- `WriteCommand` after `WriteCommand`. -/
theorem Holds.sendAll (ps : List PacketDesc) (h : Holds p n x l c i) :
    Holds p n x l c (Instance.sendAll p ps i).2 := by
  induction ps generalizing i with
  | nil => exact h
  | cons d r ih => exact andThen_keeps (P := Holds p n x l c) (h.writeCommand d) fun _ _ hj => ih hj

/-- What a TE wait does: one draw decides it, the handle is left not signalled and masked (R377). -/
theorem Instance.teWait_eq (p : Params) (i : Instance) :
    ∃ e, i.teWait p =
      (if i.teAt 0 = true then .ready else .timedOut, { i with te := some ⟨false, true⟩, env := e }) := by
  simp only [Instance.teWait, Oracle.draw_eq]
  by_cases h : i.teAt 0 = true
  · exact ⟨_, (if_pos h).trans (Prod.ext (if_pos h).symm rfl)⟩
  · exact ⟨_, (if_neg h).trans (Prod.ext (if_neg h).symm rfl)⟩

/-- The TE wait masks the interrupt again on both exits (R377, R378). -/
theorem Holds.waitTe (h : Holds p n x l c i) : Holds p n x l c (i.waitTe p).2 := by
  have hm : ∀ (e : Env), Holds p n x l c { i with te := some ⟨false, true⟩, env := e } := fun e =>
    ⟨h.id, h.ctrl, h.lock, h.lifecycle, h.clk, h.engine, h.snap, (fun _ t ht => by cases ht; rfl),
      configOk_congr rfl rfl rfl rfl rfl rfl h.cfg⟩
  rw [Instance.waitTe]
  obtain ⟨e, he⟩ := i.teWait_eq p
  split
  · exact h
  · rw [he]
    by_cases ht : i.teAt 0 = true
    · rw [if_pos ht]; exact hm e
    · rw [if_neg ht]; exact hm e

/-- `TransUpdate` (R345). -/
theorem Holds.update (h : Holds p n x l c i) (rect : Rect) (ps : List PacketDesc) :
    Holds p n x l c (i.update p rect ps).2 := by
  refine andThen_keeps (P := Holds p n x l c) h.waitTe fun _ j hj => ?_
  refine andThen_keeps (P := Holds p n x l c) (Holds.sendAll ps (i := (j.drawPartial rect).2)
    (hj.same ⟨rfl, rfl, rfl, rfl, rfl, rfl, rfl, rfl, rfl, rfl, rfl, rfl, rfl⟩)) fun _ k hk => ?_
  show Holds p n x l c k.awaitPixels
  rw [Instance.awaitPixels]
  split
  · exact hk.same ⟨rfl, rfl, rfl, rfl, rfl, rfl, rfl, rfl, rfl, rfl, rfl, rfl, rfl⟩
  · exact hk

/-- Vertical blanks only pass. -/
theorem Instance.waitVblanks_env (i : Instance) (k : Nat) :
    ∃ e, i.waitVblanks k = { i with env := e } := by
  induction k generalizing i with
  | zero => exact ⟨i.env, rfl⟩
  | succ k ih =>
    obtain ⟨e, h⟩ := ih (i.call .waitVblank)
    exact ⟨e, h⟩

/-- `TransPing` (R348). -/
theorem Holds.ping (h : Holds p n x l c i) (reg : Byte) (len : BitVec 16) :
    Holds p n x l c (i.ping p reg len).2.2 := by
  obtain ⟨e, he⟩ := i.pingOverride.waitVblanks_env pingSettleFrames
  have h1 : Holds p n x l c (i.pingOverride.waitVblanks pingSettleFrames) := by
    rw [he]
    exact h.same ⟨rfl, rfl, rfl, rfl, rfl, rfl, rfl, rfl, rfl, rfl, rfl, rfl, rfl⟩
  have h2 := h1.readCommand reg len
  rw [Instance.ping]
  generalize (i.pingOverride.waitVblanks pingSettleFrames).readCommand p reg len = r at h2
  exact h2.same ⟨rfl, rfl, rfl, rfl, rfl, rfl, rfl, rfl, rfl, rfl, rfl, rfl, rfl⟩

/-! ### Raw register access -/

/-- A push. -/
theorem Holds.checkedPush {w : FifoWord} {j : Instance} (h : Holds p n x l c i)
    (e : i.checkedPush p w = .ok j) : Holds p n x l c j := by
  rw [Instance.checkedPush] at e
  by_cases h0 : i.triggerAt 0 = 0
  · rw [Instance.triggerIsZero_ready h0] at e
    simp only at e
    split at e
    · cases e
    · rw [← Except.ok.inj e]
      exact h.same ⟨rfl, rfl, rfl, rfl, rfl, rfl, rfl, rfl, rfl, rfl, rfl, rfl, rfl⟩
  · rw [Instance.triggerIsZero_busy h0] at e
    cases e

/-- A write of the program, the lengths or the SOL delay. -/
theorem programWrite_ok {j k : Instance} (e : i.programWrite j = .ok k) : k = j := by
  rw [Instance.programWrite] at e
  split at e
  · cases e
  · exact (Except.ok.inj e).symm

/-- `REGW` (R210). -/
theorem Holds.regWrite {r : RegName} {w : Word} {j : Instance} (h : Holds p n x l c i)
    (e : regWrite p r w i = .ok j) : Holds p n x l c j := by
  have same : ∀ k, SameCore i k → Holds p n x l c k := fun k s => h.same s
  have phy : ∀ f b, fieldsFit p.fieldMax f = true ∨ f = i.regs.phy →
      triadFits p.btaFieldMax b = true ∨ b = i.regs.bta →
      Holds p n x l c (i.mapRegs (fun g => { g with phy := f, bta := b })) := by
    intro f b hf hb
    refine ⟨h.id, h.ctrl, h.lock, h.lifecycle, h.clk, h.engine, h.snap, h.te, fun f1 f2 => ?_⟩
    obtain ⟨c1, c2, c3, c4⟩ := h.cfg f1 f2
    refine ⟨c1, c2, c3, fun hm => ⟨?_, ?_⟩⟩
    · rcases hf with hf | rfl
      · exact hf
      · exact (c4 hm).1
    · rcases hb with hb | rfl
      · exact hb
      · exact (c4 hm).2
  cases r
  case status => cases e
  case rdData => cases e
  case syncpt => rw [Machine.regWrite] at e; split at e <;> cases e
  case wrData => exact h.checkedPush e
  case pktSeq slot hi =>
    rw [programWrite_ok e]
    exact same _ ⟨rfl, rfl, rfl, rfl, rfl, rfl, rfl, rfl, rfl, rfl, rfl, rfl, rfl⟩
  case pktLen =>
    rw [programWrite_ok e]
    exact same _ ⟨rfl, rfl, rfl, rfl, rfl, rfl, rfl, rfl, rfl, rfl, rfl, rfl, rfl⟩
  case solDelay =>
    rw [programWrite_ok e]
    exact same _ ⟨rfl, rfl, rfl, rfl, rfl, rfl, rfl, rfl, rfl, rfl, rfl, rfl, rfl⟩
  case phyTiming =>
    rw [← Except.ok.inj e]
    exact phy _ i.regs.bta (.inl (fieldsFit_clamp _ _)) (.inr rfl)
  case btaTiming =>
    rw [← Except.ok.inj e]
    exact phy i.regs.phy _ (.inr rfl) (.inl (triadFits_clamp _ _))
  case hostControl =>
    rw [← Except.ok.inj e, Instance.writeHostControl]
    split <;> exact same _ ⟨rfl, rfl, rfl, rfl, rfl, rfl, rfl, rfl, rfl, rfl, rfl, rfl, rfl⟩
  all_goals
    rw [← Except.ok.inj e]
    exact same _ ⟨rfl, rfl, rfl, rfl, rfl, rfl, rfl, rfl, rfl, rfl, rfl, rfl, rfl⟩

/-- `POP` (R213). -/
theorem Holds.popWord (h : Holds p n x l c i) : Holds p n x l c i.popWord.2 := by
  rw [Instance.popWord]
  split <;> exact h.same ⟨rfl, rfl, rfl, rfl, rfl, rfl, rfl, rfl, rfl, rfl, rfl, rfl, rfl⟩

/-- A read of the count. -/
theorem Holds.arrivals (h : Holds p n x l c i) : Holds p n x l c i.arrivals := by
  obtain ⟨k, ws, e⟩ := i.arrivals_cases
  rw [e]
  exact h.same ⟨rfl, rfl, rfl, rfl, rfl, rfl, rfl, rfl, rfl, rfl, rfl, rfl, rfl⟩

/-- `REGR` (R211). -/
theorem Holds.regRead {r : RegName} {v : RegValue × Instance} (h : Holds p n x l c i)
    (e : regRead p r i = .ok v) : Holds p n x l c v.2 := by
  cases r
  case trigger =>
    rw [← Except.ok.inj e, Instance.readTrigger_eq]
    show Holds p n x l c (if _ then _ else _)
    split <;> exact h.same ⟨rfl, rfl, rfl, rfl, rfl, rfl, rfl, rfl, rfl, rfl, rfl, rfl, rfl⟩
  case status =>
    rw [← Except.ok.inj e]
    exact h.arrivals.same ⟨rfl, rfl, rfl, rfl, rfl, rfl, rfl, rfl, rfl, rfl, rfl, rfl, rfl⟩
  case wrData => cases e
  case rdData =>
    rw [← Except.ok.inj e]
    exact h.popWord
  case syncpt =>
    rw [Machine.regRead] at e
    split at e
    · rw [← Except.ok.inj e]
      exact h.same ⟨rfl, rfl, rfl, rfl, rfl, rfl, rfl, rfl, rfl, rfl, rfl, rfl, rfl⟩
    · cases e
  all_goals
    rw [← Except.ok.inj e]
    exact h

/-- `POLL` (R216), whichever predicate is named. -/
theorem Holds.poll {k : Nat} {f : Instance → Bool × Instance} (hf : predicateOf k = some f) (N : Nat)
    (h : Holds p n x l c i) : Holds p n x l c (poll f N i).2 := by
  match k, hf with
  | 0, hf =>
    obtain ⟨r, m, w, hh, fl, e⟩ := poll_trigger_reads N i
    rw [← Option.some.inj hf, e]
    exact h.same ⟨rfl, rfl, rfl, rfl, rfl, rfl, rfl, rfl, rfl, rfl, rfl, rfl, rfl⟩
  | 1, hf =>
    obtain ⟨r, m, b, e⟩ := poll_bta_reads N i
    rw [← Option.some.inj hf, e]
    exact h.same ⟨rfl, rfl, rfl, rfl, rfl, rfl, rfl, rfl, rfl, rfl, rfl, rfl, rfl⟩
  | 2, hf =>
    obtain ⟨r, m, ws, e⟩ := poll_count_reads N i
    rw [← Option.some.inj hf, e]
    exact h.same ⟨rfl, rfl, rfl, rfl, rfl, rfl, rfl, rfl, rfl, rfl, rfl, rfl, rfl⟩

/-- A TE edge (R376). -/
theorem Holds.teHandler (h : Holds p n x l c i) : Holds p n x l c i.teHandler := by
  rw [Instance.teHandler]
  split
  · split
    · exact h
    · exact ⟨h.id, h.ctrl, h.lock, h.lifecycle, h.clk, h.engine, h.snap, (fun _ t e => by cases e; rfl),
        configOk_congr rfl rfl rfl rfl rfl rfl h.cfg⟩
  · exact h

end

end Sys2Proof.Machine
end

