-- ==== Sys2Proof/Laws/Starting.lean ====
section
/-! SUPPORT. What the steps of `TransInit` do when their calls succeed and when one fails (45_lifecycle.md R321,
R322). -/

namespace Sys2Proof.Machine

/-- A step that succeeds hands its block on. -/
theorem andThen_ok {r : Status × Instance} {k : Instance → Status × Instance} {j : Instance} {x}
    (h : r = (.success, j)) (hk : k j = x) : andThen r k = x := by subst h; exact hk

/-- A step that fails gives its status. -/
theorem andThen_status {r : Status × Instance} {k : Instance → Status × Instance} {st : Status}
    (h : r.1 = st) (hs : st ≠ .success) : (andThen r k).1 = st := by
  rw [andThen_failed (by rw [h]; exact hs), h]

/-- The status of a sequence whose first step succeeds. -/
theorem andThen_ok_status {r : Status × Instance} {k : Instance → Status × Instance} {j : Instance} {st : Status}
    (h : r = (.success, j)) (hk : (k j).1 = st) : (andThen r k).1 = st := by subst h; exact hk

/-- A call of `TransInit` that succeeds. -/
theorem Instance.initCall_ok {c : EnvCall} {g : Instance → Instance} {i : Instance} (h : i.initAt 0 = true) :
    i.initCall c g = (.success, g { i with env := { i.env with
      initCall := i.env.initCall.advance 1, calls := c :: i.env.calls } }) := by
  have h : i.env.initCall.answer (Config.initAnswer i.id) 0 = true := h
  simp only [Instance.initCall, Oracle.draw_eq, h, if_true, Instance.call]

/-- A call of `TransInit` that fails. -/
theorem Instance.initCall_failed {c : EnvCall} {g : Instance → Instance} {i : Instance} (h : i.initAt 0 = false) :
    i.initCall c g = (.initFailed, { i with env := { i.env with
      initCall := i.env.initCall.advance 1, calls := c :: i.env.calls } }) := by
  have h : i.env.initCall.answer (Config.initAnswer i.id) 0 = false := h
  simp only [Instance.initCall, Oracle.draw_eq, h, Instance.call]
  rfl

/-- The status of a call that fails. -/
theorem Instance.initCall_status {c : EnvCall} {g : Instance → Instance} {i : Instance} (h : i.initAt 0 = false) :
    (i.initCall c g).1 = .initFailed := by rw [Instance.initCall_failed h]

/-- The later answers of the environment. -/
theorem Instance.initAt_later {i j : Instance} (k a : Nat) (hid : j.id = i.id)
    (he : j.env.initCall = i.env.initCall.advance k)
    : j.initAt a = i.initAt (k + a) := by
  rw [Instance.initAt, Instance.initAt, hid, he, Oracle.answer_advance]

/-- A later answer carried to the block that will draw it. -/
theorem Instance.initAt_carried {i j : Instance} {b : Bool} (k a : Nat) (h : i.initAt (k + a) = b)
    (hid : j.id = i.id) (he : j.env.initCall = i.env.initCall.advance k)
    : j.initAt a = b := (Instance.initAt_later k a hid he).trans h

/-- The block after steps (3) to (6) of R321. -/
def Instance.acquired (p : Params) (d : PanelDescriptor) (i : Instance) : Instance :=
  { i with res := { i.res with device := true, aperture := true, power := true }, cfg := configuration p d
           env := { i.env with initCall := i.env.initCall.advance 3
                               calls := .registerPowerClock :: .mapAperture :: .openDevice :: i.env.calls } }

/-- Steps (3) to (6) of R321, all successful. -/
theorem Instance.acquireResources_ok {p : Params} {d : PanelDescriptor} {i : Instance}
    (h : ∀ k, k < 3 → i.initAt k = true) :
    i.acquireResources p d = (.success, Instance.acquired p d i) := by
  have h0 := h 0 (by omega)
  have h1 := h 1 (by omega)
  have h2 := h 2 (by omega)
  rw [Instance.acquireResources]
  refine andThen_ok (Instance.initCall_ok h0) ?_
  refine andThen_ok (Instance.initCall_ok (Instance.initAt_carried (i := i) 1 0 h1 (by rfl) (by simp))) ?_
  refine (Instance.initCall_ok (Instance.initAt_carried (i := i) 2 0 h2 (by rfl) (by simp))).trans ?_
  simp [Instance.acquired]

/-- Step (8) of R321, successful. -/
theorem Instance.startClock_ok {p : Params} {i : Instance} {T : PhyTimingSet} (h : i.initAt 0 = true)
    (hT : i.computePhy p (i.clockAt 0) = some T) :
    i.startClock p = (.success, { i with
      curPhyFreq := i.clockAt 0
      env := { i.env with initCall := i.env.initCall.advance 1, clock := i.env.clock.advance 1
                          calls := .clockConfigure (min i.cfg.lpCmdClkKhz i.cfg.maxInitClock) p.clockTolerance :: i.env.calls }
      regs := { i.regs with phy := T.fields, bta := T.triad, timeout := T.timeout } }) := by
  have h : i.env.initCall.answer (Config.initAnswer i.id) 0 = true := h
  simp only [Instance.startClock, Oracle.draw_eq, h, if_true, Instance.initialTiming, Instance.clockConfigure_eq]
  have e : ∀ (o : Env) (f k : Nat), ({ i with env := o, curPhyFreq := f } : Instance).computePhy p k = i.computePhy p k := fun _ _ _ => rfl
  rw [e]
  have e2 : ({ i with env := { i.env with initCall := i.env.initCall.advance 1 } } : Instance).clockAt 0 = i.clockAt 0 := rfl
  simp only [e2]
  rw [hT]
  rfl

/-- Step (8) of R321 on an unknown format (R367). -/
theorem Instance.startClock_fatal {p : Params} {i : Instance} (h : i.initAt 0 = true)
    (hT : i.computePhy p (i.clockAt 0) = none) :
    ∃ j, i.startClock p = (.fatalHardwareFault, j) := by
  have h : i.env.initCall.answer (Config.initAnswer i.id) 0 = true := h
  simp only [Instance.startClock, Oracle.draw_eq, h, if_true, Instance.initialTiming, Instance.clockConfigure_eq]
  have e : ∀ (o : Env) (f k : Nat), ({ i with env := o, curPhyFreq := f } : Instance).computePhy p k = i.computePhy p k := fun _ _ _ => rfl
  rw [e]
  have e2 : ({ i with env := { i.env with initCall := i.env.initCall.advance 1 } } : Instance).clockAt 0 = i.clockAt 0 := rfl
  simp only [e2]
  rw [hT]
  exact ⟨_, rfl⟩

/-- Step (8) of R321, failed. -/
theorem Instance.startClock_failed {p : Params} {i : Instance} (h : i.initAt 0 = false) :
    ∃ j, i.startClock p = (.initFailed, j) := by
  have h : i.env.initCall.answer (Config.initAnswer i.id) 0 = false := h
  simp only [Instance.startClock, Oracle.draw_eq, h]
  exact ⟨_, rfl⟩

/-- PHY timing is computed for every known format, and for every override. -/
theorem Instance.computePhy_some {p : Params} {i : Instance}
    (h : i.cfg.dataFormat ≠ .unknown ∨ i.cfg.phyOverrides ≠ none) (k : Nat) :
    ∃ T, i.computePhy p k = some T := by
  rw [Instance.computePhy]
  cases ho : i.cfg.phyOverrides with
  | some T => exact ⟨T, rfl⟩
  | none =>
    cases hd : i.cfg.dataFormat
    case unknown => rcases h with h | h; exact absurd hd h; exact absurd ho h
    all_goals exact ⟨_, rfl⟩

/-- Step (10) of R321 with a TE GPIO, successful. -/
theorem Instance.wireTe_present {i : Instance} (ht : i.cfg.teGpioPresent = true) (h0 : i.initAt 0 = true)
    (h1 : i.initAt 1 = true) :
    i.wireTe = (.success, { i with
      te := some ⟨false, true⟩, res := { i.res with edgeHandler := true }
      env := { i.env with initCall := i.env.initCall.advance 2, calls := .registerEdgeHandler :: .createSemaphore :: i.env.calls } }) := by
  rw [Instance.wireTe]
  refine (if_pos ht).trans ?_
  refine andThen_ok (Instance.initCall_ok h0) ?_
  refine (Instance.initCall_ok (Instance.initAt_carried (i := i) 1 0 h1 (by rfl) (by simp))).trans ?_
  simp

/-- Step (10) of R321 without a TE GPIO. -/
theorem Instance.wireTe_absent {i : Instance} (ht : ¬ i.cfg.teGpioPresent = true) : i.wireTe = (.success, i) := by
  rw [Instance.wireTe]
  exact if_neg ht

/-- The registers a successful `TransInit` leaves: the zeroing pass, the PHY set `T`, the pads, and in the rest what
is found in the hardware (R321, R401). -/
def Instance.foundRegs (p : Params) (T : PhyTimingSet) (i : Instance) : Regs where
  ifEnable := false
  control := zeroControl p
  hostControl := zeroHostControl p
  trigger := (i.foundAt 0).trigger
  btaActive := (i.foundAt 0).btaActive
  errorFlag := (i.foundAt 0).errorFlag
  slots := zeroSlots
  pktLen := zeroPktLen
  phy := T.fields
  bta := T.triad
  timeout := T.timeout
  solDelay := (i.foundAt 0).solDelay
  threshold := 0
  padEnable := true
  syncpt := (i.foundAt 0).syncpt

/-- Steps (3) to (11) of R321, all successful. -/
theorem Instance.initSteps_ok {p : Params} {d : PanelDescriptor} {i : Instance} 
    (hd : d.dataFormat ≠ .unknown ∨ d.phyOverrides ≠ none)
    (hk : ∀ k, k < (if d.teGpioPresent then 6 else 4) → i.initAt k = true) :
    ∃ j T, i.initSteps p d = (.success, j) ∧ 
      ({ i with cfg := configuration p d } : Instance).computePhy p (i.clockAt 0) = some T ∧
      ∃ e r,  j = { i with
        res := r
        lifecycle := .transportReady, cfg := configuration p d, curPhyFreq := i.clockAt 0
        te := (if d.teGpioPresent then some ⟨false, true⟩ else i.te), env := e
        regs := i.foundRegs p T
        hfifo := (i.foundAt 0).hfifo.take p.hostFifoDepth
        flight := (i.foundAt 0).flight, rfifo := (i.foundAt 0).rfifo } ∧
        EnvCall.clockConfigure (min (configuration p d).lpCmdClkKhz (configuration p d).maxInitClock) p.clockTolerance ∈ e.calls := by
  have h3 : ∀ k, k < 4 → i.initAt k = true := fun k h => hk k (by split <;> omega)
  have ha := Instance.acquireResources_ok (p := p) (d := d) (fun k h => h3 k (by omega))
  let z := (Instance.acquired p d i).zeroRegisters p
  obtain ⟨T, hT⟩ := Instance.computePhy_some (p := p) (i := z) (show (configuration p d).dataFormat ≠ .unknown ∨ (configuration p d).phyOverrides ≠ none from hd) (z.clockAt 0)
  have hs := Instance.startClock_ok (p := p) (i := z) (Instance.initAt_carried (i := i) 3 0 (h3 3 (by omega)) rfl rfl) hT
  have ez : z.id = i.id := rfl
  have ei : z.env.initCall = i.env.initCall.advance 3 := rfl
  by_cases ht : d.teGpioPresent = true
  · have hk' : ∀ k, k < 6 → i.initAt k = true := fun k h => hk k (by rw [if_pos ht]; exact h)
    refine ⟨_, T, ?_, hT, ⟨{ i.env with initCall := i.env.initCall.advance 6, found := i.env.found.advance 1, clock := i.env.clock.advance 1, calls := .registerEdgeHandler :: .createSemaphore :: .clockConfigure (min (configuration p d).lpCmdClkKhz (configuration p d).maxInitClock) p.clockTolerance :: .registerPowerClock :: .mapAperture :: .openDevice :: i.env.calls }, ⟨true, true, true, true⟩, rfl, by simp⟩⟩
    rw [Instance.initSteps]
    refine andThen_ok ha ?_
    refine andThen_ok hs ?_
    refine andThen_ok (Instance.wireTe_present (by exact ht) (Instance.initAt_carried (i := i) 4 0 (hk' 4 (by omega)) (by exact ez) (by simp [Instance.enablePads, ei])) (Instance.initAt_carried (i := i) 4 1 (hk' 5 (by omega)) (by exact ez) (by simp [Instance.enablePads, ei]))) ?_
    simp [z, Instance.enablePads, Instance.zeroRegisters, Instance.findHardware, Oracle.draw_eq, Instance.acquired,
      Instance.foundRegs, Instance.foundAt, ht]
    all_goals rfl
  · refine ⟨_, T, ?_, hT, ⟨{ i.env with initCall := i.env.initCall.advance 4, found := i.env.found.advance 1, clock := i.env.clock.advance 1, calls := .clockConfigure (min (configuration p d).lpCmdClkKhz (configuration p d).maxInitClock) p.clockTolerance :: .registerPowerClock :: .mapAperture :: .openDevice :: i.env.calls }, ⟨true, true, true, i.res.edgeHandler⟩, rfl, by simp⟩⟩
    rw [Instance.initSteps]
    refine andThen_ok ha ?_
    refine andThen_ok hs ?_
    refine andThen_ok (Instance.wireTe_absent (by exact ht)) ?_
    simp [z, Instance.enablePads, Instance.zeroRegisters, Instance.findHardware, Oracle.draw_eq, Instance.acquired,
      Instance.foundRegs, Instance.foundAt, ht]
    all_goals rfl

/-- Steps (3) to (6) of R321 with a call that fails. -/
theorem Instance.acquireResources_failed {p : Params} {d : PanelDescriptor} {i : Instance} {k : Nat}
    (hk : k < 3) (h : i.initAt k = false)
    (hm : ∀ m, m < k → i.initAt m = true) : (i.acquireResources p d).1 = .initFailed := by
  rw [Instance.acquireResources]
  match k, hk with
  | 0, _ => exact andThen_status (Instance.initCall_status h) nofun
  | 1, _ =>
    refine andThen_ok_status (Instance.initCall_ok (hm 0 (by omega))) ?_
    exact andThen_status (Instance.initCall_status (Instance.initAt_carried (i := i) 1 0 h (by rfl) (by simp))) nofun
  | 2, _ =>
    refine andThen_ok_status (Instance.initCall_ok (hm 0 (by omega))) ?_
    refine andThen_ok_status (Instance.initCall_ok (Instance.initAt_carried (i := i) 1 0 (hm 1 (by omega)) (by rfl) (by simp))) ?_
    exact Instance.initCall_status (Instance.initAt_carried (i := i) 2 0 h (by rfl) (by simp))

/-- Steps (3) to (11) of R321 with a call that fails. -/
theorem Instance.initSteps_failed {p : Params} {d : PanelDescriptor} {i : Instance} {k : Nat} (h : i.initAt k = false)
    (hm : ∀ m, m < k → i.initAt m = true) (hk : k < 4 ∨ k < 6 ∧ d.teGpioPresent = true ∧ (d.dataFormat ≠ .unknown ∨ d.phyOverrides ≠ none)) :
    (i.initSteps p d).1 = .initFailed := by
  rw [Instance.initSteps]
  by_cases h3 : k < 3
  · exact andThen_status (Instance.acquireResources_failed h3 h hm) nofun
  · have ha := Instance.acquireResources_ok (p := p) (d := d) (fun m h => hm m (by omega))
    let z := (Instance.acquired p d i).zeroRegisters p
    have ez : z.id = i.id := rfl
    have ei : z.env.initCall = i.env.initCall.advance 3 := rfl
    by_cases h4 : k = 3
    · subst h4
      obtain ⟨j, hj⟩ := Instance.startClock_failed (p := p) (i := z) (Instance.initAt_carried (i := i) 3 0 h rfl rfl)
      exact andThen_ok_status ha (andThen_status (by rw [hj]) nofun)
    · have h5 : k < 6 ∧ d.teGpioPresent = true ∧ (d.dataFormat ≠ .unknown ∨ d.phyOverrides ≠ none) := by
        rcases hk with h | h
        · omega
        · exact h
      obtain ⟨h6, ht, hf⟩ := h5
      obtain ⟨T, hT⟩ := Instance.computePhy_some (p := p) (i := z) (show (configuration p d).dataFormat ≠ .unknown ∨ (configuration p d).phyOverrides ≠ none from hf) (z.clockAt 0)
      have hs := Instance.startClock_ok (p := p) (i := z) (Instance.initAt_carried (i := i) 3 0 (hm 3 (by omega)) rfl rfl) hT
      refine andThen_ok_status ha (andThen_ok_status hs (andThen_status ?_ nofun))
      rw [Instance.wireTe]
      by_cases h7 : k = 4
      · subst h7
        refine (congrArg Prod.fst (if_pos (by exact ht))).trans ?_
        exact andThen_status (Instance.initCall_status (Instance.initAt_carried (i := i) 4 0 h (by exact ez) (by simp [Instance.enablePads, ei]))) nofun
      · have h7 : k = 5 := by omega
        subst h7
        refine (congrArg Prod.fst (if_pos (by exact ht))).trans ?_
        refine andThen_ok_status (Instance.initCall_ok (Instance.initAt_carried (i := i) 4 0 (hm 4 (by omega)) (by exact ez) (by simp [Instance.enablePads, ei]))) ?_
        exact Instance.initCall_status (Instance.initAt_carried (i := i) 5 0 h (by exact ez) (by simp [Instance.enablePads, ei]))

/-- Steps (3) to (11) of R321 on an unknown format (R367). -/
theorem Instance.initSteps_fatal {p : Params} {d : PanelDescriptor} {i : Instance} 
    (hm : ∀ m, m < 4 → i.initAt m = true) (hd : d.dataFormat = .unknown) (ho : d.phyOverrides = none) :
    (i.initSteps p d).1 = .fatalHardwareFault := by
  rw [Instance.initSteps]
  have ha := Instance.acquireResources_ok (p := p) (d := d) (fun m h => hm m (by omega))
  let z := (Instance.acquired p d i).zeroRegisters p
  have hn : z.computePhy p (z.clockAt 0) = none := by
    rw [Instance.computePhy, show z.cfg.phyOverrides = none from ho]
    show (match bppQuarters z.cfg.dataFormat with | some _ => _ | none => none) = none
    rw [show z.cfg.dataFormat = .unknown from hd]; rfl
  obtain ⟨j, hj⟩ := Instance.startClock_fatal (p := p) (i := z) (Instance.initAt_carried (i := i) 3 0 (hm 3 (by omega)) rfl rfl) hn
  exact andThen_ok_status ha (andThen_status (by rw [hj]) nofun)

end Sys2Proof.Machine
end

