-- ==== Sys2Proof/Laws/Switching.lean ====
section
/-! SUPPORT. What a mode switch, the clock turn-on, the enable sequence and the command mode do, case by case
(44_clock_lane_mode.md, 45_lifecycle.md). -/

namespace Sys2Proof.Machine

/-! ### Mode switch, clock turn-on -/

/-- The frequency set and PHY timing with it (R294). -/
theorem Instance.setFrequency_ok {p : Params} {i : Instance} {T : PhyTimingSet} (khz : Nat)
    (h : i.computePhy p (i.clockAt 0) = some T) :
    i.setFrequency p khz = (.success, { i with
      curPhyFreq := i.clockAt 0
      regs := { i.regs with phy := T.fields, bta := T.triad, timeout := T.timeout }
      env := { i.env with clock := i.env.clock.advance 1
                          calls := .clockConfigure khz p.clockTolerance :: i.env.calls } }) := by
  rw [Instance.setFrequency, Instance.clockConfigure_eq, Instance.applyPhy]
  have e : ∀ (o : Env) (f k : Nat), ({ i with env := o, curPhyFreq := f } : Instance).computePhy p k = i.computePhy p k := fun _ _ _ => rfl
  show (match ({ i with env := _, curPhyFreq := i.clockAt 0 } : Instance).computePhy p (i.clockAt 0) with | some t => _ | none => _) = _
  rw [e, h]
  rfl

/-- A mode switch whose link is ready afterwards (R292). -/
theorem Instance.checkSwitched_ready {p : Params} {i : Instance} {m : Nat}
    (hm : m < pollCount p.cmdReadyStep p.cmdReadyMax) (h : i.ReadyAfter 0 m) :
    i.checkSwitched p = (.success, (i.sawTrigger (m + 1) 0).complete) := by
  rw [Instance.checkSwitched, Instance.readyPoll, poll_trigger_ready _ _ _ hm h]

/-- A mode switch whose link is not ready afterwards (R293). -/
theorem Instance.checkSwitched_busy {p : Params} {i : Instance}
    (h : ∀ k, k < pollCount p.cmdReadyStep p.cmdReadyMax → i.triggerAt k ≠ 0) :
    ∃ w, i.checkSwitched p = (.fatalHardwareFault, (i.sawTrigger (pollCount p.cmdReadyStep p.cmdReadyMax) w).raiseFatal .cmdModeNotReadyAfterModeSwitch) := by
  obtain ⟨w, hw⟩ := poll_trigger_timedOut _ i h
  exact ⟨w, by rw [Instance.checkSwitched, Instance.readyPoll, hw]⟩

/-- `SetHighSpeedMode` on a link ready afterwards (R292). -/
theorem Instance.setHighSpeed_ready {p : Params} {i : Instance} {T : PhyTimingSet} {on : Bool} {m : Nat}
    (hne : i.hsMode ≠ on)
    (h : i.computePhy p (i.clockAt 0) = some T) (hm : m < pollCount p.cmdReadyStep p.cmdReadyMax) (hr : i.ReadyAfter 0 m) :
    i.setHighSpeed p on = (.success, { i with
          hsMode := on, curPhyFreq := i.clockAt 0, hfifo := i.queued, flight := settledFlight i.flight
          regs := { i.regs with
            trigger := 0
            hostControl := { i.regs.hostControl with hsTransmit := on }
            phy := T.fields, bta := T.triad, timeout := T.timeout }
          env := { i.env with
            clock := i.env.clock.advance 1, trigger := i.env.trigger.advance (m + 1)
            calls := .clockConfigure (commandClock i.cfg on) p.clockTolerance :: i.env.calls } }) := by
  rw [Instance.setHighSpeed, if_neg hne, Instance.setFrequency_ok _ h, andThen_success, Instance.checkSwitched_ready hm]
  · rfl
  · exact hr

/-- `SetHighSpeedMode` on a link not ready afterwards (R293). -/
theorem Instance.setHighSpeed_busy {p : Params} {i : Instance} {T : PhyTimingSet} {on : Bool} (hne : i.hsMode ≠ on)
    (h : i.computePhy p (i.clockAt 0) = some T) (hr : ∀ k, k < pollCount p.cmdReadyStep p.cmdReadyMax → i.triggerAt k ≠ 0) :
    ∃ j, i.setHighSpeed p on = (.fatalHardwareFault, j) ∧ j.fatal = some .cmdModeNotReadyAfterModeSwitch ∧ j.env.trigger = i.env.trigger.advance (pollCount p.cmdReadyStep p.cmdReadyMax) := by
  rw [Instance.setHighSpeed, if_neg hne, Instance.setFrequency_ok _ h, andThen_success]
  obtain ⟨w, hw⟩ := Instance.checkSwitched_busy (p := p) (i := Instance.setMode on { i with
      curPhyFreq := i.clockAt 0
      regs := { i.regs with phy := T.fields, bta := T.triad, timeout := T.timeout }
      env := { i.env with clock := i.env.clock.advance 1
                          calls := .clockConfigure (commandClock i.cfg on) p.clockTolerance :: i.env.calls } }) hr
  exact ⟨_, hw, rfl, rfl⟩

/-- Taking the lock and releasing it. -/
theorem Instance.acquire_release {i : Instance} (h : i.lock = .free) : i.acquire.release = i := by
  rw [Instance.release, Instance.acquire]
  rw [← h]

/-- `TurnOnDsiClock` that succeeds at attempt `m + 1` (R305). -/
theorem Instance.clockAttempts_ok (m left k : Nat) (i : Instance) (hm : m < left)
    (h0 : ∀ a, a < m → i.attemptAt a = false) (h1 : i.attemptAt m = true) :
    Instance.clockAttempts left k i = (.success, { i with env := { i.env with
        attempt := i.env.attempt.advance (m + 1), calls := ((List.range (m+1)).map (fun a => EnvCall.turnOnClockAttempt (k + a))).reverse ++ i.env.calls } }) := by
  induction m generalizing left k i with
  | zero =>
    obtain ⟨l, rfl⟩ : ∃ l, left = l + 1 := ⟨left - 1, by omega⟩
    have h1 : i.env.attempt.answer (Config.attemptAnswer i.id) 0 = true := h1
    simp only [Instance.clockAttempts, Oracle.draw_eq, h1, if_true, Instance.call]
    simp
  | succ m ih =>
    obtain ⟨l, rfl⟩ : ∃ l, left = l + 1 := ⟨left - 1, by omega⟩
    have h00 : i.env.attempt.answer (Config.attemptAnswer i.id) 0 = false := h0 0 (by omega)
    rw [Instance.clockAttempts]
    simp only [Oracle.draw_eq, h00]
    rw [if_neg (by simp)]
    have := ih l (k + 1) (({ i with env := { i.env with attempt := i.env.attempt.advance 1 } }).call (.turnOnClockAttempt k)) (by omega)
      (by intro a ha; have := h0 (a + 1) (by omega); rw [Instance.attemptAt] at this ⊢; simpa [Instance.call, Nat.add_comm] using this)
      (by rw [Instance.attemptAt] at h1 ⊢; simpa [Instance.call, Nat.add_comm] using h1)
    rw [this]
    simp only [Instance.call, Oracle.advance_advance]
    rw [List.range_succ_eq_map (n := m + 1)]
    simp [Function.comp_def, Nat.add_comm, Nat.add_left_comm]

/-- `TurnOnDsiClock` that never succeeds (R305). -/
theorem Instance.clockAttempts_exhausted (left k : Nat) (i : Instance) (h0 : ∀ a, a < left → i.attemptAt a = false) :
    ∃ j, Instance.clockAttempts left k i = (.fatalHardwareFault, j) ∧ j.fatal = some .clockEnableRetriesExhausted ∧ j.env.calls = ((List.range left).map (fun a => EnvCall.turnOnClockAttempt (k + a))).reverse ++ i.env.calls := by
  induction left generalizing k i with
  | zero => exact ⟨_, rfl, rfl, by simp [Instance.raiseFatal]⟩
  | succ l ih =>
    have h00 : i.env.attempt.answer (Config.attemptAnswer i.id) 0 = false := h0 0 (by omega)
    rw [Instance.clockAttempts]
    simp only [Oracle.draw_eq, h00]
    rw [if_neg (by simp)]
    obtain ⟨j, h1, h2, h3⟩ := ih (k + 1) (({ i with env := { i.env with attempt := i.env.attempt.advance 1 } }).call (.turnOnClockAttempt k)) 
      (by intro a ha; have := h0 (a + 1) (by omega); rw [Instance.attemptAt] at this ⊢; simpa [Instance.call, Nat.add_comm] using this)
    refine ⟨j, h1, h2, h3.trans ?_⟩
    rw [List.range_succ_eq_map]
    simp [Function.comp_def, Nat.add_comm, Nat.add_left_comm, Instance.call]

/-! ### Command mode, enable -/

/-- `TransEnableCommandMode` from low-power mode (R330). -/
theorem Instance.enableCommandMode_lowPower {p : Params} {i : Instance} {T : PhyTimingSet} (hm : i.hsMode = false)
    (hT : i.computePhy p (i.clockAt 0) = some T) : i.enableCommandMode p = (.success, { i with
        hostActive := true, curPhyFreq := i.clockAt 0, lifecycle := .commandModeEnabled
        regs := { i.regs with
          control := { i.regs.control with videoEnable := false, hostEnable := true }
          hostControl := { i.regs.hostControl with triggerMode := .immediate }
          phy := T.fields, bta := T.triad, timeout := T.timeout }
        env := { i.env with
          clock := i.env.clock.advance 1
          calls := .clockConfigure i.cfg.lpCmdClkKhz p.clockTolerance :: i.env.calls } }) := by
  have e : i.ownHost = { i with
      hostActive := true
      regs := { i.regs with
          control := { i.regs.control with videoEnable := false, hostEnable := true }
          hostControl := { i.regs.hostControl with triggerMode := .immediate } } } := rfl
  rw [Instance.enableCommandMode, Instance.toLowPower, e, if_neg (by show ¬ i.hsMode = true; simp [hm])]
  rw [Instance.setFrequency_ok _ (by exact hT)]
  rfl

/-- `TransEnableCommandMode` from high-speed mode (R330). -/
theorem Instance.enableCommandMode_highSpeed {p : Params} {i : Instance} {T : PhyTimingSet} {m : Nat}
    (hm : i.hsMode = true)
    (hT : i.computePhy p (i.clockAt 0) = some T) (hlt : m < pollCount p.cmdReadyStep p.cmdReadyMax) (hr : i.ReadyAfter 0 m) : i.enableCommandMode p = (.success, { i with
        hostActive := true, hsMode := false, curPhyFreq := i.clockAt 0, lifecycle := .commandModeEnabled
        hfifo := i.queued, flight := settledFlight i.flight
        regs := { i.regs with
          trigger := 0
          control := { i.regs.control with videoEnable := false, hostEnable := true }
          hostControl := { i.regs.hostControl with triggerMode := .immediate, hsTransmit := false }
          phy := T.fields, bta := T.triad, timeout := T.timeout }
        env := { i.env with
          clock := i.env.clock.advance 1, trigger := i.env.trigger.advance (m + 1)
          calls := .clockConfigure i.cfg.lpCmdClkKhz p.clockTolerance :: i.env.calls } }) := by
  have e : i.ownHost = { i with
      hostActive := true
      regs := { i.regs with
          control := { i.regs.control with videoEnable := false, hostEnable := true }
          hostControl := { i.regs.hostControl with triggerMode := .immediate } } } := rfl
  rw [Instance.enableCommandMode, Instance.toLowPower, e, if_pos (by exact hm)]
  rw [Instance.setHighSpeed_ready (by show i.hsMode ≠ false; simp [hm]) (by exact hT) hlt (by exact hr)]
  rfl

/-- A known format has an active-length id (R183). -/
theorem activeId_some {f : DataFormat} (h : f ≠ .unknown) : ∃ a, activeId f = some a := by
  cases f <;> first | exact absurd rfl h | exact ⟨_, rfl⟩

/-- A known format has packet lengths (R163). -/
theorem Instance.computeLengths_some {i : Instance} (h : i.cfg.dataFormat ≠ .unknown) : ∃ L, i.computeLengths =
    some L := by
  rw [Instance.computeLengths]
  generalize i.cfg.dataFormat = f at h
  cases f <;> first | exact absurd rfl h | skip
  all_goals
    simp only [bppQuarters]
    generalize i.cfg.videoMode = m
    cases m <;> exact ⟨_, rfl⟩

/-- A known format has a SOL delay (R158). -/
theorem Instance.computeSol_some {i : Instance} (h : i.cfg.dataFormat ≠ .unknown) : ∃ L, i.computeSol = some L := by
  rw [Instance.computeSol]
  generalize i.cfg.dataFormat = f at h
  cases f <;> first | exact absurd rfl h | skip
  all_goals
    simp only [bppQuarters]
    generalize i.cfg.videoMode = m
    cases m <;> exact ⟨_, rfl⟩

/-- Packet lengths are a function of the configuration and the corrected half width (R163). -/
theorem Instance.computeLengths_congr {i j : Instance} (hc : j.cfg = i.cfg) (hg : j.gangedHalf = i.gangedHalf) :
    j.computeLengths = i.computeLengths := by
  simp only [Instance.computeLengths, Instance.activeTiming, hc, hg]


/-- The program, the lengths and the SOL delay of a known format (R298). -/
theorem Instance.programVideo_some {p : Params} {j : Instance} {act : PacketId} {L : PktLen}
    (ha : activeId j.cfg.dataFormat = some act) (hL : j.computeLengths = some L) :
    j.programVideo p = (.success,
      (j.setSlots (mirrorSlot (modeProgram p j.cfg.videoMode act j.regs.slots.s5))).setLengths L) := by
  have e : ∀ f, (j.setSlots f).computeLengths = some L := fun f =>
    (Instance.computeLengths_congr (i := j) (j := j.setSlots f) rfl rfl).trans hL
  rw [Instance.programVideo, Instance.programSequence, ha]
  simp only [andThen_success, e]

/-- The interface disabled for programming (R296). -/
theorem Instance.disableInterface_eq (p : Params) (i : Instance) :
    i.disableInterface p = { i with
        regs := { i.regs with ifEnable := false, control := { i.regs.control with hostFifoSel := p.hostFifoSel } }
        env := { i.env with
          clock := i.env.clock.advance 1
          calls := .clockConfigure i.curPhyFreq p.clockTolerance :: i.env.calls } } := by
  rw [Instance.disableInterface]; simp only [Instance.clockConfigure_eq]; rfl

/-- A programmed block whose policy asks for no continuous clock is enabled and its `CONTROL` built anew (R297). -/
theorem Instance.enableVideo_programmed {p : Params} {i j : Instance}
    (h : (i.disableInterface p).programVideo p = (.success, j)) (hc : j.cfg.hsClkPolicy = .txOnly) :
    i.enableVideo p = (.success, (j.setIfEnable true).constructControl) := by
  have e : isContinuous (j.setIfEnable true).constructControl.cfg.hsClkPolicy = false := by
    show isContinuous j.cfg.hsClkPolicy = false
    rw [hc]; rfl
  rw [Instance.enableVideo, h, andThen_success]
  simp only [e, Bool.false_eq_true, if_false]

/-- `EnableVideoTransmission` with a transmit-only clock (R295 to R298). -/
theorem Instance.enableVideo_txOnly {p : Params} {i : Instance} {act : PacketId} {L : PktLen}
    (hp : i.cfg.hsClkPolicy = .txOnly)
   (ha : activeId i.cfg.dataFormat = some act) (hL : i.computeLengths = some L) :
   i.enableVideo p = (.success, { i with
        regs := { i.regs with
          ifEnable := true, control := ⟨true, false, p.hostFifoSel, .txOnly⟩
          slots := mirrorSlot (modeProgram p i.cfg.videoMode act i.regs.slots.s5)
          pktLen := L, solDelay := i.solDelay }
        env := { i.env with
          clock := i.env.clock.advance 1
          calls := .clockConfigure i.curPhyFreq p.clockTolerance :: i.env.calls } }) := by
  have d := Instance.disableInterface_eq p i
  have dc : (i.disableInterface p).cfg = i.cfg := by rw [d]
  have dg : (i.disableInterface p).gangedHalf = i.gangedHalf := by rw [d]
  have dl := (Instance.computeLengths_congr dc dg).trans hL
  have da : activeId (i.disableInterface p).cfg.dataFormat = some act := by rw [dc]; exact ha
  have dp := Instance.programVideo_some (p := p) da dl
  rw [Instance.enableVideo_programmed dp (by rw [d]; exact hp), d]
  simp only [Instance.constructControl, Instance.setControl, Instance.setIfEnable, Instance.setLengths, Instance.setSlots]

/-- `EnableVideoTransmission` on an unknown format (R195). -/
theorem Instance.enableVideo_unknown {p : Params} {i : Instance} (h : i.cfg.dataFormat = .unknown) :
    ∃ j, i.enableVideo p = (.fatalHardwareFault, j) ∧ j.fatal = some .unknownDataFormat := by
  have e : activeId (i.disableInterface p).cfg.dataFormat = none := by
    show activeId i.cfg.dataFormat = none
    rw [h]; rfl
  rw [Instance.enableVideo, Instance.programVideo, Instance.programSequence, e]
  exact ⟨_, rfl, rfl⟩

/-- `Enable` on the block, with a transmit-only clock (R326). -/
theorem Instance.enableLink_txOnly {p : Params} {i : Instance} {sol f : Nat} {act : PacketId} {L : PktLen}
    {T : PhyTimingSet}
   (hp : i.cfg.hsClkPolicy = .txOnly)
   (hs : ({ i with gangedHalf := i.halfWidth } : Instance).computeSol = some (sol, f))
   (ha : activeId i.cfg.dataFormat = some act)
   (hL : ({ i with gangedHalf := i.halfWidth } : Instance).computeLengths = some L)
   (hT : ({ i with gangedHalf := i.halfWidth } : Instance).computePhy p (i.clockAt 0) = some T) :
   i.enableLink p = (.success, { i with
        gangedHalf := i.halfWidth, solDelay := sol, curPhyFreq := i.clockAt 0
        padsCalibrated := true, hostActive := false, lifecycle := .enabled
        regs := { i.regs with
          ifEnable := true, control := ⟨true, false, p.hostFifoSel, .txOnly⟩
          slots := mirrorSlot (modeProgram p i.cfg.videoMode act i.regs.slots.s5)
          pktLen := L, solDelay := sol, phy := T.fields, bta := T.triad, timeout := T.timeout }
        env := { i.env with clock := i.env.clock.advance 2
                            calls := .padCalibrate :: .dcWriteOutputActive i.ctrlIndex true ::
                              .clockConfigure (i.clockAt 0) p.clockTolerance :: .clockConfigure f p.clockTolerance :: i.env.calls } }) := by
  rw [Instance.enableLink, Instance.latchSol, hs]
  have h1 := Instance.setFrequency_ok (p := p) (i := { i with gangedHalf := i.halfWidth, solDelay := sol }) f hT
  show andThen (Instance.setFrequency p f ({ i with gangedHalf := i.halfWidth, solDelay := sol })) _ = _
  rw [h1, andThen_success]
  have h2 := Instance.enableVideo_txOnly (p := p) (i := { i with
      gangedHalf := i.halfWidth, solDelay := sol, curPhyFreq := i.clockAt 0
      regs := { i.regs with phy := T.fields, bta := T.triad, timeout := T.timeout }
      env := { i.env with clock := i.env.clock.advance 1
                          calls := .clockConfigure f p.clockTolerance :: i.env.calls } }) (act := act) (L := L) hp ha hL
  have h3 : ({ i with gangedHalf := i.halfWidth, solDelay := sol } : Instance).clockAt 0 = i.clockAt 0 := rfl
  rw [h3, h2, andThen_success]
  simp only [Instance.becomeEnabled, Instance.call, Oracle.advance_advance]

/-! ### However the environment answers -/

/-- What a mode switch and a self-check keep. -/
structure KeepsLink (i j : Instance) : Prop where
  fatal : j.fatal = i.fatal
  control : j.regs.control = i.regs.control
  ife : j.regs.ifEnable = i.regs.ifEnable
  slots : j.regs.slots = i.regs.slots
  cfg : j.cfg = i.cfg
  clk : j.hostClkOn = i.hostClkOn
  eng : j.engine = i.engine

/-- One after another. -/
theorem KeepsLink.trans {i j k : Instance} (a : KeepsLink i j) (b : KeepsLink j k) : KeepsLink i k :=
  ⟨b.fatal.trans a.fatal, b.control.trans a.control, b.ife.trans a.ife, b.slots.trans a.slots, b.cfg.trans a.cfg, b.clk.trans a.clk, b.eng.trans a.eng⟩

/-- An operation ends in `Success` with `Q`, or in a fatal fault. -/
def SucceedsOrFatal (r : Status × Instance) (Q : Instance → Prop) : Prop :=
  (r.1 = .success ∧ Q r.2) ∨ (r.1 = .fatalHardwareFault ∧ r.2.fatal ≠ none)

/-- Two steps in sequence. -/
theorem SucceedsOrFatal.andThen {r : Status × Instance} {k : Instance → Status × Instance}
    {Q Q' : Instance → Prop} (h : SucceedsOrFatal r Q) (hk : ∀ j, Q j → SucceedsOrFatal (k j) Q') :
    SucceedsOrFatal (Sys2Proof.Machine.andThen r k) Q' := by
  obtain ⟨st, j⟩ := r
  rcases h with ⟨h1, h2⟩ | ⟨h1, h2⟩
  · cases h1; exact hk j h2
  · cases h1; exact .inr ⟨rfl, h2⟩

/-- No override in force, the clock gate shut, the engine idle. -/
def Unentered (i : Instance) : Prop := i.snap.overrideActive = false ∧ i.hostClkOn = false ∧ i.engine = .idle

/-- The frequency set. -/
theorem Instance.setFrequency_ends {p : Params} (khz : Nat) (i : Instance) : SucceedsOrFatal
    (i.setFrequency p khz) (fun j => KeepsLink i j ∧ j.snap = i.snap ∧ j.hsMode = i.hsMode) := by
  rw [Instance.setFrequency, Instance.clockConfigure_eq, Instance.applyPhy]
  split
  · exact .inl ⟨rfl, ⟨rfl, rfl, rfl, rfl, rfl, rfl, rfl⟩, rfl, rfl⟩
  · exact .inr ⟨rfl, by simp [Instance.raiseFatal]⟩

/-- A mode switch ends in the mode asked, or in a fatal fault (R292, R293). -/
theorem Instance.setHighSpeed_ends {p : Params} (on : Bool) (i : Instance) : SucceedsOrFatal
    (i.setHighSpeed p on) (fun j => KeepsLink i j ∧ j.snap = i.snap ∧ j.hsMode = on) := by
  rw [Instance.setHighSpeed]
  split
  · rename_i h; exact .inl ⟨rfl, ⟨rfl, rfl, rfl, rfl, rfl, rfl, rfl⟩, rfl, h⟩
  · refine (Instance.setFrequency_ends _ i).andThen (fun j hj => ?_)
    obtain ⟨r, k, w, hf, fl, e⟩ := poll_trigger_reads (pollCount p.cmdReadyStep p.cmdReadyMax) (j.setMode on)
    rw [Instance.checkSwitched, Instance.readyPoll, e]
    cases r
    · exact .inl ⟨rfl, hj.1.trans ⟨rfl, rfl, rfl, rfl, rfl, rfl, rfl⟩, hj.2.1, rfl⟩
    · exact .inr ⟨rfl, by simp [Instance.raiseFatal]⟩

/-- The clock turn-on ends in `Success`, or in a fatal fault (R305). -/
theorem Instance.clockAttempts_ends (left k : Nat) (i : Instance) : SucceedsOrFatal
    (Instance.clockAttempts left k i) (fun j => KeepsLink i j ∧ j.snap = i.snap) := by
  induction left generalizing k i with
  | zero => exact .inr ⟨rfl, by simp [Instance.clockAttempts, Instance.raiseFatal]⟩
  | succ n ih =>
    rw [Instance.clockAttempts]
    simp only
    split
    · exact .inl ⟨rfl, ⟨rfl, rfl, rfl, rfl, rfl, rfl, rfl⟩, rfl⟩
    · rcases ih (k + 1) (({ i with env := { i.env with attempt := (i.env.attempt.draw (Config.attemptAnswer i.id)).2 } } : Instance).call (.turnOnClockAttempt k)) with ⟨a, b, c⟩ | x
      · exact .inl ⟨a, (⟨rfl, rfl, rfl, rfl, rfl, rfl, rfl⟩ : KeepsLink i (({ i with env := { i.env with attempt := (i.env.attempt.draw (Config.attemptAnswer i.id)).2 } } : Instance).call (.turnOnClockAttempt k))).trans b, c⟩
      · exact .inr x

/-- The self-check, whatever its status, keeps the mode and the video state (R302). -/
theorem Instance.selfCheck_keeps {p : Params} {i : Instance} (h : Unentered i) : KeepsLink i (i.selfCheck p).2 ∧
    (i.selfCheck p).2.hsMode = i.hsMode ∧ (i.selfCheck p).2.snap.overrideActive = false := by
  have hl := Instance.writeCommand_link p (nopPacket p) h.1 h.2.1 h.2.2
  have hs : (i.writeCommand p (nopPacket p)).2.snap.overrideActive = false := (Instance.exitPath_rest _).2.2.2
  have key : ∀ j : Instance, OnlyLink i j → KeepsLink i j ∧ j.hsMode = i.hsMode ∧ j.engine = i.engine := by
    rintro j ⟨_, _, _, _, _, _, _, _, rfl⟩; exact ⟨⟨rfl, rfl, rfl, rfl, rfl, rfl, rfl⟩, rfl, rfl⟩
  obtain ⟨v, m, g⟩ := key _ hl
  rw [Instance.selfCheck]
  rcases andThen_cases (i.writeCommand p (nopPacket p)) (fun j => j.nestedBtaCheck p) with ⟨_, e⟩ | ⟨_, e⟩
  · rw [e]
    have hb := Instance.nestedBtaCheck_read p (g.trans h.2.2)
    generalize (i.writeCommand p (nopPacket p)).2 = j at *
    obtain ⟨_, _, _, _, _, _, _, _, _, _, _, _, _, e⟩ := hb
    rw [e]
    exact ⟨v.trans ⟨rfl, rfl, rfl, rfl, rfl, rfl, rfl⟩, m, hs⟩
  · rw [e]
    exact ⟨v, m, hs⟩

/-- What the way to a continuous clock keeps. -/
structure KeepsVideo (i j : Instance) : Prop where
  fatal : j.fatal = i.fatal
  ve : j.regs.control.videoEnable = i.regs.control.videoEnable
  he : j.regs.control.hostEnable = i.regs.control.hostEnable
  ife : j.regs.ifEnable = i.regs.ifEnable
  slots : j.regs.slots = i.regs.slots

/-- A mode switch keeps it. -/
theorem KeepsLink.w {i j : Instance} (h : KeepsLink i j) : KeepsVideo i j :=
    ⟨h.fatal, by rw [h.control], by rw [h.control], h.ife, h.slots⟩

/-- One after another. -/
theorem KeepsVideo.trans {i j k : Instance} (a : KeepsVideo i j) (b : KeepsVideo j k) : KeepsVideo i k :=
    ⟨b.fatal.trans a.fatal, b.ve.trans a.ve, b.he.trans a.he, b.ife.trans a.ife, b.slots.trans a.slots⟩

/-- The self-check and its fallback (R302, R303). -/
theorem Instance.checkOrFallBack_ends {p : Params} {i : Instance} (h : Unentered i) (hm : i.hsMode = true)
    (hc : i.regs.control.hsClkCtrl = .continuous) :
    SucceedsOrFatal (i.checkOrFallBack p) (fun j => KeepsVideo i j ∧ ((j.hsMode = true ∧ j.regs.control.hsClkCtrl = .continuous) ∨ (j.hsMode = false ∧ j.regs.control.hsClkCtrl = .txOnly))) := by
  obtain ⟨v, m, s⟩ := Instance.selfCheck_keeps (p := p) h
  rw [Instance.checkOrFallBack]
  split
  · rename_i j e; rw [e] at v m
    exact .inl ⟨rfl, v.w, .inl ⟨m.trans hm, by rw [v.control]; exact hc⟩⟩
  · rename_i j _ e; rw [e] at v m
    rw [Instance.fallBack]
    have := (Instance.setHighSpeed_ends (p := p) false (j.setHsClkCtrl .txOnly))
    rcases this with ⟨a, b, _, c⟩ | h
    · refine .inl ⟨a, ?_, .inr ⟨c, ?_⟩⟩
      · exact v.w.trans ((⟨rfl, rfl, rfl, rfl, rfl⟩ : KeepsVideo j (j.setHsClkCtrl .txOnly)).trans b.w)
      · rw [b.control]; rfl
    · exact .inr h

/-- The workaround keeps mode and video state (R300, R301). -/
theorem Instance.applyWorkaround_keeps {p : Params} {i : Instance} : KeepsLink i (i.applyWorkaround p) ∧
    (i.applyWorkaround p).hsMode = i.hsMode ∧ (i.applyWorkaround p).snap = i.snap := by
  rw [Instance.applyWorkaround]
  split <;> exact ⟨⟨rfl, rfl, rfl, rfl, rfl, rfl, rfl⟩, rfl, rfl⟩

/-- The way to a continuous clock (R299 to R303). -/
theorem Instance.enterContinuous_ends {p : Params} {i : Instance} (h : Unentered i) : SucceedsOrFatal
    (i.enterContinuous p)
    (fun j => KeepsVideo i j ∧ ((j.hsMode = true ∧ j.regs.control.hsClkCtrl = .continuous) ∨ (j.hsMode = false ∧ j.regs.control.hsClkCtrl = .txOnly)))
    := by
  refine (Instance.clockAttempts_ends _ _ i).andThen (fun j hj => ?_)
  refine (Instance.setHighSpeed_ends true j).andThen (fun k hk => ?_)
  obtain ⟨v, m, s⟩ := Instance.applyWorkaround_keeps (p := p) (i := k.setHsClkCtrl .continuous)
  generalize (k.setHsClkCtrl .continuous).applyWorkaround p = q at *
  have hq : Unentered q := by
    refine ⟨?_, ?_, ?_⟩
    · rw [s]; show k.snap.overrideActive = false; rw [hk.2.1, hj.2]; exact h.1
    · rw [v.clk]; show k.hostClkOn = false; rw [hk.1.clk, hj.1.clk]; exact h.2.1
    · rw [v.eng]; show k.engine = .idle; rw [hk.1.eng, hj.1.eng]; exact h.2.2
  have := Instance.checkOrFallBack_ends (p := p) hq (by rw [m]; exact hk.2.2) (by rw [v.control]; rfl)
  rcases this with ⟨a, b, c⟩ | x
  · refine .inl ⟨a, ?_, c⟩
    exact (hj.1.trans hk.1).w.trans ((⟨rfl, rfl, rfl, rfl, rfl⟩ : KeepsVideo k (k.setHsClkCtrl .continuous)).trans (v.w.trans b))
  · exact .inr x

/-- The program, the lengths and the SOL delay written (R298). -/
theorem Instance.programVideo_ends {p : Params} {i : Instance} : SucceedsOrFatal (i.programVideo p)
    (fun j => j.fatal = i.fatal ∧ j.regs.slots.s5 = j.regs.slots.s3 ∧ j.hsMode = i.hsMode ∧ j.cfg = i.cfg ∧ j.snap = i.snap ∧ j.hostClkOn = i.hostClkOn ∧ j.engine = i.engine)
    := by
  rw [Instance.programVideo, Instance.programSequence]
  cases activeId i.cfg.dataFormat with
  | none => exact .inr ⟨rfl, by simp [Sys2Proof.Machine.andThen, Instance.raiseFatal]⟩
  | some act =>
    rw [andThen_success]
    split
    · exact .inl ⟨rfl, rfl, rfl, rfl, rfl, rfl, rfl, rfl⟩
    · exact .inr ⟨rfl, by simp [Instance.raiseFatal]⟩

end Sys2Proof.Machine
end

