-- ==== Sys2Proof/Laws/Continuous.lean ====
section
/-! SUPPORT. `EnableVideoTransmission` and `Enable` under a continuous-clock policy on a link that is ready at
once and whose panel answers the self-check (44_clock_lane_mode.md R299 to R305). -/

namespace Sys2Proof.Machine

/-- `j` is `i` after a switch to mode `on`, or `i` itself where that is its mode. -/
def Switched (p : Params) (on : Bool) (i j : Instance) : Prop :=
  ∃ f h fl tr hx ph bt tm, j = { i with
      hsMode := on, curPhyFreq := f, hfifo := h, flight := fl
      regs := { i.regs with
        trigger := tr, hostControl := { i.regs.hostControl with hsTransmit := hx }
        phy := ph, bta := bt, timeout := tm }
      env := { i.env with
        clock := i.env.clock.advance (if i.hsMode = on then 0 else 1)
        trigger := i.env.trigger.advance (if i.hsMode = on then 0 else 1)
        calls := (if i.hsMode = on then [] else [.clockConfigure (commandClock i.cfg on) p.clockTolerance]) ++
          i.env.calls } } ∧
    (if i.hsMode = on then f = i.curPhyFreq ∧ h = i.hfifo ∧ fl = i.flight ∧ ph = i.regs.phy ∧
        bt = i.regs.bta ∧ tm = i.regs.timeout
     else f = i.clockAt 0 ∧ h = i.queued ∧ fl = settledFlight i.flight ∧ i.computePhy p f = some ⟨ph, bt, tm⟩ ∧ hx = on)

/-- A mode switch on a ready link (R292). -/
theorem Instance.setHighSpeed_linkReady {p : Params} {i : Instance} {on : Bool} (hp : PollsOk p)
    (hf : i.cfg.dataFormat ≠ .unknown ∨ i.cfg.phyOverrides ≠ none)
    (hl : i.hsMode ≠ on → i.triggerAt 0 = 0) :
    ∃ j, i.setHighSpeed p on = (.success, j) ∧ Switched p on i j := by
  by_cases h : i.hsMode = on
  · refine ⟨i, by rw [Instance.setHighSpeed, if_pos h], i.curPhyFreq, i.hfifo, i.flight, i.regs.trigger,
      i.regs.hostControl.hsTransmit, i.regs.phy, i.regs.bta, i.regs.timeout, ?_, ?_⟩
    · simp only [h, if_true, Oracle.advance_zero, List.nil_append]
      rw [← h]
    · simp [h]
  · obtain ⟨T, hT⟩ := Instance.computePhy_some (p := p) hf (i.clockAt 0)
    refine ⟨_, Instance.setHighSpeed_ready h hT hp.1
      ⟨fun _ hj => absurd hj (Nat.not_lt_zero _), hl h⟩, i.clockAt 0, i.queued, settledFlight i.flight, 0, on, T.fields, T.triad,
      T.timeout, ?_, ?_⟩
    · simp [h]
    · rw [if_neg h]
      exact ⟨rfl, rfl, rfl, hT, rfl⟩

/-- The self-check on a ready link whose panel answers (R302). -/
theorem Instance.selfCheck_answered {p : Params} {i : Instance} {ws : List Word} (h : Unentered i)
    (hp : PollsOk p) (hl : LinkReady p 1 1 i) (ha : PanelAnswers p i ws) :
    ∃ d e im, i.selfCheck p = (classifyBta ws, d) ∧ d = { i with
        env := e
        regs := { i.regs with
          trigger := if p.useSyncpt then 1 else 0
          btaActive := false, hostControl := { i.regs.hostControl with immBta := im } }
        hfifo := [], flight := .none, rfifo := [], btaSeen := true
        sent := i.handedOver (i.packetWords p (nopPacket p)), phase := .none, snap := i.snapAfter
        freeTick := i.freeTick + 1 } ∧
      e.trigger = i.env.trigger.advance (linkReads p 1 1) ∧
      e.syncpt = i.env.syncpt.advance (counterWaits p 1) ∧ e.clock = i.env.clock ∧
      e.attempt = i.env.attempt ∧
      e.calls = .clockDisable :: (counterCalls p 1 ++ .clockEnable :: i.env.calls) := by
  have w := Instance.writeCommand_linkReady (nopPacket p) h.1 h.2.1 h.2.2 hp hl
  obtain ⟨e, b, he⟩ := Instance.btaSequence_answered (p := p) (ws := ws)
    (i := { (i.writeCommand p (nopPacket p)).2 with engine := hostEngine (i.writeCommand p (nopPacket p)).2.hsMode })
    (by rw [w]; exact ha)
  rw [w] at b he
  refine ⟨_, e, Config.unknownImmBta i.id i.freeTick, ?_, rfl, by rw [he]; rfl, by rw [he]; rfl, by rw [he]; rfl, by rw [he]; rfl, by rw [he]⟩
  simp only [Instance.selfCheck, w, andThen_success, Instance.nestedBtaCheck, Instance.btaCheck, b]
  rw [← h.2.2]
  rfl

/-- `j` is `i` after a self-check whose panel answered `ws`, and the fallback where it failed (R302, R303). -/
def Checked (p : Params) (ws : List Word) (i j : Instance) : Prop :=
  ∃ f tr im hx ph bt tm e, j = { i with
      hsMode := (classifyBta ws == .success), curPhyFreq := f, hfifo := [], flight := .none
      regs := { i.regs with
        trigger := tr, btaActive := false
        hostControl := { i.regs.hostControl with immBta := im, hsTransmit := hx }
        control := { i.regs.control with
          hsClkCtrl := if classifyBta ws = .success then i.regs.control.hsClkCtrl else .txOnly }
        phy := ph, bta := bt, timeout := tm }
      rfifo := [], btaSeen := true, sent := i.handedOver (i.packetWords p (nopPacket p)), phase := .none
      snap := i.snapAfter, freeTick := i.freeTick + 1, env := e } ∧
    (if classifyBta ws = .success then f = i.curPhyFreq ∧ ph = i.regs.phy ∧ bt = i.regs.bta ∧
        tm = i.regs.timeout ∧ hx = i.regs.hostControl.hsTransmit
     else f = i.clockAt 0 ∧ i.computePhy p f = some ⟨ph, bt, tm⟩ ∧ hx = false) ∧
    e.trigger = i.env.trigger.advance (linkReads p (1 + if classifyBta ws = .success then 0 else 1) 1) ∧
    e.syncpt = i.env.syncpt.advance (counterWaits p 1) ∧
    e.clock = i.env.clock.advance (if classifyBta ws = .success then 0 else 1) ∧
    e.attempt = i.env.attempt ∧
    e.calls =
      (if classifyBta ws = .success then [] else [.clockConfigure i.cfg.lpCmdClkKhz p.clockTolerance]) ++
        .clockDisable :: (counterCalls p 1 ++ .clockEnable :: i.env.calls)

/-- A self-check that fails falls back (R303). -/
theorem Instance.checkOrFallBack_failed {p : Params} {i d : Instance} {st : Status}
    (h : i.selfCheck p = (st, d)) (hn : st ≠ .success) : i.checkOrFallBack p = d.fallBack p := by
  rw [Instance.checkOrFallBack, h]
  cases st <;> first | exact absurd rfl hn | rfl

/-- The self-check and its fallback on a ready link whose panel answers (R302, R303). -/
theorem Instance.checkOrFallBack_answered {p : Params} {i : Instance} {ws : List Word} (h : Unentered i)
    (hm : i.hsMode = true) (hf : i.cfg.dataFormat ≠ .unknown) (hp : PollsOk p)
    (hl : LinkReady p (1 + if classifyBta ws = .success then 0 else 1) 1 i) (ha : PanelAnswers p i ws) :
    ∃ j, i.checkOrFallBack p = (.success, j) ∧ Checked p ws i j := by
  have hl' : LinkReady p (1 + if classifyBta ws = .success then 0 else 1) (1 + 0) i := hl
  obtain ⟨d, e, im, hd, hy, e1, e2, e3, e4, e5⟩ := Instance.selfCheck_answered h hp hl'.first ha
  by_cases hc : classifyBta ws = .success
  · rw [Instance.checkOrFallBack, hd]
    simp only [Checked, hc, if_true]
    refine ⟨d, rfl, i.curPhyFreq, if p.useSyncpt then 1 else 0, im, i.regs.hostControl.hsTransmit, i.regs.phy,
      i.regs.bta, i.regs.timeout, e, ?_, ⟨rfl, rfl, rfl, rfl, rfl⟩, e1, e2, e3, e4, e5⟩
    rw [hy]
    simp [hm]
  · have ht := hl.1 (linkReads p 1 1) (by simp only [if_neg hc, linkReads]; omega)
    rw [Instance.checkOrFallBack_failed hd hc, Instance.fallBack]
    obtain ⟨j, hj, f, h', fl, tr, hx, ph, bt, tm, ej, hv⟩ := Instance.setHighSpeed_linkReady (p := p)
      (i := d.setHsClkCtrl .txOnly) (on := false) hp (by subst hy; exact .inl hf) (by
        intro _
        subst hy
        show e.trigger.answer _ 0 = 0
        rw [e1, Oracle.answer_advance]
        exact ht)
    refine ⟨_, hj, ?_⟩
    have hne : ¬ (d.setHsClkCtrl .txOnly).hsMode = false := by subst hy; simp [Instance.setHsClkCtrl, Instance.setControl, hm]
    rw [if_neg hne] at hv
    obtain ⟨v1, v2, v3, v4, v5⟩ := hv
    rw [if_neg hne, if_neg hne] at ej
    simp only [Checked, hc, if_false]
    have hq : (d.setHsClkCtrl .txOnly).queued = [] := by subst hy; rfl
    rw [hq] at v2
    refine ⟨f, tr, im, hx, ph, bt, tm, j.env, ?_, ⟨v1.trans ?_, ?_, v5⟩, ?_⟩ <;> subst v2 v3 ej hy
    · have : (classifyBta ws == .success) = false := by simpa using hc
      rw [this]
      rfl
    · show max (e.clock.answer _ 0) 1 = _
      rw [e3]
      rfl
    · exact v4
    · refine ⟨?_, e2, ?_, e4, ?_⟩
      · show e.trigger.advance 1 = _
        rw [e1, Oracle.advance_advance, linkReads, linkReads]
        congr 1; omega
      · show e.clock.advance 1 = _
        rw [e3]
      · show _ :: e.calls = _
        rw [e5]
        rfl

/-- The workaround of a policy (R300, R301). -/
theorem Instance.applyWorkaround_eq (p : Params) (i : Instance) :
    i.applyWorkaround p = { i with
      regs := { i.regs with phy := warFields p i.cfg.hsClkPolicy i.regs.phy }
      env := { i.env with calls := warCalls p i.cfg.hsClkPolicy ++ i.env.calls } } := by
  unfold Instance.applyWorkaround
  cases hc : i.cfg.hsClkPolicy with
  | txOnly => rfl
  | continuous => rfl
  | continuousThspreprWar =>
    simp only [warFields, warCalls, Instance.thspreprWar]
    cases p.thspreprWarValue <;> rfl
  | continuousThspreprPllWar =>
    simp only [warFields, warCalls, Instance.thspreprWar]
    cases p.thspreprWarValue <;> rfl

/-- The block when the way to a continuous clock begins (R297, R298). -/
def Instance.videoBuilt (p : Params) (act : PacketId) (l : PktLen) (i : Instance) : Instance :=
  { i with
    regs := { i.regs with
      ifEnable := true, control := ⟨true, false, p.hostFifoSel, .txOnly⟩
      slots := mirrorSlot (modeProgram p i.cfg.videoMode act i.regs.slots.s5)
      pktLen := l, solDelay := i.solDelay }
    env := { i.env with
      clock := i.env.clock.advance 1
      calls := .clockConfigure i.curPhyFreq p.clockTolerance :: i.env.calls } }

/-- `EnableVideoTransmission` under a continuous-clock policy up to the clock (R295 to R299). -/
theorem Instance.enableVideo_entering {p : Params} {i : Instance} {act : PacketId} {l : PktLen}
    (hc : isContinuous i.cfg.hsClkPolicy = true) (ha : activeId i.cfg.dataFormat = some act)
    (hl : i.computeLengths = some l) : i.enableVideo p = (i.videoBuilt p act l).enterContinuous p := by
  have d := Instance.disableInterface_eq p i
  have dc : (i.disableInterface p).cfg = i.cfg := by rw [d]
  have dg : (i.disableInterface p).gangedHalf = i.gangedHalf := by rw [d]
  have dl := (Instance.computeLengths_congr dc dg).trans hl
  have da : activeId (i.disableInterface p).cfg.dataFormat = some act := by rw [dc]; exact ha
  rw [Instance.enableVideo, Instance.programVideo_some (p := p) da dl, andThen_success]
  simp only [d]
  rw [if_pos (by exact hc)]
  rfl

/-- `TurnOnDsiClock` at attempt `m + 1` (R305). -/
theorem Instance.turnOnClock_ok {i : Instance} {m : Nat} (hm : m < 5) (h0 : ∀ k, k < m → i.attemptAt k = false)
    (h1 : i.attemptAt m = true) :
    i.turnOnClock = (.success, { i with env := { i.env with
      attempt := i.env.attempt.advance (m + 1), calls := attemptCalls (m + 1) ++ i.env.calls } }) := by
  rw [Instance.turnOnClock, Instance.clockAttempts_ok m turnOnClockRetries 1 i hm h0 h1]
  simp only [attemptCalls, Nat.add_comm]

/-- `EnableVideoTransmission` under a continuous-clock policy, the link ready at once and the panel answering the
self-check (R295 to R305). -/
theorem Instance.enableVideo_continuous {p : Params} {i : Instance} {act : PacketId} {l : PktLen} {m : Nat}
    {ws : List Word} (hr : Unentered i) (hc : isContinuous i.cfg.hsClkPolicy = true)
    (ha : activeId i.cfg.dataFormat = some act) (hl : i.computeLengths = some l)
    (hf : i.cfg.dataFormat ≠ .unknown) (hp : PollsOk p) (hm : m < 5)
    (h0 : ∀ k, k < m → i.attemptAt k = false) (h1 : i.attemptAt m = true)
    (hk : LinkReady p (i.modeSwitches (classifyBta ws) + 1) 1 i) (hw : PanelAnswers p i ws) :
    ∃ j, i.enableVideo p = (.success, j) ∧ ContinuousVideo p m ws act l i j := by
  have hs : i.modeSwitches (classifyBta ws) + 1 =
      (if i.hsMode = true then 0 else 1) + (1 + if classifyBta ws = .success then 0 else 1) := by
    rw [Instance.modeSwitches]; omega
  have hk1 : LinkReady p ((if i.hsMode = true then 0 else 1) + (1 + if classifyBta ws = .success then 0 else 1))
      (0 + 1) i := by rw [← hs]; exact hk
  rw [Instance.enableVideo_entering hc ha hl, Instance.enterContinuous,
    Instance.turnOnClock_ok (i := i.videoBuilt p act l) hm h0 h1, andThen_success]
  obtain ⟨a, ea⟩ : ∃ a : Instance, a = { i.videoBuilt p act l with env := { (i.videoBuilt p act l).env with
      attempt := (i.videoBuilt p act l).env.attempt.advance (m + 1)
      calls := attemptCalls (m + 1) ++ (i.videoBuilt p act l).env.calls } } := ⟨_, rfl⟩
  rw [← ea]
  obtain ⟨b, hb, f, h, fl, tr, hx, ph, bt, tm, eb, hv⟩ := Instance.setHighSpeed_linkReady (p := p) (on := true)
    (i := a) hp (by subst ea; exact .inl hf) (fun _ => by subst ea; exact hk.1 0 (by unfold linkReads; omega))
  rw [hb, andThen_success, Instance.applyWorkaround_eq]
  obtain ⟨c, ec⟩ : ∃ c : Instance, c = { b.setHsClkCtrl .continuous with
      regs := { (b.setHsClkCtrl .continuous).regs with
        phy := warFields p i.cfg.hsClkPolicy (b.setHsClkCtrl .continuous).regs.phy }
      env := { (b.setHsClkCtrl .continuous).env with
        calls := warCalls p i.cfg.hsClkPolicy ++ (b.setHsClkCtrl .continuous).env.calls } } := ⟨_, rfl⟩
  have ec' : ({ b.setHsClkCtrl .continuous with
      regs := { (b.setHsClkCtrl .continuous).regs with
        phy := warFields p (b.setHsClkCtrl .continuous).cfg.hsClkPolicy (b.setHsClkCtrl .continuous).regs.phy }
      env := { (b.setHsClkCtrl .continuous).env with
        calls := warCalls p (b.setHsClkCtrl .continuous).cfg.hsClkPolicy ++
          (b.setHsClkCtrl .continuous).env.calls } } : Instance) = c := by
    rw [ec]; subst eb ea; rfl
  rw [ec']
  clear ec'
  have cid : c.id = i.id := by subst ec eb ea; rfl
  have ct : c.env.trigger = i.env.trigger.advance (linkReads p (if i.hsMode = true then 0 else 1) 0) := by
    subst ec eb ea; rw [linkReads_polls]; rfl
  have cs : c.env.syncpt = i.env.syncpt.advance (counterWaits p 0) := by
    subst ec eb ea; rw [counterWaits_zero]; rfl
  have hl2 := hk1.rest cid ct cs
  obtain ⟨j, hj, f', tr', im, hx', ph', bt', tm', e, ej, hv', e1, e2, e3, e4, e5⟩ :=
    Instance.checkOrFallBack_answered (i := c) (by subst ec eb ea; exact hr) (by subst ec eb ea; rfl)
      (by subst ec eb ea; exact hf) hp hl2 (by subst ec eb ea; exact hw)
  refine ⟨j, hj, ?_⟩
  have hcv : c.env.clock = i.env.clock.advance (1 + if i.hsMode = true then 0 else 1) := by
    subst ec eb ea; exact Oracle.advance_advance _ _ _
  have am : a.hsMode = i.hsMode := by subst ea; rfl
  have hq : c.ahead = i.ahead := by
    by_cases hmode : i.hsMode = true
    · rw [am, if_pos hmode] at hv
      obtain ⟨-, v2, v3, -⟩ := hv
      subst v2 v3 ec eb ea; rfl
    · rw [am, if_neg hmode] at hv
      obtain ⟨-, v2, v3, -⟩ := hv
      subst v2 v3 ec eb ea; exact i.complete_ahead
  have hpk : c.packetWords p (nopPacket p) = ({ i with hsMode := true }).packetWords p (nopPacket p) :=
    Instance.packetWords_congr (i := { i with hsMode := true }) p _ (by subst ec eb ea; rfl) (by subst ec eb ea; rfl)
  refine ⟨⟨j.env, j.curPhyFreq, j.hsMode, j.regs, j.hfifo, j.flight, j.rfifo, j.btaSeen, j.sent, j.phase, j.snap,
    j.freeTick, by subst ej ec eb ea; rfl, ?_, ?_, ?_, ?_, ?_⟩, by subst ej; rfl, ?_, by subst ej ec eb ea; rfl, ?_,
    by subst ej ec eb ea; rfl, by subst ej ec eb ea; rfl, by subst ej ec eb ea; rfl, ?_, ?_,
    by subst ej; exact ⟨rfl, rfl⟩, by subst ej; rfl, ?_, ⟨?_, ?_, ?_, ?_⟩, ?_⟩
  iterate 5
    · subst ej ec eb ea; rfl
  · intro hne
    have e1 : j.regs.hostControl.hsTransmit = hx' := by subst ej; rfl
    have e2 : j.hsMode = (classifyBta ws == .success) := by subst ej; rfl
    rw [e1, e2]
    by_cases hcl : classifyBta ws = .success
    · rw [if_pos hcl] at hv'
      have hmode : ¬ i.hsMode = true := fun h => hne (by simp [Instance.modeSwitches, h, hcl])
      rw [am, if_neg hmode] at hv
      rw [hv'.2.2.2.2, hcl]
      have : c.regs.hostControl.hsTransmit = hx := by subst ec eb ea; rfl
      rw [this, hv.2.2.2.2]; rfl
    · rw [if_neg hcl] at hv'
      rw [hv'.2.2]
      simpa using hcl
  · subst ej
    show ({ c.regs.control with hsClkCtrl := _ } : ControlReg) = _
    subst ec eb ea; rfl
  · have e1 : j.curPhyFreq = f' := by subst ej; rfl
    have e2 : c.curPhyFreq = f := by subst ec eb ea; rfl
    have e3 : ∀ k, c.clockAt k = i.clockAt (1 + (if i.hsMode = true then 0 else 1) + k) := by
      intro k; rw [Instance.clockAt, hcv, cid, Oracle.answer_advance]; rfl
    have e4 : a.clockAt 0 = i.clockAt 1 := by
      subst ea
      show max ((i.env.clock.advance 1).answer _ 0) 1 = _
      rw [Oracle.answer_advance]; rfl
    have e5 : a.curPhyFreq = i.curPhyFreq := by subst ea; rfl
    rw [e1]
    by_cases hcl : classifyBta ws = .success <;> by_cases hmode : i.hsMode = true <;>
      simp only [hcl, hmode, am, if_true, if_false, Bool.false_eq_true] at hv hv' <;>
      simp [Instance.modeSwitches, hcl, hmode, hv'.1, e2, hv.1, e3, e4, e5]
  · have j1 : j.regs.phy = ph' ∧ j.regs.bta = bt' ∧ j.regs.timeout = tm' ∧ j.curPhyFreq = f' := by
      subst ej; exact ⟨rfl, rfl, rfl, rfl⟩
    have c1 : c.regs.phy = warFields p i.cfg.hsClkPolicy ph ∧ c.regs.bta = bt ∧ c.regs.timeout = tm ∧
        c.curPhyFreq = f := by
      subst ec eb ea; exact ⟨rfl, rfl, rfl, rfl⟩
    have a1 : a.regs.phy = i.regs.phy ∧ a.regs.bta = i.regs.bta ∧ a.regs.timeout = i.regs.timeout := by
      subst ea; exact ⟨rfl, rfl, rfl⟩
    have c2 : ∀ k, c.computePhy p k = i.computePhy p k := by subst ec eb ea; intro _; rfl
    have a2 : ∀ k, a.computePhy p k = i.computePhy p k := by subst ea; intro _; rfl
    rw [j1.1, j1.2.1, j1.2.2.1, j1.2.2.2]
    by_cases hcl : classifyBta ws = .success
    · simp only [hcl, if_true] at hv' ⊢
      refine ⟨⟨ph, bt, tm⟩, ?_, hv'.2.1.trans c1.1, hv'.2.2.1.trans c1.2.1, hv'.2.2.2.1.trans c1.2.2.1⟩
      by_cases hmode : i.hsMode = true
      · rw [am, if_pos hmode] at hv
        simp [Instance.modeSwitches, hmode, hv.2.2.2, a1]
      · rw [am, if_neg hmode] at hv
        simpa [Instance.modeSwitches, hmode, hv'.1, c1.2.2.2, a2] using hv.2.2.2.1
    · simp only [hcl, if_false] at hv' ⊢
      refine ⟨⟨ph', bt', tm'⟩, ?_, rfl, rfl, rfl⟩
      rw [if_neg (by simp [Instance.modeSwitches, hcl]), ← c2]
      exact hv'.2.1
  · subst ej
    show c.handedOver _ = _
    rw [hpk, Instance.handedOver, hq]
    subst ec eb ea; rfl
  · subst ej
    show e.trigger = _
    rw [e1, ct, Oracle.advance_advance, hs, ← linkReads_add, Nat.zero_add]
  · subst ej
    show e.syncpt = _
    rw [e2, cs, Oracle.advance_advance, counterWaits_zero, Nat.zero_add]
  · subst ej
    show e.clock = _
    rw [e3, hcv, Oracle.advance_advance, Instance.modeSwitches, Nat.add_assoc]
  · subst ej
    show e.attempt = _
    rw [e4]
    subst ec eb ea; rfl
  · subst ej
    show e.calls = _
    rw [e5]
    subst ec eb ea
    simp only [Instance.videoBuilt, Instance.setHsClkCtrl, Instance.setControl, commandClock, if_true]

/-- `Enable` on the block, under a continuous-clock policy (R326). -/
theorem Instance.enableLink_continuous {p : Params} {i : Instance} {sol f m : Nat} {act : PacketId} {l : PktLen}
    {t : PhyTimingSet} {ws : List Word} (hr : Unentered i) (hc : isContinuous i.cfg.hsClkPolicy = true)
    (hs : ({ i with gangedHalf := i.halfWidth } : Instance).computeSol = some (sol, f))
    (ha : activeId i.cfg.dataFormat = some act)
    (hl : ({ i with gangedHalf := i.halfWidth } : Instance).computeLengths = some l)
    (ht : ({ i with gangedHalf := i.halfWidth } : Instance).computePhy p (i.clockAt 0) = some t)
    (hf : i.cfg.dataFormat ≠ .unknown) (hp : PollsOk p) (hm : m < 5)
    (h0 : ∀ k, k < m → i.attemptAt k = false) (h1 : i.attemptAt m = true)
    (hk : LinkReady p (i.modeSwitches (classifyBta ws) + 1) 1 i) (hw : PanelAnswers p i ws) :
    ∃ k, ContinuousVideo p m ws act l (i.latched p sol f t) k ∧
      i.enableLink p = (.success, { k with
        padsCalibrated := true, hostActive := false, lifecycle := .enabled
        env := { k.env with
          calls := .padCalibrate :: .dcWriteOutputActive i.ctrlIndex true :: k.env.calls } }) := by
  have e1 : ({ i with gangedHalf := i.halfWidth } : Instance).latchSol p = (.success, i.latched p sol f t) := by
    rw [Instance.latchSol, hs]
    exact Instance.setFrequency_ok (p := p) (i := { i with gangedHalf := i.halfWidth, solDelay := sol }) f ht
  obtain ⟨k, hv, hk⟩ := Instance.enableVideo_continuous (p := p) (i := i.latched p sol f t) (act := act) (l := l)
    (m := m) (ws := ws) hr hc ha hl hf hp hm h0 h1 hk hw
  refine ⟨k, hk, ?_⟩
  have hx : k.ctrlIndex = i.ctrlIndex := by
    obtain ⟨_, _, _, _, _, _, _, _, _, _, _, _, h, -⟩ := hk.frame
    rw [h]; rfl
  rw [Instance.enableLink, e1, andThen_success, hv, andThen_success]
  simp only [Instance.becomeEnabled, Instance.call, hx]

end Sys2Proof.Machine
end

