-- ==== Sys2Proof/Laws/Encoding.lean ====
section
/-! SUPPORT. Bit fields of words put together from parts (30_encoding.md R111, R135), byte packing
(20_memory.md R88, R89), and decoding a command word with its operands. -/

namespace Sys2Proof

/-! ### Fields -/

/-- A bit vector rebuilt from its number. -/
theorem bv_ofNat_toNat {w : Nat} (v : BitVec w) (k : Nat) (h : k = v.toNat) : BitVec.ofNat w k = v := by
  subst h; simp

/-- The three parts of a command word. -/
theorem commandWord_toNat (o : OpCode) (n : InstId) (imm : BitVec 16) :
    (commandWord o n imm).toNat = o.num + 256 * n.bit + 65536 * imm.toNat ∧
      o.num < 256 ∧ n.bit < 2 := by
  have h1 : o.num < 256 := by cases o <;> decide
  have h2 : n.bit < 2 := by cases n <;> decide
  have h3 := imm.isLt
  refine ⟨?_, h1, h2⟩
  rw [commandWord, BitVec.toNat_ofNat, Nat.mod_eq_of_lt (by omega)]

/-- The operation number of a command word. -/
theorem commandWord_opnum (o : OpCode) (n : InstId) (imm : BitVec 16) :
    field (commandWord o n imm) 0 8 = o.num := by
  obtain ⟨h, h1, h2⟩ := commandWord_toNat o n imm
  rw [field, h]
  omega

/-- The reserved bits of a command word. -/
theorem commandWord_reserved (o : OpCode) (n : InstId) (imm : BitVec 16) :
    field (commandWord o n imm) 9 7 = 0 := by
  obtain ⟨h, h1, h2⟩ := commandWord_toNat o n imm
  rw [field, h]
  omega

/-- The block of a command word. -/
theorem commandWord_inst (o : OpCode) (n : InstId) (imm : BitVec 16) :
    InstId.ofBit (field (commandWord o n imm) 8 1) = n := by
  obtain ⟨h, h1, h2⟩ := commandWord_toNat o n imm
  have : field (commandWord o n imm) 8 1 = n.bit := by
    rw [field, h]
    omega
  rw [this]
  cases n <;> rfl

/-- The immediate of a command word. -/
theorem commandWord_imm (o : OpCode) (n : InstId) (imm : BitVec 16) :
    field (commandWord o n imm) 16 16 = imm.toNat := by
  obtain ⟨h, h1, h2⟩ := commandWord_toNat o n imm
  have h3 := imm.isLt
  rw [field, h]
  omega

/-- A number names the operation it belongs to. -/
theorem OpCode.ofNum_num (o : OpCode) : OpCode.ofNum o.num = some o := by
  cases o <;> rfl

/-- The parts of `w1` of `TWRITE` and `TREAD`. -/
theorem packetOperand_toNat (isLong : Bool) (ct : BitVec 6) (reg : Byte) :
    (packetOperand isLong ct reg).toNat = reg.toNat + 256 * ct.toNat + 65536 * isLong.toNat := by
  have h1 := reg.isLt
  have h2 := ct.isLt
  have h3 : isLong.toNat < 2 := by cases isLong <;> decide
  rw [packetOperand, BitVec.toNat_ofNat, Nat.mod_eq_of_lt (by omega)]

/-- The fields of `w1`, with the bits R136 gives no meaning. -/
theorem packetOperand_fields (isLong : Bool) (ct : BitVec 6) (reg : Byte) :
    byteOf (packetOperand isLong ct reg) 0 = reg ∧
      BitVec.ofNat 6 (field (packetOperand isLong ct reg) 8 6) = ct ∧
      field (packetOperand isLong ct reg) 14 2 = 0 ∧
      field (packetOperand isLong ct reg) 16 1 = isLong.toNat ∧
      field (packetOperand isLong ct reg) 17 15 = 0 := by
  have h1 := reg.isLt
  have h2 := ct.isLt
  have h3 : isLong.toNat < 2 := by cases isLong <;> decide
  simp only [byteOf, field, packetOperand_toNat]
  refine ⟨?_, bv_ofNat_toNat _ _ (by omega), by omega, by omega, by omega⟩
  apply BitVec.eq_of_toNat_eq
  rw [BitVec.toNat_ofNat]
  omega

/-- A data identifier fits a byte. -/
theorem dataId_lt (vc : BitVec 2) (ct : BitVec 6) : dataId vc ct < 256 := by
  have := vc.isLt
  have := ct.isLt
  rw [dataId]
  omega

/-- The fields of a packet word: data identifier, bytes 1 and 2, a zero byte 3. -/
theorem packetWord_fields (vc : BitVec 2) (ct : BitVec 6) (v : Nat) (hv : v < 65536) :
    field (BitVec.ofNat 32 (dataId vc ct + 256 * v)) 24 8 = 0 ∧
      field (BitVec.ofNat 32 (dataId vc ct + 256 * v)) 8 16 = v ∧
      field (BitVec.ofNat 32 (dataId vc ct + 256 * v)) 16 8 = v / 256 ∧
      BitVec.ofNat 2 (field (BitVec.ofNat 32 (dataId vc ct + 256 * v)) 6 2) = vc ∧
      BitVec.ofNat 6 (field (BitVec.ofNat 32 (dataId vc ct + 256 * v)) 0 6) = ct ∧
      byteOf (BitVec.ofNat 32 (dataId vc ct + 256 * v)) 1 = BitVec.ofNat 8 v ∧
      byteOf (BitVec.ofNat 32 (dataId vc ct + 256 * v)) 2 = BitVec.ofNat 8 (v / 256) := by
  have h1 := vc.isLt
  have h2 := ct.isLt
  have h3 := dataId_lt vc ct
  have h : (BitVec.ofNat 32 (dataId vc ct + 256 * v)).toNat = dataId vc ct + 256 * v := by
    rw [BitVec.toNat_ofNat, Nat.mod_eq_of_lt (by omega)]
  simp only [byteOf, field, h]
  refine ⟨by omega, by omega, by omega, bv_ofNat_toNat _ _ ?_, bv_ofNat_toNat _ _ ?_, ?_, ?_⟩
  · rw [dataId]; omega
  · rw [dataId]; omega
  · apply BitVec.eq_of_toNat_eq
    simp only [BitVec.toNat_ofNat]
    omega
  · apply BitVec.eq_of_toNat_eq
    simp only [BitVec.toNat_ofNat]
    omega

/-- Two bytes as one number. -/
theorem shortPacketWord_eq (vc : BitVec 2) (ct : BitVec 6) (reg data : Byte) :
    shortPacketWord vc ct reg data = BitVec.ofNat 32 (dataId vc ct + 256 * (reg.toNat + 256 * data.toNat)) := by
  rw [shortPacketWord]
  congr 1
  omega

/-! ### Bytes and words (R88, R89) -/

/-- A word's bytes are the bytes it was made of. -/
theorem bytesOfWord_wordOfBytes (a b c d : Byte) : bytesOfWord (wordOfBytes a b c d) = [a, b, c, d] := by
  have ha := a.isLt
  have hb := b.isLt
  have hc := c.isLt
  have hd := d.isLt
  have h : (wordOfBytes a b c d).toNat = a.toNat + 256 * b.toNat + 65536 * c.toNat + 16777216 * d.toNat := by
    rw [wordOfBytes, BitVec.toNat_ofNat, Nat.mod_eq_of_lt (by omega)]
  simp only [bytesOfWord, byteOf, h, List.cons.injEq, and_true]
  refine ⟨?_, ?_, ?_, ?_⟩ <;>
  · apply BitVec.eq_of_toNat_eq
    rw [BitVec.toNat_ofNat]
    omega

/-- Packed bytes are read back, zeros behind them. -/
theorem unpack_pack (bs : List Byte) :
    ∃ z, unpackWords (packBytes bs) = bs ++ z ∧ ∀ b ∈ z, b = 0 := by
  induction bs using packBytes.induct with
  | case1 => exact ⟨[], rfl, by simp⟩
  | case2 a => exact ⟨[0, 0, 0], by simp [packBytes, unpackWords, bytesOfWord_wordOfBytes], by simp⟩
  | case3 a b => exact ⟨[0, 0], by simp [packBytes, unpackWords, bytesOfWord_wordOfBytes], by simp⟩
  | case4 a b c => exact ⟨[0], by simp [packBytes, unpackWords, bytesOfWord_wordOfBytes], by simp⟩
  | case5 a b c d r ih =>
    obtain ⟨z, h, hz⟩ := ih
    exact ⟨z, by simp [packBytes, unpackWords, bytesOfWord_wordOfBytes, h], hz⟩

/-- Packing, then unpacking as many bytes, changes nothing (R230). -/
theorem take_unpack_pack (bs : List Byte) : (unpackWords (packBytes bs)).take bs.length = bs := by
  obtain ⟨z, h, -⟩ := unpack_pack bs
  rw [h, List.take_left]

/-- How many words bytes are packed into (R88). -/
theorem packBytes_length (bs : List Byte) : (packBytes bs).length = (bs.length + 3) / 4 := by
  induction bs using packBytes.induct with
  | case1 => rfl
  | case2 a => simp [packBytes]
  | case3 a b => simp [packBytes]
  | case4 a b c => simp [packBytes]
  | case5 a b c d r ih =>
    simp only [packBytes, List.length_cons, ih]
    omega

/-! ### Commands -/

/-- Operand words on the command lane are taken as they stand. -/
theorem takeOperands_append (ws : List Word) (rest : List PortWord) :
    takeOperands ws.length (ws.map (fun w => ⟨.command, w⟩) ++ rest) = some (ws, rest) := by
  induction ws with
  | nil => rfl
  | cons w r ih => simp [takeOperands, ih]

/-- A command with all its operand words decodes to what its fields build. -/
theorem decode_commandUnits (o : OpCode) (n : InstId) (imm : BitVec 16) (ws : List Word)
    (rest : List PortWord) (i : Instr) (hl : ws.length = o.operandCount imm.toNat)
    (hb : buildCommand o n imm ws = .ok i) (hm : imm.toNat < 2 ^ o.immBits) :
    decode (commandUnits o n imm ws ++ rest) = .ok (i, rest) := by
  have hi : BitVec.ofNat 16 imm.toNat = imm := by simp
  rw [commandUnits, List.cons_append, decode, decodeCommand, commandWord_reserved]
  simp only [ne_eq, not_true_eq_false, if_false, commandWord_opnum, OpCode.ofNum_num, commandWord_imm,
    if_pos hm, ← hl, takeOperands_append, commandWord_inst, hi, hb]

end Sys2Proof
end

