-- ==== Sys2Proof/Laws/Counting.lean ====
section
/-! SUPPORT. Lists, slots and quotients: the words of a byte list, the chunks of an update, the halves of the slot
file, the ceilings of the timing calculator. -/

namespace Sys2Proof.Machine

/-- Byte `j` of word `k` of a packed list (R115). -/
theorem getD_packBytes : ∀ (bs : List Byte) (k j : Nat), j < 4 → byteOf ((packBytes bs).getD k 0) j = bs.getD
    (4 * k + j) 0 := by
  have hb : ∀ (a b c d : Byte) j, j < 4 → byteOf (wordOfBytes a b c d) j = [a, b, c, d].getD j 0 := by
    intro a b c d j hj
    have := bytesOfWord_wordOfBytes a b c d
    simp only [bytesOfWord, List.cons.injEq] at this
    obtain ⟨h0, h1, h2, h3, -⟩ := this
    match j, hj with
    | 0, _ => exact h0
    | 1, _ => exact h1
    | 2, _ => exact h2
    | 3, _ => exact h3
  have hz : ∀ j, byteOf (0#32) j = 0#8 := by
    intro j; simp [byteOf]
  intro bs
  induction bs using packBytes.induct with
  | case1 => intro k j _; simp [packBytes]; exact hz j
  | case2 a => 
    intro k j hj
    cases k with
    | zero => simp only [packBytes, List.getD_cons_zero, hb _ _ _ _ j hj]; match j, hj with | 0, _ => rfl | 1, _ => rfl | 2, _ => rfl | 3, _ => rfl
    | succ k =>
      rw [List.getD_eq_default [a] _ (by simp; omega)]
      simp [packBytes]; exact hz j
  | case3 a b => 
    intro k j hj
    cases k with
    | zero => simp only [packBytes, List.getD_cons_zero, hb _ _ _ _ j hj]; match j, hj with | 0, _ => rfl | 1, _ => rfl | 2, _ => rfl | 3, _ => rfl
    | succ k =>
      rw [List.getD_eq_default [a, b] _ (by simp; omega)]
      simp [packBytes]; exact hz j
  | case4 a b c => 
    intro k j hj
    cases k with
    | zero => simp only [packBytes, List.getD_cons_zero, hb _ _ _ _ j hj]; match j, hj with | 0, _ => rfl | 1, _ => rfl | 2, _ => rfl | 3, _ => rfl
    | succ k =>
      rw [List.getD_eq_default [a, b, c] _ (by simp; omega)]
      simp [packBytes]; exact hz j
  | case5 a b c d r ih => 
    intro k j hj
    cases k with
    | zero => simp only [packBytes, List.getD_cons_zero, hb _ _ _ _ j hj]; match j, hj with | 0, _ => rfl | 1, _ => rfl | 2, _ => rfl | 3, _ => rfl
    | succ k => 
      have := ih k j hj
      simp only [packBytes, List.getD_cons_succ, this]
      rw [show 4 * (k + 1) + j = (4 * k + j) + 1 + 1 + 1 + 1 by omega]
      simp only [List.getD_cons_succ]

/-- Chunks put together again. -/
theorem chunksOf_flatten (k : Nat) (hk : 0 < k) : ∀ (fuel : Nat) (bs : List Byte), bs.length ≤ fuel →
    (chunksOf k fuel bs).flatten = bs
  | 0, [], _ => rfl
  | 0, _ :: _, h => by simp at h
  | _ + 1, [], _ => rfl
  | f + 1, b :: r, h => by
    rw [chunksOf, List.flatten_cons, chunksOf_flatten k hk f _ (by simp at h ⊢; omega), List.take_append_drop]

/-- A chunk is not empty and no longer than the chunk size. -/
theorem chunksOf_mem (k : Nat) (hk : 0 < k) : ∀ (fuel : Nat) (bs c : List Byte), c ∈ chunksOf k fuel bs → c ≠ []
    ∧ c.length ≤ k
  | 0, _, _, h => by simp [chunksOf] at h
  | _ + 1, [], _, h => by simp [chunksOf] at h
  | f + 1, b :: r, c, h => by
    rw [chunksOf, List.mem_cons] at h
    rcases h with rfl | h
    · obtain ⟨k, rfl⟩ : ∃ m, k = m + 1 := ⟨k - 1, by omega⟩
      constructor
      · simp
      · rw [List.length_take]; omega
    · exact chunksOf_mem k hk f _ c h

/-- Rows of one length, one after another. -/
theorem flatMap_rows (w : Nat) (f : Nat → List Byte) (hf : ∀ r, (f r).length = w) : ∀ h : Nat,
    ((List.range h).flatMap f).length = h * w ∧ ∀ r c, r < h → c < w → ((List.range h).flatMap f).getD (r * w + c) 0 = (f r).getD c 0
  | 0 => ⟨by simp, fun r c hr => by omega⟩
  | h + 1 => by
    obtain ⟨ih1, ih2⟩ := flatMap_rows w f hf h
    rw [List.range_succ, List.flatMap_append]
    refine ⟨?_, fun r c hr hc => ?_⟩
    · simp [ih1, hf, Nat.succ_mul]
    · by_cases e : r = h
      · subst e
        rw [List.getD_append_right _ _ _ _ (by rw [ih1]; omega), ih1]
        simp
      · have : r < h := by omega
        have b : r * w + c < h * w := by
          have : (r + 1) * w ≤ h * w := Nat.mul_le_mul_right _ (by omega)
          rw [Nat.succ_mul] at this; omega
        rw [List.getD_append _ _ _ _ (by rw [ih1]; exact b)]
        exact ih2 r c this hc

/-- A selector reaches the last sub-packet only (R129). -/
theorem selectLast_snoc (l : LenSel) (r : List SubPacket) (k : SubPacket) :
    selectLast l (r ++ [k]) = r ++ [if isSync k.id then k else { k with lenSel := l }] := by
  induction r with
  | nil => rfl
  | cons a r ih =>
    cases r with
    | nil => rfl
    | cons b r => simpa [selectLast] using ih

/-- A half reads back as it was written (R50). -/
theorem halfGet_halfSet (f : SlotFile) (k : Fin 6) (hi : Bool) (h : SlotHalf) : halfGet (halfSet f k hi h) k hi
    = h := by
  match k, hi with
  | 0, true | 1, true | 2, true | 3, true | 4, true | 5, true => rfl
  | 0, false | 1, false | 2, false | 3, false | 4, false | 5, false => rfl

/-- A write of one half leaves every other half alone (R50). -/
theorem halfGet_halfSet_other (f : SlotFile) (k k' : Fin 6) (hi hi' : Bool) (h : SlotHalf)
    (hne : k' ≠ k ∨ hi' ≠ hi) : halfGet (halfSet f k hi h) k' hi' = halfGet f k' hi' := by
  cases hi <;> cases hi' <;> revert k k' <;> simp [halfGet, halfSet] <;> intro k k' <;>
  match k, k' with
  | 0, 0 | 1, 0 | 2, 0 | 3, 0 | 4, 0 | 5, 0 
  | 0, 1 | 1, 1 | 2, 1 | 3, 1 | 4, 1 | 5, 1 
  | 0, 2 | 1, 2 | 2, 2 | 3, 2 | 4, 2 | 5, 2
  | 0, 3 | 1, 3 | 2, 3 | 3, 3 | 4, 3 | 5, 3
  | 0, 4 | 1, 4 | 2, 4 | 3, 4 | 4, 4 | 5, 4
  | 0, 5 | 1, 5 | 2, 5 | 3, 5 | 4, 5 | 5, 5 => simp_all [slotGet, slotSet]

/-- `ceilPeriods` is the least number of byte times that covers a requirement (R154). -/
theorem ceilPeriods_le (ns : NsReq) (f c : Nat) : ceilPeriods ns f ≤ c ↔ ns.num * f ≤ c *
    ((ns.den + 1) * 4000000000) := by
  rw [ceilPeriods]
  have hD : 0 < (ns.den + 1) * 4000000000 := by positivity
  generalize (ns.den + 1) * 4000000000 = D at hD ⊢
  generalize ns.num * f = x
  rw [← Nat.lt_succ_iff, Nat.div_lt_iff_lt_mul hD, Nat.succ_mul]
  omega

/-- A running minimum does not rise. -/
theorem runningMin_antitone (f : Nat → Nat) (a b : Nat) (h : a ≤ b) : runningMin f b ≤ runningMin f a := by
  induction b with
  | zero => have : a = 0 := by omega
            subst this; exact Nat.le_refl _
  | succ b ih =>
    by_cases e : a = b + 1
    · subst e; exact Nat.le_refl _
    · exact Nat.le_trans (Nat.min_le_left _ _) (ih (by omega))

/-- `pollCount` is the ceiling of the quotient (R216). -/
theorem pollCount_le (step max k : Nat) (h : 0 < step) : pollCount step max ≤ k ↔ max ≤ k * step := by
  rw [pollCount, ← Nat.lt_succ_iff, Nat.div_lt_iff_lt_mul h, Nat.succ_mul]
  omega

/-- The indices of the slot registers (R30). -/
theorem RegName.ofIndex_pktSeq (slot : Fin 6) (hi : Bool) : RegName.ofIndex
    (BitVec.ofNat 16 (7 + 2 * slot.val + hi.toNat)).toNat = some (.pktSeq slot hi) := by
  revert slot hi; decide

/-- No register past the list (R30). -/
theorem RegName.ofIndex_past (k : Nat) (h : 26 < k) : RegName.ofIndex k = none := by
  obtain ⟨m, rfl⟩ : ∃ m, k = m + 27 := ⟨k - 27, by omega⟩
  rfl

end Sys2Proof.Machine
end

