-- ==== Sys2Proof/Laws/Sparse.lean ====
section
/-! SUPPORT. The laws of the sparse maps: read after write, canonical form kept, and what they give for
host memory. -/

namespace Sys2Proof.Machine

section map

variable {α : Type} [DecidableEq α] (d : α)

/-- Below the first key nothing is listed. -/
theorem sparseGet_below {l : List (Nat × α)} {lo k : Nat} (h : sparseWf d lo l = true) (hk : k < lo) :
    sparseGet d l k = d := by
  induction l generalizing lo with
  | nil => rfl
  | cons p r ih =>
    obtain ⟨a, x⟩ := p
    simp only [sparseWf, Bool.and_eq_true, decide_eq_true_eq] at h
    rw [sparseGet, if_neg (by omega)]
    exact ih h.2 (by omega)

/-- What is written is read back. -/
theorem sparseGet_set_same (l : List (Nat × α)) {lo k : Nat} (v : α) (h : sparseWf d lo l = true) :
    sparseGet d (sparseSet d k v l) k = v := by
  induction l generalizing lo with
  | nil => by_cases hv : v = d <;> simp [sparseSet, sparseGet, hv]
  | cons p r ih =>
    obtain ⟨a, x⟩ := p
    simp only [sparseWf, Bool.and_eq_true, decide_eq_true_eq] at h
    rw [sparseSet]
    by_cases h1 : k < a
    · by_cases hv : v = d
      · rw [if_pos h1, if_pos hv, sparseGet, if_neg (by omega), hv]
        exact sparseGet_below d h.2 (by omega)
      · rw [if_pos h1, if_neg hv, sparseGet, if_pos rfl]
    · by_cases h2 : k = a
      · subst h2
        by_cases hv : v = d
        · rw [if_neg h1, if_pos rfl, if_pos hv, hv]
          exact sparseGet_below d h.2 (by omega)
        · rw [if_neg h1, if_pos rfl, if_neg hv, sparseGet, if_pos rfl]
      · rw [if_neg h1, if_neg h2, sparseGet, if_neg (by omega)]
        exact ih h.2

/-- A write leaves every other key alone. -/
theorem sparseGet_set_other (l : List (Nat × α)) {k j : Nat} (v : α) (hj : j ≠ k) :
    sparseGet d (sparseSet d k v l) j = sparseGet d l j := by
  induction l with
  | nil => by_cases hv : v = d <;> simp [sparseSet, sparseGet, hv, hj.symm]
  | cons p r ih =>
    obtain ⟨a, x⟩ := p
    rw [sparseSet]
    by_cases h1 : k < a
    · by_cases hv : v = d
      · rw [if_pos h1, if_pos hv]
      · rw [if_pos h1, if_neg hv, sparseGet, if_neg hj.symm]
    · by_cases h2 : k = a
      · subst h2
        by_cases hv : v = d
        · rw [if_neg h1, if_pos rfl, if_pos hv, sparseGet, if_neg hj.symm]
        · rw [if_neg h1, if_pos rfl, if_neg hv, sparseGet, sparseGet, if_neg hj.symm, if_neg hj.symm]
      · rw [if_neg h1, if_neg h2, sparseGet, sparseGet, ih]

/-- A write keeps the canonical form. -/
theorem sparseWf_set (l : List (Nat × α)) {lo k : Nat} (v : α) (h : sparseWf d lo l = true)
    (hk : lo ≤ k) : sparseWf d lo (sparseSet d k v l) = true := by
  induction l generalizing lo with
  | nil => by_cases hv : v = d <;> simp [sparseSet, sparseWf, hv, hk]
  | cons p r ih =>
    obtain ⟨a, x⟩ := p
    have hh := h
    simp only [sparseWf, Bool.and_eq_true, decide_eq_true_eq] at h
    rw [sparseSet]
    by_cases h1 : k < a
    · by_cases hv : v = d
      · rw [if_pos h1, if_pos hv]; exact hh
      · rw [if_pos h1, if_neg hv]
        simp [sparseWf, hk, hv, h.1.2, h.2]
        omega
    · by_cases h2 : k = a
      · subst h2
        by_cases hv : v = d
        · rw [if_neg h1, if_pos rfl, if_pos hv]
          exact sparseWf_mono h.2
        · rw [if_neg h1, if_pos rfl, if_neg hv]
          simp [sparseWf, hk, hv, h.2]
      · rw [if_neg h1, if_neg h2]
        simp [sparseWf, h.1.1, ih h.2 (by omega)]
        simpa using h.1.2
where
  /-- A smaller bound asks less. -/
  sparseWf_mono {l : List (Nat × α)} {a lo : Nat} (h : sparseWf d (a + 1) l = true)
      (hlo : lo ≤ a := by omega) : sparseWf d lo l = true := by
    cases l with
    | nil => rfl
    | cons p r =>
      simp only [sparseWf, Bool.and_eq_true, decide_eq_true_eq] at h ⊢
      exact ⟨⟨by omega, h.1.2⟩, h.2⟩

end map

/-! ### Host memory -/

/-- A byte written is read back. -/
theorem Memory.read_write_same {m : Memory} (h : m.wf = true) (a : Nat) (b : Byte) :
    (m.write a b).read a = b := sparseGet_set_same unlistedByte m b h

/-- A write leaves every other byte alone. -/
theorem Memory.read_write_other (m : Memory) {a c : Nat} (b : Byte) (h : c ≠ a) :
    (m.write a b).read c = m.read c := sparseGet_set_other unlistedByte m b h

/-- A write keeps the canonical form. -/
theorem Memory.wf_write {m : Memory} (h : m.wf = true) (a : Nat) (b : Byte) :
    (m.write a b).wf = true := sparseWf_set unlistedByte m b h (Nat.zero_le a)

/-- Writing bytes keeps the canonical form. -/
theorem Memory.wf_writeBytes (bs : List Byte) {m : Memory} (h : m.wf = true) (a : Nat) :
    (m.writeBytes a bs).wf = true := by
  induction bs generalizing m a with
  | nil => exact h
  | cons b r ih => exact ih (Memory.wf_write h a b) (a + 1)

/-- Bytes outside those written are left alone. -/
theorem Memory.read_writeBytes_outside (bs : List Byte) (m : Memory) (a c : Nat)
    (h : c < a ∨ a + bs.length ≤ c) : (m.writeBytes a bs).read c = m.read c := by
  induction bs generalizing m a with
  | nil => rfl
  | cons b r ih =>
    simp only [List.length_cons] at h
    rw [Memory.writeBytes, ih (m.write a b) (a + 1) (by omega), Memory.read_write_other m b (by omega)]

/-- Byte `k` written is read back at `a + k`. -/
theorem Memory.read_writeBytes_inside (bs : List Byte) {m : Memory} (hm : m.wf = true) (a k : Nat)
    (h : k < bs.length) : (m.writeBytes a bs).read (a + k) = bs[k] := by
  induction bs generalizing m a k with
  | nil => exact absurd h (Nat.not_lt_zero k)
  | cons b r ih =>
    rw [Memory.writeBytes]
    cases k with
    | zero =>
      rw [Memory.read_writeBytes_outside r _ (a + 1) (a + 0) (by omega), Nat.add_zero,
        Memory.read_write_same hm]
      rfl
    | succ k =>
      have := ih (Memory.wf_write hm a b) (a + 1) k (by simpa using h)
      rw [show a + (k + 1) = a + 1 + k by omega, this]
      rfl

/-- The DC's registers keep their canonical form. -/
theorem State.wf_setDcRegs {s : State} (h : sparseWf unlistedDc 0 s.dc = true) (c : Nat) (d : DcRegs) :
    sparseWf unlistedDc 0 (s.setDcRegs c d).dc = true :=
  sparseWf_set unlistedDc s.dc d h (Nat.zero_le c)

end Sys2Proof.Machine
end

