-- ==== Sys2Proof/Laws/Kept.lean ====
section
/-! SUPPORT. What every instruction leaves alone and keeps: it changes one block, the DC's registers, host
memory and the result; a block at rest stays at rest, and the canonical forms stay. -/

namespace Sys2Proof.Machine

/-- A block of the machine between two operations, attached to the controller it was (R21). -/
def Stays (p : Params) (n : InstId) (x : Nat) (j : Instance) : Prop := BlockOk p n j ∧ j.ctrlIndex = x

/-- `t` is `s` but for block `n`, the DC, host memory, the result and the ganged setup, and what holds
between two operations is kept. -/
def Kept (n : InstId) (s t : State) : Prop :=
  ∃ j dc mem res g,
    t = { s.setInst n j with dc := dc, mem := mem, result := res, gangedStep := g } ∧
    (BlockOk s.params n (s.inst n) → Stays s.params n (s.inst n).ctrlIndex j) ∧
    (sparseWf unlistedDc 0 s.dc = true → sparseWf unlistedDc 0 dc = true) ∧
    (Memory.wf s.mem = true → Memory.wf mem = true)

section

variable {s t : State} {n : InstId} {k : Out}

/-- A block set to what it is. -/
theorem State.setInst_self (s : State) (n : InstId) : s.setInst n (s.inst n) = s := by
  cases n <;> rfl

/-- An operation that ends touches its block and the result. -/
theorem Kept.finishWith {j : Instance} {st : Status} {out : Output}
    (h : s.finishWith n j st out = .next t)
    (hj : BlockOk s.params n (s.inst n) → Stays s.params n (s.inst n).ctrlIndex j) : Kept n s t := by
  refine ⟨j, s.dc, s.mem, some ⟨n, st, out⟩, .idle, ?_, hj, id, id⟩
  rw [← Host.Outcome.next.inj h]
  cases n <;> rfl

/-- An operation that ends at once touches the result only. -/
theorem Kept.finish {st : Status} {out : Output} (h : s.finish n st out = .next t) : Kept n s t := by
  refine ⟨s.inst n, s.dc, s.mem, some ⟨n, st, out⟩, .idle, ?_, fun h => ⟨h, rfl⟩, id, id⟩
  rw [← Host.Outcome.next.inj h]
  cases n <;> rfl

/-- A checked operation. -/
theorem Kept.guarded (h : s.guarded n k = .next t) (hk : Accepts s n → k = .next t → Kept n s t) :
    Kept n s t := by
  rw [State.guarded] at h
  split at h
  · exact Kept.finish h
  · rename_i hf
    split at h
    · rename_i hi
      exact hk ⟨by simpa using hf, hi⟩ h
    · exact Kept.finish h

/-- A checked operation that waits for the lock. -/
theorem Kept.waiting (h : s.guarded n (s.whenFree n k) = .next t)
    (hk : Accepts s n → k = .next t → Kept n s t) : Kept n s t :=
  Kept.guarded h (fun ha h => hk ha (State.whenFree_next h).2)

/-- A block at rest. -/
theorem Stays.of_holds {p : Params} {j : Instance} {n : InstId} {x : Nat} {c : Lifecycle}
    (h : Holds p n x .free c j) : Stays p n x j :=
  ⟨blockOk_iff.mpr ⟨h.id, rfl, h.lock, fun _ => rfl, h.clk, h.engine, h.snap, h.te, h.cfg⟩, h.ctrl⟩

/-- A block that only changes what nothing rests on. -/
theorem Stays.same {p : Params} {i j : Instance} {n : InstId} (hs : SameCore i j) (h : BlockOk p n i) :
    Stays p n i.ctrlIndex j :=
  Stays.of_holds ((blockOk_iff.mp h).same hs)

/-- An operation under the lock. -/
theorem Kept.onLocked {f : Instance → Status × Output × Instance}
    (h : s.onLocked n f = .next t)
    (hf : ∀ c x, Holds s.params n x .held c (s.inst n).acquire →
      ∃ c', Holds s.params n x .held c' (f (s.inst n).acquire).2.2) : Kept n s t := by
  obtain ⟨-, h⟩ := State.whenFree_next h
  refine Kept.finishWith h (fun hb => ?_)
  obtain ⟨c', h'⟩ := hf _ _ (blockOk_iff.mp hb).acquire
  exact Stays.of_holds h'.release

/-- A pushed row. -/
theorem Kept.pushRow {w : FifoWord} (h : pushRow s n w = .next t) : Kept n s t := by
  refine Kept.waiting h (fun _ h => ?_)
  split at h
  · cases h
  · rename_i e
    exact Kept.finishWith h (fun hb => Stays.of_holds ((blockOk_iff.mp hb).checkedPush e))

/-- A write. -/
theorem Kept.writeOperation {d : PacketDesc} (h : writeOperation s n d = .next t) : Kept n s t := by
  refine Kept.guarded h (fun _ h => ?_)
  split at h
  · cases h
  · exact Kept.onLocked h (fun c x hc => ⟨c, hc.writeCommand d⟩)

/-- A header row. -/
theorem Kept.respRow {c : RespClass} (h : respRow s n c = .next t) : Kept n s t := by
  refine Kept.waiting h (fun _ h => ?_)
  rw [← Host.Outcome.next.inj h]
  refine ⟨s.inst n, s.dc, Memory.writeBytes s.mem (s.inst n).outBuf
    (c.copied (s.inst n).staging (s.inst n).readLen), some ⟨n, c.status,
    .bytes (c.copied (s.inst n).staging (s.inst n).readLen).length⟩, .idle, ?_, fun h => ⟨h, rfl⟩, id,
    fun hm => Memory.wf_writeBytes _ hm _⟩
  cases n <;> rfl

/-- A staged id. -/
theorem Kept.stageId {id : PacketId} (h : stageId s n id = .next t) : Kept n s t :=
  Kept.waiting h (fun _ h => Kept.finishWith h
    (Stays.same ⟨rfl, rfl, rfl, rfl, rfl, rfl, rfl, rfl, rfl, rfl, rfl, rfl, rfl⟩))

/-- A selector. -/
theorem Kept.stageLen {l : LenSel} (h : stageLen s n l = .next t) : Kept n s t :=
  Kept.waiting h (fun _ h => Kept.finishWith h
    (Stays.same ⟨rfl, rfl, rfl, rfl, rfl, rfl, rfl, rfl, rfl, rfl, rfl, rfl, rfl⟩))

/-- A fatal fault of an operation without a lock. -/
theorem Kept.finishFatal {c : FatalCause} (h : finishFatal s n c = .next t) : Kept n s t :=
  Kept.finishWith h (fun hb => Stays.of_holds ((blockOk_iff.mp hb).raiseFatal c))

/-- Copying bytes out keeps the canonical form. -/
theorem Kept.copied {j : Instance} {b : Option (List Byte)} {st : Status} {out : Output}
    (hj : BlockOk s.params n (s.inst n) → Stays s.params n (s.inst n).ctrlIndex j)
    (h : ((s.setInst n j).copyOut? n b).finish n st out = .next t) : Kept n s t := by
  cases b with
  | none => exact Kept.finishWith h hj
  | some b =>
    refine ⟨j, s.dc, Memory.writeBytes s.mem j.outBuf b, some ⟨n, st, out⟩, .idle, ?_, hj, id,
      fun hm => Memory.wf_writeBytes _ hm _⟩
    rw [← Host.Outcome.next.inj h]
    cases n <;> rfl

/-- The DC's writes after an `Enable` make at most one call on the block. -/
theorem State.dcAfterEnable_cases (s : State) (n : InstId) :
    ∃ j c d, s.dcAfterEnable n = { s.setInst n j with dc := sparseSet unlistedDc c d s.dc } ∧
      (j = s.inst n ∨ ∃ e, j = (s.inst n).call e) := by
  rw [State.dcAfterEnable]
  by_cases h : (s.inst n).cfg.videoMode = .ganged ∧ n = .i1
  · rw [if_pos h]
    cases n <;> exact ⟨_, _, _, rfl, .inr ⟨_, rfl⟩⟩
  · rw [if_neg h]
    cases n
    · exact ⟨s.inst0, s.inst0.ctrlIndex, _, rfl, .inl rfl⟩
    · exact ⟨s.inst1, s.inst1.ctrlIndex, _, rfl, .inl rfl⟩

/-- `Enable`. -/
theorem Kept.finishEnable {r : Status × Instance} (h : finishEnable s n r = .next t)
    (hj : BlockOk s.params n (s.inst n) → Stays s.params n (s.inst n).ctrlIndex r.2.release) : Kept n s t := by
  rw [Machine.finishEnable] at h
  split at h
  · obtain ⟨j, c, d, e, hc⟩ := (s.setInst n r.2.release).dcAfterEnable_cases n
    have hi : (s.setInst n r.2.release).inst n = r.2.release := by cases n <;> rfl
    rw [hi] at hc
    rw [← Host.Outcome.next.inj h, e]
    refine ⟨j, sparseSet unlistedDc c d s.dc, s.mem, some ⟨n, .success, .none⟩, gangedAfter r.2, ?_,
      fun hb => ?_, fun hd => sparseWf_set unlistedDc s.dc _ hd (Nat.zero_le _), id⟩
    · cases n <;> rfl
    · rcases hc with rfl | ⟨e, rfl⟩
      · exact hj hb
      · exact ⟨(Stays.same ⟨rfl, rfl, rfl, rfl, rfl, rfl, rfl, rfl, rfl, rfl, rfl, rfl, rfl⟩ (hj hb).1).1,
        (hj hb).2⟩
  · exact Kept.finishWith h hj

/-- What a mapped result comes from. -/
theorem Except.map_eq_ok {ε α β : Type} {f : α → β} {x : Except ε α} {b : β} (h : x.map f = .ok b) :
    ∃ a, x = .ok a ∧ f a = b := by
  cases x with
  | error e => cases h
  | ok a => exact ⟨a, rfl, Except.ok.inj h⟩

/-- A micro-operation. -/
theorem Kept.micro {f : Instance → Except Refusal (Output × Instance)} (h : microOperation s n f = .next t)
    (hf : ∀ r, Holds s.params n (s.inst n).ctrlIndex .free (s.inst n).lifecycle (s.inst n) →
      f (s.inst n) = .ok r → Holds s.params n (s.inst n).ctrlIndex .free (s.inst n).lifecycle r.2) :
    Kept n s t := by
  refine Kept.waiting h (fun _ h => ?_)
  split at h
  · cases h
  · rename_i r e
    exact Kept.finishWith h (fun hb => Stays.of_holds (hf r (blockOk_iff.mp hb) e))

/-! ### Every instruction -/

/-- What every instruction leaves alone and keeps. -/
theorem exec_kept (i : Instr) (h : exec i s = .next t) : Kept (blockOf i) s t := by
  cases i
  case shortPkt n vc ct reg data => exact Kept.pushRow h
  case longHdr n vc ct wc => exact Kept.pushRow h
  case longPayload n w => exact Kept.pushRow h
  case maxret n vc len => exact Kept.pushRow h
  case dcsread n vc reg => exact Kept.pushRow h
  case eot n =>
    rw [exec, execEot] at h
    split at h
    · exact Kept.pushRow h
    · exact Kept.waiting h fun _ h => Kept.finish h
  case respLong1A n => exact Kept.respRow h
  case respLong1C n => exact Kept.respRow h
  case respAckerr n => exact Kept.respRow h
  case respShort1x11 n => exact Kept.respRow h
  case respShort1x21 n => exact Kept.respRow h
  case respShort2x12 n => exact Kept.respRow h
  case respShort2x22 n => exact Kept.respRow h
  case respInvalid n b => exact Kept.respRow h
  case pktVsyncStart n => exact Kept.stageId h
  case pktVsyncEnd n => exact Kept.stageId h
  case pktHsyncStart n => exact Kept.stageId h
  case pktHsyncEnd n => exact Kept.stageId h
  case pktBlanking n => exact Kept.stageId h
  case pktLongWrite n => exact Kept.stageId h
  case pktHActive16 n => exact Kept.stageId h
  case pktHActive18 n => exact Kept.stageId h
  case pktHActive18Np n => exact Kept.stageId h
  case pktHActive24 n => exact Kept.stageId h
  case lenNone n => exact Kept.stageLen h
  case lenHsync n => exact Kept.stageLen h
  case lenHbp n => exact Kept.stageLen h
  case lenHact n => exact Kept.stageLen h
  case lenHfp n => exact Kept.stageLen h
  case lenCmd n => exact Kept.stageLen h
  case lenIdx7 n =>
    exact Kept.waiting h (fun _ h => Kept.finishWith h
      (Stays.same ⟨rfl, rfl, rfl, rfl, rfl, rfl, rfl, rfl, rfl, rfl, rfl, rfl, rfl⟩))
  case slotHalf n slot hi lp =>
    refine Kept.waiting h (fun _ h => ?_)
    split at h
    · cases h
    · exact Kept.finishWith h
        (Stays.same ⟨rfl, rfl, rfl, rfl, rfl, rfl, rfl, rfl, rfl, rfl, rfl, rfl, rfl⟩)
  case tinit n desc flags =>
    rw [exec, execTinit] at h
    split at h
    · exact Kept.finish h
    · split at h
      · exact Kept.finish h
      · split at h
        · cases h
        · split at h
          · cases h
          · rename_i h1 h2
            refine Kept.finishWith h (fun hb => ?_)
            obtain ⟨c, hc⟩ := Holds.transInit (x := (s.inst n).ctrlIndex) hb.1 rfl (by simpa using h1) (by simpa using h2)
            exact Stays.of_holds hc
  case tdeinit n =>
    rw [exec, execTdeinit] at h
    split at h
    · cases h
    · exact Kept.finishWith h (fun hb => Stays.of_holds (Holds.transDeinit hb.1 rfl))
  case enable n =>
    refine Kept.guarded h (fun ha h => ?_)
    split at h
    · cases h
    · obtain ⟨-, h⟩ := State.whenFree_next h
      refine Kept.finishEnable h (fun hb => ?_)
      obtain ⟨c, hc⟩ := (blockOk_iff.mp hb).acquire.enableLink (p := s.params) ha.1 ha.2
      exact Stays.of_holds hc.release
  case disable n =>
    refine Kept.guarded h (fun ha h => ?_)
    obtain ⟨-, h⟩ := State.whenFree_next h
    split at h
    · exact Kept.finish h
    · refine ⟨(s.inst n).disableLink, _, s.mem, some ⟨n, .success, .none⟩, .idle, ?_,
        fun hb => Stays.of_holds ((blockOk_iff.mp hb).disableLink ha.2),
        fun hd => sparseWf_set unlistedDc s.dc
          ⟨false, (s.dcRegs (s.inst n).ctrlIndex).ganged⟩ hd (Nat.zero_le (s.inst n).ctrlIndex), id⟩
      rw [← Host.Outcome.next.inj h]
      cases n <;> rfl
  case cmdmode n =>
    refine Kept.guarded h (fun ha h => ?_)
    split at h
    · exact Kept.onLocked h (fun c x hc => hc.enableCommandMode ha.1 ha.2)
    · cases h
  case twrite n isLong ct reg payload => exact Kept.writeOperation h
  case nopw n => exact Kept.writeOperation h
  case tread n isLong reg len =>
    refine Kept.guarded h (fun _ h => ?_)
    split at h
    · cases h
    obtain ⟨-, h⟩ := State.whenFree_next h
    refine Kept.copied (fun hb => ?_) h
    exact Stays.of_holds (((blockOk_iff.mp hb).acquire.readCommand reg len).release)
  case btachk n =>
    refine Kept.guarded h (fun _ h => ?_)
    exact Kept.onLocked h (fun c x hc => ⟨c, hc.btaAlone⟩)
  case seths n on =>
    refine Kept.guarded h (fun _ h => ?_)
    split at h
    · cases h
    · exact Kept.onLocked h (fun c x hc => ⟨c, hc.setHighSpeed on⟩)
  case envideo n =>
    refine Kept.guarded h (fun _ h => ?_)
    split at h
    · cases h
    · exact Kept.onLocked h (fun c x hc => ⟨c, hc.enableVideo⟩)
  case clkon n =>
    refine Kept.waiting h (fun _ h => ?_)
    exact Kept.finishWith h (fun hb => Stays.of_holds ((blockOk_iff.mp hb).clockAttempts _ _))
  case seqprog n =>
    refine Kept.waiting h (fun _ h => ?_)
    split at h
    · cases h
    · exact Kept.finishWith h (fun hb => Stays.of_holds (blockOk_iff.mp hb).programSequence)
  case phyt n freq =>
    refine Kept.waiting h (fun _ h => ?_)
    split at h
    · cases h
    · split at h
      · cases h
      · split at h
        · exact Kept.finish h
        · exact Kept.finishFatal h
  case sold n =>
    refine Kept.waiting h (fun _ h => ?_)
    split at h
    · exact Kept.finish h
    · exact Kept.finishFatal h
  case plen n =>
    refine Kept.waiting h (fun _ h => ?_)
    split at h
    · exact Kept.finish h
    · exact Kept.finishFatal h
  case tupdate n a =>
    refine Kept.guarded h (fun _ h => ?_)
    split at h
    · cases h
    · split at h
      · cases h
      · exact Kept.onLocked h (fun c x hc => ⟨c, hc.update _ _⟩)
  case getfreq n => exact Kept.guarded h fun _ h => Kept.finish h
  case tping n reg len flags =>
    refine Kept.guarded h (fun _ h => ?_)
    split at h
    · cases h
    split at h
    · cases h
    · obtain ⟨-, h⟩ := State.whenFree_next h
      refine Kept.copied (fun hb => ?_) h
      have hc := (blockOk_iff.mp hb).same (j := (s.inst n).call .acquireFrameMutex)
        ⟨rfl, rfl, rfl, rfl, rfl, rfl, rfl, rfl, rfl, rfl, rfl, rfl, rfl⟩
      have hp := (hc.acquire.ping (p := s.params) reg len).release
      generalize ((s.inst n).call .acquireFrameMutex).acquire.ping s.params reg len = r at hp
      exact Stays.of_holds (hp.same ⟨rfl, rfl, rfl, rfl, rfl, rfl, rfl, rfl, rfl, rfl, rfl, rfl, rfl⟩)
  case regw n idx value =>
    rw [exec, execRegw] at h
    refine Kept.micro h (fun r hc e => ?_)
    split at e
    · cases e
    · obtain ⟨j, hj, rfl⟩ := Except.map_eq_ok e
      exact hc.regWrite hj
  case regr n idx =>
    rw [exec, execRegr] at h
    refine Kept.micro h (fun r hc e => ?_)
    split at e
    · cases e
    · obtain ⟨v, hv, rfl⟩ := Except.map_eq_ok e
      exact hc.regRead hv
  case push n w => exact Kept.pushRow h
  case pop n =>
    rw [exec, execPop] at h
    exact Kept.micro h (fun r hc e => by cases e; exact hc.popWord)
  case trig n =>
    rw [exec, execTrig] at h
    exact Kept.micro h (fun r hc e => by
      cases e
      exact hc.same ⟨rfl, rfl, rfl, rfl, rfl, rfl, rfl, rfl, rfl, rfl, rfl, rfl, rfl⟩)
  case btareq n =>
    rw [exec, execBtareq] at h
    exact Kept.micro h (fun r hc e => by
      cases e
      exact hc.same ⟨rfl, rfl, rfl, rfl, rfl, rfl, rfl, rfl, rfl, rfl, rfl, rfl, rfl⟩)
  case poll n pred step max =>
    rw [exec, execPoll] at h
    refine Kept.micro h (fun r hc e => ?_)
    split at e
    · cases e
    · rename_i f hf
      split at e
      · cases e
      · cases e
        exact hc.poll hf _

end

end Sys2Proof.Machine
end

