-- ==== Sys2Proof/Laws/Frames.lean ====
section
/-! SUPPORT. What an instruction does to host memory and to the DC's registers, when it faults, and what a ping
puts back. -/

namespace Sys2Proof.Machine

/-- The exit path keeps `out_buffer`. -/
theorem Instance.exitPath_outBuf (i : Instance) : i.exitPath.outBuf = i.outBuf := by
  unfold Instance.exitPath Instance.restoreHost
  by_cases h : i.snap.overrideActive = true
  · rw [if_pos h]; rfl
  · rw [if_neg h]; rfl

/-- The override keeps `out_buffer`. -/
theorem Instance.overrideHost_outBuf (i : Instance) : i.overrideHost.outBuf = i.outBuf := by
  unfold Instance.overrideHost
  split <;> rfl

/-- A read keeps `out_buffer`. -/
theorem Instance.readCommand_outBuf (p : Params) (reg : Byte) (len : BitVec 16) (i : Instance) :
    (i.readCommand p reg len).2.2.outBuf = i.outBuf := by
  have h := Instance.readSteps_read p reg len i.enterHost.overrideHost
  have e : (i.enterHost.overrideHost.readSteps p reg len).2.outBuf = i.outBuf := by
    obtain ⟨_, _, _, _, _, _, _, _, _, _, _, _, _, h⟩ := h
    rw [h]; exact Instance.overrideHost_outBuf i.enterHost
  rw [Instance.readCommand]
  split <;> exact (Instance.exitPath_outBuf _).trans e

/-- Restoring keeps `out_buffer`. -/
theorem Instance.pingRestore_outBuf (i j : Instance) : (i.pingRestore j).outBuf = j.outBuf := rfl

/-- The override of a ping keeps `out_buffer`. -/
theorem Instance.pingOverride_outBuf (i : Instance) : (i.pingOverride).outBuf = i.outBuf := rfl

/-- Vertical blanks keep `out_buffer`. -/
theorem Instance.waitVblanks_outBuf (i : Instance) (k : Nat) : (i.waitVblanks k).outBuf = i.outBuf := by
  obtain ⟨e, he⟩ := i.waitVblanks_env k
  rw [he]

/-- A ping keeps `out_buffer`. -/
theorem Instance.ping_outBuf (p : Params) (reg : Byte) (len : BitVec 16) (i : Instance) :
    (i.ping p reg len).2.2.outBuf = i.outBuf := by
  rw [Instance.ping, Instance.pingRestore_outBuf, Instance.readCommand_outBuf, Instance.waitVblanks_outBuf, Instance.pingOverride_outBuf]

/-- Taking the lock keeps `out_buffer`. -/
theorem Instance.call_acquire_outBuf (i : Instance) (c : EnvCall) : (i.call c).acquire.outBuf = i.outBuf := rfl

/-- Releasing the lock keeps `out_buffer`. -/
theorem Instance.release_call_outBuf (i : Instance) (c : EnvCall) : (i.release.call c).outBuf = i.outBuf := rfl

/-- Neither host memory nor the DC changes. -/
def SameMemory (s t : State) : Prop := t.mem = s.mem ∧ t.dc = s.dc

/-- An operation that ends after changing its block. -/
theorem SameMemory.finishWith {s t : State} {n j st out} (h : s.finishWith n j st out = .next t) : SameMemory s t := by
  rw [← Host.Outcome.next.inj h]; cases n <;> exact ⟨rfl, rfl⟩

/-- An operation that ends. -/
theorem SameMemory.finish {s t : State} {n st out} (h : s.finish n st out = .next t) : SameMemory s t := by
  rw [← Host.Outcome.next.inj h]; cases n <;> exact ⟨rfl, rfl⟩

/-- A checked operation. -/
theorem SameMemory.guarded {s t : State} {n k} (h : s.guarded n k = .next t) (hk : k = .next t → SameMemory s t)
    : SameMemory s t := by
  rcases State.guarded_next h with ⟨-, h⟩ | ⟨st, rfl⟩
  · exact hk h
  · exact ⟨rfl, rfl⟩

/-- A checked operation that waits for the lock. -/
theorem SameMemory.waiting {s t : State} {n k} (h : s.guarded n (s.whenFree n k) = .next t)
    (hk : k = .next t → SameMemory s t) : SameMemory s t :=
  SameMemory.guarded h (fun h => hk (State.whenFree_next h).2)

/-- An operation of one block under its lock. -/
theorem SameMemory.onLocked {s t : State} {n f} (h : s.onLocked n f = .next t) : SameMemory s t := by
  obtain ⟨-, h⟩ := State.whenFree_next h
  exact SameMemory.finishWith h

/-- A push. -/
theorem SameMemory.pushRow {s t : State} {n w} (h : pushRow s n w = .next t) : SameMemory s t := by
  refine SameMemory.waiting h (fun h => ?_)
  split at h
  · cases h
  · exact SameMemory.finishWith h

/-- A micro-operation. -/
theorem SameMemory.micro {s t : State} {n f} (h : microOperation s n f = .next t) : SameMemory s t := by
  refine SameMemory.waiting h (fun h => ?_)
  split at h
  · cases h
  · exact SameMemory.finishWith h

/-- A write. -/
theorem SameMemory.write {s t : State} {n d} (h : writeOperation s n d = .next t) : SameMemory s t := by
  refine SameMemory.guarded h (fun h => ?_)
  split at h
  · cases h
  · exact SameMemory.onLocked h

/-- A fatal fault. -/
theorem SameMemory.finishFatal {s t : State} {n c} (h : finishFatal s n c = .next t) : SameMemory s t :=
    SameMemory.finishWith h

/-- Host memory changes at `out_buffer` only, no further than the count delivered. -/
def Copies (n : InstId) (s t : State) : Prop :=
  t.dc = s.dc ∧ ∀ a : Nat, (a < (s.inst n).outBuf ∨ (s.inst n).outBuf + deliveredBytes t.result ≤ a) →
    t.mem.read a = s.mem.read a

/-- Changing nothing. -/
theorem SameMemory.copies {s t : State} {n} (h : SameMemory s t) : Copies n s t := ⟨h.2, fun a _ => by rw [h.1]⟩

/-- A header row (R262). -/
theorem Copies.resp {s t : State} {n c} (h : respRow s n c = .next t) : Copies n s t := by
  rcases State.guarded_next h with ⟨-, h⟩ | ⟨st, rfl⟩
  · obtain ⟨-, h⟩ := State.whenFree_next h
    rw [← Host.Outcome.next.inj h]
    exact ⟨rfl, fun a ha => Memory.read_writeBytes_outside _ _ _ _ ha⟩
  · exact ⟨rfl, fun _ _ => rfl⟩

/-- The bytes of a response copied (R262). -/
theorem copyOut_copies {s t : State} {n} {j : Instance} {b : Option (List Byte)} {st out}
    (hj : j.outBuf = (s.inst n).outBuf) (ho : ∀ bs, b = some bs → deliveredBytes (some ⟨n, st, out⟩) = bs.length)
    (h : ((s.setInst n j).copyOut? n b).finish n st out = .next t) : Copies n s t := by
  rw [← Host.Outcome.next.inj h]
  cases b with
  | none => cases n <;> exact ⟨rfl, fun _ _ => rfl⟩
  | some bs =>
    have hi : ((s.setInst n j).inst n).outBuf = (s.inst n).outBuf := by cases n <;> exact hj
    refine ⟨by cases n <;> rfl, fun a ha => ?_⟩
    have := Memory.read_writeBytes_outside bs s.mem (s.inst n).outBuf a (by
      have e := ho bs rfl
      rcases ha with h | h
      · exact .inl h
      · right; rw [← e]; exact h)
    rw [← this]
    show Memory.read (Memory.writeBytes (s.setInst n j).mem ((s.setInst n j).inst n).outBuf bs) a = _
    rw [hi]
    cases n <;> rfl

/-- Every instruction but `Enable` and `Disable`. -/
theorem exec_copies (i : Instr) (hne : ∀ n, i ≠ .enable n ∧ i ≠ .disable n) {s t : State} (h : exec i s = .next t) : 
   (storesBytes i = true → Copies (blockOf i) s t) ∧ (storesBytes i = false → SameMemory s t) := by
  cases i
  case enable n => exact absurd rfl (hne n).1
  case disable n => exact absurd rfl (hne n).2
  case respLong1A => exact ⟨fun _ => Copies.resp h, fun h => nomatch h⟩
  case respLong1C => exact ⟨fun _ => Copies.resp h, fun h => nomatch h⟩
  case respAckerr => exact ⟨fun _ => Copies.resp h, fun h => nomatch h⟩
  case respShort1x11 => exact ⟨fun _ => Copies.resp h, fun h => nomatch h⟩
  case respShort1x21 => exact ⟨fun _ => Copies.resp h, fun h => nomatch h⟩
  case respShort2x12 => exact ⟨fun _ => Copies.resp h, fun h => nomatch h⟩
  case respShort2x22 => exact ⟨fun _ => Copies.resp h, fun h => nomatch h⟩
  case respInvalid => exact ⟨fun _ => Copies.resp h, fun h => nomatch h⟩
  case tread n l reg len =>
    refine ⟨fun _ => ?_, fun h => nomatch h⟩
    rcases State.guarded_next h with ⟨-, h⟩ | ⟨st, rfl⟩
    · split at h
      · cases h
      obtain ⟨-, h⟩ := State.whenFree_next h
      have hb := Instance.readCommand_outBuf s.params reg len (s.inst n).acquire
      generalize (s.inst n).acquire.readCommand s.params reg len = r at h hb
      obtain ⟨st, b, j⟩ := r
      refine copyOut_copies (j := j.release) (b := b) (st := st) (out := readOutput b) hb ?_ h
      intro bs e; rw [e]; rfl
    · exact ⟨rfl, fun _ _ => rfl⟩
  case tping n reg len fl =>
    refine ⟨fun _ => ?_, fun h => nomatch h⟩
    rcases State.guarded_next h with ⟨-, h⟩ | ⟨st, rfl⟩
    · split at h
      · cases h
      split at h
      · cases h
      · obtain ⟨-, h⟩ := State.whenFree_next h
        have hb : (((s.inst n).call .acquireFrameMutex).acquire.ping s.params reg len).2.2.outBuf = (s.inst n).outBuf := by
          rw [Instance.ping_outBuf, Instance.call_acquire_outBuf]
        generalize ((s.inst n).call .acquireFrameMutex).acquire.ping s.params reg len = r at h hb
        obtain ⟨st, b, j⟩ := r
        refine copyOut_copies (j := j.release.call .releaseFrameMutex) (b := b) (st := st) (out := .ping st (copiedCount b)) ((Instance.release_call_outBuf _ _).trans hb) ?_ h
        intro bs e; rw [e]; rfl
    · exact ⟨rfl, fun _ _ => rfl⟩
  all_goals refine And.intro (fun h => nomatch h) (fun _ => ?_)
  case shortPkt => exact SameMemory.pushRow h
  case longHdr => exact SameMemory.pushRow h
  case longPayload => exact SameMemory.pushRow h
  case maxret => exact SameMemory.pushRow h
  case dcsread => exact SameMemory.pushRow h
  case eot n =>
    rw [exec, execEot] at h
    split at h
    · exact SameMemory.pushRow h
    · exact SameMemory.waiting h SameMemory.finish
  case twrite => exact SameMemory.write h
  case nopw => exact SameMemory.write h
  case regw => rw [exec, execRegw] at h; exact SameMemory.micro h
  case regr => rw [exec, execRegr] at h; exact SameMemory.micro h
  case push => exact SameMemory.pushRow h
  case pop => rw [exec, execPop] at h; exact SameMemory.micro h
  case trig => rw [exec, execTrig] at h; exact SameMemory.micro h
  case btareq => rw [exec, execBtareq] at h; exact SameMemory.micro h
  case poll => rw [exec, execPoll] at h; exact SameMemory.micro h
  case tinit =>
    rw [exec, execTinit] at h
    repeat' split at h
    all_goals first | (cases h; done) | exact SameMemory.finish h | exact SameMemory.finishWith h
  case tdeinit =>
    rw [exec, execTdeinit] at h
    split at h
    · cases h
    · exact SameMemory.finishWith h
  all_goals
    refine SameMemory.guarded h (fun h => ?_)
    first
    | exact SameMemory.finish h
    | exact SameMemory.finishWith (State.whenFree_next h).2
    | exact SameMemory.finishWith h
    | exact SameMemory.onLocked h
    | (split at h
       · first | exact SameMemory.onLocked h | cases h
       · first | exact SameMemory.onLocked h | exact SameMemory.finishWith h | cases h)
    | (have h := (State.whenFree_next h).2
       repeat' split at h
       all_goals first | exact SameMemory.finish h | exact SameMemory.finishFatal h | exact SameMemory.finishWith h | cases h)
    | (repeat' split at h
       all_goals first | exact SameMemory.finish h| exact SameMemory.finishFatal h | exact SameMemory.onLocked h | cases h)

/-- With the lock free an operation under it does not fault. -/
theorem State.onLocked_noFault {s : State} {n : InstId} {f : Instance → Status × Output × Instance} (e : Fault)
    (hl : (s.inst n).lock = .free) : s.onLocked n f ≠ .fault e := by
  rw [State.onLocked_free hl]; intro h; cases h

/-- With the lock free only the frame mutex blocks (R97). -/
theorem exec_fault {s : State} (i : Instr) {f : Fault} (hl : (s.inst (blockOf i)).lock = .free)
    (h : exec i s = .fault f) : f = .blockedOnFrameMutex ∧ s.frameMutex = true ∧
    ∃ n reg len flags, i = .tping n reg len flags := by
  have nf : ∀ {n st out j}, s.finishWith n j st out ≠ .fault f := by
    intro _ _ _ _ h; cases h
  have nf' : ∀ {n st out}, s.finish n st out ≠ .fault f := by
    intro _ _ _ h; cases h
  have push : ∀ {n w}, (s.inst n).lock = .free → pushRow s n w ≠ .fault f := by
    intro n w hl h
    have h := State.guarded_fault h
    rw [State.whenFree_free hl] at h
    split at h
    · cases h
    · cases h
  have wr : ∀ {n d}, (s.inst n).lock = .free → writeOperation s n d ≠ .fault f := by
    intro n d hl h
    have h := State.guarded_fault h
    split at h
    · cases h
    · exact State.onLocked_noFault _ hl h
  have nff : ∀ {n c}, finishFatal s n c ≠ .fault f := by
    intro _ _ h; cases h
  cases i <;> simp only [blockOf] at hl
  case shortPkt => exact absurd h (push hl)
  case longHdr => exact absurd h (push hl)
  case longPayload => exact absurd h (push hl)
  case maxret => exact absurd h (push hl)
  case dcsread => exact absurd h (push hl)
  case eot n =>
    rw [exec, execEot] at h
    split at h
    · exact absurd h (push hl)
    · exact absurd ((State.whenFree_free hl _).symm.trans (State.guarded_fault h)) nf'
  case twrite => exact absurd h (wr hl)
  case nopw => exact absurd h (wr hl)
  case tinit =>
    rw [exec, execTinit] at h
    repeat' split at h
    all_goals cases h
  case tdeinit n =>
    rw [exec, execTdeinit] at h
    split at h <;> cases h
  case enable n =>
    have h := State.guarded_fault h
    split at h
    · cases h
    · rw [State.whenFree_free hl, finishEnable] at h
      split at h <;> cases h
  case disable n =>
    have h := State.guarded_fault h
    rw [State.whenFree_free hl] at h
    split at h <;> cases h
  case cmdmode n =>
    have h := State.guarded_fault h
    split at h
    · exact absurd h (State.onLocked_noFault _ hl)
    · cases h
  case getfreq n => exact absurd (State.guarded_fault h) nf'
  case tread n _ _ _ =>
    have h := State.guarded_fault h
    split at h
    · cases h
    rw [State.whenFree_free hl] at h
    cases h
  case btachk n =>
    have h := State.guarded_fault h
    exact absurd h (State.onLocked_noFault _ hl)
  case seths n on =>
    have h := State.guarded_fault h
    split at h
    · cases h
    · exact absurd h (State.onLocked_noFault _ hl)
  case envideo n =>
    have h := State.guarded_fault h
    split at h
    · cases h
    · exact absurd h (State.onLocked_noFault _ hl)
  case tupdate n a =>
    have h := State.guarded_fault h
    split at h
    · cases h
    · split at h
      · cases h
      · exact absurd h (State.onLocked_noFault _ hl)
  case tping n _ _ _ =>
    have h := State.guarded_fault h
    split at h
    · cases h
    split at h
    · rename_i hm
      cases h; exact ⟨rfl, hm, _, _, _, _, rfl⟩
    · rw [State.whenFree_free hl] at h
      cases h
  all_goals
    have h := State.guarded_fault h
    rw [State.whenFree_free hl] at h
    repeat' split at h
    all_goals cases h

/-- While the lock is held an operation under it makes no step (R25). -/
theorem State.whenFree_held {s t : State} {n : InstId} {k : Out} (h : (s.inst n).lock = .held) :
    s.whenFree n k ≠ .next t := fun e => by
  rw [(State.whenFree_next e).1] at h; cases h

/-- While the lock is held no instruction makes a step but `TransGetPhyFreq` and a repeated `TransInit` (R25). -/
theorem exec_held {s t : State} (i : Instr) (ha : Accepts s (blockOf i)) (hl : (s.inst (blockOf i)).lock = .held)
    (hg : ∀ n, i ≠ .getfreq n) (ht : ∀ n d f, i ≠ .tinit n d f) : exec i s ≠ .next t := by
  have key : ∀ {n k}, (s.inst n).lock = .held → Accepts s n → s.guarded n (s.whenFree n k) ≠ .next t := by
    intro n k hl ha h
    rw [State.guarded_accepts ha] at h
    exact State.whenFree_held hl h
  intro h
  cases i
  case getfreq n => exact hg n rfl
  case tinit n d f => exact ht n d f rfl
  case tdeinit n =>
    rw [exec, execTdeinit, show (s.inst n).lock = .held from hl] at h
    cases h
  case eot n =>
    rw [exec, execEot] at h
    split at h <;> exact key hl ha h
  all_goals first
    | exact key hl ha h
    | (have h := (State.guarded_accepts ha _).symm.trans h
       repeat' split at h
       all_goals first | exact State.whenFree_held hl h | cases h)

/-- A ping puts the video-mode state back (R348). -/
theorem Instance.ping_frame {i B : Instance} {c : EnvCall} {p : Params} {reg : Byte} {len : BitVec 16} (hr : AtRest i)
   (hB : ∃ e, B = { (i.call c).acquire.pingOverride with env := e }) (c2 : EnvCall) :
   OnlyRead i ((((i.call c).acquire).pingRestore (B.readCommand p reg len).2.2).release.call c2) ∧
   ∀ j, ((((i.call c).acquire).pingRestore j).release.call c2).regs.control = i.regs.control ∧
     ((((i.call c).acquire).pingRestore j).release.call c2).regs.hostControl = i.regs.hostControl ∧
     ((((i.call c).acquire).pingRestore j).release.call c2).hostActive = i.hostActive := by
  refine ⟨?_, fun j => ⟨rfl, rfl, rfl⟩⟩
  obtain ⟨e, hB⟩ := hB
  have a1 : (i.call c).acquire = { i with lock := .held, env := { i.env with calls := c :: i.env.calls } } := rfl
  have a2 : ∀ i : Instance, i.pingOverride = { i with hostActive := true, regs := { i.regs with
      hostControl := { i.regs.hostControl with triggerMode := .immediate }
      control := { i.regs.control with videoEnable := false, hostEnable := true } } } := fun _ => rfl
  have hB : B = { i with lock := .held, env := e, hostActive := true, regs := { i.regs with
      hostControl := { i.regs.hostControl with triggerMode := .immediate }
      control := { i.regs.control with videoEnable := false, hostEnable := true } } } := by
    rw [hB]; simp only [a2, a1]
  have q1 : B.snap.overrideActive = false := by rw [hB]; exact hr.2.2.2.1
  have q2 : B.hostClkOn = false := by rw [hB]; exact hr.2.1
  have q3 : B.engine = .idle := by rw [hB]; exact hr.2.2.1
  obtain ⟨e, tr, ba, im, h, fl, rf, bs, sg, rl, se, ph, sn, ft, hj⟩ := Instance.readCommand_read p reg len q1 q2 q3
  generalize (B.readCommand p reg len).2.2 = j at hj
  rw [hB] at hj
  have hres : (((i.call c).acquire).pingRestore j).release.call c2 = { j with
     lock := .free, env := { j.env with calls := c2 :: j.env.calls }, hostActive := i.hostActive
     regs := { j.regs with control := i.regs.control, hostControl := i.regs.hostControl } } := rfl
  rw [hres, hj]
  refine ⟨{ e with calls := c2 :: e.calls }, tr, ba, i.regs.hostControl.immBta, h, fl, rf, bs, sg, rl, se, ph, sn, ft, ?_⟩
  rw [← hr.1]

end Sys2Proof.Machine
end

