-- ==== Sys2Proof/Laws/PerInstr.lean ====
section
/-! SUPPORT. The encoding law, one lemma per instruction: a well-formed instruction's units are decoded back
to it, whatever the port presents behind them. -/

namespace Sys2Proof.Laws.Encoding

/-- Decoding what the encoder writes gives the instruction back, and leaves what follows. -/
def Statement (i : Instr) : Prop :=
  i.wf = true → ∀ rest : List PortWord, decode (encode i ++ rest) = .ok (i, rest)

/-- A response header's unit. -/
theorem header (n : InstId) (b : Byte) (rest : List PortWord) :
    decode (headerUnit n b ++ rest) = .ok (headerInstr n b, rest) := by
  have hb := b.isLt
  have h : (BitVec.ofNat 32 b.toNat).toNat = b.toNat := by
    rw [BitVec.toNat_ofNat, Nat.mod_eq_of_lt (by omega)]
  have h0 : byteOf (BitVec.ofNat 32 b.toNat) 0 = b := by
    apply BitVec.eq_of_toNat_eq
    rw [byteOf, h, BitVec.toNat_ofNat]
    omega
  simp only [headerUnit, List.cons_append, List.nil_append, decode, h, h0, if_pos hb]

/-- A packet id's unit. -/
theorem packetId (n : InstId) (p : PacketId) (rest : List PortWord) :
    decode (packetIdUnit n p ++ rest) = .ok (packetIdInstr n p, rest) := by
  cases p <;> rfl

/-- A selector's unit. -/
theorem lenSel (n : InstId) (l : LenSel) (rest : List PortWord) :
    decode (lenSelUnit n l ++ rest) = .ok (lenSelInstr n l, rest) := by
  cases l <;> rfl

/-- `shortPkt`. -/
theorem shortPkt (n : InstId) (vc : BitVec 2) (ct : BitVec 6) (reg data : Byte) : Statement
    (.shortPkt n vc ct reg data) := by
  intro _ rest
  have h1 := reg.isLt
  have h2 := data.isLt
  obtain ⟨a, -, -, d, e, f, g⟩ := packetWord_fields vc ct (reg.toNat + 256 * data.toNat) (by omega)
  have f' : BitVec.ofNat 8 (reg.toNat + 256 * data.toNat) = reg := by
    apply BitVec.eq_of_toNat_eq
    rw [BitVec.toNat_ofNat]
    omega
  have g' : BitVec.ofNat 8 ((reg.toNat + 256 * data.toNat) / 256) = data := by
    apply BitVec.eq_of_toNat_eq
    rw [BitVec.toNat_ofNat]
    omega
  simp only [encode, List.cons_append, List.nil_append, decode, decodePacket, shortPacketWord_eq, a, d, e, f,
    g, f', g', ne_eq, not_true_eq_false, if_false]

/-- `longHdr`. -/
theorem longHdr (n : InstId) (vc : BitVec 2) (ct : BitVec 6) (wc : BitVec 16) : Statement (.longHdr n vc ct wc) := by
  intro h rest
  have hw : wc.toNat ≠ 0 := fun e => by
    have : wc = 0 := BitVec.eq_of_toNat_eq e
    simp [Instr.wf, this] at h
  obtain ⟨a, b, -, d, e, -, -⟩ := packetWord_fields vc ct wc.toNat wc.isLt
  simp only [encode, List.cons_append, List.nil_append, decode, decodePacket, longHeaderWord, a, b, d, e, hw,
    ne_eq, not_true_eq_false, if_false, BitVec.ofNat_toNat, BitVec.setWidth_eq]

/-- `longPayload`. -/
theorem longPayload (n : InstId) (w : Word) : Statement (.longPayload n w) := fun _ _ => rfl

/-- `maxret`. -/
theorem maxret (n : InstId) (vc : BitVec 2) (len : BitVec 16) : Statement (.maxret n vc len) := by
  intro _ rest
  obtain ⟨a, b, -, d, e, -, -⟩ := packetWord_fields vc tableMaxretOpcode len.toNat len.isLt
  simp only [encode, List.cons_append, List.nil_append, decode, decodePacket, maxretWord, a, b, d, e, ne_eq,
    not_true_eq_false, if_false, BitVec.ofNat_toNat, BitVec.setWidth_eq]

/-- `dcsread`. -/
theorem dcsread (n : InstId) (vc : BitVec 2) (reg : Byte) : Statement (.dcsread n vc reg) := by
  intro _ rest
  have h1 := reg.isLt
  obtain ⟨a, -, c, d, e, f, -⟩ := packetWord_fields vc tableDcsreadOpcode reg.toNat (by omega)
  have c' : reg.toNat / 256 = 0 := by omega
  simp only [encode, List.cons_append, List.nil_append, decode, decodePacket, dcsreadWord, a, c, c', d, e, f,
    ne_eq, not_true_eq_false, if_false, or_self, BitVec.ofNat_toNat, BitVec.setWidth_eq]

/-- `eot`. -/
theorem eot (n : InstId) : Statement (.eot n) := fun _ _ => rfl

/-- `respLong1A`. -/
theorem respLong1A (n : InstId) : Statement (.respLong1A n) := fun _ rest => header n _ rest

/-- `respLong1C`. -/
theorem respLong1C (n : InstId) : Statement (.respLong1C n) := fun _ rest => header n _ rest

/-- `respAckerr`. -/
theorem respAckerr (n : InstId) : Statement (.respAckerr n) := fun _ rest => header n _ rest

/-- `respShort1x11`. -/
theorem respShort1x11 (n : InstId) : Statement (.respShort1x11 n) := fun _ rest => header n _ rest

/-- `respShort1x21`. -/
theorem respShort1x21 (n : InstId) : Statement (.respShort1x21 n) := fun _ rest => header n _ rest

/-- `respShort2x12`. -/
theorem respShort2x12 (n : InstId) : Statement (.respShort2x12 n) := fun _ rest => header n _ rest

/-- `respShort2x22`. -/
theorem respShort2x22 (n : InstId) : Statement (.respShort2x22 n) := fun _ rest => header n _ rest

/-- `respInvalid`. -/
theorem respInvalid (n : InstId) (b : Byte) : Statement (.respInvalid n b) := by
  intro h rest
  have hb : headerInstr n b = .respInvalid n b := by
    simp only [Instr.wf, knownHeaders, Bool.not_eq_true', List.contains_eq_mem, List.mem_cons,
      List.not_mem_nil, or_false, decide_eq_false_iff_not, not_or] at h
    obtain ⟨h1, h2, h3, h4, h5, h6, h7⟩ := h
    simp only [headerInstr, if_neg h1, if_neg h2, if_neg h3, if_neg h4, if_neg h5, if_neg h6, if_neg h7]
  rw [encode, header, hb]

/-- `pktVsyncStart`. -/
theorem pktVsyncStart (n : InstId) : Statement (.pktVsyncStart n) := fun _ rest => packetId n _ rest

/-- `pktVsyncEnd`. -/
theorem pktVsyncEnd (n : InstId) : Statement (.pktVsyncEnd n) := fun _ rest => packetId n _ rest

/-- `pktHsyncStart`. -/
theorem pktHsyncStart (n : InstId) : Statement (.pktHsyncStart n) := fun _ rest => packetId n _ rest

/-- `pktHsyncEnd`. -/
theorem pktHsyncEnd (n : InstId) : Statement (.pktHsyncEnd n) := fun _ rest => packetId n _ rest

/-- `pktBlanking`. -/
theorem pktBlanking (n : InstId) : Statement (.pktBlanking n) := fun _ rest => packetId n _ rest

/-- `pktLongWrite`. -/
theorem pktLongWrite (n : InstId) : Statement (.pktLongWrite n) := fun _ rest => packetId n _ rest

/-- `pktHActive16`. -/
theorem pktHActive16 (n : InstId) : Statement (.pktHActive16 n) := fun _ rest => packetId n _ rest

/-- `pktHActive18`. -/
theorem pktHActive18 (n : InstId) : Statement (.pktHActive18 n) := fun _ rest => packetId n _ rest

/-- `pktHActive18Np`. -/
theorem pktHActive18Np (n : InstId) : Statement (.pktHActive18Np n) := fun _ rest => packetId n _ rest

/-- `pktHActive24`. -/
theorem pktHActive24 (n : InstId) : Statement (.pktHActive24 n) := fun _ rest => packetId n _ rest

/-- `lenNone`. -/
theorem lenNone (n : InstId) : Statement (.lenNone n) := fun _ rest => lenSel n _ rest

/-- `lenHsync`. -/
theorem lenHsync (n : InstId) : Statement (.lenHsync n) := fun _ rest => lenSel n _ rest

/-- `lenHbp`. -/
theorem lenHbp (n : InstId) : Statement (.lenHbp n) := fun _ rest => lenSel n _ rest

/-- `lenHact`. -/
theorem lenHact (n : InstId) : Statement (.lenHact n) := fun _ rest => lenSel n _ rest

/-- `lenHfp`. -/
theorem lenHfp (n : InstId) : Statement (.lenHfp n) := fun _ rest => lenSel n _ rest

/-- `lenCmd`. -/
theorem lenCmd (n : InstId) : Statement (.lenCmd n) := fun _ rest => lenSel n _ rest

/-- `lenIdx7`. -/
theorem lenIdx7 (n : InstId) : Statement (.lenIdx7 n) := fun _ rest => lenSel n _ rest

/-- `slotHalf`. -/
theorem slotHalf (n : InstId) (slot : Fin 6) (hi forceLp : Bool) : Statement (.slotHalf n slot hi forceLp) := by
  intro _ rest
  have hs := slot.isLt
  have h1 : hi.toNat < 2 := by cases hi <;> decide
  have h2 : forceLp.toNat < 2 := by cases forceLp <;> decide
  have h : (BitVec.ofNat 32 (slot.val + 8 * hi.toNat + 16 * forceLp.toNat)).toNat =
      slot.val + 8 * hi.toNat + 16 * forceLp.toNat := by
    rw [BitVec.toNat_ofNat, Nat.mod_eq_of_lt (by omega)]
  have a : field (BitVec.ofNat 32 (slot.val + 8 * hi.toNat + 16 * forceLp.toNat)) 0 3 = slot.val := by
    rw [field, h]; omega
  have b : field (BitVec.ofNat 32 (slot.val + 8 * hi.toNat + 16 * forceLp.toNat)) 5 27 = 0 := by
    rw [field, h]; omega
  have c : decide (field (BitVec.ofNat 32 (slot.val + 8 * hi.toNat + 16 * forceLp.toNat)) 3 1 = 1) = hi := by
    have : field (BitVec.ofNat 32 (slot.val + 8 * hi.toNat + 16 * forceLp.toNat)) 3 1 = hi.toNat := by
      rw [field, h]; omega
    rw [this]; cases hi <;> rfl
  have d : decide (field (BitVec.ofNat 32 (slot.val + 8 * hi.toNat + 16 * forceLp.toNat)) 4 1 = 1) =
      forceLp := by
    have : field (BitVec.ofNat 32 (slot.val + 8 * hi.toNat + 16 * forceLp.toNat)) 4 1 = forceLp.toNat := by
      rw [field, h]; omega
    rw [this]; cases forceLp <;> rfl
  simp only [encode, List.cons_append, List.nil_append, decode, decodeSlotHalf, a, b, c, d, hs, dite_true,
    if_true, Fin.eta]

/-- `tinit`. -/
theorem tinit (n : InstId) (desc : BitVec 16) (flags : Word) : Statement (.tinit n desc flags) := fun _ rest =>
    decode_commandUnits _ n desc [flags] rest _ rfl rfl desc.isLt

/-- `tdeinit`. -/
theorem tdeinit (n : InstId) : Statement (.tdeinit n) := fun _ rest => decode_commandUnits _ n 0 [] rest _ rfl
    rfl (by decide)

/-- `enable`. -/
theorem enable (n : InstId) : Statement (.enable n) := fun _ rest => decode_commandUnits _ n 0 [] rest _ rfl rfl
    (by decide)

/-- `disable`. -/
theorem disable (n : InstId) : Statement (.disable n) := fun _ rest => decode_commandUnits _ n 0 [] rest _ rfl
    rfl (by decide)

/-- `cmdmode`. -/
theorem cmdmode (n : InstId) : Statement (.cmdmode n) := fun _ rest => decode_commandUnits _ n 0 [] rest _ rfl
    rfl (by decide)

/-- `twrite`. -/
theorem twrite (n : InstId) (isLong : Bool) (ct : BitVec 6) (reg : Byte) (payload : List Byte) : Statement
    (.twrite n isLong ct reg payload) := by
  intro h rest
  have hl : payload.length < 65536 := by simpa [Instr.wf] using h
  have hi : (BitVec.ofNat 16 payload.length).toNat = payload.length := by
    rw [BitVec.toNat_ofNat, Nat.mod_eq_of_lt (by omega)]
  obtain ⟨a, b, c, d, e⟩ := packetOperand_fields isLong ct reg
  refine decode_commandUnits _ n _ _ rest _ ?_ ?_ (BitVec.isLt _)
  · rw [hi, List.length_cons, packBytes_length, OpCode.operandCount]
    omega
  · have hb : decide (isLong.toNat = 1) = isLong := by cases isLong <;> rfl
    simp only [buildCommand, a, b, c, d, e, and_self, if_true, hi, hb, take_unpack_pack]

/-- `nopw`. -/
theorem nopw (n : InstId) : Statement (.nopw n) := fun _ rest => decode_commandUnits _ n 0 [] rest _ rfl rfl (by decide)

/-- `tread`. -/
theorem tread (n : InstId) (isLong : Bool) (reg : Byte) (len : BitVec 16) : Statement (.tread n isLong reg len) := by
  intro _ rest
  obtain ⟨a, -, -, d, e⟩ := packetOperand_fields isLong 0 reg
  have f : field (packetOperand isLong 0 reg) 8 8 = 0 := by
    have h1 := reg.isLt
    rw [field, packetOperand_toNat]
    cases isLong <;> simp <;> omega
  refine decode_commandUnits _ n len _ rest _ rfl ?_ len.isLt
  have hb : decide (isLong.toNat = 1) = isLong := by cases isLong <;> rfl
  simp only [buildCommand, a, d, e, f, and_self, if_true, hb]

/-- `btachk`. -/
theorem btachk (n : InstId) : Statement (.btachk n) := fun _ rest => decode_commandUnits _ n 0 [] rest _ rfl rfl
    (by decide)

/-- `seths`. -/
theorem seths (n : InstId) (enable : Bool) : Statement (.seths n enable) := by
  intro _ rest
  cases enable <;> exact decode_commandUnits _ n _ [] rest _ rfl rfl (by decide)

/-- `envideo`. -/
theorem envideo (n : InstId) : Statement (.envideo n) := fun _ rest => decode_commandUnits _ n 0 [] rest _ rfl
    rfl (by decide)

/-- `clkon`. -/
theorem clkon (n : InstId) : Statement (.clkon n) := fun _ rest => decode_commandUnits _ n 0 [] rest _ rfl rfl
    (by decide)

/-- `seqprog`. -/
theorem seqprog (n : InstId) : Statement (.seqprog n) := fun _ rest => decode_commandUnits _ n 0 [] rest _ rfl
    rfl (by decide)

/-- `phyt`. -/
theorem phyt (n : InstId) (freq : Word) : Statement (.phyt n freq) := fun _ rest => decode_commandUnits _ n 0
    [freq] rest _ rfl rfl (by decide)

/-- `sold`. -/
theorem sold (n : InstId) : Statement (.sold n) := fun _ rest => decode_commandUnits _ n 0 [] rest _ rfl rfl (by decide)

/-- `plen`. -/
theorem plen (n : InstId) : Statement (.plen n) := fun _ rest => decode_commandUnits _ n 0 [] rest _ rfl rfl (by decide)

/-- `tupdate`. -/
theorem tupdate (n : InstId) (a : UpdateArgs) : Statement (.tupdate n a) := fun _ rest => decode_commandUnits _
    n 0 _ rest _ rfl rfl (by decide)

/-- `getfreq`. -/
theorem getfreq (n : InstId) : Statement (.getfreq n) := fun _ rest => decode_commandUnits _ n 0 [] rest _ rfl
    rfl (by decide)

/-- `tping`. -/
theorem tping (n : InstId) (reg : Byte) (len : BitVec 16) (flags : Word) : Statement (.tping n reg len flags) := by
  intro _ rest
  obtain ⟨a, -, -, -, -⟩ := packetOperand_fields false 0 reg
  have f : field (packetOperand false 0 reg) 8 24 = 0 := by
    have h1 := reg.isLt
    rw [field, packetOperand_toNat]
    simp
    omega
  refine decode_commandUnits _ n len _ rest _ rfl ?_ len.isLt
  simp only [buildCommand, a, f, if_true]

/-- `regw`. -/
theorem regw (n : InstId) (idx : BitVec 16) (value : Word) : Statement (.regw n idx value) := by
  intro h rest
  have hi : idx.toNat < registerCount := by simpa [Instr.wf] using h
  exact decode_commandUnits _ n idx [value] rest _ rfl (if_pos hi) idx.isLt

/-- `regr`. -/
theorem regr (n : InstId) (idx : BitVec 16) : Statement (.regr n idx) := by
  intro h rest
  have hi : idx.toNat < registerCount := by simpa [Instr.wf] using h
  exact decode_commandUnits _ n idx [] rest _ rfl (if_pos hi) idx.isLt

/-- `push`. -/
theorem push (n : InstId) (w : Word) : Statement (.push n w) := fun _ rest => decode_commandUnits _ n 0 [w] rest
    _ rfl rfl (by decide)

/-- `pop`. -/
theorem pop (n : InstId) : Statement (.pop n) := fun _ rest => decode_commandUnits _ n 0 [] rest _ rfl rfl (by decide)

/-- `trig`. -/
theorem trig (n : InstId) : Statement (.trig n) := fun _ rest => decode_commandUnits _ n 0 [] rest _ rfl rfl (by decide)

/-- `btareq`. -/
theorem btareq (n : InstId) : Statement (.btareq n) := fun _ rest => decode_commandUnits _ n 0 [] rest _ rfl rfl
    (by decide)

/-- `poll`. -/
theorem poll (n : InstId) (pred : BitVec 16) (step max : Word) : Statement (.poll n pred step max) := by
  intro h rest
  have hi : pred.toNat < predicateCount := by simpa [Instr.wf] using h
  exact decode_commandUnits _ n pred [step, max] rest _ rfl (if_pos hi) pred.isLt

end Sys2Proof.Laws.Encoding
end

