-- ==== Sys2Proof/Laws/Waiting.lean ====
section
/-! SUPPORT. What the waits that fail do, and the operations made of several packets: the completion counter, the
failing turn-arounds, the polls and pushes a host issues, `TransUpdate`, and how a read is refused or delivers. -/

namespace Sys2Proof.Machine

/-- Completion on the completion counter (R215). -/
theorem Instance.awaitCompletion_counter {p : Params} {i : Instance} (hp : p.useSyncpt = true) :
    ∃ k, i.awaitCompletion p = (if i.syncptAt 0 then .ready else .timedOut, k) ∧
      k.env.trigger = i.env.trigger ∧ k.env.syncpt = i.env.syncpt.advance 1 ∧ k.sent = i.sent ∧
      (i.syncptAt 0 = true → k.hfifo = [] ∧ k.flight = .none) := by
  rw [Instance.awaitCompletion, if_pos hp, Instance.syncptWait]
  simp only [Oracle.draw_eq]
  have e : i.syncptAt 0 = i.env.syncpt.answer (Config.syncptAnswer i.id) 0 := rfl
  rw [e]
  cases i.env.syncpt.answer (Config.syncptAnswer i.id) 0
  · exact ⟨_, rfl, rfl, rfl, rfl, nofun⟩
  · exact ⟨_, rfl, rfl, rfl, rfl, fun _ => ⟨rfl, rfl⟩⟩

/-- `WriteCommand` whose completion is learnt from the completion counter (R215, R379). -/
theorem Instance.writeCommand_counter {p : Params} {i : Instance} (d : PacketDesc) {m : Nat}
    (hs : i.snap.overrideActive = false) (hc : i.hostClkOn = false) (he : i.engine = .idle)
    (hp : p.useSyncpt = true) (hm : m < pollCount p.cmdReadyStep p.cmdReadyMax)
    (h1 : i.ReadyAfter 0 m) :
    ∃ j, i.writeCommand p d = (if i.syncptAt 0 then .success else .triggerTimeout, j) ∧
      OnlyLink i j ∧ j.env.trigger = i.env.trigger.advance (m + 1) ∧
      j.env.syncpt = i.env.syncpt.advance 1 ∧
      j.sent = i.handedOver (i.packetWords p d) ∧ (i.syncptAt 0 = true → j.hfifo = [] ∧ j.flight = .none) := by
  have w := Instance.waitReady_ready (i := i.enterHost.overrideHost) hm
    (by simpa [Instance.ReadyAfter] using h1)
  have l1 := Instance.waitReady_link p i.enterHost.overrideHost
  rw [w] at l1
  generalize hj : (i.enterHost.overrideHost.sawTrigger (m + 1) 0).complete = j at *
  have q : j.packetWords p d = i.packetWords p d := by
    subst hj; exact Instance.packetWords_congr p d (i.cfg_entered) (i.hsMode_entered)
  have e1 : j.env = { i.env with
      trigger := i.env.trigger.advance (m + 1), calls := .clockEnable :: i.env.calls } := by
    subst hj; rw [Instance.complete_env, Instance.sawTrigger_env, i.env_entered]
  have e3 : (j.launched (i.packetWords p d)).sent = i.handedOver (i.packetWords p d) := by
    subst hj; exact i.launched_sent (i.packetWords p d) _ _
  have eid : j.id = i.id := by
    subst hj; show i.enterHost.overrideHost.id = i.id
    unfold Instance.overrideHost; split <;> rfl
  have es : j.syncptAt 0 = i.syncptAt 0 := by
    rw [Instance.syncptAt, Instance.syncptAt, e1, eid]
  have l2 := Instance.sendWords_link p (i.packetWords p d) j
  have v : ∃ k, j.sendWords p (i.packetWords p d) = (if i.syncptAt 0 then .success else .triggerTimeout, k) ∧
      k.env.trigger = j.env.trigger ∧ k.env.syncpt = j.env.syncpt.advance 1 ∧ k.sent = (j.launched (i.packetWords p d)).sent ∧
      (i.syncptAt 0 = true → k.hfifo = [] ∧ k.flight = .none) := by
    rw [Instance.sendWords_eq, ← es]
    obtain ⟨k, hk, k1, k2, k3, k4⟩ := Instance.awaitCompletion_counter (i := j.launched (i.packetWords p d)) hp
    rw [hk]
    refine ⟨k, ?_, k1, k2, k3, k4⟩
    show (_, k) = (if (j.launched (i.packetWords p d)).syncptAt 0 = true then _ else _, k)
    cases (j.launched (i.packetWords p d)).syncptAt 0 <;> rfl
  obtain ⟨k, hk, k1, k2, k3, k4⟩ := v
  rw [hk] at l2
  have x := Instance.exitPath_of_link hs hc he (l1.trans l2)
  rw [Instance.writeCommand, w, andThen_success, q, hk]
  refine ⟨k.exitPath, rfl, ⟨_, _, _, _, _, _, _, _, x⟩, ?_, ?_, ?_, ?_⟩
  · rw [x]; show k.env.trigger = _; rw [k1, e1]
  · rw [x]; show k.env.syncpt = _; rw [k2, e1]
  · rw [x]; show k.sent = _; rw [k3, e3]
  · intro h; rw [x]; exact k4 h

/-- A turn-around on a read FIFO that is not empty (R251). -/
theorem Instance.btaSequence_stale {p : Params} {i : Instance} (h : i.readCount.1 ≠ 0) :
    i.btaSequence p = (.fifoNotEmptyAtStart, [], i.readCount.2) := by
  rw [Instance.btaSequence]
  cases hc : i.readCount with
  | mk c j =>
    rw [hc] at h
    cases c with
    | zero => exact absurd rfl h
    | succ c => rfl

/-- A read of the count takes nothing. -/
theorem Instance.readCount_frame (i : Instance) : i.rfifo <+: i.readCount.2.rfifo ∧ i.readCount.2.regs = i.regs
    ∧ i.readCount.2.env.trigger = i.env.trigger := by
  obtain ⟨k, ws, h⟩ := i.arrivals_cases
  rw [Instance.readCount, h]
  exact ⟨⟨ws, rfl⟩, rfl, rfl⟩

/-- Queued words are counted. -/
theorem Instance.readCount_queued {i : Instance} (h : i.rfifo ≠ []) : i.readCount.1 ≠ 0 := by
  obtain ⟨k, ws, e⟩ := i.arrivals_cases
  rw [Instance.readCount, e]
  simp [Instance.arrived, h]

/-- `BtaCheckError` issued on its own changes only a read's traffic. -/
theorem Instance.btaAlone_onlyRead (p : Params) {i : Instance} (hr : AtRest i) : OnlyRead i
    (i.acquire.enterHost.btaCheck p).2.exitPath.release := by
  obtain ⟨e, tr, ba, im, h, fl, rf, bs, sg, rl, se, ph, ft, hb⟩ := i.acquire.enterHost.btaCheck_read p
  rw [hb, Instance.exitPath_none (by exact hr.2.2.2.1)]
  refine ⟨{ e with calls := .clockDisable :: e.calls }, tr, ba, im, h, fl, rf, bs, sg, rl, se, .none, i.snap, ft, ?_⟩
  · obtain ⟨h1, h2, h3, -⟩ := hr
    rw [Instance.release, ← h1, ← h2, ← h3]
    rfl

/-- A bus that does not come back (R253). -/
theorem Instance.btaCheck_timeout {p : Params} {i : Instance} (h1 : i.rfifo = [])
    (h2 : i.btaSeen = true → i.panelAt 0 = [])
    (h3 : ∀ k, k < pollCount p.btaStep p.btaMax → i.btaAt k = true) :
    ∃ j, i.btaCheck p = (.btaTimeout, j) ∧ j.env.bta = i.env.bta.advance (pollCount p.btaStep p.btaMax) ∧ j.rfifo = [] ∧ j.snap = i.snap := by
  rw [Instance.btaCheck, Instance.btaSequence, Instance.readCount_empty h1 h2]
  have f1 : ∀ k, ({ (i.arrived i.panelStart []).btaRequest with phase := .awaitingCompletion } : Instance).btaAt k = i.btaAt k := fun _ => rfl
  have f2 : ({ (i.arrived i.panelStart []).btaRequest with phase := .awaitingCompletion } : Instance).rfifo = [] := (List.append_nil i.rfifo).trans h1
  have f3 : ({ (i.arrived i.panelStart []).btaRequest with phase := .awaitingCompletion } : Instance).snap = i.snap := rfl
  have f4 : ({ (i.arrived i.panelStart []).btaRequest with phase := .awaitingCompletion } : Instance).env.bta = i.env.bta := rfl
  obtain ⟨b, hb⟩ := poll_bta_timedOut (pollCount p.btaStep p.btaMax) ({ (i.arrived i.panelStart []).btaRequest with phase := .awaitingCompletion } : Instance) h3
  simp only [hb]
  clear hb
  generalize ({ (i.arrived i.panelStart []).btaRequest with phase := .awaitingCompletion } : Instance) = A at *
  refine ⟨_, rfl, ?_, ?_, ?_⟩
  · rw [← f4]; rfl
  · exact f2
  · exact f3

/-- More words than the read FIFO holds (R254). -/
theorem Instance.btaCheck_overflow {p : Params} {i : Instance} {m : Nat} {ws : List Word} (h1 : i.rfifo = [])
    (h2 : i.btaSeen = true → i.panelAt 0 = [])
    (hm : m < pollCount p.btaStep p.btaMax) (hb : i.BtaClearsAfter m)
    (hs : i.PanelSends i.panelStart (pollCount p.rdfifoStep p.rdfifoMax) ws) (hd : p.rdFifoDepth < ws.length) :
    ∃ j, i.btaCheck p = (.readFifoFull, j) ∧ j.rfifo = ws ∧ j.snap = i.snap := by
  rw [Instance.btaCheck, Instance.btaSequence, Instance.readCount_empty h1 h2]
  have b1 : ({ (i.arrived i.panelStart []).btaRequest with phase := .awaitingCompletion } :
      Instance).BtaClearsAfter m := hb
  rcases hs with ⟨k, hk, hne, h0, hw, hz⟩ | ⟨rfl, _⟩
  · simp only [poll_bta_ready m _ _ hm b1]
    generalize hj : (({ (i.arrived i.panelStart []).btaRequest with phase := .awaitingCompletion } :
      Instance).sawBta (m + 1) false).settleImmBta = j
    have j1 : j.btaSeen = true := by subst hj; rfl
    have j2 : j.rfifo = [] := by subst hj; exact (List.append_nil i.rfifo).trans h1
    have j3 : ∀ k, j.panelAt k = i.panelAt (i.panelStart + k) := by
      subst hj; intro k; exact Instance.panelAt_arrived i i.panelStart k []
    have j5 : j.snap = i.snap := by subst hj; rfl
    have hp := poll_count_ready k (pollCount p.rdfifoStep p.rdfifoMax) j ws hk j1 j2 (fun a ha => by rw [j3]; exact h0 a ha) (by rw [j3]; exact hw) hne
    have j4 : (j.arrived (k + 1) ws).arrivals = j.arrived (k + 1 + 1) ws := by
      rw [Instance.arrivals_seen _ (by exact j1), Instance.panelAt_arrived, Nat.add_zero, j3]
      rw [show i.panelAt (i.panelStart + (k + 1)) = [] from hz, Instance.arrived_arrived, List.append_nil]
    have j6 : (j.arrived (k + 1 + 1) ws).rfifo = ws := by simp [Instance.arrived, j2]
    have : j.collectResponse p = (.readFifoFull, [], j.arrived (k + 1 + 1) ws) := by
      simp only [Instance.collectResponse, hp, Instance.readCount, j4, j6]
      rw [if_pos (by exact hd)]
    rw [this]
    exact ⟨_, rfl, j6, j5⟩
  · exact absurd hd (Nat.not_lt_zero _)

/-- A pop of an empty read FIFO (log 20). -/
theorem Instance.popWord_empty {i : Instance} (h : i.rfifo = []) : i.popWord =
    (Config.emptyPop i.id i.freeTick, { i with freeTick := i.freeTick + 1 }) := by
  unfold Instance.popWord
  split
  · rename_i e; rw [h] at e; cases e
  · rfl

/-- A BTA wait that times out shows the flag set. -/
theorem poll_bta_timedOut_set (N : Nat) (i : Instance) (hN : 0 < N) (h : ∀ j, j < N → i.btaAt j = true) :
    poll Instance.btaIsClear N i = (.timedOut, i.sawBta N true) := by
  induction N generalizing i with
  | zero => omega
  | succ N ih =>
    have h0 := h 0 (by omega)
    by_cases hz : N = 0
    · subst hz
      simp [poll, Instance.btaIsClear, Instance.readBtaActive_eq, h0]
    · have := ih (i.sawBta 1 true) (by omega) (by intro j hj; have := h (1 + j) (by omega); simpa using this)
      simp [poll, Instance.btaIsClear, Instance.readBtaActive_eq, h0, this, Nat.add_comm]

/-- A count poll before the first turn-around. -/
theorem poll_count_unseen (N : Nat) (i : Instance) (hb : i.btaSeen = false) (hr : i.rfifo = []) :
    poll Instance.countIsNonZero N i = (.timedOut, i) := by
  induction N with
  | zero => rfl
  | succ N ih => simp [poll, Instance.countIsNonZero, Instance.readCount, i.arrivals_unseen hb, hr, ih]

/-- One after another. -/
theorem OnlyLink.trans {i j k : Instance} (h1 : OnlyLink i j) (h2 : OnlyLink j k) : OnlyLink i k := by
  obtain ⟨_, _, _, _, _, _, _, _, rfl⟩ := h1
  obtain ⟨_, _, _, _, _, _, _, _, rfl⟩ := h2
  exact ⟨_, _, _, _, _, _, _, _, rfl⟩

/-- A write leaves no override in force (R229). -/
theorem Instance.writeCommand_snap (p : Params) (d : PacketDesc) (i : Instance) :
    (i.writeCommand p d).2.snap.overrideActive = false :=
  (Instance.exitPath_rest _).2.2.2

/-- Packets one after another change only the link's traffic. -/
theorem Instance.sendAll_link (p : Params) (ps : List PacketDesc) : ∀ {i : Instance}
    (_ : i.snap.overrideActive = false) (_ : i.hostClkOn = false) (_ : i.engine = .idle), OnlyLink i
    (Instance.sendAll p ps i).2 := by
  induction ps with
  | nil => intro i _ _ _; exact ⟨_, _, _, _, _, _, _, _, rfl⟩
  | cons d r ih =>
    intro i hs hc he
    have hl := Instance.writeCommand_link p d hs hc he
    have hsn := Instance.writeCommand_snap p d i
    rw [Instance.sendAll]
    rcases andThen_cases (i.writeCommand p d) (Instance.sendAll p r) with ⟨_, e⟩ | ⟨_, e⟩
    · rw [e]
      refine hl.trans (ih hsn ?_ ?_)
      · obtain ⟨_, _, _, _, _, _, _, _, e⟩ := hl; rw [e]; exact hc
      · obtain ⟨_, _, _, _, _, _, _, _, e⟩ := hl; rw [e]; exact he
    · rw [e]; exact hl

/-- Packets one after another on a ready link. -/
theorem Instance.sendAll_ready {p : Params} (hp : PollsOk p) (ps : List PacketDesc) : ∀ {i : Instance}
    (_ : i.snap.overrideActive = false) (_ : i.hostClkOn = false) (_ : i.engine = .idle)
    (_ : LinkReady p ps.length ps.length i), ∃ j, Instance.sendAll p ps i = (.success, j) ∧
     j.env.trigger = i.env.trigger.advance (linkReads p ps.length ps.length) ∧
     j.env.syncpt = i.env.syncpt.advance (counterWaits p ps.length) ∧
     (ps ≠ [] → j.hfifo = [] ∧ j.flight = .none) ∧
     (i.sendsAtOnce = true → j.sent = (i.burst p ps).reverse ++ i.sent) ∧ (i.sendsAtOnce = false → j.sent = i.sent) := by
  induction ps with
  | nil => intro i _ _ _ _; exact ⟨i, rfl, by simp, by simp, by simp, by simp [Instance.burst], by simp⟩
  | cons d r ih =>
    intro i hs hc he hr
    have hr : LinkReady p (1 + r.length) (1 + r.length) i := by rw [Nat.add_comm]; exact hr
    have w := Instance.writeCommand_linkReady (p := p) (i := i) d hs hc he hp hr.first
    have kt : ∀ x, (i.writeCommand p d).2 = x → x.env.trigger = i.env.trigger.advance (linkReads p 1 1) ∧
        x.env.syncpt = i.env.syncpt.advance (counterWaits p 1) ∧ x.hfifo = [] ∧ x.flight = .none ∧
        x.sent = i.handedOver (i.packetWords p d) ∧ x.id = i.id ∧ x.cfg = i.cfg ∧ x.hsMode = i.hsMode ∧
        x.hostClkOn = i.hostClkOn ∧ x.engine = i.engine ∧ x.sendsAtOnce = i.sendsAtOnce := by
      rintro x rfl; rw [w]; exact ⟨rfl, rfl, rfl, rfl, rfl, rfl, rfl, rfl, rfl, rfl, rfl⟩
    have sn := Instance.writeCommand_snap p d i
    have w1 : i.writeCommand p d = (.success, (i.writeCommand p d).2) := by rw [w]
    generalize (i.writeCommand p d).2 = k at w1 kt sn
    obtain ⟨t1, t2, kh, kf, ks, kid, kcf, km, kc, ke, ko⟩ := kt k rfl
    obtain ⟨j, h1, h2, h2', h3, h4, h5⟩ := ih (i := k) sn (kc.trans hc) (ke.trans he) (hr.rest kid t1 t2)
    have kw : k.packetWords p = i.packetWords p := by
      funext d; exact Instance.packetWords_congr p d kcf km
    have kq : k.ahead = [] := by simp [Instance.ahead, Instance.unspecified, Instance.queued, kf, kh]
    have len : (d :: r).length = 1 + r.length := Nat.add_comm _ _
    refine ⟨j, ?_, ?_, ?_, ?_, ?_, ?_⟩
    · rw [Instance.sendAll, w1, andThen_success, h1]
    · rw [h2, t1, Oracle.advance_advance, len, linkReads_add]
    · rw [h2', t2, Oracle.advance_advance, len, counterWaits_add]
    · intro _
      by_cases e : r = []
      · subst e
        have : (Status.success, k) = (.success, j) := h1
        cases this; exact ⟨kh, kf⟩
      · exact h3 e
    · intro ha
      have kb : k.burst p r = r.map (i.packetWords p) := by
        cases r with
        | nil => rfl
        | cons a r => simp [Instance.burst, kq, kw]
      rw [h4 (ko.trans ha), kb, ks, Instance.handedOver, if_pos ha, Instance.burst]
      simp
    · intro ha
      rw [h5 (ko.trans ha), ks, Instance.handedOver, if_neg (by simp [ha])]

/-- The wait of R345 step (1). -/
theorem Instance.waitTe_eq (p : Params) (i : Instance) : ∃ e, i.waitTe p =
    (if i.te = none ∨ i.teAt 0 = true then .success else .teWaitTimeout,
    { i with te := i.te.map (fun _ => (⟨false, true⟩ : Te)), env := e }) ∧ e.trigger = i.env.trigger ∧ e.syncpt = i.env.syncpt := by
  rw [Instance.waitTe]
  have tw : ∃ e, i.teWait p =
      (if i.teAt 0 = true then .ready else .timedOut, { i with te := some ⟨false, true⟩, env := e }) ∧ e.trigger = i.env.trigger ∧
        e.syncpt = i.env.syncpt := by
    simp only [Instance.teWait, Oracle.draw_eq]
    by_cases h : i.teAt 0 = true
    · exact ⟨_, (if_pos h).trans (Prod.ext (if_pos h).symm rfl), rfl, rfl⟩
    · exact ⟨_, (if_neg h).trans (Prod.ext (if_neg h).symm rfl), rfl, rfl⟩
  obtain ⟨e, he, het⟩ := tw
  cases ht : i.te with
  | none =>
    refine ⟨i.env, ?_, rfl, rfl⟩
    rw [if_pos (.inl rfl)]
    refine Prod.ext rfl ?_
    have : i.te.map (fun _ => (⟨false, true⟩ : Te)) = i.te := by rw [ht]; rfl
    rw [ht] at this
    show i = { i with te := none }
    rw [← ht]
  | some b =>
    refine ⟨e, ?_, het⟩
    rw [he]
    by_cases h : i.teAt 0 = true
    · simp [h]
    · simp [h]

/-- `TransUpdate`, whatever its status, changes only the link's traffic and the handle. -/
theorem Instance.update_link {p : Params} {i : Instance} (rect : Rect) (ps : List PacketDesc)
    (hs : i.snap.overrideActive = false) (hc : i.hostClkOn = false) (he : i.engine = .idle) :
   OnlyLink { i with te := i.te.map (fun _ => (⟨false, true⟩ : Te)) } (i.update p rect ps).2 := by
  obtain ⟨e, hw, -⟩ := Instance.waitTe_eq p i
  rw [Instance.update]
  have h1 : OnlyLink { i with te := i.te.map (fun _ => (⟨false, true⟩ : Te)) } (i.waitTe p).2 := by rw [hw]; exact ⟨_, _, _, _, _, _, _, _, rfl⟩
  have s1 : (i.waitTe p).2.snap.overrideActive = false := by rw [hw]; exact hs
  have s2 : (i.waitTe p).2.hostClkOn = false := by rw [hw]; exact hc
  have s3 : (i.waitTe p).2.engine = .idle := by rw [hw]; exact he
  rcases andThen_cases (i.waitTe p) (fun j =>
    andThen (Instance.sendAll p ps (j.drawPartial rect).2) (fun k => (.success, k.awaitPixels))) with ⟨_, e⟩ | ⟨_, e⟩
  · rw [e]
    refine h1.trans ?_
    generalize (i.waitTe p).2 = j at *
    have h2 : OnlyLink j (j.drawPartial rect).2 := ⟨_, _, _, _, _, _, _, _, rfl⟩
    have h3 := Instance.sendAll_link p ps (i := (j.drawPartial rect).2) s1 s2 s3
    rcases andThen_cases (Instance.sendAll p ps (j.drawPartial rect).2) (fun k => (.success, k.awaitPixels)) with ⟨_, e⟩ | ⟨_, e⟩
    · rw [e]
      refine (h2.trans h3).trans ?_
      show OnlyLink _ (Instance.awaitPixels _)
      rw [Instance.awaitPixels]
      split <;> exact ⟨_, _, _, _, _, _, _, _, rfl⟩
    · rw [e]; exact h2.trans h3
  · rw [e]; exact h1

/-- `TransUpdate` on a ready link (R345). -/
theorem Instance.update_ready {p : Params} {i : Instance} (rect : Rect) (ps : List PacketDesc)
    (hs : i.snap.overrideActive = false) (hc : i.hostClkOn = false) (he : i.engine = .idle)
   (ht : i.te = none ∨ i.teAt 0 = true) (hp : PollsOk p) (hr : LinkReady p ps.length ps.length i) :
   ∃ j, i.update p rect ps = (.success, j) ∧
     j.env.trigger = i.env.trigger.advance (linkReads p ps.length ps.length) ∧
     j.env.syncpt = i.env.syncpt.advance (counterWaits p ps.length) ∧
     (ps ≠ [] → j.hfifo = [] ∧ j.flight = .none) ∧
     (i.sendsAtOnce = true → j.sent = (i.burst p ps).reverse ++ i.sent) ∧ (i.sendsAtOnce = false → j.sent = i.sent) ∧
     (i.cfg.videoMode = .dcDrivenCommand → j.env.calls.head? = some .waitVblank) := by
  obtain ⟨e, hw, hte, hts⟩ := Instance.waitTe_eq p i
  rw [if_pos ht] at hw
  have eq : i.update p rect ps = andThen (Instance.sendAll p ps (({ i with te := i.te.map (fun _ => (⟨false, true⟩ : Te)), env := e } : Instance).drawPartial rect).2) (fun k => (.success, k.awaitPixels)) := by
    rw [Instance.update, hw, andThen_success]
  generalize hj : (({ i with te := i.te.map (fun _ => (⟨false, true⟩ : Te)), env := e } : Instance).drawPartial rect).2 = j at eq
  have jt : j.env.trigger = i.env.trigger := by subst hj; exact hte
  have js : j.env.syncpt = i.env.syncpt := by subst hj; exact hts
  have jr : LinkReady p ps.length ps.length j :=
    LinkReady.rest (a := 0) (b := 0) (by simpa using hr) (by subst hj; rfl) (by rw [jt]; simp) (by rw [js]; simp)
  obtain ⟨k, h1, h2, h2', h3, h4, h5⟩ := Instance.sendAll_ready hp ps (i := j) (by subst hj; exact hs) (by subst hj; exact hc) (by subst hj; exact he) jr
  have kc : k.cfg = i.cfg := by
    have := Instance.sendAll_link p ps (i := j) (by subst hj; exact hs) (by subst hj; exact hc) (by subst hj; exact he)
    rw [h1] at this
    obtain ⟨_, _, _, _, _, _, _, _, e⟩ := this
    rw [show k = _ from e]; subst hj; rfl
  have A : k.awaitPixels.env.trigger = k.env.trigger ∧ k.awaitPixels.env.syncpt = k.env.syncpt ∧
      k.awaitPixels.hfifo = k.hfifo ∧ k.awaitPixels.flight = k.flight ∧ k.awaitPixels.sent = k.sent := by
    rw [Instance.awaitPixels]; split <;> exact ⟨rfl, rfl, rfl, rfl, rfl⟩
  have jb : j.burst p ps = i.burst p ps := by
    have jw : j.packetWords p = i.packetWords p := by
      funext d; exact Instance.packetWords_congr p d (by subst hj; rfl) (by subst hj; rfl)
    have jq : j.ahead = i.ahead := by subst hj; rfl
    cases ps with
    | nil => rfl
    | cons d r => rw [Instance.burst, Instance.burst, jw, jq]
  refine ⟨k.awaitPixels, by rw [eq, h1, andThen_success], ?_, ?_, ?_, ?_, ?_, ?_⟩
  · rw [A.1, h2, jt]
  · rw [A.2.1, h2', js]
  · intro hn; rw [A.2.2.1, A.2.2.2.1]; exact h3 hn
  · intro h6; rw [A.2.2.2.2, h4 (by subst hj; exact h6), jb]; subst hj; rfl
  · intro h6; rw [A.2.2.2.2, h5 (by subst hj; exact h6)]; subst hj; rfl
  · intro hv; rw [Instance.awaitPixels, kc, if_pos hv]; rfl

/-- `TransUpdate` whose TE edge does not come (R377). -/
theorem Instance.update_late {p : Params} {i : Instance} (rect : Rect) (ps : List PacketDesc) {b : Te}
    (ht : i.te = some b) (h0 : i.teAt 0 = false) :
   ∃ e, i.update p rect ps = (.teWaitTimeout, { i with te := some ⟨false, true⟩, env := e }) ∧ e.trigger = i.env.trigger := by
  obtain ⟨e, hw, hte, -⟩ := Instance.waitTe_eq p i
  rw [if_neg (by simp [ht, h0])] at hw
  refine ⟨e, ?_, hte⟩
  rw [Instance.update, hw, andThen_failed (by simp), ht]
  rfl

/-- Taking the lock and releasing it around it. -/
theorem OnlyLink.release {i j : Instance} (hl : i.lock = .free) (t : Option Te)
    (h : OnlyLink { i.acquire with te := t } j) : OnlyLink { i with te := t } j.release := by
  obtain ⟨e, tr, hf, fl, se, ph, sn, ft, rfl⟩ := h
  refine ⟨e, tr, hf, fl, se, ph, sn, ft, ?_⟩
  rw [Instance.release, ← hl]; rfl

/-! ### A single push (R84, R212) -/

/-- While TRIGGER reads non-zero a push is refused (R410). -/
theorem Instance.checkedPush_busy {p : Params} {i : Instance} (w : FifoWord) (h : i.triggerAt 0 ≠ 0) :
    i.checkedPush p w = .error .pushWhileBusy := by
  rw [Instance.checkedPush, Instance.triggerIsZero_busy h]

/-- A push onto a full host FIFO is refused (R84). -/
theorem Instance.checkedPush_full {p : Params} {i : Instance} (w : FifoWord) (h : i.triggerAt 0 = 0)
    (hf : p.hostFifoDepth ≤ i.queued.length) : i.checkedPush p w = .error .hostFifoFull := by
  rw [Instance.checkedPush, Instance.triggerIsZero_ready h]
  exact if_pos hf

/-- Any other push joins what is queued (R83, R212). -/
theorem Instance.checkedPush_ok {p : Params} {i : Instance} (w : FifoWord) (h : i.triggerAt 0 = 0)
    (hf : i.queued.length < p.hostFifoDepth) :
    i.checkedPush p w = .ok { i with
      hfifo := i.queued ++ [w], flight := settledFlight i.flight
      regs := { i.regs with trigger := 0 }
      env := { i.env with trigger := i.env.trigger.advance 1 } } := by
  rw [Instance.checkedPush, Instance.triggerIsZero_ready h]
  exact if_neg (Nat.not_le.mpr hf)

/-- A push issued by a host or as a row, on a block that accepts it (R212, log 1). -/
theorem pushRow_open {s : State} {n : InstId} (h : Open s n) (w : FifoWord) {i : Instance} (hi : s.inst n = i) :
    (∀ r, i.checkedPush s.params w = .error r → pushRow s n w = .refused r) ∧
    (∀ j, i.checkedPush s.params w = .ok j → pushRow s n w = Ends s n j .success .none) := by
  subst hi
  rw [pushRow, State.guarded_accepts h.1, State.whenFree_free h.2]
  exact ⟨fun r e => by rw [e], fun j e => by rw [e]; simp only [State.finishWith_eq]⟩

/-! ### Reads that are refused, reads that deliver -/

/-- A control packet that does not fit (R84, R412). -/
theorem Instance.readRefusal_full {p : Params} {i : Instance} {reg : Byte} {len : BitVec 16}
    (h : p.hostFifoDepth < i.queued.length + 1 + (if i.hsMode && p.eotOnReadCtrl then 1 else 0) ∨
      p.hostFifoDepth < 1 + (if i.hsMode && p.eotOnReadCtrl then 1 else 0)) :
    i.readRefusal p reg len = some .packetTooLarge := by
  have e1 : (i.maxretWords p len).length = 1 + (if i.hsMode && p.eotOnReadCtrl then 1 else 0) := by
    rw [Instance.maxretWords, Instance.eotWords]
    cases i.hsMode <;> cases p.eotOnReadCtrl <;> rfl
  have e2 : (i.dcsreadWords p reg).length = 1 + (if i.hsMode && p.eotOnReadCtrl then 1 else 0) := by
    rw [Instance.dcsreadWords, Instance.eotWords]
    cases i.hsMode <;> cases p.eotOnReadCtrl <;> rfl
  rw [Instance.readRefusal, if_pos]
  rw [e1, e2]
  omega

/-- How an operation that delivers bytes ends (R262). -/
theorem State.finish_copied {s : State} {n : InstId} {j : Instance} (h : j.outBuf = (s.inst n).outBuf)
    (b : List Byte) (st : Status) (o : Output) :
    ((s.setInst n j).copyOut? n (some b)).finish n st o = .next { s.setInst n j with
      mem := Memory.writeBytes s.mem (s.inst n).outBuf b
      result := some ⟨n, st, o⟩
      gangedStep := .idle } := by
  have ho : ((s.setInst n j).inst n).outBuf = (s.inst n).outBuf := by rw [← h]; cases n <;> rfl
  show Host.Outcome.next ({ s.setInst n j with
      mem := Memory.writeBytes (s.setInst n j).mem ((s.setInst n j).inst n).outBuf _
      result := _, gangedStep := _ } : State) = _
  rw [ho]
  cases n <;> rfl

end Sys2Proof.Machine
end

