-- ==== Sys2Proof/Tests/Slice0.lean ====
section
/-! SUPPORT. The model's own tests: the checks of WellFormed, words written out from the spec's encodings and
decoded, one step of each instruction with the result 95_test_vectors.md (or the rule named) gives, and for
every statement with hypotheses a state that meets them. -/

namespace Sys2Proof.Tests

open Sys2Proof.Machine

/-! ### Fixtures: the OPEN constants at the defaults of 95_test_vectors.md, one block in command mode -/

/-- The constants of the vectors: the polls of V-WC-3, V-WC-4 and V-BS-3, the depths of 2.6 and 2.8. -/
def params : Params where
  maxInitClockCeiling := 20000
  cmdReadyStep := 20
  cmdReadyMax := 250
  triggerStep := 10
  triggerMax := 100
  btaStep := 5
  btaMax := 50
  rdfifoStep := 50
  rdfifoMax := 100
  teWaitTimeout := 100
  settleWait := 5
  hostFifoDepth := 64
  rdFifoDepth := 32
  useSyncpt := false
  maxretOpcode := 0x37
  dcsreadOpcode := 0x06
  eotWord := 0x000F0F08
  eotOnShort := true
  eotOnReadCtrl := false
  pktId := ⟨0x01, 0x11, 0x21, 0x31, 0x19, 0x39, 0x0E, 0x1E, 0x2E, 0x3E⟩
  fieldMax := ⟨255, 255, 255, 255, 255, 255, 255, 255, 255⟩
  btaFieldMax := ⟨255, 255, 255⟩
  timeoutMargin := 0
  clockTolerance := 5
  gangedActiveForceLp := false
  nopType := 0x05
  nopReg := 0x00
  thspreprWarValue := none
  longWriteType := 0x39
  writeMemoryStart := 0x2C
  writeMemoryContinue := 0x3C
  updateChunkBytes := 4
  hostFifoSel := 1
  readyPollTwice := false
  oddEvenPair := ⟨0, 1, 0, 1⟩
  layout := ⟨0, 1, 2, 8, 2, 4, .txOnly, 5, .other, 6, 7, 0⟩

/-- Overrides, verbatim into the registers (V-PHY-10). -/
def overrides : PhyTimingSet := ⟨⟨9, 8, 7, 6, 5, 4, 3, 2, 1⟩, ⟨5, 2, 4⟩, 100⟩

/-- The common descriptor of part 3 with the panel of V-LEN-2. -/
def panel : PanelDescriptor where
  nLanes := 4
  dataFormat := .bpp24
  videoMode := .burst
  virtualChannel := 0
  lpCmdClkKhz := 10000
  hsCmdClkKhz := 400000
  refreshRate := 60
  phyFreqTarget := 450000
  hsClkPolicy := .txOnly
  panelResetTimeout := 0
  maxInitClock := 20000
  phyOverrides := some overrides
  teGpioPresent := false
  timing := ⟨1920, 44, 148, 88, 1080, 5, 36, 4⟩
  split := .leftRight

/-- An environment whose reads of TRIGGER are scripted. -/
def reads (ts : List Word) : Env := { Env.fresh with trigger := ⟨ts, 0⟩ }

/-- An environment whose turn-around is scripted: the reads of TRIGGER, of `BTA_ACTIVE`, and what arrives. -/
def turns (ts : List Word) (bs : List Bool) (ps : List (List Word)) : Env :=
  { reads ts with bta := ⟨bs, 0⟩, panel := ⟨ps, 0⟩ }

/-- A block in command mode, low power. -/
def block (n : InstId) (e : Env) : Instance :=
  { Instance.reset params n n.bit with
    cfg := panel, lifecycle := .commandModeEnabled, curPhyFreq := 10000, hostActive := true, env := e
    regs := { resetRegs params with hostControl := ⟨.immediate, false, false⟩ } }

/-- The machine with block 0 so. -/
def commandState (e : Env) : State := { State.resetWith params with inst0 := block .i0 e }

/-- The machine with block 0 changed. -/
def withBlock (i : Instance) : State := { State.resetWith params with inst0 := i }

/-- A block with the video link running (`Enabled`), the interface off so that the program may be written. -/
def videoBlock (c : PanelDescriptor) : Instance :=
  { block .i0 Env.fresh with
    cfg := c, lifecycle := .enabled, hostActive := false, regs := resetRegs params }

/-- The next state, where there is one. -/
def next? (o : Out) : Option State :=
  match o with
  | .next t => some t
  | .fault _ => none
  | .refused _ => none

/-- Block 0, the status and the output after an instruction. -/
def after (o : Out) : Option (Instance × Status × Output) :=
  (next? o).bind fun t => t.result.map fun r => (t.inst0, r.status, r.out)

/-- The status and the output. -/
def ends (o : Out) : Option (Status × Output) := (after o).map fun r => r.2

/-! ### WellFormed: an ill-formed term for each check -/

theorem test_wf_zeroWordCount : (Instr.longHdr .i0 0 0x39 0).wf = false := by decide

theorem test_wf_knownHeader : (Instr.respInvalid .i0 0x1A).wf = false := by decide

theorem test_wf_longPayload (b : Byte) : (Instr.twrite .i0 true 0x39 0x2A (List.replicate 65536 b)).wf = false := by
  rw [Instr.wf, List.length_replicate]
  decide

theorem test_wf_register : (Instr.regw .i0 27 0).wf = false ∧ (Instr.regr .i0 27).wf = false := by decide

theorem test_wf_predicate : (Instr.poll .i0 3 1 1).wf = false := by decide

/-! ### Decode: a word written out from the encoding, for every constructor -/

/-- V-SW-3, V-LW-6, V-P4-4, V-RC-3, R118: byte 0 is the data identifier. -/
theorem test_decode_w32 :
    decode [⟨.packet .i0 .short, 0x00773A95⟩] = .ok (.shortPkt .i0 2 0x15 0x3A 0x77, []) ∧
    decode [⟨.packet .i0 .longHdr, 0x001234F9⟩] = .ok (.longHdr .i0 3 0x39 0x1234, []) ∧
    decode [⟨.packet .i1 .payload, 0xA2A1A02C⟩] = .ok (.longPayload .i1 0xA2A1A02C, []) ∧
    decode [⟨.packet .i0 .maxret, 0x00010077⟩] = .ok (.maxret .i0 1 256, []) ∧
    decode [⟨.packet .i0 .dcsread, 0x0000DA46⟩] = .ok (.dcsread .i0 1 0xDA, []) ∧
    decode [⟨.packet .i0 .eot, 0x000F0F08⟩] = .ok (.eot .i0, []) := by decide

/-- R122 to R127: all eight bits. -/
theorem test_decode_resp8 :
    decode [⟨.response .i0, 0x1A⟩] = .ok (.respLong1A .i0, []) ∧
    decode [⟨.response .i0, 0x1C⟩] = .ok (.respLong1C .i0, []) ∧
    decode [⟨.response .i0, 0x02⟩] = .ok (.respAckerr .i0, []) ∧
    decode [⟨.response .i0, 0x11⟩] = .ok (.respShort1x11 .i0, []) ∧
    decode [⟨.response .i0, 0x21⟩] = .ok (.respShort1x21 .i0, []) ∧
    decode [⟨.response .i1, 0x12⟩] = .ok (.respShort2x12 .i1, []) ∧
    decode [⟨.response .i0, 0x22⟩] = .ok (.respShort2x22 .i0, []) ∧
    decode [⟨.response .i0, 0x99⟩] = .ok (.respInvalid .i0 0x99, []) := by decide

/-- R131: the default packet ids. -/
theorem test_decode_seq :
    decode [⟨.seqId .i0, 0x01⟩] = .ok (.pktVsyncStart .i0, []) ∧
    decode [⟨.seqId .i0, 0x11⟩] = .ok (.pktVsyncEnd .i0, []) ∧
    decode [⟨.seqId .i0, 0x21⟩] = .ok (.pktHsyncStart .i0, []) ∧
    decode [⟨.seqId .i0, 0x31⟩] = .ok (.pktHsyncEnd .i0, []) ∧
    decode [⟨.seqId .i0, 0x19⟩] = .ok (.pktBlanking .i0, []) ∧
    decode [⟨.seqId .i0, 0x39⟩] = .ok (.pktLongWrite .i0, []) ∧
    decode [⟨.seqId .i0, 0x0E⟩] = .ok (.pktHActive16 .i0, []) ∧
    decode [⟨.seqId .i0, 0x1E⟩] = .ok (.pktHActive18 .i0, []) ∧
    decode [⟨.seqId .i0, 0x2E⟩] = .ok (.pktHActive18Np .i0, []) ∧
    decode [⟨.seqId .i1, 0x3E⟩] = .ok (.pktHActive24 .i1, []) := by decide

/-- R130 in its order, R128 (log 2). -/
theorem test_decode_selectors :
    decode [⟨.seqLen .i0, 0⟩] = .ok (.lenNone .i0, []) ∧
    decode [⟨.seqLen .i0, 1⟩] = .ok (.lenHsync .i0, []) ∧
    decode [⟨.seqLen .i0, 2⟩] = .ok (.lenHbp .i0, []) ∧
    decode [⟨.seqLen .i0, 3⟩] = .ok (.lenHact .i0, []) ∧
    decode [⟨.seqLen .i0, 4⟩] = .ok (.lenHfp .i0, []) ∧
    decode [⟨.seqLen .i0, 5⟩] = .ok (.lenCmd .i0, []) ∧
    decode [⟨.seqLen .i0, 6⟩] = .ok (.lenIdx7 .i0, []) ∧
    decode [⟨.slotHalf .i0, 0x1B⟩] = .ok (.slotHalf .i0 3 true true, []) := by decide

/-- V-OP-2, V-OP-3, and R136 for the lifecycle operations without operand words. -/
theorem test_decode_lifecycle :
    decode [⟨.command, 0x00020101⟩, ⟨.command, 0⟩] = .ok (.tinit .i1 2 0, []) ∧
    decode [⟨.command, 0x00000102⟩] = .ok (.tdeinit .i1, []) ∧
    decode [⟨.command, 0x00000003⟩] = .ok (.enable .i0, []) ∧
    decode [⟨.command, 0x00000004⟩] = .ok (.disable .i0, []) ∧
    decode [⟨.command, 0x00000005⟩] = .ok (.cmdmode .i0, []) ∧
    decode [⟨.command, 0x00000012⟩] = .ok (.getfreq .i0, []) := by decide

/-- V-OP-5, V-OP-6, V-OP-7, V-OP-8, V-OP-10. -/
theorem test_decode_packets :
    decode [⟨.command, 0x00040006⟩, ⟨.command, 0x0001392A⟩, ⟨.command, 0x3F010000⟩] =
      .ok (.twrite .i0 true 0x39 0x2A [0x00, 0x00, 0x01, 0x3F], []) ∧
    decode [⟨.command, 0x00010106⟩, ⟨.command, 0x00001551⟩, ⟨.command, 0x000000FF⟩] =
      .ok (.twrite .i1 false 0x15 0x51 [0xFF], []) ∧
    decode [⟨.command, 0x00010008⟩, ⟨.command, 0x0000000A⟩] = .ok (.tread .i0 false 0x0A 1, []) ∧
    decode [⟨.command, 0x00000009⟩] = .ok (.btachk .i0, []) ∧
    decode [⟨.command, 0x00000007⟩] = .ok (.nopw .i0, []) := by decide

/-- V-OP-9, and R136 for the clock lane, the sequencer and the calculator. -/
theorem test_decode_engine :
    decode [⟨.command, 0x0001000A⟩] = .ok (.seths .i0 true, []) ∧
    decode [⟨.command, 0x0000000B⟩] = .ok (.envideo .i0, []) ∧
    decode [⟨.command, 0x0000000C⟩] = .ok (.clkon .i0, []) ∧
    decode [⟨.command, 0x0000000D⟩] = .ok (.seqprog .i0, []) ∧
    decode [⟨.command, 0x0000000E⟩, ⟨.command, 500000⟩] = .ok (.phyt .i0 500000, []) ∧
    decode [⟨.command, 0x0000000F⟩] = .ok (.sold .i0, []) ∧
    decode [⟨.command, 0x00000010⟩] = .ok (.plen .i0, []) := by decide

/-- R136: the composite operations, operand words in order. -/
theorem test_decode_composite :
    decode [⟨.command, 0x00000011⟩, ⟨.command, 1⟩, ⟨.command, 2⟩, ⟨.command, 3⟩, ⟨.command, 4⟩,
      ⟨.command, 5⟩, ⟨.command, 6⟩, ⟨.command, 7⟩, ⟨.command, 8⟩, ⟨.command, 9⟩, ⟨.command, 10⟩] =
      .ok (.tupdate .i0 ⟨1, 2, 3, 4, 5, 6, 7, 8, 9, 10⟩, []) ∧
    decode [⟨.command, 0x00030113⟩, ⟨.command, 0x04⟩, ⟨.command, 7⟩] = .ok (.tping .i1 0x04 3 7, []) := by
  decide

/-- R136: the micro-operations. -/
theorem test_decode_micro :
    decode [⟨.command, 0x00000020⟩, ⟨.command, 0⟩] = .ok (.regw .i0 0 0, []) ∧
    decode [⟨.command, 0x001A0021⟩] = .ok (.regr .i0 26, []) ∧
    decode [⟨.command, 0x00000022⟩, ⟨.command, 0x05⟩] = .ok (.push .i0 5, []) ∧
    decode [⟨.command, 0x00000123⟩] = .ok (.pop .i1, []) ∧
    decode [⟨.command, 0x00000024⟩] = .ok (.trig .i0, []) ∧
    decode [⟨.command, 0x00000025⟩] = .ok (.btareq .i0, []) ∧
    decode [⟨.command, 0x00020026⟩, ⟨.command, 20⟩, ⟨.command, 250⟩] = .ok (.poll .i0 2 20 250, []) := by
  decide

/-- V-OP-11, V-OP-12, V-SW-9, R121. -/
theorem test_decode_refused :
    decode [⟨.command, 0⟩] = .error .reservedOpnum ∧
    decode [⟨.command, 0x14⟩] = .error .reservedOpnum ∧
    decode [⟨.command, 0xFF⟩] = .error .reservedOpnum ∧
    decode [⟨.command, 0x00000206⟩] = .error .reservedBits ∧
    decode [⟨.command, 0x06⟩, ⟨.command, 0x00004000⟩] = .error .operandBits ∧
    decode [⟨.command, 0x00010003⟩] = .error .operandBits ∧
    decode [⟨.command, 0x0002000A⟩] = .error .operandBits ∧
    decode [⟨.packet .i0 .eot, 0x010F0F08⟩] = .error .wrongPattern ∧
    decode [⟨.packet .i0 .short, 0x01773A95⟩] = .error .eccByteNotZero ∧
    decode [⟨.packet .i0 .longHdr, 0x39⟩] = .error .zeroWordCount := by decide

/-- The opcode table's own numbering (log 2), and the step that runs a row first. -/
theorem test_decodeTableWord :
    decodeTableWord 32 0x0001000A = some (.seths .i0 true) ∧
    decodeTableWord 64 0x0000000000000006 = some (.twrite .i0 false 0 0 []) ∧
    decodeTableWord 8 0x1C = some (.respLong1C .i0) ∧
    decodeTableWord 32 0x000F0F08 = some (.eot .i0) := by decide

theorem test_withFetchWord :
    ends (step ((commandState Env.fresh).withFetchWord 32 0x12)) = some (.success, .khz 10000) := by decide

/-! ### Steps: packets and writes -/

/-- V-SW-3, V-LW-6 and the payload of V-P4-3, pushed in order with their kinds. -/
theorem test_rows_push :
    ((next? (exec (.shortPkt .i0 2 0x15 0x3A 0x77) (commandState (reads [0])))).map (·.inst0.hfifo)) =
      some [⟨.shortWord, 0x00773A95⟩] ∧
    ((next? (exec (.longHdr .i0 3 0x39 0x1234) (commandState (reads [0])))).map (·.inst0.hfifo)) =
      some [⟨.longHeader, 0x001234F9⟩] ∧
    ((next? (exec (.longPayload .i0 0xA2A1A02C) (commandState (reads [0])))).map (·.inst0.hfifo)) =
      some [⟨.payload, 0xA2A1A02C⟩] := by decide

/-- V-RC-3, and R118: no marker in low-power mode, the marker in high-speed mode. -/
theorem test_rows_control :
    ((next? (exec (.maxret .i0 1 256) (commandState (reads [0])))).map (·.inst0.hfifo)) =
      some [⟨.shortWord, 0x00010077⟩] ∧
    ((next? (exec (.dcsread .i0 1 0xDA) (commandState (reads [0])))).map (·.inst0.hfifo)) =
      some [⟨.shortWord, 0x0000DA46⟩] ∧
    ((next? (exec (.eot .i0) (commandState (reads [0])))).map (·.inst0.hfifo)) = some [] ∧
    ((next? (exec (.eot .i0) (withBlock { block .i0 (reads [0]) with hsMode := true }))).map (·.inst0.hfifo)) =
      some [⟨.eot, 0x000F0F08⟩] := by decide

/-- R410: a row while TRIGGER reads non-zero is refused. R83: a zero read completes what is in flight, so that only
the new word stands queued. -/
theorem test_rows_trigger :
    exec (.longPayload .i0 7) (commandState (reads [1])) = .refused .pushWhileBusy ∧
    ((next? (exec (.longPayload .i0 7) (withBlock { block .i0 (reads [0]) with
      hfifo := [⟨.shortWord, 5⟩], flight := .pending }))).map (·.inst0.hfifo)) = some [⟨.payload, 7⟩] :=
  ⟨rfl, by decide⟩

/-- V-LW-2 (program 2): ready at the second read, header, payload and marker under one trigger. -/
theorem test_twrite_long :
    (after (exec (.twrite .i0 true 0x39 0x2A [0x00, 0x00, 0x01, 0x3F])
      (withBlock { block .i0 (reads [1, 0, 0]) with hsMode := true }))).map
        (fun r => (r.1.sent, r.1.hfifo, r.1.env.trigger.reads, r.2)) =
    some ([[⟨.longHeader, 0x00000539⟩, ⟨.payload, 0x0100002A⟩, ⟨.payload, 0x0000003F⟩,
      ⟨.eot, 0x000F0F08⟩]], [], 3, .success, .none) := by decide

/-- V-WC-3: thirteen reads, nothing pushed. -/
theorem test_twrite_busy :
    (after (exec (.twrite .i0 false 0x05 0x29 []) (commandState (reads (List.replicate 13 1))))).map
      (fun r => (r.1.sent, r.1.hfifo, r.1.env.trigger.reads, r.2)) =
    some ([], [], 13, .hardwareBusyTimeout, .none) := by decide

/-- V-WC-4 and R83: after `TriggerTimeout` the FIFO's contents are unspecified, and neither a zero read of TRIGGER nor a
host's own trigger defines them. -/
theorem test_twrite_lost :
    (after (exec (.twrite .i0 false 0x05 0x29 []) (commandState (reads (0 :: List.replicate 10 1))))).map
      (fun r => (r.1.flight, r.1.env.trigger.reads, r.1.fatal, r.2)) =
        some (.lost, 11, none, .triggerTimeout, .none) ∧
    (let lost (w : List Word) := withBlock { block .i0 (reads w) with flight := .lost }
     (next? (exec (.regr .i0 3) (lost [0]))).map (·.inst0.flight) = some .lost ∧
      (next? (exec (.trig .i0) (lost []))).map (·.inst0.flight) = some .lost) := ⟨rfl, rfl, rfl⟩

/-- V-SW-6, with the override of V-WC-2 undone. -/
theorem test_nopw :
    (after (exec (.nopw .i0) (withBlock { videoBlock panel with env := reads [0, 0] }))).map
      (fun r => (r.1.sent, r.1.regs.control, r.1.regs.hostControl, r.2)) =
    some ([[⟨.shortWord, 0x00000005⟩]], zeroControl params, zeroHostControl params, .success, .none) := by
  decide

/-! ### Steps: reads -/

/-- Program 3, V-RR-6. -/
theorem test_tread :
    (next? (exec (.tread .i0 false 0x04 3)
      (commandState (turns [0, 0, 0] [true, true, false] [[0x0000031C, 0x00CCBBAA], []])))).map
        (fun t => (t.mem, t.result.map (fun r => (r.status, r.out)), t.inst0.sent)) =
    some ([(0, 0xAA), (1, 0xBB), (2, 0xCC)], some (.success, .bytes 3),
      [[⟨.shortWord, 0x00000406⟩], [⟨.shortWord, 0x00000337⟩]]) := by decide

/-- V-RO-1: both control packets are sent before the stale word is seen. -/
theorem test_tread_stale :
    (after (exec (.tread .i0 false 0x0A 1)
      (withBlock { block .i0 (turns [0, 0, 0] [] []) with rfifo := [0x02] }))).map
        (fun r => (r.1.sent.length, r.1.rfifo, r.2)) =
    some (2, [0x02], .fifoNotEmptyAtStart, .none) := by decide

/-- Program 6: an acceptable word, and one that is not. -/
theorem test_btachk :
    ends (exec (.btachk .i0) (commandState (turns [] [false] [[0x3F004002], []]))) =
      some (.success, .none) ∧
    ends (exec (.btachk .i0) (commandState (turns [] [false] [[0x00000502], []]))) =
      some (.btaProtocolError, .none) := by decide

/-- The response rows on what V-RR-7, V-RR-13, V-RR-3 and V-RR-15 stage. -/
theorem test_resp_rows :
    (next? (exec (.respLong1A .i0) (withBlock
      { block .i0 Env.fresh with staging := unpackWords [0x5500031A, 0x00CCBBAA], readLen := 3 }))).map (·.mem) =
      some [(0, 0xAA), (1, 0xBB), (2, 0xCC)] ∧
    (next? (exec (.respLong1C .i0) (withBlock
      { block .i0 Env.fresh with staging := unpackWords [0x0000031C, 0x00CCBBAA], readLen := 2 }))).map (·.mem) =
      some [(0, 0xAA), (1, 0xBB)] ∧
    ends (exec (.respAckerr .i0) (withBlock
      { block .i0 Env.fresh with staging := unpackWords [0x00800002], readLen := 2 })) =
      some (.readAckError, .bytes 2) ∧
    (next? (exec (.respInvalid .i0 0x99) (withBlock
      { block .i0 Env.fresh with staging := unpackWords [0x12345699], readLen := 8 }))).map (·.mem) =
      some [(0, 0x99), (1, 0x56), (2, 0x34), (3, 0x12)] := by decide

/-- V-RR-2, V-RR-1, V-RR-3, V-RR-4. -/
theorem test_resp_short :
    (next? (exec (.respShort1x11 .i0) (withBlock
      { block .i0 Env.fresh with staging := unpackWords [0x00000711], readLen := 4 }))).map (·.mem) =
      some [(0, 0x07)] ∧
    (next? (exec (.respShort1x21 .i0) (withBlock
      { block .i0 Env.fresh with staging := unpackWords [0x00009C21], readLen := 1 }))).map (·.mem) =
      some [(0, 0x9C)] ∧
    (next? (exec (.respShort2x12 .i0) (withBlock
      { block .i0 Env.fresh with staging := unpackWords [0x00BBAA12], readLen := 2 }))).map (·.mem) =
      some [(0, 0xAA), (1, 0xBB)] ∧
    (next? (exec (.respShort2x22 .i0) (withBlock
      { block .i0 Env.fresh with staging := unpackWords [0x00341222], readLen := 2 }))).map (·.mem) =
      some [(0, 0x12), (1, 0x34)] := by decide

/-! ### Steps: the sequencer and the calculator -/

/-- R129, R130: ids and selectors build a half, V-SEQ-3's `slot[3].lo`; a sync packet takes no length. -/
theorem test_seq_rows :
    ((next? (exec (.pktHsyncStart .i0) (commandState Env.fresh))).bind fun a =>
      (next? (exec (.lenHbp .i0) a)).bind fun b =>
      (next? (exec (.pktBlanking .i0) b)).bind fun c =>
      (next? (exec (.lenHbp .i0) c)).bind fun d =>
      (next? (exec (.slotHalf .i0 3 false true) d)).map fun e => (e.inst0.regs.slots.s3.lo, e.inst0.halfStage)) =
    some (⟨[⟨.hsyncStart, .none⟩, ⟨.blanking, .hbp⟩], true⟩, []) := by decide

/-- R131: the number an id has. -/
theorem test_seq_codes :
    ends (exec (.pktVsyncEnd .i0) (commandState Env.fresh)) = some (.success, .packetId 0x11) ∧
    ends (exec (.pktHActive24 .i0) (commandState Env.fresh)) = some (.success, .packetId 0x3E) ∧
    ends (exec (.lenNone .i0) (commandState Env.fresh)) = some (.success, .length none) ∧
    ends (exec (.lenHact .i0) (withBlock { block .i0 Env.fresh with
      regs := { resetRegs params with pktLen := ⟨122, 562, 5760, 256, 0, 0⟩ } })) =
      some (.success, .length (some 5760)) := by decide

/-- Program 5: the non-burst program with sync end. -/
theorem test_seqprog :
    (after (exec (.seqprog .i0) (withBlock (videoBlock { panel with videoMode := .nonBurstSyncEnd })))).map
      (fun r => (r.1.regs.slots.s3, r.1.regs.slots.s5, r.1.regs.slots.s1.lo)) =
    some (⟨⟨[⟨.hsyncStart, .none⟩, ⟨.blanking, .hsync⟩], true⟩,
        ⟨[⟨.hsyncEnd, .none⟩, ⟨.blanking, .hbp⟩, ⟨.hActiveLength24Bpp, .hact⟩, ⟨.blanking, .hfp⟩], true⟩⟩,
      ⟨⟨[⟨.hsyncStart, .none⟩, ⟨.blanking, .hsync⟩], true⟩,
        ⟨[⟨.hsyncEnd, .none⟩, ⟨.blanking, .hbp⟩, ⟨.hActiveLength24Bpp, .hact⟩, ⟨.blanking, .hfp⟩], true⟩⟩,
      ⟨[⟨.vsyncEnd, .none⟩], true⟩) := by decide

/-- V-PHY-10: overrides verbatim. -/
theorem test_phyt :
    ends (exec (.phyt .i0 500000) (commandState Env.fresh)) = some (.success, .phySet overrides) := by decide

/-- V-PHY-1, V-PHY-4, V-PHY-6 and the triad of 2.3, V-TMO-1, V-TMO-5: the arithmetic of R154 to R156. -/
theorem test_phy_arithmetic :
    ceilPeriods ⟨100, 0⟩ 500000000 = 13 ∧ ceilPeriods ⟨100, 0⟩ 200000000 = 5 ∧
    ceilPeriods ⟨50, 0⟩ 162000000 = 3 ∧ triadOf ⟨255, 255, 255⟩ 60 = ⟨255, 120, 240⟩ ∧
    timeoutValue 0 12 4 ⟨1000, 0, 0, 0, 500, 0, 0, 0⟩ = 47320 ∧
    timeoutValue 0 9 3 ⟨858, 0, 0, 0, 525, 0, 0, 0⟩ = 10157 := by decide

/-- 2.2: `Bpp18Packed` on three lanes. -/
theorem test_sold :
    ends (exec (.sold .i0) (withBlock (videoBlock
      { panel with videoMode := .nonBurst, dataFormat := .bpp18Packed, nLanes := 3 }))) =
      some (.success, .sol 6 450000) := by decide

/-- V-LEN-2, V-LEN-8. -/
theorem test_plen :
    ends (exec (.plen .i0) (withBlock (videoBlock { panel with videoMode := .nonBurst }))) =
      some (.success, .lens ⟨122, 562, 5760, 256, 0, 0⟩) ∧
    ends (exec (.plen .i0) (withBlock (videoBlock { panel with
      videoMode := .nonBurst, dataFormat := .bpp18Packed, timing := ⟨800, 4, 2, 4, 0, 0, 0, 0⟩ }))) =
      some (.success, .lens ⟨0, 0, 1800, 1, 0, 0⟩) := by decide

/-! ### Steps: the clock lane and the lifecycle -/

/-- V-HS-3: the frequency is what the clock service answers. -/
theorem test_seths :
    (after (exec (.seths .i0 false) (withBlock { block .i0 { reads [0] with clock := ⟨[9984], 0⟩ } with
      hsMode := true }))).map
        (fun r => (r.1.hsMode, r.1.regs.hostControl.hsTransmit, r.1.curPhyFreq, r.1.regs.phy, r.2)) =
    some (false, false, 9984, overrides.fields, .success, .none) := by decide

/-- V-HS-4: the fatal cause. -/
theorem test_seths_fatal :
    (after (exec (.seths .i0 true) (commandState
      { reads (List.replicate 13 1) with clock := ⟨[400000], 0⟩ }))).map (fun r => (r.1.fatal, r.2)) =
    some (some .cmdModeNotReadyAfterModeSwitch, .fatalHardwareFault, .none) := by decide

/-- V-CK-1, V-CK-3. -/
theorem test_clkon :
    (after (exec (.clkon .i0) (commandState
      { Env.fresh with attempt := ⟨[false, false, true], 0⟩ }))).map (fun r => (r.1.env.attempt.reads, r.2)) =
      some (3, .success, .none) ∧
    (after (exec (.clkon .i0) (commandState
      { Env.fresh with attempt := ⟨List.replicate 6 false, 0⟩ }))).map (fun r => (r.1.env.attempt.reads, r.2)) =
      some (5, .fatalHardwareFault, .none) := by decide

/-- V-EV-1. -/
theorem test_envideo :
    (after (exec (.envideo .i0) (commandState { Env.fresh with clock := ⟨[10000], 0⟩ }))).map
      (fun r => (r.1.regs.ifEnable, r.1.regs.control, r.1.hsMode, r.1.env.attempt.reads, r.2)) =
    some (true, ⟨true, false, 1, .txOnly⟩, false, 0, .success, .none) := by decide

/-- V-EV-3: a self-check whose turn-around times out falls back. -/
theorem test_envideo_fallback :
    (after (exec (.envideo .i0) (withBlock { block .i0 { turns [0, 0, 0, 0, 0] (List.replicate 10 true) [] with
        clock := ⟨[10000, 400000, 10000], 0⟩, attempt := ⟨[true], 0⟩ } with
      cfg := { panel with hsClkPolicy := .continuous } }))).map
        (fun r => (r.1.hsMode, r.1.regs.control.hsClkCtrl, r.2)) =
    some (false, .txOnly, .success, .none) := by decide

/-- The machine before `TransInit`, with one descriptor and the environment's answers. -/
def initState (d : PanelDescriptor) (answers : List Bool) : State :=
  { State.resetWith params with
    descTable := [d]
    inst0 := { Instance.reset params .i0 0 with
      env := { Env.fresh with initCall := ⟨answers, 0⟩, clock := ⟨[10000], 0⟩ } } }

/-- V-LC-2, V-LC-4. -/
theorem test_tinit :
    (after (exec (.tinit .i0 0 0) (initState panel [true, true, true, true]))).map
      (fun r => (r.1.lifecycle, r.1.regs.padEnable, r.1.curPhyFreq, r.2)) =
      some (.transportReady, true, 10000, .success, .none) ∧
    (after (exec (.tinit .i0 0 0) (initState panel [true, false]))).map
      (fun r => (r.1.lifecycle, r.1.env.calls, r.2)) =
      some (.uninitialized, [.closeDevice, .mapAperture, .openDevice], .initFailed, .none) := by decide

/-- V-LC-9: the fatal record goes. -/
theorem test_tdeinit :
    (after (exec (.tdeinit .i0) (withBlock { block .i0 Env.fresh with
      fatal := some .unknownDataFormat }))).map (fun r => (r.1.fatal, r.1.initialized, r.2)) =
    some (none, false, .success, .none) := by decide

/-- V-LC-7, with the DC's output on (R57). -/
theorem test_enable :
    (next? (exec (.enable .i0) (withBlock { block .i0 { Env.fresh with clock := ⟨[450000, 450000], 0⟩ } with
      cfg := { panel with videoMode := .nonBurst } }))).map
        (fun t => (t.inst0.lifecycle, t.inst0.hostActive, t.inst0.regs.control, t.dc)) =
    some (.enabled, false, ⟨true, false, 1, .txOnly⟩, [(0, ⟨true, ⟨0, 0, 0, 0⟩⟩)]) := by decide

/-- V-LC-8. -/
theorem test_disable :
    (next? (exec (.disable .i0) { withBlock { videoBlock panel with hsMode := true } with
      dc := [(0, ⟨true, ⟨0, 0, 0, 0⟩⟩)] })).map (fun t => (t.inst0.lifecycle, t.inst0.regs.ifEnable, t.inst0.hsMode, t.dc)) =
    some (.transportReady, false, true, []) := by decide

/-- V-LC-6. -/
theorem test_cmdmode :
    (after (exec (.cmdmode .i0) (withBlock { videoBlock panel with
      hsMode := true, env := { reads [0] with clock := ⟨[10000], 0⟩ } }))).map
        (fun r => (r.1.lifecycle, r.1.hsMode, r.1.regs.control.videoEnable, r.1.regs.control.hostEnable,
          r.1.hostActive)) =
    some (.commandModeEnabled, false, false, true, true) := by decide

/-- V-LC-12. -/
theorem test_getfreq :
    ends (exec (.getfreq .i0) (withBlock { block .i0 Env.fresh with curPhyFreq := 9984 })) =
      some (.success, .khz 9984) := by decide

/-! ### Steps: composite operations -/

/-- R345: a rectangle of two by one pixels of three bytes in chunks of four, after the panel's sequence. -/
theorem test_tupdate :
    (next? (exec (.tupdate .i0 ⟨0x10, 4, 4, 24, 1, 0, 0, 0, 2, 1⟩)
      { commandState { reads (List.replicate 6 0) with partialSeq := ⟨[[⟨0x05, 0x12, [], false⟩]], 0⟩ } with
        mem := [(0x13, 1), (0x14, 2), (0x15, 3), (0x16, 4), (0x17, 5), (0x18, 6)] })).map
          (fun t => (t.inst0.sent.map (·.map (·.word)), t.result.map (·.status))) =
    some ([[0x00000339, 0x0006053C], [0x00000539, 0x0302012C, 0x00000004], [0x00001205]], some .success) := by
  decide

/-- V-TE-3. -/
theorem test_tupdate_noTe :
    ends (exec (.tupdate .i0 ⟨0, 0, 0, 24, 0, 0, 0, 0, 0, 0⟩)
      (withBlock { block .i0 { Env.fresh with te := ⟨[false], 0⟩, partialSeq := ⟨[[]], 0⟩ } with
        te := some ⟨false, true⟩ })) = some (.teWaitTimeout, .none) := by decide

/-- R348: the read's result, and the video-mode state as before. -/
theorem test_tping :
    (after (exec (.tping .i0 0x0A 1 0) (withBlock { videoBlock panel with
      env := turns [0, 0, 0] [false] [[0x00009C21], []]
      regs := { resetRegs params with control := ⟨true, false, 1, .txOnly⟩ } }))).map
        (fun r => (r.1.regs.control, r.1.hostActive, r.2)) =
    some (⟨true, false, 1, .txOnly⟩, false, .success, .ping .success 1) := by decide

/-! ### Steps: micro-operations and the TE edge -/

/-- R210: `IF_ENABLE` and `TIMEOUT` from a raw word. -/
theorem test_regw :
    (after (exec (.regw .i0 0 1) (commandState Env.fresh))).map (fun r => r.1.regs.ifEnable) = some true ∧
    (after (exec (.regw .i0 22 0x00012345) (commandState Env.fresh))).map (fun r => r.1.regs.timeout) =
      some 0x2345 := by decide

/-- R211: `TRIGGER` is an answer of the environment; `PKT_SEQ_3_HI` is index 14. -/
theorem test_regr :
    ends (exec (.regr .i0 3) (commandState (reads [7]))) = some (.success, .reg (.trigger 7)) ∧
    ends (exec (.regr .i0 14) (withBlock { block .i0 Env.fresh with
      regs := { resetRegs params with slots :=
        { zeroSlots with s3 := ⟨zeroHalf, ⟨[⟨.blanking, .hfp⟩], true⟩⟩ } } })) =
      some (.success, .reg (.pktSeq ⟨[⟨.blanking, .hfp⟩], true⟩)) := by decide

theorem test_push :
    (after (exec (.push .i0 0x05) (commandState (reads [0])))).map (fun r => (r.1.hfifo, r.2)) =
      some ([⟨.shortWord, 0x05⟩], .success, .none) ∧
    ends (exec (.push .i0 0x05) (commandState (reads [1]))) = none := by decide

theorem test_pop :
    (after (exec (.pop .i0) (withBlock { block .i0 Env.fresh with rfifo := [1, 2] }))).map
      (fun r => (r.1.rfifo, r.2)) = some ([2], .success, .word 1) := by decide

/-- R214: immediate mode hands the queue over; the other mode does not. -/
theorem test_trig :
    (after (exec (.trig .i0) (withBlock { block .i0 Env.fresh with
      hfifo := [⟨.shortWord, 5⟩]
      regs := { resetRegs params with hostControl := ⟨.immediate, false, false⟩ } }))).map
        (fun r => (r.1.sent, r.1.regs.trigger)) = some ([[⟨.shortWord, 5⟩]], 1) ∧
    (after (exec (.trig .i0) (withBlock { block .i0 Env.fresh with
      hfifo := [⟨.shortWord, 5⟩]
      regs := { resetRegs params with hostControl := ⟨.other, false, false⟩ } }))).map
        (fun r => r.1.sent) = some [] := by decide

theorem test_btareq :
    (after (exec (.btareq .i0) (commandState Env.fresh))).map
      (fun r => (r.1.regs.hostControl.immBta, r.1.regs.btaActive)) = some (true, true) := by decide

/-- `(100, 7) → 15` of 2.7: fifteen reads and no more. -/
theorem test_poll :
    (after (exec (.poll .i0 0 7 100) (commandState (reads (List.replicate 15 1))))).map
      (fun r => (r.1.env.trigger.reads, r.2)) = some (15, .success, .poll .timedOut) ∧
    (after (exec (.poll .i0 1 20 250) (commandState (turns [] [true, false] [])))).map
      (fun r => (r.1.env.bta.reads, r.2)) = some (2, .success, .poll .ready) := by decide

/-- V-TE-1, V-TE-2. -/
theorem test_teEdge :
    (next? (step { withBlock { block .i0 Env.fresh with te := some ⟨false, true⟩ } with
      port := [⟨.teEdge .i0, 0⟩] })).map (·.inst0.te) = some (some ⟨false, true⟩) ∧
    (next? (step { withBlock { block .i0 Env.fresh with te := some ⟨false, false⟩ } with
      port := [⟨.teEdge .i0, 0⟩] })).map (·.inst0.te) = some (some ⟨true, true⟩) := by decide

/-! ### States that meet the hypotheses of the statements, each clause at a boundary of its range -/

/-- The block of the fixtures is at rest. -/
theorem test_hyp_rest (n : InstId) (e : Env) : AtRest (block n e) := ⟨rfl, rfl, rfl, rfl, nofun⟩

/-- It accepts operations. -/
theorem test_hyp_accepts (e : Env) : Accepts (commandState e) .i0 := ⟨rfl, rfl⟩

/-- Its lock is free as well. -/
theorem test_hyp_open (e : Env) : Open (commandState e) .i0 := ⟨test_hyp_accepts e, rfl⟩

/-- Its configuration is legal. -/
theorem test_hyp_config (n : InstId) (e : Env) : ConfigOk params (block n e) := fun _ _ =>
  ⟨rfl, rfl, by show 0 < 10000; decide, fun _ => ⟨rfl, rfl⟩⟩

/-- The constants of the fixtures let every wait read. -/
theorem test_hyp_polls : PollsOk params := ⟨by decide, by decide⟩

/-- The invariant, with a block in command mode and a block not initialised (`StepKeepsInvariant`). -/
theorem test_hyp_inv (e : Env) : Inv (commandState e) :=
  ⟨⟨rfl, rfl⟩, ⟨rfl, test_hyp_rest .i0 e, test_hyp_config .i0 e⟩,
    ⟨rfl, ⟨rfl, rfl, rfl, rfl, nofun⟩, fun _ h => nomatch h⟩⟩

/-- `EncodeThenDecode`, at the bounds of the checks. -/
theorem test_hyp_EncodeThenDecode :
    (Instr.longHdr .i0 3 0x39 1).wf = true ∧ (Instr.respInvalid .i1 0x99).wf = true ∧
    (Instr.regw .i0 26 0).wf = true ∧ (Instr.regr .i1 0).wf = true ∧ (Instr.poll .i0 2 1 1).wf = true ∧
    (Instr.twrite .i0 true 0x39 0x2A []).wf = true := by decide

/-- `DecodedIsWellFormed`. -/
theorem test_hyp_DecodedIsWellFormed :
    decode [⟨.command, 0x00020026⟩, ⟨.command, 1⟩, ⟨.command, 1⟩, ⟨.command, 7⟩] =
      .ok (.poll .i0 2 1 1, [⟨.command, 7⟩]) := by decide

/-- `ReservedEncodingsRefused`: each end of each gap, the reserved bits, the unused immediate, the packet words. -/
theorem test_hyp_ReservedEncodingsRefused :
    (∀ w, w ∈ [0, 0x14, 0x1F, 0x27, 0xFF, 0x206, 0x8006, 0x00010003, 0x80000024, 0x0002000A, 0x8001000A] →
      field w 0 8 = 0 ∨ (0x14 ≤ field w 0 8 ∧ field w 0 8 ≤ 0x1F) ∨ 0x27 ≤ field w 0 8 ∨ field w 9 7 ≠ 0 ∨
        field w 0 8 ∉ [0x01, 0x06, 0x08, 0x0A, 0x13, 0x20, 0x21, 0x26] ∧ field w 16 16 ≠ 0 ∨
        field w 0 8 = 0x0A ∧ 2 ≤ field w 16 16) ∧
    ({ State.resetWith params with port := [⟨.command, 0x14⟩] } : State).port = [⟨.command, 0x14⟩] ∧
    (PacketRow.short ≠ .payload ∧ field 0x01773A95 24 8 ≠ 0) ∧
    (PacketRow.eot ≠ .payload ∧ field 0x010F0F08 24 8 ≠ 0) ∧ field 0x00000039 8 16 = 0 := by
  refine ⟨fun w hw => ?_, rfl, by decide, by decide, by decide⟩
  simp only [List.mem_cons, List.not_mem_nil, or_false] at hw
  rcases hw with rfl | rfl | rfl | rfl | rfl | rfl | rfl | rfl | rfl | rfl | rfl <;> decide

/-- `StepRunsDecoded`, both clauses. -/
theorem test_hyp_StepRunsDecoded :
    decode ({ commandState Env.fresh with port := [⟨.command, 0x12⟩] } : State).port = .ok (.getfreq .i0, []) ∧
    decode (tableUnits 32 0x12 ++ (commandState Env.fresh).port) = .ok (.getfreq .i0, []) := by decide

/-- `StepKeepsInvariant`, `OneBlockChanges`: a step and an instruction that answer. -/
theorem test_hyp_StepKeepsInvariant :
    (∃ t, step { commandState Env.fresh with port := [⟨.command, 0x12⟩] } = .next t) ∧
    (∃ t, exec (.getfreq .i0) (commandState Env.fresh) = .next t) ∧
    BlockOk params .i0 (block .i0 Env.fresh) :=
  ⟨⟨_, rfl⟩, ⟨_, rfl⟩, rfl, test_hyp_rest .i0 _, test_hyp_config .i0 _⟩

/-- `OnlyTheFrameMutexBlocks`: the ping of the one case, and a block whose lock is held. -/
theorem test_hyp_OnlyTheFrameMutexBlocks :
    let s : State := { commandState Env.fresh with
      frameMutex := true, port := [⟨.command, 0x00010013⟩, ⟨.command, 0⟩, ⟨.command, 0⟩] }
    Inv s ∧ step s = .fault .blockedOnFrameMutex ∧
    (Accepts (withBlock (block .i0 Env.fresh).acquire) .i0 ∧
      ((withBlock (block .i0 Env.fresh).acquire).inst .i0).lock = .held ∧
      (∀ n, Instr.trig .i0 ≠ .getfreq n) ∧ (∀ n d f, Instr.trig .i0 ≠ .tinit n d f) ∧
      exec (.trig .i0) (withBlock (block .i0 Env.fresh).acquire) = .fault .blockedOnLock) :=
  ⟨test_hyp_inv Env.fresh, rfl, ⟨rfl, rfl⟩, rfl, nofun, nofun, rfl⟩

/-- `MemoryAndDcFrame`: a read that delivers three bytes at 0, an address outside, another controller. -/
theorem test_hyp_MemoryAndDcFrame :
    let s := commandState (turns [0, 0, 0] [false] [[0x0000031C, 0x00CCBBAA], []])
    (∃ t, exec (.tread .i0 false 0x04 3) s = .next t ∧ deliveredBytes t.result = 3) ∧
    storesBytes (.tread .i0 false 0x04 3) = true ∧ (s.inst .i0).outBuf + 3 ≤ 3 ∧
    (s.inst .i0).ctrlIndex ≠ 1 ∧ (∀ n, Instr.tread .i0 false 0x04 3 ≠ .enable n ∧
      Instr.tread .i0 false 0x04 3 ≠ .disable n) :=
  ⟨⟨_, rfl, rfl⟩, rfl, by decide, by decide, fun _ => ⟨nofun, nofun⟩⟩

/-- `FatalIsSticky`, `RowsAreChecked`: a faulted block, its lock free. -/
theorem test_hyp_FatalIsSticky :
    let s := withBlock { block .i0 Env.fresh with fatal := some .unknownDataFormat }
    isOperation (.twrite .i0 false 0 0 []) = true ∧ isOperation (.pop .i0) = false ∧
    (s.inst .i0).fatal ≠ none ∧ (s.inst .i0).lock = .free := by decide

/-- `NotInitializedFirst`, `RowsAreChecked`: a block not initialised. -/
theorem test_hyp_NotInitializedFirst :
    let s := State.resetWith params
    isOperation (.getfreq .i1) = true ∧ isOperation (.eot .i1) = false ∧
    (s.inst .i1).fatal = none ∧ (s.inst .i1).initialized = false := by decide

/-- The descriptor with a TE GPIO and no overrides. -/
def tePanel : PanelDescriptor := { panel with teGpioPresent := true, phyOverrides := none }

/-- `TransInitLeavesResetState`, without and with a TE GPIO, a known format and an unknown one under overrides. -/
theorem test_hyp_TransInitLeavesResetState :
    (∀ d, d ∈ [panel, tePanel] →
      let s := initState d (List.replicate 6 true)
      (s.inst .i0).fatal = none ∧ (s.inst .i0).initialized = false ∧ s.descriptor 0 = d ∧
      descriptorOk d = true ∧ overridesFit params d = true ∧ (d.dataFormat ≠ .unknown ∨ d.phyOverrides ≠ none)) ∧
    overridesFit params { panel with dataFormat := .unknown } = true ∧
    ({ panel with dataFormat := .unknown } : PanelDescriptor).phyOverrides ≠ none ∧
    (∀ k, k < 6 → ((initState tePanel (List.replicate 6 true)).inst .i0).initAt k = true) := by decide

/-- `TransInitOtherEnds`: five lanes, an override too large, the first and the last call failing, an unknown
format (also `UnknownFormatIsFatal`). -/
theorem test_hyp_TransInitOtherEnds :
    descriptorOk { panel with nLanes := 5 } = false ∧ descriptorOk { panel with virtualChannel := 4 } = false ∧
    overridesFit params { panel with phyOverrides := some { overrides with
      triad := ⟨256, 0, 0⟩ } } = false ∧
    ((initState panel [false]).inst .i0).initAt 0 = false ∧
    (((initState tePanel [true, true, true, true, true, false]).inst .i0).initAt 5 = false ∧
      (∀ m, m < 5 → ((initState tePanel [true, true, true, true, true, false]).inst .i0).initAt m = true) ∧
      tePanel.teGpioPresent = true ∧ (tePanel.dataFormat ≠ .unknown ∨ tePanel.phyOverrides ≠ none)) ∧
    (descriptorOk { panel with dataFormat := .unknown, phyOverrides := none } = true ∧
      ∀ k, k < 4 → ((initState { panel with dataFormat := .unknown, phyOverrides := none }
        [true, true, true, true]).inst .i0).initAt k = true) ∧
    (block .i0 Env.fresh).initialized = true := by decide

/-- `TransDeinitTearsDown`, both clauses; `DisableStopsTheLink`, both clauses. -/
theorem test_hyp_TransDeinitTearsDown :
    (block .i0 Env.fresh).lock = .free ∧ (block .i0 Env.fresh).acquire.lock = .held ∧
    ({ block .i0 Env.fresh with lifecycle := .transportReady } : Instance).initialized = true ∧
    (videoBlock panel).lifecycle ≠ .transportReady ∧ (videoBlock panel).initialized = true := by decide

/-- `EnableProgramsTheLink`: a panel of one block, and the second half of a ganged one (also `GangedSetup`,
where the first half is missing). -/
theorem test_hyp_EnableProgramsTheLink :
    let ganged : State := { State.resetWith params with
      inst1 := { block .i1 Env.fresh with cfg := { panel with videoMode := .ganged } } }
    (Accepts (commandState Env.fresh) .i0 ∧ MemoryOk (commandState Env.fresh)) ∧
    (Accepts { ganged with gangedStep := .firstEnabled } .i1 ∧ MemoryOk { ganged with gangedStep := .firstEnabled }) ∧
    overridesFit params panel = true ∧ panel.hsClkPolicy = .txOnly ∧ panel.dataFormat ≠ .unknown ∧
    ganged.inst1.cfg.videoMode = .ganged ∧ ganged.gangedStep ≠ .firstEnabled ∧ ganged.inst1.lock = .free :=
  ⟨⟨⟨rfl, rfl⟩, by decide, by decide⟩, ⟨⟨rfl, rfl⟩, by decide, by decide⟩, by decide, rfl, nofun, rfl, nofun, rfl⟩

/-- `CommandModeSwitches`, `ModeSwitches`: a link ready at the first read, at the last one, and never. -/
theorem test_hyp_CommandModeSwitches :
    let hs (ts : List Word) : Instance := { block .i0 (reads ts) with hsMode := true }
    (hs [0]).ReadyAfter 0 0 ∧ (hs (List.replicate 12 1 ++ [0])).ReadyAfter 0 12 ∧
    12 < pollCount params.cmdReadyStep params.cmdReadyMax ∧
    (∀ k, k < pollCount params.cmdReadyStep params.cmdReadyMax → (hs (List.replicate 13 1)).triggerAt k ≠ 0) ∧
    (block .i0 Env.fresh).hsMode = false :=
  ⟨⟨by decide, by decide⟩, ⟨by decide, by decide⟩, by decide, by decide, rfl⟩

/-- `WriteCompletes` and its kin: the operands, the first and the last read of each wait, the counter. -/
theorem test_hyp_WriteCompletes :
    writtenPacket params (.twrite .i0 true 0x39 0x2A [1]) = some ⟨0x39, 0x2A, [1], true⟩ ∧
    writtenPacket params (.nopw .i0) = some (nopPacket params) ∧
    (block .i0 Env.fresh).sendRefusal params ⟨0x39, 0x2A, [1], true⟩ = none ∧
    (block .i0 (reads [0, 0])).ReadyAfter 0 0 ∧ (block .i0 (reads [0, 0])).ReadyAfter 1 0 ∧
    (block .i0 (reads (List.replicate 12 1 ++ [0] ++ List.replicate 9 1 ++ [0]))).ReadyAfter 0 12 ∧
    (block .i0 (reads (List.replicate 12 1 ++ [0] ++ List.replicate 9 1 ++ [0]))).ReadyAfter 13 9 ∧
    12 < pollCount params.cmdReadyStep params.cmdReadyMax ∧ 9 < pollCount params.triggerStep params.triggerMax ∧
    ({ params with useSyncpt := true, readyPollTwice := true } : Params).useSyncpt = true :=
  ⟨rfl, rfl, by decide, ⟨by decide, by decide⟩, ⟨by decide, by decide⟩, ⟨by decide, by decide⟩,
    ⟨by decide, by decide⟩, by decide, by decide, rfl⟩

/-- `BusyLinkTimesOut`, `CompletionTimesOut`: no read of the wait gives 0. -/
theorem test_hyp_TimesOut :
    (∀ j, j < pollCount params.cmdReadyStep params.cmdReadyMax →
      (block .i0 (reads (List.replicate 13 1))).triggerAt j ≠ 0) ∧
    (block .i0 (reads (0 :: List.replicate 10 1))).ReadyAfter 0 0 ∧
    (∀ j, j < pollCount params.triggerStep params.triggerMax →
      (block .i0 (reads (0 :: List.replicate 10 1))).triggerAt (0 + 1 + j) ≠ 0) :=
  ⟨by decide, ⟨by decide, by decide⟩, by decide⟩

/-- `WriteRefusals`: 252 bytes in low power and 248 in high speed (V-LW-9), and a length that does not fit
(V-LW-8). -/
theorem test_hyp_WriteRefusals (b : Byte) :
    params.hostFifoDepth < 1 + ((List.replicate 252 b).length + 1 + 3) / 4 ∧
    params.hostFifoDepth < 1 + ((List.replicate 248 b).length + 1 + 3) / 4 + 1 ∧
    65535 < (List.replicate 65535 b).length + 1 := by
  simp only [List.length_replicate]
  decide

/-- `WriteFrame`, `ReadFrame`, `UpdateRuns`: instructions that answer. -/
theorem test_hyp_WriteFrame :
    (∃ t, exec (.nopw .i0) (commandState (reads [0, 0])) = .next t) ∧
    (∃ t, exec (.btachk .i0) (commandState (turns [] [false] [[0x00000102], []])) = .next t) ∧
    (∃ t, exec (.tping .i0 0x0A 1 0) (commandState (turns [0, 0, 0] [false] [[0x00009C21], []])) = .next t) :=
  ⟨⟨_, rfl⟩, ⟨_, rfl⟩, ⟨_, rfl⟩⟩

/-- `PacketRowsPush`, `FifosAndBtaRequest`, `TriggerAndRefusedPushes`: room for one word and none, both modes, a read
of TRIGGER that is zero and one that is not. -/
theorem test_hyp_PacketRowsPush :
    let full (k : Nat) : Instance := { block .i0 (reads [0]) with hfifo := List.replicate k ⟨.payload, 0⟩ }
    ((full 63).triggerAt 0 = 0 ∧ (full 63).queued.length < params.hostFifoDepth) ∧
    ((full 64).triggerAt 0 = 0 ∧ params.hostFifoDepth ≤ (full 64).queued.length) ∧
    (block .i0 (reads [1])).triggerAt 0 ≠ 0 ∧
    ({ block .i0 Env.fresh with hsMode := true } : Instance).hsMode = true ∧ (block .i0 Env.fresh).hsMode = false := by
  decide

/-- The same constants with a completion counter and a second ready poll in a read. -/
def countParams : Params := { params with useSyncpt := true, readyPollTwice := true }

/-- An environment whose completion counter is scripted beside a turn-around. -/
def counts (ts : List Word) (cs bs : List Bool) (ps : List (List Word)) : Env :=
  { turns ts bs ps with syncpt := ⟨cs, 0⟩ }

/-- `ReadDelivers`, `BtaCheckClassifies`, `PingReads`: two words at the second read of the count; nothing at all;
completion by re-reading TRIGGER and by the counter; a control packet that fits and one that does not. -/
theorem test_hyp_ReadDelivers :
    LinkReady params (readPolls params) 2 (block .i0 (turns [0, 0, 0] [] [])) ∧
    LinkReady countParams (readPolls countParams) 2 (block .i0 (counts [0, 0] [true, true] [] [])) ∧
    PollsOk countParams ∧
    PanelAnswers params (block .i0 (turns [0, 0, 0] [true, false] [[], [0x0000031C, 0x00CCBBAA], []]))
      [0x0000031C, 0x00CCBBAA] ∧
    PanelAnswers params { block .i0 (turns [] [false] [[], [], [], []]) with btaSeen := true } [] ∧
    (block .i0 Env.fresh).readRefusal params 0x0A 1 = none ∧
    ({ block .i0 Env.fresh with hfifo := List.replicate 63 ⟨.payload, 0⟩ } : Instance).readRefusal params 0x0A 1 = none ∧
    params.hostFifoDepth < ({ block .i0 Env.fresh with
      hfifo := List.replicate 64 ⟨.payload, 0⟩ } : Instance).queued.length + 1 + 0 ∧
    ({ params with hostFifoDepth := 1, eotOnReadCtrl := true } : Params).hostFifoDepth < 1 + 1 :=
  ⟨⟨by decide, by decide⟩, ⟨by decide, by decide⟩, ⟨by decide, by decide⟩,
    ⟨rfl, nofun, ⟨1, by decide, by decide, by decide⟩,
      .inl ⟨1, by decide, by decide, by decide, by decide, by decide⟩, by decide⟩,
    ⟨rfl, fun _ => by decide, ⟨0, by decide, by decide, by decide⟩, .inr ⟨rfl, by decide⟩, by decide⟩,
    by decide, by decide, by decide, by decide⟩

/-- `ReadDelivers` refuses, by the exact words between two triggers (R412). -/
theorem test_tread_refused :
    exec (.tread .i0 false 0x0A 1) (withBlock { block .i0 Env.fresh with
      hfifo := List.replicate 64 ⟨.payload, 0⟩ }) = .refused .packetTooLarge := by rfl

/-- `StaleWordsFail`. -/
theorem test_hyp_StaleWordsFail :
    let i : Instance := { block .i0 (reads [0, 0, 0]) with rfifo := [0x02] }
    i.readCount.1 ≠ 0 ∧ i.rfifo ≠ [] ∧ LinkReady params (readPolls params) 2 i ∧
      i.readRefusal params 0x0A 1 = none :=
  ⟨by decide, by decide, ⟨by decide, by decide⟩, by decide⟩

/-- `BtaTimesOut`: ten reads (V-BS-3), before and after the first turn-around. -/
theorem test_hyp_BtaTimesOut :
    let i : Instance := block .i0 (turns [] (List.replicate 10 true) [])
    let j : Instance := { block .i0 (turns [] (List.replicate 10 true) [[]]) with btaSeen := true }
    i.rfifo = [] ∧ (i.btaSeen = true → i.panelAt 0 = []) ∧
    (∀ k, k < pollCount params.btaStep params.btaMax → i.btaAt k = true) ∧
    (j.btaSeen = true → j.panelAt 0 = []) := by decide

/-- `ReadFifoOverflows`: 33 words, one more than the FIFO holds (V-BS-5). -/
theorem test_hyp_ReadFifoOverflows :
    let i : Instance := block .i0 (turns [] [false] [List.replicate 33 0, []])
    i.BtaClearsAfter 0 ∧ 0 < pollCount params.btaStep params.btaMax ∧
    i.PanelSends i.panelStart (pollCount params.rdfifoStep params.rdfifoMax) (List.replicate 33 0) ∧
    params.rdFifoDepth < (List.replicate 33 (0 : Word)).length :=
  ⟨⟨by decide, by decide⟩, by decide, .inl ⟨0, by decide, by decide, by decide, by decide, by decide⟩, by decide⟩

/-- The sequencer's statements: the interface off, every mode, a known format and an unknown one. -/
theorem test_hyp_Sequence :
    (∀ m, m ∈ [VideoMode.burst, .nonBurst, .nonBurstSyncEnd, .dcDrivenCommand, .ganged] →
      (videoBlock { panel with videoMode := m }).regs.ifEnable = false ∧
      (videoBlock { panel with videoMode := m }).cfg.videoMode = m ∧
      activeId (videoBlock { panel with videoMode := m }).cfg.dataFormat = some .hActiveLength24Bpp) ∧
    (withBlock (videoBlock { panel with dataFormat := .unknown, phyOverrides := none })).inst0.cfg.phyOverrides =
      none ∧
    ({ resetRegs params with ifEnable := true } : Regs).ifEnable = true := by decide

/-- `PhyTimingEnds`, `PhyFieldsDerived`, `SolDelays`, `PacketLengths`: overrides and none, a known format. -/
theorem test_hyp_Timing :
    (500000 : Word) ≠ 0 ∧ (videoBlock tePanel).cfg.phyOverrides = none ∧
    bppQuarters (videoBlock tePanel).cfg.dataFormat = some 12 ∧
    overridesFit params (videoBlock panel).cfg = true ∧
    (videoBlock panel).cfg.phyOverrides = some overrides ∧
    overridesFit params { panel with phyOverrides := some { overrides with triad := ⟨256, 0, 0⟩ } } = false := by
  decide

/-- R152: overrides whatever the frequency; without them 0 is refused (log 47). -/
theorem test_phyt_zero :
    ends (exec (.phyt .i0 0) (commandState Env.fresh)) = some (.success, .phySet overrides) ∧
    exec (.phyt .i0 0) (withBlock (videoBlock tePanel)) = .refused .zeroFrequency := ⟨by decide, rfl⟩

/-- `ClockTurnsOn`: success at the first and at the fifth attempt, and none. -/
theorem test_hyp_ClockTurnsOn :
    let tries (l : List Bool) : Instance := block .i0 { Env.fresh with attempt := ⟨l, 0⟩ }
    (tries [true]).attemptAt 0 = true ∧
    ((∀ k, k < 4 → (tries [false, false, false, false, true]).attemptAt k = false) ∧
      (tries [false, false, false, false, true]).attemptAt 4 = true) ∧
    ∀ k, k < 5 → (tries [false, false, false, false, false]).attemptAt k = false := by decide

/-- A panel whose policy asks for a continuous clock. -/
def streaming : PanelDescriptor := { panel with hsClkPolicy := .continuousThspreprWar }

/-- A block with that panel before its video starts: the clock attempts, the reads of TRIGGER, the panel's answer. -/
def streamBlock (hs : Bool) (tries : List Bool) (ts : List Word) (w : Word) : Instance :=
  { block .i0 { turns ts [false] [[w], []] with clock := ⟨[10000, 400000, 10000], 0⟩, attempt := ⟨tries, 0⟩ } with
    cfg := streaming, hsMode := hs }

/-- `VideoStarts`, `EnableProgramsTheLink`, `VideoEndsInOneMode`: every policy answers, the check passing and failing. -/
theorem test_hyp_Video :
    (∃ t, exec (.envideo .i0) (commandState { Env.fresh with clock := ⟨[10000], 0⟩ }) = .next t) ∧
    (∃ t, exec (.envideo .i0) (withBlock (streamBlock false [true] [0, 0, 0] 0x00004002)) = .next t ∧
      t.inst0.hsMode = true) ∧
    (∃ t, exec (.enable .i0) (withBlock (streamBlock false [true] [0, 0, 0, 0] 0x00000502)) = .next t ∧
      t.inst0.hsMode = false ∧ t.inst0.lifecycle = .enabled) ∧
    panel.hsClkPolicy = .txOnly ∧ (videoBlock { panel with dataFormat := .unknown }).cfg.dataFormat = .unknown ∧
    panel.dataFormat ≠ .unknown :=
  ⟨⟨_, rfl⟩, ⟨_, rfl, by decide⟩, ⟨_, rfl, by decide, by decide⟩, rfl, rfl, nofun⟩

/-- `VideoStarts`, `EnableProgramsTheLink`, the continuous clauses: from low power and from high speed, at the first and
at the last attempt, the check passing (one switch, none) and failing (two, one). -/
theorem test_hyp_Continuous :
    let i1 := streamBlock false [true] [0, 0, 0] 0x00004002
    let i2 := streamBlock true [false, false, false, false, true] [0, 0] 0x00000102
    let i3 := streamBlock false [true] [0, 0, 0, 0] 0x00000502
    streaming.hsClkPolicy ≠ .txOnly ∧ overridesFit params streaming = true ∧ streaming.dataFormat ≠ .unknown ∧
    (∀ i, i ∈ [i1, i2, i3] → Instance.sendRefusal params { i with hsMode := true } (nopPacket params) = none) ∧
    (AtRest i1 ∧ AtRest i2 ∧ AtRest i3) ∧
    (i1.attemptAt 0 = true ∧ (∀ k, k < 4 → i2.attemptAt k = false) ∧ i2.attemptAt 4 = true) ∧
    LinkReady params (i1.modeSwitches (classifyBta [0x00004002]) + 1) 1 i1 ∧
    LinkReady params (i2.modeSwitches (classifyBta [0x00000102]) + 1) 1 i2 ∧
    LinkReady params (i3.modeSwitches (classifyBta [0x00000502]) + 1) 1 i3 ∧
    (i1.modeSwitches (classifyBta [0x00004002]) = 1 ∧ i2.modeSwitches (classifyBta [0x00000102]) = 0 ∧
      i3.modeSwitches (classifyBta [0x00000502]) = 2) ∧
    PanelAnswers params i1 [0x00004002] ∧ PanelAnswers params i2 [0x00000102] ∧ PanelAnswers params i3 [0x00000502] :=
  ⟨nofun, by decide, nofun, by decide, ⟨⟨rfl, rfl, rfl, rfl, nofun⟩, ⟨rfl, rfl, rfl, rfl, nofun⟩, ⟨rfl, rfl, rfl, rfl, nofun⟩⟩,
    by decide, ⟨by decide, by decide⟩, ⟨by decide, by decide⟩, ⟨by decide, by decide⟩, by decide,
    ⟨rfl, nofun, ⟨0, by decide, by decide, by decide⟩,
      .inl ⟨0, by decide, by decide, by decide, by decide, by decide⟩, by decide⟩,
    ⟨rfl, nofun, ⟨0, by decide, by decide, by decide⟩,
      .inl ⟨0, by decide, by decide, by decide, by decide, by decide⟩, by decide⟩,
    ⟨rfl, nofun, ⟨0, by decide, by decide, by decide⟩,
      .inl ⟨0, by decide, by decide, by decide, by decide, by decide⟩, by decide⟩⟩

/-- Their refusals: a self-check the host FIFO has no room for, an override too large. -/
theorem test_hyp_VideoRefused :
    Instance.sendRefusal params { streamBlock false [] [] 0 with
      hfifo := List.replicate 63 ⟨.payload, 0⟩, hsMode := true } (nopPacket params) = some .packetTooLarge ∧
    overridesFit params { streaming with phyOverrides := some { overrides with triad := ⟨0, 256, 0⟩ } } = false := by
  decide

/-- `UpdateRuns`: no packet refused, one refused for its own words and one for what is queued before it; a TE edge that
comes and one that does not; a link ready by re-reads and by the counter; both trigger modes. -/
theorem test_hyp_UpdateRuns :
    let i (e : Env) : Instance := { block .i0 e with te := some ⟨false, true⟩ }
    let d : PacketDesc := ⟨0x39, 0x2C, [1, 2, 3, 4], true⟩
    packetsRefusal params (block .i0 Env.fresh) 61 [d, d] = none ∧
    packetsRefusal params (block .i0 Env.fresh) 62 [d, d] = some .packetTooLarge ∧
    packetsRefusal { params with hostFifoDepth := 2 } (block .i0 Env.fresh) 0 [d] = some .packetTooLarge ∧
    (i { Env.fresh with te := ⟨[false], 0⟩ }).teAt 0 = false ∧ (i { Env.fresh with te := ⟨[true], 0⟩ }).teAt 0 = true ∧
    (videoBlock panel).lifecycle ≠ .commandModeEnabled ∧ LinkReady params 1 1 (block .i0 (reads [0, 0])) ∧
    LinkReady countParams 1 1 (block .i0 (counts [0] [true] [] [])) ∧
    (block .i0 Env.fresh).sendsAtOnce = true ∧
    ({ block .i0 Env.fresh with regs := { resetRegs params with
      hostControl := ⟨.other, false, false⟩ } } : Instance).sendsAtOnce = false :=
  ⟨by decide, by decide, by decide, rfl, rfl, nofun, ⟨by decide, by decide⟩, ⟨by decide, by decide⟩, by decide, by decide⟩

/-- `TeEdgeAndIdlePort`, `FifosAndBtaRequest`, `TriggerAndRefusedPushes`. -/
theorem test_hyp_Fifos :
    ({ block .i0 Env.fresh with te := some ⟨false, false⟩ } : Instance).te = some ⟨false, false⟩ ∧
    (block .i0 (reads [0])).triggerAt 0 = 0 ∧ (block .i0 (reads [1])).triggerAt 0 ≠ 0 ∧
    (block .i0 Env.fresh).rfifo = [] ∧ ({ block .i0 Env.fresh with rfifo := [7] } : Instance).rfifo = 7 :: [] ∧
    (State.resetWith params).port = [] := by decide

/-- `RegWrites`, `RegReads`: a word that requests a turn-around and one that does not, an index past the list,
the interface on, the counter present. -/
theorem test_hyp_Registers :
    (hostControlOfWord params.layout 0x80).immBta = true ∧ (hostControlOfWord params.layout 0).immBta = false ∧
    26 < (27 : BitVec 16).toNat ∧ params.useSyncpt = false ∧
    ({ params with useSyncpt := true, readyPollTwice := true } : Params).useSyncpt = true := by decide

/-- `PollRuns`: ready at the first and at the last read, never, and on either side of the predicates. -/
theorem test_hyp_PollRuns :
    pollCount (20 : Word).toNat (250 : Word).toNat = 13 ∧
    (block .i0 (reads (List.replicate 12 1 ++ [0]))).ReadyAfter 0 12 ∧
    (∀ k, k < 13 → (block .i0 (reads (List.replicate 13 1))).triggerAt k ≠ 0) ∧
    (block .i0 (turns [] (List.replicate 12 true ++ [false]) [])).BtaClearsAfter 12 ∧
    (∀ k, k < 13 → (block .i0 (turns [] (List.replicate 13 true) [])).btaAt k = true) ∧
    (∀ k, k < 13 → ({ block .i0 (turns [] [] (List.replicate 13 [])) with btaSeen := true } : Instance).panelAt k =
      []) ∧
    2 < (3 : BitVec 16).toNat ∧ (2 : BitVec 16).toNat ≤ 2 :=
  ⟨by decide, ⟨by decide, by decide⟩, by decide, ⟨by decide, by decide⟩, by decide, by decide, by decide, by decide⟩

end Sys2Proof.Tests
end

/-! PROOFS. The machine as a whole: what a step can be, the invariant and that every step keeps it, what blocks a
step, what an instruction leaves alone, the fatal record, the state before anything ran and after a `TransInit`
(10_state.md). -/

namespace Sys2Proof.Machine

/-! ### What a step can be -/

/-- An instruction is fetched only where the decoder reads one (R135). -/
theorem decode_of_fetch_instr {port rest : List PortWord} {i : Instr} (h : fetch port = .instr i rest) :
    decode port = .ok (i, rest) := by
  unfold fetch at h
  split at h
  · cases h
  · cases h
  · split at h
    · rename_i hd
      cases h
      exact hd
    · cases h

/-- A step that answers waits on an empty port, takes a TE edge, or runs the instruction presented. -/
theorem step_next {s t : State} (h : step s = .next t) :
    t = s ∨ (∃ n rest, t = ({ s with port := rest }).teEdge n) ∨
      ∃ i rest, decode s.port = .ok (i, rest) ∧ exec i { s with port := rest } = .next t := by
  unfold step at h
  split at h
  case h_1 => exact .inl (Host.Outcome.next.inj h).symm
  case h_2 n rest _ => exact .inr (.inl ⟨n, rest, (Host.Outcome.next.inj h).symm⟩)
  case h_3 => cases h
  case h_4 i rest hf => exact .inr (.inr ⟨i, rest, decode_of_fetch_instr hf, h⟩)

/-- A step faults only where the instruction presented does. -/
theorem step_fault {s : State} {f : Fault} (h : step s = .fault f) :
    ∃ i rest, decode s.port = .ok (i, rest) ∧ exec i { s with port := rest } = .fault f := by
  unfold step at h
  split at h
  case h_1 => cases h
  case h_2 => cases h
  case h_3 => cases h
  case h_4 i rest hf => exact ⟨i, rest, decode_of_fetch_instr hf, h⟩

/-! ### The invariant -/

/-- The invariant, block by block. -/
theorem inv_iff {s : State} : Inv s ↔ MemoryOk s ∧ ∀ n, BlockOk s.params n (s.inst n) := by
  constructor
  · rintro ⟨hm, h0, h1⟩
    exact ⟨hm, fun n => match n with | .i0 => h0 | .i1 => h1⟩
  · rintro ⟨hm, hb⟩
    exact ⟨hm, hb .i0, hb .i1⟩

/-- What the port presents is no part of the invariant. -/
theorem Inv.setPort {s : State} (h : Inv s) (rest : List PortWord) : Inv { s with port := rest } := h

/-- Replacing one block keeps the invariant if the new block is at rest. -/
theorem Inv.setInst {s : State} {n : InstId} {j : Instance} (h : Inv s) (hj : BlockOk s.params n j) :
    Inv (s.setInst n j) := by
  obtain ⟨hm, hb⟩ := inv_iff.mp h
  refine inv_iff.mpr ⟨?_, fun m => ?_⟩
  · rw [MemoryOk, State.setInst_mem, State.setInst_dc]
    exact hm
  · rw [State.setInst_params]
    by_cases hmn : m = n
    · subst hmn
      rw [State.inst_setInst]
      exact hj
    · rw [State.inst_setInst_other s n j hmn]
      exact hb m

/-- A TE edge between two operations keeps the invariant (R376). -/
theorem Inv.teEdge {s : State} (h : Inv s) (n : InstId) : Inv (s.teEdge n) :=
  h.setInst (Stays.of_holds (blockOk_iff.mp ((inv_iff.mp h).2 n)).teHandler).1

/-- What every instruction keeps is enough for the invariant. -/
theorem Inv.kept {s t : State} {n : InstId} (h : Inv s) (hk : Kept n s t) : Inv t := by
  obtain ⟨j, dc, mem, res, g, rfl, hj, hdc, hmem⟩ := hk
  obtain ⟨⟨hm, hd⟩, hb⟩ := inv_iff.mp h
  obtain ⟨hblock, -⟩ := hj (hb n)
  obtain ⟨-, hblocks⟩ := h.setInst hblock
  exact ⟨⟨hmem hm, hdc hd⟩, hblocks⟩

/-- Settles O7: a step waits, takes a TE edge or runs an instruction, and each keeps the invariant. -/
theorem stepKeepsInvariant : Obligations.StepKeepsInvariant := by
  intro s t hs h
  rcases step_next h with rfl | ⟨n, rest, rfl⟩ | ⟨i, rest, -, he⟩
  · exact hs
  · exact (hs.setPort rest).teEdge n
  · exact (hs.setPort rest).kept (exec_kept i he)

/-! ### The state before anything has run -/

/-- A block before its first `TransInit` is at rest. -/
theorem Instance.reset_blockOk (p : Params) (n : InstId) (c : Nat) : BlockOk p n (Instance.reset p n c) :=
  ⟨rfl, ⟨rfl, rfl, rfl, rfl, nofun⟩, fun _ h => nomatch h⟩

/-- The structure of a block before its first `TransInit` is zero (R70). -/
theorem Instance.reset_structureZero (p : Params) (n : InstId) (c : Nat) :
    StructureZero p (Instance.reset p n c) :=
  ⟨rfl, rfl, rfl, rfl, rfl, rfl, rfl, rfl, rfl, rfl, rfl, rfl, rfl, rfl⟩

/-- The blocks of the machine before anything has run. -/
theorem State.reset_inst (n : InstId) : ∃ c, State.reset.inst n = Instance.reset State.reset.params n c := by
  cases n <;> exact ⟨_, rfl⟩

/-- Settles O6: each block is a block before its first `TransInit`, and both maps are empty. -/
theorem resetIsZeroAndInvariant : Obligations.ResetIsZeroAndInvariant := by
  refine ⟨inv_iff.mpr ⟨⟨rfl, rfl⟩, fun n => ?_⟩, fun n => ?_⟩
  · obtain ⟨c, hn⟩ := State.reset_inst n
    rw [hn]
    exact Instance.reset_blockOk _ n c
  · obtain ⟨c, hn⟩ := State.reset_inst n
    rw [hn]
    exact ⟨Instance.reset_structureZero _ n c, rfl, rfl, rfl, rfl⟩

/-! ### What blocks a step, and what an instruction leaves alone -/

/-- Settles O8: between two operations every lock is free, and with the lock free only the ping's frame mutex
blocks; with it held, no instruction under it answers. -/
theorem onlyTheFrameMutexBlocks : Obligations.OnlyTheFrameMutexBlocks := by
  refine ⟨fun s f hs h => ?_, fun i s t ha hl hg ht => exec_held i ha hl hg ht⟩
  obtain ⟨i, rest, hd, he⟩ := step_fault h
  obtain ⟨-, ⟨hlock, -⟩, -⟩ := (inv_iff.mp (hs.setPort rest)).2 (blockOf i)
  obtain ⟨hf, hm, n, reg, len, flags, rfl⟩ := exec_fault i hlock he
  exact ⟨hf, hm, n, reg, len, flags, rest, hd⟩

/-- Settles O9: every instruction leaves alone what `Kept` does. -/
theorem oneBlockChanges : Obligations.OneBlockChanges := by
  intro i s t h
  obtain ⟨j, dc, mem, res, g, rfl, hj, -, -⟩ := exec_kept i h
  have hinst : ∀ m, ({ s.setInst (blockOf i) j with
      dc := dc, mem := mem, result := res, gangedStep := g } : State).inst m =
        (s.setInst (blockOf i) j).inst m := fun m => by cases m <;> rfl
  refine ⟨fun m hm => ?_, State.setInst_params .., State.setInst_descTable .., State.setInst_port ..,
    State.setInst_frameMutex .., fun hb => ?_⟩
  · rw [hinst, State.inst_setInst_other s _ j hm]
  · rw [hinst, State.inst_setInst]
    obtain ⟨⟨hid, -⟩, hctrl⟩ := hj hb
    exact ⟨hid.trans hb.1.symm, hctrl⟩

/-! ### The fatal record -/

/-- Every instruction but `TransInit` and `TransDeinit` begins with the two checks of R370. -/
theorem exec_guarded (i : Instr) (s : State) (hi : ∀ n d f, i ≠ .tinit n d f) (hd : ∀ n, i ≠ .tdeinit n) :
    ∃ k, exec i s = s.guarded (blockOf i) k := by
  cases i
  case tinit n d f => exact absurd rfl (hi n d f)
  case tdeinit n => exact absurd rfl (hd n)
  case eot n =>
    rw [exec, execEot]
    split <;> exact ⟨_, rfl⟩
  all_goals exact ⟨_, rfl⟩

/-- A faulted block answers `TransInit` with its fault (R366). -/
theorem exec_tinit_fatal {s : State} {n : InstId} (desc : BitVec 16) (flags : Word)
    (h : (s.inst n).fatal.isSome = true) :
    exec (.tinit n desc flags) s = Ends s n (s.inst n) .fatalHardwareFault .none := by
  rw [exec, execTinit, if_pos h, State.finish_eq]

/-- `TransDeinit` with the lock free (R336). -/
theorem exec_tdeinit_free {s : State} {n : InstId} (h : (s.inst n).lock = .free) :
    exec (.tdeinit n) s = Ends s n ((s.inst n).transDeinit s.params) .success .none := by
  rw [exec, execTdeinit, h]
  rfl

/-- Settles O11: the fatal check comes first in every operation but `TransDeinit`, which zeroes the structure. -/
theorem fatalIsSticky : Obligations.FatalIsSticky := by
  refine ⟨fun i s _ hd hf => ?_, fun n s hl => ⟨_, exec_tdeinit_free hl, rfl⟩⟩
  have hsome : (s.inst (blockOf i)).fatal.isSome = true := Option.isSome_iff_ne_none.mpr hf
  by_cases hi : ∃ n desc flags, i = .tinit n desc flags
  · obtain ⟨n, desc, flags, rfl⟩ := hi
    exact exec_tinit_fatal desc flags hsome
  · obtain ⟨k, hk⟩ := exec_guarded i s (fun n d f e => hi ⟨n, d, f, e⟩) hd
    rw [hk, State.guarded_fatal hsome]

/-! ### The state after a `TransInit` -/

/-- `TransInit` whose checks pass runs (R321). -/
theorem exec_tinit_runs {s : State} {n : InstId} {desc : BitVec 16} (flags : Word)
    (hf : (s.inst n).fatal = none) (hi : (s.inst n).initialized = false)
    (hd : descriptorOk (s.descriptor desc.toNat) = true)
    (ho : overridesFit s.params (s.descriptor desc.toNat) = true) {st : Status} {j : Instance}
    (hr : (s.inst n).transInit s.params (s.descriptor desc.toNat) = (st, j)) :
    exec (.tinit n desc flags) s = Ends s n j st .none := by
  have run : exec (.tinit n desc flags) s = s.finishWith n
      ((s.inst n).transInit s.params (s.descriptor desc.toNat)).2
      ((s.inst n).transInit s.params (s.descriptor desc.toNat)).1 .none := by
    simp [exec, execTinit, hf, hi, hd, ho]
  rw [run, hr, State.finishWith_eq]

/-- Without a failure `TransInit` is its steps on the zeroed structure (R321). -/
theorem Instance.transInit_success {p : Params} {d : PanelDescriptor} {i j : Instance}
    (h : (i.zeroStructure p).initSteps p d = (.success, j)) : i.transInit p d = (.success, j) := by
  rw [Instance.transInit, h]

/-- Settles O14: the steps of R321 succeed on the zeroed structure, and the block they leave holds each entry. -/
theorem transInitLeavesResetState : Obligations.TransInitLeavesResetState := by
  intro n desc flags s p i d hf hi hd ho hfmt hcalls
  obtain ⟨j, T, hsteps, hT, e, r, rfl, hclock⟩ :=
    Instance.initSteps_ok (p := p) (i := i.zeroStructure p) hfmt hcalls
  exact ⟨_, T, exec_tinit_runs flags hf hi hd ho (Instance.transInit_success hsteps),
    -- lifecycle, structure and exit path; the TE handle and the configuration; clock and PHY; registers and FIFOs
    rfl, rfl, rfl, rfl, rfl, rfl, rfl, rfl, rfl, rfl, rfl, rfl, rfl,
    rfl, rfl, hclock, rfl, hT, rfl, rfl, rfl, rfl⟩

end Sys2Proof.Machine

/-! PROOFS. Host memory, the DC's registers, the ganged setup and the packet-word rows (20_memory.md). -/

namespace Sys2Proof.Machine

/-! ### Host memory and the DC's registers -/

/-- A write of one controller's registers leaves every other controller's alone (R382). -/
theorem State.dcRegs_setDcRegs_other (s : State) {x c : Nat} (d : DcRegs) (hc : c ≠ x) :
    (s.setDcRegs x d).dcRegs c = s.dcRegs c :=
  sparseGet_set_other unlistedDc s.dc d hc

/-- What a controller's registers hold depends on the DC only. -/
theorem State.dcRegs_eq_of_dc_eq {s t : State} (h : t.dc = s.dc) (c : Nat) : t.dcRegs c = s.dcRegs c := by
  rw [State.dcRegs, h, State.dcRegs]

/-- The DC's registers are no part of a block. -/
@[simp] theorem State.dcRegs_setInst (s : State) (n : InstId) (i : Instance) (c : Nat) :
    (s.setInst n i).dcRegs c = s.dcRegs c :=
  State.dcRegs_eq_of_dc_eq (State.setInst_dc ..) c

/-- Host memory stays as it was, and so do the DC's registers of every controller but `x`. -/
def OnlyController (x : Nat) (s t : State) : Prop :=
  t.mem = s.mem ∧ ∀ c, c ≠ x → t.dcRegs c = s.dcRegs c

/-- What changes neither host memory nor the DC changes no controller. -/
theorem SameMemory.onlyController {s t : State} (h : SameMemory s t) (x : Nat) : OnlyController x s t := by
  obtain ⟨hmem, hdc⟩ := h
  exact ⟨hmem, fun c _ => State.dcRegs_eq_of_dc_eq hdc c⟩

/-- The DC's writes that end an `Enable` reach the controller of its block only (R57, R58). -/
theorem State.dcAfterEnable_onlyController (s : State) (n : InstId) :
    OnlyController (s.inst n).ctrlIndex s (s.dcAfterEnable n) := by
  rw [State.dcAfterEnable]
  by_cases h : (s.inst n).cfg.videoMode = .ganged ∧ n = .i1
  · rw [if_pos h]
    exact ⟨State.setInst_mem .., fun c hc =>
      (State.dcRegs_setDcRegs_other _ _ hc).trans (State.dcRegs_setInst ..)⟩
  · rw [if_neg h]
    exact ⟨rfl, fun c hc => State.dcRegs_setDcRegs_other _ _ hc⟩

/-- The end of an `Enable` reaches the controller of the block it leaves only, whatever its status. -/
theorem finishEnable_onlyController {s t : State} {n : InstId} {r : Status × Instance}
    (h : finishEnable s n r = .next t) : OnlyController r.2.ctrlIndex s t := by
  unfold finishEnable at h
  split at h
  · have hw := (s.setInst n r.2.release).dcAfterEnable_onlyController n
    rw [State.inst_setInst] at hw
    obtain ⟨hmem, hdc⟩ := hw
    rw [← Host.Outcome.next.inj h]
    exact ⟨hmem.trans (State.setInst_mem ..), fun c hc => (hdc c hc).trans (State.dcRegs_setInst ..)⟩
  · exact (SameMemory.finishWith h).onlyController _

/-- `Enable` leaves its block attached to the controller it was (R21). -/
theorem Instance.enableLink_ctrlIndex {p : Params} {n : InstId} {i : Instance} (h : BlockOk p n i)
    (hf : i.fatal = none) (hi : i.initialized = true) :
    (i.acquire.enableLink p).2.ctrlIndex = i.ctrlIndex := by
  obtain ⟨_, hc⟩ := (blockOk_iff.mp h).acquire.enableLink hf hi
  exact hc.ctrl

/-- `Enable` writes no host memory, and of the DC the controller of its block only (R57, R58). -/
theorem exec_enable_onlyController {s t : State} {n : InstId} (h : exec (.enable n) s = .next t) :
    t.mem = s.mem ∧ (BlockOk s.params n (s.inst n) → OnlyController (s.inst n).ctrlIndex s t) := by
  rcases State.guarded_next h with ⟨⟨hf, hi⟩, h⟩ | ⟨st, rfl⟩
  · split at h
    · cases h
    · have hw := finishEnable_onlyController (State.whenFree_next h).2
      exact ⟨hw.1, fun hb => Instance.enableLink_ctrlIndex hb hf hi ▸ hw⟩
  · exact ⟨rfl, fun _ => ⟨rfl, fun _ _ => rfl⟩⟩

/-- `Disable` writes no host memory, and of the DC the controller of its block only (R57). -/
theorem exec_disable_onlyController {s t : State} {n : InstId} (h : exec (.disable n) s = .next t) :
    OnlyController (s.inst n).ctrlIndex s t := by
  rcases State.guarded_next h with ⟨-, h⟩ | ⟨st, rfl⟩
  · replace h := (State.whenFree_next h).2
    split at h
    · exact (SameMemory.finish h).onlyController _
    · rw [← Host.Outcome.next.inj h]
      exact ⟨State.setInst_mem .., fun c hc =>
        (State.dcRegs_setDcRegs_other _ _ hc).trans (State.dcRegs_setInst ..)⟩
  · exact ⟨rfl, fun _ _ => rfl⟩

/-- Every instruction but `Enable` and `Disable` leaves the DC alone, and writes host memory only where a read
delivers (R80 item 5, R262). -/
theorem exec_mem_dc {i : Instr} {s t : State} (hne : ∀ n, i ≠ .enable n ∧ i ≠ .disable n)
    (h : exec i s = .next t) :
    t.dc = s.dc ∧ ∀ a, (storesBytes i = true → a < (s.inst (blockOf i)).outBuf ∨
      (s.inst (blockOf i)).outBuf + deliveredBytes t.result ≤ a) → t.mem.read a = s.mem.read a := by
  obtain ⟨hstores, hplain⟩ := exec_copies i hne h
  by_cases hb : storesBytes i = true
  · obtain ⟨hdc, hmem⟩ := hstores hb
    exact ⟨hdc, fun a ha => hmem a (ha hb)⟩
  · obtain ⟨hmem, hdc⟩ := hplain (Bool.eq_false_iff.mpr hb)
    exact ⟨hdc, fun a _ => by rw [hmem]⟩

/-- Settles O10: `Enable` and `Disable` write the DC and no memory, every other instruction memory and not the DC. -/
theorem memoryAndDcFrame : Obligations.MemoryAndDcFrame := by
  intro i s t h
  by_cases hne : ∀ n, i ≠ .enable n ∧ i ≠ .disable n
  · obtain ⟨hdc, hmem⟩ := exec_mem_dc hne h
    exact ⟨hmem, fun _ => hdc, fun _ c _ => State.dcRegs_eq_of_dc_eq hdc c⟩
  · suffices hw : t.mem = s.mem ∧ (BlockOk s.params (blockOf i) (s.inst (blockOf i)) →
        OnlyController (s.inst (blockOf i)).ctrlIndex s t) by
      obtain ⟨hmem, hdc⟩ := hw
      exact ⟨fun a _ => by rw [hmem], fun hall => absurd hall hne, fun hb => (hdc hb).2⟩
    obtain ⟨n, hn⟩ := not_forall.mp hne
    rcases not_and_or.mp hn with he | hd
    · cases not_not.mp he
      exact exec_enable_onlyController h
    · cases not_not.mp hd
      have hw := exec_disable_onlyController h
      exact ⟨hw.1, fun _ => hw⟩

/-! ### The ganged setup -/

/-- Block 1 of a ganged panel is enabled only right after block 0 (R96, R407). -/
theorem enableInOrder_i1_eq_false {s : State} (hv : s.inst1.cfg.videoMode = .ganged)
    (hg : s.gangedStep ≠ .firstEnabled) : enableInOrder s .i1 = false := by
  simp [enableInOrder, State.inst, hv, hg]

/-- An `Enable` that comes out of order is refused (R96). -/
theorem exec_enable_outOfOrder {s : State} {n : InstId} (ha : Accepts s n) (ho : enableInOrder s n = false) :
    exec (.enable n) s = .refused .gangedOutOfOrder := by
  rw [exec, execEnable, State.guarded_accepts ha]
  simp only [enableRefusal, ho, Bool.not_false, if_true]

/-- Groups of `lanes`, their number rounded up, hold at least what they are to hold. -/
theorem le_lanes_mul_groups {lanes : Nat} (hl : 0 < lanes) (k : Nat) :
    k ≤ lanes * ((k + (lanes - 1)) / lanes) := by
  have := Nat.lt_mul_div_succ (k + (lanes - 1)) hl
  rw [Nat.mul_succ] at this
  omega

/-- The two halves of a split are at least as wide as the panel (R341). -/
theorem gangedSplit_covers (w : Nat) {lanes : Nat} (hl : 0 < lanes) :
    w ≤ (gangedSplit w lanes).left + (gangedSplit w lanes).right := by
  have hrest := le_lanes_mul_groups hl (w - (gangedSplit w lanes).left)
  have hmax : lanes * ((w - (gangedSplit w lanes).left + (lanes - 1)) / lanes) ≤ (gangedSplit w lanes).right :=
    Nat.mul_le_mul_left lanes (Nat.le_max_right ..)
  omega

/-- Settles O18: the order is checked before anything runs; the right half takes the groups the left one leaves. -/
theorem gangedSetup : Obligations.GangedSetup :=
  ⟨fun _ ha hv hg => exec_enable_outOfOrder ha (enableInOrder_i1_eq_false hv hg),
    fun w _ hl => ⟨(Nat.add_sub_of_le (gangedSplit_covers w hl)).symm, Nat.mul_mod_right .., Nat.mul_mod_right ..⟩⟩

/-! ### The packet-word rows -/

/-- The marker's row in high-speed mode is a push of `EOT_WORD` (R118). -/
theorem exec_eot_highSpeed {s : State} {n : InstId} (h : (s.inst n).hsMode = true) :
    exec (.eot n) s = pushRow s n ⟨.eot, s.params.eotWord⟩ := by
  rw [exec, execEot, if_pos h]

/-- In low-power mode no marker is pushed (R118). -/
theorem exec_eot_lowPower {s : State} {n : InstId} (ho : Open s n) (h : (s.inst n).hsMode = false) :
    exec (.eot n) s = Ends s n (s.inst n) .success .none := by
  obtain ⟨ha, hlock⟩ := ho
  rw [exec, execEot, h, if_neg Bool.false_ne_true, State.guarded_accepts ha, State.whenFree_free hlock,
    State.finish_eq]

/-- Settles O31: each row is a push of its word, and a push is refused or joins what is queued. -/
theorem packetRowsPush : Obligations.PacketRowsPush := by
  intro n s vc ct reg data wc len w p i pushed refused ho
  have refuse : ∀ {r}, (∀ v, i.checkedPush p v = .error r) → refused r := fun {r} hr =>
    have row (v : FifoWord) : pushRow s n v = .refused r := (pushRow_open ho v rfl).1 r (hr v)
    ⟨row _, row _, row _, row _, row _, fun hs => (exec_eot_highSpeed hs).trans (row _)⟩
  refine ⟨fun hz hroom => ?_, exec_eot_lowPower ho,
    fun hb => refuse fun v => Instance.checkedPush_busy v hb,
    fun hz hfull => refuse fun v => Instance.checkedPush_full v hz hfull⟩
  have row (k : WordKind) (v : Word) : pushRow s n ⟨k, v⟩ = pushed k v :=
    (pushRow_open ho ⟨k, v⟩ rfl).2 _ (Instance.checkedPush_ok _ hz hroom)
  exact ⟨row .., row .., row .., row .., row .., fun hs => (exec_eot_highSpeed hs).trans (row ..)⟩

end Sys2Proof.Machine

/-! PROOFS. The decoder and the encoder (30_encoding.md R110 to R139): every instruction is decoded back from its
units, what a decoded presentation says of the port, what is refused, the words and classes byte by byte, and the
response-header and sequencer rows. -/

namespace Sys2Proof

/-! ### Decoding what was encoded -/

/-- Every instruction is decoded back from its own units (R110). -/
theorem decode_encode (i : Instr) : Laws.Encoding.Statement i :=
  match i with
  | .shortPkt .. => Laws.Encoding.shortPkt _ _ _ _ _
  | .longHdr .. => Laws.Encoding.longHdr _ _ _ _
  | .longPayload .. => Laws.Encoding.longPayload _ _
  | .maxret .. => Laws.Encoding.maxret _ _ _
  | .dcsread .. => Laws.Encoding.dcsread _ _ _
  | .eot _ => Laws.Encoding.eot _
  | .respLong1A _ => Laws.Encoding.respLong1A _
  | .respLong1C _ => Laws.Encoding.respLong1C _
  | .respAckerr _ => Laws.Encoding.respAckerr _
  | .respShort1x11 _ => Laws.Encoding.respShort1x11 _
  | .respShort1x21 _ => Laws.Encoding.respShort1x21 _
  | .respShort2x12 _ => Laws.Encoding.respShort2x12 _
  | .respShort2x22 _ => Laws.Encoding.respShort2x22 _
  | .respInvalid .. => Laws.Encoding.respInvalid _ _
  | .pktVsyncStart _ => Laws.Encoding.pktVsyncStart _
  | .pktVsyncEnd _ => Laws.Encoding.pktVsyncEnd _
  | .pktHsyncStart _ => Laws.Encoding.pktHsyncStart _
  | .pktHsyncEnd _ => Laws.Encoding.pktHsyncEnd _
  | .pktBlanking _ => Laws.Encoding.pktBlanking _
  | .pktLongWrite _ => Laws.Encoding.pktLongWrite _
  | .pktHActive16 _ => Laws.Encoding.pktHActive16 _
  | .pktHActive18 _ => Laws.Encoding.pktHActive18 _
  | .pktHActive18Np _ => Laws.Encoding.pktHActive18Np _
  | .pktHActive24 _ => Laws.Encoding.pktHActive24 _
  | .lenNone _ => Laws.Encoding.lenNone _
  | .lenHsync _ => Laws.Encoding.lenHsync _
  | .lenHbp _ => Laws.Encoding.lenHbp _
  | .lenHact _ => Laws.Encoding.lenHact _
  | .lenHfp _ => Laws.Encoding.lenHfp _
  | .lenCmd _ => Laws.Encoding.lenCmd _
  | .lenIdx7 _ => Laws.Encoding.lenIdx7 _
  | .slotHalf .. => Laws.Encoding.slotHalf _ _ _ _
  | .tinit .. => Laws.Encoding.tinit _ _ _
  | .tdeinit _ => Laws.Encoding.tdeinit _
  | .enable _ => Laws.Encoding.enable _
  | .disable _ => Laws.Encoding.disable _
  | .cmdmode _ => Laws.Encoding.cmdmode _
  | .twrite .. => Laws.Encoding.twrite _ _ _ _ _
  | .nopw _ => Laws.Encoding.nopw _
  | .tread .. => Laws.Encoding.tread _ _ _ _
  | .btachk _ => Laws.Encoding.btachk _
  | .seths .. => Laws.Encoding.seths _ _
  | .envideo _ => Laws.Encoding.envideo _
  | .clkon _ => Laws.Encoding.clkon _
  | .seqprog _ => Laws.Encoding.seqprog _
  | .phyt .. => Laws.Encoding.phyt _ _
  | .sold _ => Laws.Encoding.sold _
  | .plen _ => Laws.Encoding.plen _
  | .tupdate .. => Laws.Encoding.tupdate _ _
  | .getfreq _ => Laws.Encoding.getfreq _
  | .tping .. => Laws.Encoding.tping _ _ _ _
  | .regw .. => Laws.Encoding.regw _ _ _
  | .regr .. => Laws.Encoding.regr _ _
  | .push .. => Laws.Encoding.push _ _
  | .pop _ => Laws.Encoding.pop _
  | .trig _ => Laws.Encoding.trig _
  | .btareq _ => Laws.Encoding.btareq _
  | .poll .. => Laws.Encoding.poll _ _ _ _

/-- Settles O1: the encoding law of each instruction. -/
theorem encodeThenDecode : Obligations.EncodeThenDecode :=
  fun i rest hw => decode_encode i hw rest

/-- Units that are exactly an instruction's decode to it. -/
theorem decode_of_encode_eq {i : Instr} {us : List PortWord} (hw : i.wf = true) (h : encode i = us) :
    decode us = .ok (i, []) := by
  have := decode_encode i hw []
  rwa [List.append_nil, h] at this

/-- Settles O3: each list of words is the encoding of the instruction it stands for. -/
theorem writtenWordsDecode : Obligations.WrittenWordsDecode := by
  refine ⟨?_, ?_, ?_, ?_, ?_, ?_, ?_, ?_, ?_, ?_, ?_⟩ <;> exact decode_of_encode_eq rfl (by decide)

/-! ### What a decoded presentation says of the port -/

/-- The operand words taken are the next units, as many as were asked for (R135). -/
theorem takeOperands_some {k : Nat} {us rest : List PortWord} {ws : List Word}
    (h : takeOperands k us = some (ws, rest)) : k ≤ us.length ∧ rest = us.drop k := by
  induction k generalizing us ws with
  | zero =>
    cases h
    exact ⟨Nat.zero_le _, rfl⟩
  | succ k ih =>
    cases us with
    | nil => cases h
    | cons u us =>
      rw [takeOperands] at h
      split at h
      · split at h
        · rename_i ht
          cases h
          obtain ⟨hk, hr⟩ := ih ht
          exact ⟨Nat.succ_le_succ hk, hr⟩
        · cases h
      · cases h

/-- The number of the operation a number names is that number. -/
theorem OpCode.num_of_ofNum {k : Nat} {o : OpCode} (h : OpCode.ofNum k = some o) : o.num = k := by
  have hk : (o.num == k) = true := List.find?_some (p := fun o : OpCode => o.num == k) h
  exact eq_of_beq hk

/-- The numbers R136 lists lie in two ranges. -/
theorem OpCode.num_range (o : OpCode) : 1 ≤ o.num ∧ (o.num ≤ 0x13 ∨ 0x20 ≤ o.num) ∧ o.num ≤ 0x26 := by
  cases o <;> decide

/-- The operations but these eight give `imm16` no use (R136). -/
theorem OpCode.immBits_eq_zero (o : OpCode) (h : o.num ∉ [0x01, 0x06, 0x08, 0x0A, 0x13, 0x20, 0x21, 0x26]) :
    o.immBits = 0 := by
  revert h
  cases o <;> decide

/-- `SETHS` uses one bit of `imm16` (R136). -/
theorem OpCode.immBits_seths (o : OpCode) (h : o.num = 0x0A) : o.immBits = 1 := by
  revert h
  cases o <;> decide

/-- What the fields of a command that is decoded are: no reserved bit, a listed operation, no unused bit of
`imm16`, its operand words behind it (R135, R136, R139). -/
theorem decodeCommand_ok {cw : Word} {us rest : List PortWord} {i : Instr}
    (h : decodeCommand cw us = .ok (i, rest)) :
    field cw 9 7 = 0 ∧ ∃ o ws, OpCode.ofNum (field cw 0 8) = some o ∧
      field cw 16 16 < 2 ^ o.immBits ∧
      takeOperands (o.operandCount (field cw 16 16)) us = some (ws, rest) ∧
      buildCommand o (InstId.ofBit (field cw 8 1)) (BitVec.ofNat 16 (field cw 16 16)) ws = .ok i := by
  unfold decodeCommand at h
  split at h
  · cases h
  rename_i hreserved
  split at h
  · cases h
  rename_i o ho
  split at h
  case isFalse => cases h
  rename_i himm
  split at h
  · cases h
  rename_i ws rest' htake
  split at h
  · rename_i hbuild
    cases h
    exact ⟨not_not.mp hreserved, o, ws, ho, himm, htake, hbuild⟩
  · cases h

/-- An operation is built with a payload that fits `imm16`, a register of R30 and a predicate of R216. -/
theorem buildCommand_wf {o : OpCode} {n : InstId} {imm : BitVec 16} {ws : List Word} {i : Instr}
    (h : buildCommand o n imm ws = .ok i) : i.wf = true := by
  cases o <;> unfold buildCommand at h <;> dsimp only at h
  case twrite =>
    split at h
    · split at h
      · cases h
        have hlen : ∀ bs : List Byte, (bs.take imm.toNat).length < 65536 := fun bs =>
          (List.length_take_le ..).trans_lt imm.isLt
        exact decide_eq_true (hlen _)
      · cases h
    · cases h
  case regw | poll =>
    split at h
    · split at h
      · rename_i hlt
        cases h
        exact decide_eq_true hlt
      · cases h
    · cases h
  case regr =>
    split at h
    · rename_i hlt
      cases h
      exact decide_eq_true hlt
    · cases h
  all_goals
    repeat' split at h
    all_goals cases h <;> rfl

/-- A field that is not 0 is not the zero word of its width. -/
theorem ofNat_field_ne_zero {w : Word} {lo width : Nat} (h : field w lo width ≠ 0) :
    BitVec.ofNat width (field w lo width) ≠ 0 := by
  intro he
  have := congrArg BitVec.toNat he
  rw [BitVec.toNat_ofNat, field, Nat.mod_mod] at this
  exact h this

/-- What a decoded packet row is: byte 3 zero but for a payload word, a long header's count not 0, and an
instruction that is well formed (R121). -/
theorem decodePacket_ok {n : InstId} {row : PacketRow} {w : Word} {i : Instr}
    (h : decodePacket n row w = .ok i) :
    (row ≠ .payload → field w 24 8 = 0) ∧ (row = .longHdr → field w 8 16 ≠ 0) ∧ i.wf = true := by
  cases row <;> unfold decodePacket at h <;> dsimp only at h
  case payload =>
    cases h
    exact ⟨fun hne => absurd rfl hne, nofun, rfl⟩
  case eot =>
    split at h
    · rename_i hw
      cases h
      exact ⟨fun _ => hw ▸ by decide, nofun, rfl⟩
    · cases h
  case short =>
    split at h
    · cases h
    · rename_i hecc
      cases h
      exact ⟨fun _ => not_not.mp hecc, nofun, rfl⟩
  case longHdr =>
    split at h
    · cases h
    · split at h
      · cases h
      · rename_i hecc hwc
        cases h
        exact ⟨fun _ => not_not.mp hecc, fun _ => hwc, bne_iff_ne.mpr (ofNat_field_ne_zero hwc)⟩
  case maxret | dcsread =>
    split at h
    · cases h
    · split at h
      · cases h
      · rename_i hecc _
        cases h
        exact ⟨fun _ => not_not.mp hecc, nofun, rfl⟩

/-- The row of a response header is well formed: a known byte has a row of its own (R127). -/
theorem headerInstr_wf (n : InstId) (b : Byte) : (headerInstr n b).wf = true := by
  by_cases hw : (Instr.respInvalid n b).wf = true
  · have hd := Laws.Encoding.respInvalid n b hw []
    rw [encode, Laws.Encoding.header] at hd
    rw [show headerInstr n b = .respInvalid n b by injection hd with hd; exact congrArg Prod.fst hd]
    exact hw
  · have hb : b ∈ knownHeaders := by simpa [Instr.wf] using hw
    simp only [knownHeaders, List.mem_cons, List.not_mem_nil, or_false] at hb
    rcases hb with rfl | rfl | rfl | rfl | rfl | rfl | rfl <;> rfl

/-- The row of a packet id is well formed. -/
theorem packetIdInstr_wf (n : InstId) (p : PacketId) : (packetIdInstr n p).wf = true := by
  cases p <;> rfl

/-- The row of a length selector is well formed. -/
theorem lenSelInstr_wf (n : InstId) (l : LenSel) : (lenSelInstr n l).wf = true := by
  cases l <;> rfl

/-- A slot half that is decoded is well formed. -/
theorem decodeSlotHalf_wf {n : InstId} {w : Word} {i : Instr} (h : decodeSlotHalf n w = .ok i) :
    i.wf = true := by
  unfold decodeSlotHalf at h
  split at h
  · split at h
    · cases h
      rfl
    · cases h
  · cases h

/-- A unit of a packet lane decodes as its row does. -/
theorem decode_packet {n : InstId} {row : PacketRow} {w : Word} {us rest : List PortWord} {i : Instr}
    (h : decode (⟨.packet n row, w⟩ :: us) = .ok (i, rest)) : decodePacket n row w = .ok i := by
  unfold decode at h
  dsimp only at h
  split at h
  · rename_i hp
    cases h
    exact hp
  · cases h

/-- On every lane but the command lane one unit is taken, and its instruction is well formed. -/
theorem decode_oneUnit {lane : Lane} {w : Word} {us rest : List PortWord} {i : Instr} (hl : lane ≠ .command)
    (h : decode (⟨lane, w⟩ :: us) = .ok (i, rest)) : rest = us ∧ i.wf = true := by
  unfold decode at h
  cases lane <;> dsimp only at h
  case command => exact absurd rfl hl
  case packet n row =>
    split at h
    · rename_i hp
      obtain ⟨-, -, hwf⟩ := decodePacket_ok hp
      cases h
      exact ⟨rfl, hwf⟩
    · cases h
  case response n =>
    split at h
    · cases h
      exact ⟨rfl, headerInstr_wf n _⟩
    · cases h
  case seqId n =>
    split at h
    · cases h
      exact ⟨rfl, packetIdInstr_wf n _⟩
    · cases h
  case seqLen n =>
    split at h
    · cases h
      exact ⟨rfl, lenSelInstr_wf n _⟩
    · cases h
  case slotHalf n =>
    split at h
    · rename_i hs
      cases h
      exact ⟨rfl, decodeSlotHalf_wf hs⟩
    · cases h
  case teEdge n => cases h

/-- Settles O2: lane by lane, a command with its operand words and every other row with its one unit. -/
theorem decodedIsWellFormed : Obligations.DecodedIsWellFormed := by
  intro us i rest h
  cases us with
  | nil => cases h
  | cons u us =>
    by_cases hl : u.lane = .command
    · obtain ⟨lane, w⟩ := u
      subst hl
      obtain ⟨-, o, ws, ho, -, htake, hbuild⟩ := decodeCommand_ok h
      obtain ⟨hlen, hrest⟩ := takeOperands_some htake
      exact ⟨buildCommand_wf hbuild, _, us, rfl, fun hne => absurd rfl hne, fun _ => ⟨o, ho, hlen, hrest⟩⟩
    · obtain ⟨hrest, hwf⟩ := decode_oneUnit hl h
      exact ⟨hwf, u, us, rfl, fun _ => hrest, fun he => absurd he hl⟩

end Sys2Proof

namespace Sys2Proof.Machine

/-! ### Steps on what is decoded, and on what is not -/

/-- What the decoder reads is fetched (R135). -/
theorem fetch_of_decode {port rest : List PortWord} {i : Instr} (h : decode port = .ok (i, rest)) :
    fetch port = .instr i rest := by
  unfold fetch
  split
  · cases h
  · cases h
  · rw [h]

/-- A step runs the instruction the port presents, the port moved past it (R135). -/
theorem step_of_decode {s : State} {i : Instr} {rest : List PortWord} (h : decode s.port = .ok (i, rest)) :
    step s = exec i { s with port := rest } := by
  rw [step, fetch_of_decode h]

/-- Settles O5: the same step, from a port as it stands and from one that `withFetchWord` has filled. -/
theorem stepRunsDecoded : Obligations.StepRunsDecoded :=
  ⟨fun _ _ _ h => step_of_decode h, fun s nbits w _ _ h => step_of_decode (s := s.withFetchWord nbits w) h⟩

/-- A presentation that is no TE edge and decodes to no instruction is refused (R139). -/
theorem step_refused_of_not_decoded {s : State} {lane : Lane} {w : Word} {us : List PortWord}
    (hp : s.port = ⟨lane, w⟩ :: us) (hl : ∀ n, lane ≠ .teEdge n)
    (hd : ∀ i rest, decode (⟨lane, w⟩ :: us) ≠ .ok (i, rest)) :
    ∃ e, step s = .refused (.illegalCommand e) := by
  have hf : ∃ e, fetch (⟨lane, w⟩ :: us) = .illegal e := by
    unfold fetch
    split
    case h_1 he => cases he
    case h_2 n _ rest he =>
      cases he
      exact absurd rfl (hl n)
    case h_3 =>
      split
      · rename_i hok
        exact absurd hok (hd _ _)
      · exact ⟨_, rfl⟩
  obtain ⟨e, hf⟩ := hf
  exact ⟨e, by rw [step, hp, hf]⟩

/-- A word is a reserved command: an unlisted operation number, a set bit of `cw[15:9]`, or a set bit of `imm16`
with no use (R135, R136, R139). -/
def ReservedCommand (w : Word) : Prop :=
  field w 0 8 = 0 ∨ (0x14 ≤ field w 0 8 ∧ field w 0 8 ≤ 0x1F) ∨ 0x27 ≤ field w 0 8 ∨ field w 9 7 ≠ 0 ∨
    field w 0 8 ∉ [0x01, 0x06, 0x08, 0x0A, 0x13, 0x20, 0x21, 0x26] ∧ field w 16 16 ≠ 0 ∨
    field w 0 8 = 0x0A ∧ 2 ≤ field w 16 16

/-- A reserved command decodes to no instruction. -/
theorem decodeCommand_reserved {w : Word} (hw : ReservedCommand w) (us : List PortWord) (i : Instr)
    (rest : List PortWord) : decodeCommand w us ≠ .ok (i, rest) := by
  intro h
  obtain ⟨hreserved, o, -, ho, himm, -, -⟩ := decodeCommand_ok h
  obtain ⟨hpos, hgap, hmax⟩ := o.num_range
  rw [ReservedCommand, ← OpCode.num_of_ofNum ho] at hw
  rcases hw with hzero | hmid | hpast | hbits | ⟨hunlisted, hset⟩ | ⟨hseths, hset⟩
  · omega
  · omega
  · omega
  · exact hbits hreserved
  · rw [o.immBits_eq_zero hunlisted] at himm
    omega
  · rw [o.immBits_seths hseths] at himm
    omega

/-- Settles O4: neither a reserved command nor such a packet word decodes to an instruction. -/
theorem reservedEncodingsRefused : Obligations.ReservedEncodingsRefused := by
  refine ⟨fun s w rest hp hw => step_refused_of_not_decoded hp nofun (decodeCommand_reserved hw rest),
    fun s w n row rest hp hw => step_refused_of_not_decoded hp nofun fun i rest' h => ?_⟩
  obtain ⟨hecc, hwc, -⟩ := decodePacket_ok (decode_packet h)
  rcases hw with ⟨hrow, hbyte⟩ | ⟨hrow, hzero⟩
  · exact hbyte (hecc hrow)
  · exact hwc hrow hzero

/-! ### The words of a packet, byte by byte -/

/-- Settles O22: the payload words are `reg_addr` and the data packed together (R115). -/
theorem longPayloadWords : Obligations.LongPayloadWords := by
  intro p i d hlong
  have hwords : i.packetWords p d = i.longWords p d := if_pos hlong
  refine ⟨⟨.longHeader, longHeaderWord i.channel d.cmdType (BitVec.ofNat 16 (d.payload.length + 1))⟩,
    packBytes (d.reg :: d.payload), rfl, ?_, packBytes_length _, fun k j _ hj => getD_packBytes _ k j hj,
    take_unpack_pack (d.reg :: d.payload)⟩
  rw [hwords, Instance.longWords, Instance.eotWords, Bool.and_true, payloadWords]

/-- The number of two bit vectors put together. -/
theorem toNat_append_eq_add {m n : Nat} (x : BitVec m) (y : BitVec n) :
    (x ++ y).toNat = x.toNat * 2 ^ n + y.toNat := by
  rw [BitVec.toNat_append, ← Nat.shiftLeft_add_eq_or_of_lt y.isLt, Nat.shiftLeft_eq]

/-- Zero bits in front leave the number. -/
theorem toNat_zero_append (m : Nat) {n : Nat} (y : BitVec n) : ((0 : BitVec m) ++ y).toNat = y.toNat := by
  simp

/-- A word whose byte 3 is zero, byte 0 the data identifier (R111, R113). -/
theorem word_of_dataId (vc : BitVec 2) (ct : BitVec 6) (v : BitVec 16) :
    BitVec.ofNat 32 (dataId vc ct + 256 * v.toNat) = BitVec.append (0 : BitVec 8) (v ++ vc ++ ct) := by
  have hvc := vc.isLt
  have hct := ct.isLt
  have hv := v.isLt
  apply BitVec.eq_of_toNat_eq
  rw [BitVec.append_eq, toNat_zero_append, toNat_append_eq_add, toNat_append_eq_add, BitVec.toNat_ofNat, dataId]
  omega

/-- Settles O23: every opening word is a data identifier below two bytes and a zero byte. -/
theorem openingWords : Obligations.OpeningWords := by
  intro vc ct reg data wc
  refine ⟨?_, word_of_dataId vc ct wc, word_of_dataId vc ct wc, ?_⟩
  · have hpair : reg.toNat + 256 * data.toNat = (data ++ reg).toNat := by
      rw [toNat_append_eq_add]
      omega
    rw [shortPacketWord_eq, hpair, word_of_dataId]
  · rw [dcsreadWord, ← toNat_zero_append 8 reg, word_of_dataId]
    apply BitVec.eq_of_toNat_eq
    simp only [BitVec.append_eq, toNat_append_eq_add, BitVec.ofNat_eq_ofNat, BitVec.toNat_zero, Nat.zero_mul,
      Nat.zero_add]

/-! ### Responses -/

/-- The length of what is copied (R262). -/
theorem RespClass.copied_length (c : RespClass) (b : List Byte) (len : Nat) :
    (c.copied b len).length = c.copyCount b len := by
  rw [RespClass.copied, List.length_take, List.length_drop, RespClass.copyCount]
  omega

/-- Byte `k` of what is copied is the response's byte `k` past the header (R262). -/
theorem RespClass.copied_getD (c : RespClass) (b : List Byte) {len k : Nat} (hk : k < c.copyCount b len) :
    (c.copied b len).getD k 0 = b.getD (c.skip + k) 0 := by
  rw [RespClass.copied, List.getD_eq_getElem?_getD, List.getElem?_take_of_lt hk, List.getElem?_drop,
    ← List.getD_eq_getElem?_getD]

/-- A header byte that is none of the seven is `Invalid` (R127). -/
theorem classifyHeader_invalid {h : Byte} (h1 : h ≠ 0x1A) (h2 : h ≠ 0x1C) (h3 : h ≠ 0x11) (h4 : h ≠ 0x21)
    (h5 : h ≠ 0x12) (h6 : h ≠ 0x22) (h7 : h ≠ 0x02) : classifyHeader h = .invalid := by
  simp only [classifyHeader, if_neg h1, if_neg h2, if_neg h3, if_neg h4, if_neg h5, if_neg h6, if_neg h7]

/-- The low 24 bits of a word, as a field and as a mask. -/
theorem field_0_24_eq (w : Word) : field w 0 24 = (w &&& 0x00FFFFFF).toNat := by
  rw [BitVec.toNat_and, field, pow_zero, Nat.div_one]
  exact (Nat.and_two_pow_sub_one_eq_mod w.toNat 24).symm

/-- One word of a BTA response is a success in the two patterns of R256. -/
theorem classifyBta_one (w : Word) : classifyBta [w] =
    if w &&& 0x00FFFFFF = 0x00000102 ∨ w &&& 0x00FFFFFF = 0x00004002 then .success
    else .btaProtocolError := by
  have hpat : btaOkPatterns.contains (field w 0 24) = true ↔
      w &&& 0x00FFFFFF = 0x00000102 ∨ w &&& 0x00FFFFFF = 0x00004002 := by
    rw [field_0_24_eq, ← BitVec.toNat_inj, ← BitVec.toNat_inj]
    simp [btaOkPatterns]
  rw [classifyBta]
  exact if_congr hpat rfl rfl

/-- Settles O33: header by header, then the bytes copied, then the words of a BTA response. -/
theorem responseClasses : Obligations.ResponseClasses := by
  refine ⟨fun h r => ⟨?_, ?_, ?_, ?_, fun h1 h2 h3 h4 h5 h6 h7 => ?_⟩, rfl,
    fun c b len => ⟨c.copied_length b len, fun k hk => c.copied_getD b hk⟩, rfl, classifyBta_one,
    fun _ _ _ => rfl⟩
  · rintro (rfl | rfl) <;> exact ⟨rfl, rfl, rfl, rfl⟩
  · rintro (rfl | rfl) <;> exact ⟨rfl, rfl, rfl, rfl⟩
  · rintro (rfl | rfl) <;> exact ⟨rfl, rfl, rfl, rfl⟩
  · rintro rfl
    exact ⟨rfl, rfl, rfl, rfl⟩
  · have hc : classifyResponse (h :: r) = .invalid := classifyHeader_invalid h1 h2 h3 h4 h5 h6 h7
    rw [hc]
    exact ⟨rfl, rfl, rfl, rfl⟩

/-- A block that accepts operations and whose lock is free runs what waits for the lock (R25, R370). -/
theorem State.guarded_whenFree_open {s : State} {n : InstId} (ho : Open s n) (k : Out) :
    s.guarded n (s.whenFree n k) = k := by
  obtain ⟨ha, hlock⟩ := ho
  rw [State.guarded_accepts ha, State.whenFree_free hlock]

/-- A response-header row on an open block copies its class's bytes of the staged response (R262, R263). -/
theorem respRow_open {s : State} {n : InstId} (ho : Open s n) (c : RespClass) :
    respRow s n c = .next { s with
      mem := Memory.writeBytes s.mem (s.inst n).outBuf (c.copied (s.inst n).staging (s.inst n).readLen)
      result := some ⟨n, c.status, .bytes (c.copyCount (s.inst n).staging (s.inst n).readLen)⟩
      gangedStep := .idle } := by
  rw [respRow, State.guarded_whenFree_open ho, ← RespClass.copied_length]
  rfl

/-- Settles O34: each row is the copy of its class. -/
theorem responseRows : Obligations.ResponseRows := by
  intro n h s i b row announced ho
  have rowOf (c : RespClass) : respRow s n c = row c.skip (c.payloadLength b) c.status := respRow_open ho c
  exact ⟨rowOf .long, rowOf .long, rowOf .ackError, rowOf .short1, rowOf .short1, rowOf .short2,
    rowOf .short2, rowOf .invalid⟩

/-! ### The sequencer's rows -/

/-- The row of a packet id stages it (R129). -/
theorem exec_packetIdInstr (n : InstId) (id : PacketId) (s : State) :
    exec (packetIdInstr n id) s = stageId s n id := by
  cases id <;> rfl

/-- The row of a length selector but index 7 selects (R130). -/
theorem exec_lenSelInstr (n : InstId) {l : LenSel} (hl : l ≠ .idx7) (s : State) :
    exec (lenSelInstr n l) s = stageLen s n l := by
  cases l
  case idx7 => exact absurd rfl hl
  all_goals rfl

/-- `SLOT_HALF` on a disabled interface writes the staged half and clears it (R128). -/
theorem exec_slotHalf_disabled {s : State} {n : InstId} (ho : Open s n) (slot : Fin 6) (hi lp : Bool)
    (he : (s.inst n).regs.ifEnable = false) :
    exec (.slotHalf n slot hi lp) s =
      Ends s n { (s.inst n).setHalf slot hi ⟨(s.inst n).halfStage, lp⟩ with halfStage := [] } .success .none := by
  rw [exec, execSlotHalf, State.guarded_whenFree_open ho, he, if_neg Bool.false_ne_true, State.finishWith_eq]

/-- `SLOT_HALF` on an enabled interface is refused (R98). -/
theorem exec_slotHalf_enabled {s : State} {n : InstId} (ho : Open s n) (slot : Fin 6) (hi lp : Bool)
    (he : (s.inst n).regs.ifEnable = true) : exec (.slotHalf n slot hi lp) s = .refused .liveProgramWrite := by
  rw [exec, execSlotHalf, State.guarded_whenFree_open ho, if_pos he]

/-- Settles O40: what a selector does to the list, then row by row on an open block. -/
theorem sequencerRows : Obligations.SequencerRows := by
  refine ⟨fun l r k => ⟨rfl, selectLast_snoc l r k⟩, ?_⟩
  intro n s i ho
  refine ⟨fun id => ?_, fun l hl => ?_, ?_, fun slot hi lp he => ?_,
    fun slot hi lp he => exec_slotHalf_enabled ho slot hi lp he⟩
  · rw [exec_packetIdInstr, stageId, State.guarded_whenFree_open ho, State.finishWith_eq]
  · rw [exec_lenSelInstr n hl, stageLen, State.guarded_whenFree_open ho, State.finishWith_eq]
    cases l
    case idx7 => exact absurd rfl hl
    all_goals rfl
  · refine ⟨Config.lenIdx7 i.id i.freeTick, ?_⟩
    rw [exec, execLenIdx7, State.guarded_whenFree_open ho, State.finishWith_eq]
    rfl
  · exact ⟨halfSet i.regs.slots slot hi ⟨i.halfStage, lp⟩, exec_slotHalf_disabled ho slot hi lp he,
      halfGet_halfSet .., fun k h hne => halfGet_halfSet_other _ slot k hi h _ hne⟩

end Sys2Proof.Machine

/-! PROOFS. The timing calculator (40_timing_calculator.md R151 to R166): PHY timing, SOL delay and packet lengths, each
first as a function of the block, then as what its operation answers on an open block. -/

namespace Sys2Proof.Machine

/-! ### PHY timing -/

/-- A known format has a number of bytes per pixel (R151). -/
theorem bppQuarters_some {f : DataFormat} (h : f ≠ .unknown) : ∃ q, bppQuarters f = some q := by
  cases f
  case unknown => exact absurd rfl h
  all_goals exact ⟨_, rfl⟩

/-- Without overrides nothing is above a ceiling (R152). -/
theorem overridesFit_of_none (p : Params) {d : PanelDescriptor} (h : d.phyOverrides = none) :
    overridesFit p d = true := by
  rw [overridesFit, h]

/-- Overrides stand verbatim, whatever the frequency (R152). -/
theorem Instance.computePhy_of_overrides (p : Params) {i : Instance} {T : PhyTimingSet} (khz : Nat)
    (h : i.cfg.phyOverrides = some T) : i.computePhy p khz = some T := by
  rw [Instance.computePhy, h]

/-- Without overrides the set of a known format is derived (R152). -/
theorem Instance.computePhy_of_none (p : Params) {i : Instance} {q : Nat} (khz : Nat)
    (h : i.cfg.phyOverrides = none) (hq : bppQuarters i.cfg.dataFormat = some q) :
    i.computePhy p khz = some (derivePhy p q i.cfg.nLanes i.activeTiming khz) := by
  simp only [Instance.computePhy, h, hq]

/-- The timeout keeps the low 16 bits of the raster's bytes per lane plus the margin (R156). -/
theorem timeoutValue_toNat (margin q lanes : Nat) (t : PanelTiming) :
    (timeoutValue margin q lanes t).toNat = (framePixels t * q / (4 * lanes) + margin) % 65536 :=
  BitVec.toNat_ofNat ..

/-- A derived field is the least count that covers its requirement, saturated (R154). -/
theorem derivedField_least (m fHz : Nat) (k : PhyField) :
    ∃ c, (∀ c', c ≤ c' ↔
        (Config.nsSpec k fHz).num * fHz ≤ c' * (((Config.nsSpec k fHz).den + 1) * 4000000000)) ∧
      derivedField m fHz k = min c m :=
  ⟨_, ceilPeriods_le (Config.nsSpec k fHz) fHz, rfl⟩

section
variable {s : State} {n : InstId} {freq : Word}

/-- `PHYT` refuses an override above its ceiling (log 42). -/
theorem exec_phyt_tooLarge (ho : Open s n) (hfit : overridesFit s.params (s.inst n).cfg = false) :
    exec (.phyt n freq) s = .refused .overrideTooLarge := by
  rw [exec, execPhyt, State.guarded_whenFree_open ho, hfit]
  rfl

/-- `PHYT` refuses frequency 0 where no overrides stand in for it (R152; log 47). -/
theorem exec_phyt_zero (ho : Open s n) (hf : freq = 0) (hn : (s.inst n).cfg.phyOverrides = none) :
    exec (.phyt n freq) s = .refused .zeroFrequency := by
  rw [exec, execPhyt, State.guarded_whenFree_open ho, overridesFit_of_none _ hn, if_neg (by decide),
    if_pos ⟨hf, hn⟩]

/-- `PHYT` past its two refusals delivers the computed set (R152). -/
theorem exec_phyt_computes (ho : Open s n) (hfit : overridesFit s.params (s.inst n).cfg = true)
    (hz : ¬(freq = 0 ∧ (s.inst n).cfg.phyOverrides = none)) {T : PhyTimingSet}
    (hT : (s.inst n).computePhy s.params freq.toNat = some T) :
    exec (.phyt n freq) s = Ends s n (s.inst n) .success (.phySet T) := by
  rw [exec, execPhyt, State.guarded_whenFree_open ho, hfit, if_neg (by decide), if_neg hz, hT]
  exact State.finish_eq ..

/-- `PHYT` without overrides delivers the derived set of a known format (R152). -/
theorem exec_phyt_derives (ho : Open s n) (hf : freq ≠ 0) (hn : (s.inst n).cfg.phyOverrides = none) {q : Nat}
    (hq : bppQuarters (s.inst n).cfg.dataFormat = some q) :
    exec (.phyt n freq) s = Ends s n (s.inst n) .success (.phySet
      (derivePhy s.params q (s.inst n).cfg.nLanes (s.inst n).activeTiming freq.toNat)) :=
  exec_phyt_computes ho (overridesFit_of_none _ hn) (fun hz => hf hz.1) (Instance.computePhy_of_none _ _ hn hq)

end

/-- Settles O44: the two refusals, the overrides, and the timeout of the derived set. -/
theorem phyTimingEnds : Obligations.PhyTimingEnds := by
  intro n freq s p i t ho
  refine ⟨exec_phyt_tooLarge ho, exec_phyt_zero ho, fun T hfit hT => ?_, fun q hf hn hq =>
    ⟨_, exec_phyt_derives ho hf hn hq, timeoutValue_toNat ..⟩⟩
  have hz : ¬(freq = 0 ∧ i.cfg.phyOverrides = none) := fun ⟨_, hn⟩ => nomatch hT.symm.trans hn
  exact exec_phyt_computes ho hfit hz (Instance.computePhy_of_overrides p _ hT)

/-- Settles O45: field by field, then the triad, on the derived set. -/
theorem phyFieldsDerived : Obligations.PhyFieldsDerived := by
  intro n freq s p i f periods derived ho hf hn hfmt
  obtain ⟨q, hq⟩ := bppQuarters_some hfmt
  have field (k : PhyField) (m : Nat) : derived k m (derivedField m f k) := derivedField_least m f k
  have thsPrepare : ∃ c, periods .thsPrepare c ∧
      (derivedFields p f).thsPrepare = max (min c p.fieldMax.thsPrepare) 1 := by
    obtain ⟨c, hleast, hc⟩ := field .thsPrepare p.fieldMax.thsPrepare
    exact ⟨c, hleast, congrArg (max · 1) hc⟩
  exact ⟨_, exec_phyt_derives ho hf hn hq, field .thsExit _, field .thsTrail _, field .tdataZero _, thsPrepare,
    field .tclkTrail _, field .tclkPost _, field .tclkZero _, field .tclkPre _, field .ttlpx _, rfl⟩

/-! ### SOL delay -/

/-- The burst delay is at most the cap (R160 (i)). -/
theorem solBurst_delay_le (d : PanelDescriptor) (t : PanelTiming) : (solBurst d t).1 ≤ solDelayCap :=
  Nat.min_le_right _ _

/-- The burst delay never lowers the clock (R160 (ii)). -/
theorem le_solBurst_clock (d : PanelDescriptor) (t : PanelTiming) : d.phyFreqTarget ≤ (solBurst d t).2 := by
  rw [solBurst]
  split
  · exact Nat.le_add_right _ _
  · exact Nat.le_refl _

/-- A burst delay below the cap keeps the clock (R160 (ii)). -/
theorem solBurst_clock_of_lt_cap {d : PanelDescriptor} {t : PanelTiming} (h : (solBurst d t).1 < solDelayCap) :
    (solBurst d t).2 = d.phyFreqTarget := by
  have hu : ¬solDelayCap < solBurstUncapped d t := fun hcap => Nat.lt_irrefl _ (Nat.min_eq_right hcap.le ▸ h)
  exact if_neg hu

/-- More lanes never give a longer burst delay (R160 (iii), property P2). -/
theorem solBurst_delay_antitone_lanes (d : PanelDescriptor) (t : PanelTiming) :
    Antitone fun lanes => (solBurst { d with nLanes := lanes } t).1 :=
  fun _ _ h => min_le_min_right _ (runningMin_antitone _ _ _ h)

/-- `SOLD` delivers the computed delay and clock (R158). -/
theorem exec_sold_computes {s : State} {n : InstId} (ho : Open s n) {d f : Nat}
    (hr : (s.inst n).computeSol = some (d, f)) : exec (.sold n) s = Ends s n (s.inst n) .success (.sol d f) := by
  rw [exec, execSold, State.guarded_whenFree_open ho, hr]
  exact State.finish_eq ..

section
variable {i : Instance} {q : Nat}

/-- The delay of the two non-burst modes, the clock kept (R159). -/
theorem Instance.computeSol_nonBurst (hq : bppQuarters i.cfg.dataFormat = some q)
    (hm : i.cfg.videoMode = .nonBurst ∨ i.cfg.videoMode = .nonBurstSyncEnd) :
    i.computeSol = some (solNonBurst q i.cfg.nLanes, i.cfg.phyFreqTarget) := by
  rcases hm with hm | hm <;> simp only [Instance.computeSol, hq, hm]

/-- Burst mode and DC-driven command mode take the burst function (R158, R160; log 27). -/
theorem Instance.computeSol_burst (hq : bppQuarters i.cfg.dataFormat = some q)
    (hm : i.cfg.videoMode = .burst ∨ i.cfg.videoMode = .dcDrivenCommand) :
    i.computeSol = some (solBurst i.cfg i.activeTiming) := by
  rcases hm with hm | hm <;> simp only [Instance.computeSol, hq, hm]

/-- Ganged mode takes the ganged function and keeps the clock (R161). -/
theorem Instance.computeSol_ganged (hq : bppQuarters i.cfg.dataFormat = some q) (hm : i.cfg.videoMode = .ganged) :
    i.computeSol =
      some (Config.solGanged i.cfg.dataFormat i.cfg.nLanes i.activeTiming, i.cfg.phyFreqTarget) := by
  simp only [Instance.computeSol, hq, hm]

end

/-- Settles O46: the three classes of modes, then property P2 by the running minimum. -/
theorem solDelays : Obligations.SolDelays := by
  refine ⟨?_, fun d t a b _ hab _ => solBurst_delay_antitone_lanes d t hab⟩
  intro n s q i ho hq
  refine ⟨fun hm => ?_, fun hm => ?_, fun hm => ?_⟩
  · exact exec_sold_computes ho (Instance.computeSol_nonBurst hq hm)
  · exact ⟨_, _, exec_sold_computes ho (Instance.computeSol_burst hq hm), rfl, solBurst_delay_le _ _,
      le_solBurst_clock _ _, solBurst_clock_of_lt_cap⟩
  · exact ⟨_, exec_sold_computes ho (Instance.computeSol_ganged hq hm)⟩

/-! ### Packet lengths -/

/-- `PLEN` delivers the computed lengths (R163). -/
theorem exec_plen_computes {s : State} {n : InstId} (ho : Open s n) {l : PktLen}
    (hl : (s.inst n).computeLengths = some l) : exec (.plen n) s = Ends s n (s.inst n) .success (.lens l) := by
  rw [exec, execPlen, State.guarded_whenFree_open ho, hl]
  exact State.finish_eq ..

section
variable {i : Instance} {q : Nat}

/-- The lengths of DC-driven command mode (R164). -/
theorem Instance.computeLengths_command (hq : bppQuarters i.cfg.dataFormat = some q)
    (hm : i.cfg.videoMode = .dcDrivenCommand) : i.computeLengths = some (commandLengths q i.activeTiming) := by
  simp only [Instance.computeLengths, hq, hm]

/-- The lengths of every other mode (R165). -/
theorem Instance.computeLengths_video (hq : bppQuarters i.cfg.dataFormat = some q)
    (hm : i.cfg.videoMode ≠ .dcDrivenCommand) :
    i.computeLengths = some (videoLengths i.cfg.videoMode q i.activeTiming) := by
  rw [Instance.computeLengths, hq]
  generalize i.cfg.videoMode = m at hm ⊢
  cases m
  case dcDrivenCommand => exact absurd rfl hm
  all_goals rfl

end

/-- Settles O47: DC-driven command mode and every other, then the bytes per pixel of the four formats. -/
theorem packetLengths : Obligations.PacketLengths := by
  refine ⟨?_, rfl, rfl, rfl, rfl⟩
  intro n s q i t B ho hq
  refine ⟨fun hm => ?_, fun hm => ?_⟩
  · exact exec_plen_computes ho (Instance.computeLengths_command hq hm)
  · exact exec_plen_computes ho (Instance.computeLengths_video hq hm)

end Sys2Proof.Machine

/-! PROOFS. The packet sequencer (41_packet_sequencer.md R182 to R197): what `SEQPROG` writes in each mode, and the
fatal end of whatever meets an unrecognised data format first. -/

namespace Sys2Proof.Machine

/-! ### The program of a known format -/

/-- The program of a known format: the mode's slots, slot 5 mirroring slot 3 (R194). -/
theorem Instance.programSequence_known (p : Params) {i : Instance} {act : PacketId}
    (ha : activeId i.cfg.dataFormat = some act) :
    i.programSequence p =
      (.success, i.setSlots (mirrorSlot (modeProgram p i.cfg.videoMode act i.regs.slots.s5))) := by
  rw [Instance.programSequence, ha]

section
variable {s : State} {n : InstId}

/-- `SEQPROG` on an enabled interface is refused (R98, R414). -/
theorem exec_seqprog_enabled (ho : Open s n) (he : (s.inst n).regs.ifEnable = true) :
    exec (.seqprog n) s = .refused .liveProgramWrite := by
  rw [exec, execSeqprog, State.guarded_whenFree_open ho, if_pos he]

/-- `SEQPROG` on a disabled interface ends as `ProgramSequence` does (R182). -/
theorem exec_seqprog_disabled (ho : Open s n) (he : (s.inst n).regs.ifEnable = false) {st : Status} {j : Instance}
    (hr : (s.inst n).programSequence s.params = (st, j)) : exec (.seqprog n) s = Ends s n j st .none := by
  rw [exec, execSeqprog, State.guarded_whenFree_open ho, he, if_neg Bool.false_ne_true, hr, State.finishWith_eq]

/-- `SEQPROG` of mode `m` on a known format writes the mode's slot file (R184 to R194). -/
theorem exec_seqprog_mode (ho : Open s n) (he : (s.inst n).regs.ifEnable = false) {act : PacketId}
    (ha : activeId (s.inst n).cfg.dataFormat = some act) {m : VideoMode} (hm : (s.inst n).cfg.videoMode = m) :
    exec (.seqprog n) s = Ends s n
      ((s.inst n).setSlots (mirrorSlot (modeProgram s.params m act (s.inst n).regs.slots.s5))) .success .none := by
  subst hm
  exact exec_seqprog_disabled ho he (Instance.programSequence_known s.params ha)

end

/-- Settles O41: each of the two modes' slot files is the one written out. -/
theorem sequenceWithoutSyncEnd : Obligations.SequenceWithoutSyncEnd := by
  intro n s act i z one line after ho he ha
  exact ⟨exec_seqprog_mode ho he ha, exec_seqprog_mode ho he ha⟩

/-- Settles O42: the refusal, each of the three modes' slot files, then the ids of the four formats. -/
theorem sequenceOtherModes : Obligations.SequenceOtherModes := by
  refine ⟨?_, rfl, rfl, rfl, rfl⟩
  intro n s act i z one after dcd gng nse ho
  exact ⟨exec_seqprog_enabled ho, fun he ha =>
    ⟨exec_seqprog_mode ho he ha, exec_seqprog_mode ho he ha, exec_seqprog_mode ho he ha⟩⟩

/-! ### An unrecognised format -/

section
variable {i : Instance} (hu : i.cfg.dataFormat = .unknown)
include hu

/-- The sequencer takes the fatal fault (R195). -/
theorem Instance.programSequence_unknown (p : Params) :
    i.programSequence p = (.fatalHardwareFault, i.raiseFatal .unknownDataFormat) := by
  rw [Instance.programSequence, hu]
  rfl

/-- Without overrides there is no PHY set (R367). -/
theorem Instance.computePhy_unknown (p : Params) (khz : Nat) (hn : i.cfg.phyOverrides = none) :
    i.computePhy p khz = none := by
  simp only [Instance.computePhy, hn, hu, bppQuarters]

/-- There is no SOL delay (R367). -/
theorem Instance.computeSol_unknown : i.computeSol = none := by
  rw [Instance.computeSol, hu]
  rfl

/-- There are no packet lengths (R367). -/
theorem Instance.computeLengths_unknown : i.computeLengths = none := by
  rw [Instance.computeLengths, hu]
  rfl

end

/-- The operation ends in the fatal fault of an unrecognised data format (R366, R367). -/
def EndsUnknownFormat (x : Instr) (s : State) (n : InstId) : Prop :=
  ∃ j, exec x s = Ends s n j .fatalHardwareFault .none ∧ j.fatal = some .unknownDataFormat

section
variable {s : State} {n : InstId} {x : Instr}

/-- An operation that raises the fault ends in it (R366). -/
theorem endsUnknownFormat_of_finishFatal (h : exec x s = finishFatal s n .unknownDataFormat) :
    EndsUnknownFormat x s n :=
  ⟨_, h, rfl⟩

variable (ho : Open s n) (hu : (s.inst n).cfg.dataFormat = .unknown)
include ho hu

/-- `SEQPROG` on a disabled interface (R195). -/
theorem exec_seqprog_unknown (he : (s.inst n).regs.ifEnable = false) : EndsUnknownFormat (.seqprog n) s n :=
  endsUnknownFormat_of_finishFatal (exec_seqprog_disabled ho he (Instance.programSequence_unknown hu s.params))

/-- `SOLD` (R367). -/
theorem exec_sold_unknown : EndsUnknownFormat (.sold n) s n := by
  refine endsUnknownFormat_of_finishFatal ?_
  rw [exec, execSold, State.guarded_whenFree_open ho, Instance.computeSol_unknown hu]

/-- `PLEN` (R367). -/
theorem exec_plen_unknown : EndsUnknownFormat (.plen n) s n := by
  refine endsUnknownFormat_of_finishFatal ?_
  rw [exec, execPlen, State.guarded_whenFree_open ho, Instance.computeLengths_unknown hu]

/-- `PHYT` of a frequency above 0 without overrides (R367). -/
theorem exec_phyt_unknown {freq : Word} (hf : freq ≠ 0) (hn : (s.inst n).cfg.phyOverrides = none) :
    EndsUnknownFormat (.phyt n freq) s n := by
  refine endsUnknownFormat_of_finishFatal ?_
  rw [exec, execPhyt, State.guarded_whenFree_open ho, overridesFit_of_none _ hn, if_neg (by decide),
    if_neg (fun hz => hf hz.1), Instance.computePhy_unknown hu _ _ hn]

end

/-- A `TransInit` whose steps end fatally unwinds and leaves the record set (R322, R367). -/
theorem Instance.transInit_fatal {p : Params} {d : PanelDescriptor} {i : Instance}
    (h : ((i.zeroStructure p).initSteps p d).1 = .fatalHardwareFault) :
    ∃ j, i.transInit p d = (.fatalHardwareFault, j) ∧ j.fatal = some .unknownDataFormat := by
  have hsteps : (i.zeroStructure p).initSteps p d =
      (.fatalHardwareFault, ((i.zeroStructure p).initSteps p d).2) := Prod.ext h rfl
  rw [Instance.transInit, hsteps]
  exact ⟨_, rfl, rfl⟩

/-- Settles O43: the sequencer and the three calculators, then step (8) of `TransInit`. -/
theorem unknownFormatIsFatal : Obligations.UnknownFormatIsFatal := by
  constructor
  · intro n s i fatal ho hu
    exact ⟨exec_seqprog_unknown ho hu, exec_sold_unknown ho hu, exec_plen_unknown ho hu,
      fun freq => exec_phyt_unknown ho hu⟩
  · intro n desc flags s i d hf hi hd hu hn hcalls
    obtain ⟨j, hj, hfatal⟩ :=
      Instance.transInit_fatal (Instance.initSteps_fatal (p := s.params) (i := i.zeroStructure s.params) hcalls hu hn)
    exact ⟨j, exec_tinit_runs flags hf hi hd (overridesFit_of_none _ hn) hj, hfatal⟩

end Sys2Proof.Machine

/-! PROOFS. The packet framer and the micro-operations (42_packet_framer_write.md): the words of a packet, how a write
runs, is refused and what it leaves alone, then the pushes, pops and triggers, the register accesses and the polls a
host issues. -/

namespace Sys2Proof.Machine

/-! ### The words of a packet -/

/-- How many words a packet has (R223, R225, R226). -/
theorem Instance.packetWords_length (p : Params) (i : Instance) (d : PacketDesc) :
    (i.packetWords p d).length = (if d.isLong then 1 + (d.payload.length + 1 + 3) / 4 else 1) +
      (if i.hsMode && (d.isLong || p.eotOnShort) then 1 else 0) := by
  have marker (on : Bool) : (i.eotWords p on).length = if i.hsMode && on then 1 else 0 := by
    rw [Instance.eotWords]
    split <;> rfl
  rw [Instance.packetWords]
  cases d.isLong
  · rw [if_neg Bool.false_ne_true, if_neg Bool.false_ne_true, Instance.shortWords, List.length_cons, marker,
      Bool.false_or, Nat.add_comm]
  · rw [if_pos rfl, if_pos rfl, Instance.longWords, List.length_cons, List.length_append, payloadWords,
      List.length_map, packBytes_length, List.length_cons, marker, Bool.true_or]
    omega

/-- Settles O24: the words of the two packet forms and of the two read control packets, each as it is built. -/
theorem markerOnlyInHighSpeed : Obligations.MarkerOnlyInHighSpeed := by
  intro p i d reg len vc mark
  have marker (on : Bool) : i.eotWords p on = mark on := rfl
  refine ⟨fun hshort => ?_, fun hlong => ⟨packBytes (d.reg :: d.payload), ?_⟩, rfl, rfl⟩
  · rw [Instance.packetWords, hshort, if_neg Bool.false_ne_true, Instance.shortWords, marker]
    rfl
  · rw [Instance.packetWords, if_pos hlong, Instance.longWords, marker]
    rfl

/-! ### How a write runs -/

/-- `TWRITE` and `NOPW` are the write of their packet (R220, R235). -/
theorem exec_of_writtenPacket {x : Instr} {s : State} {d : PacketDesc} (hx : writtenPacket s.params x = some d) :
    exec x s = writeOperation s (blockOf x) d := by
  cases x
  case twrite n isLong ct reg payload => rw [← Option.some.inj hx]; rfl
  case nopw n => rw [← Option.some.inj hx]; rfl
  all_goals cases hx

section
variable {x : Instr} {s : State} {d : PacketDesc} (hx : writtenPacket s.params x = some d)
  (ha : Accepts s (blockOf x))
include hx ha

/-- A write whose packet is refused (R224). -/
theorem exec_write_refused {r : Refusal} (hr : (s.inst (blockOf x)).sendRefusal s.params d = some r) :
    exec x s = .refused r := by
  rw [exec_of_writtenPacket hx, writeOperation, State.guarded_accepts ha, hr]

/-- A write that is not refused ends as `WriteCommand` under the lock does (R220). -/
theorem exec_write_ends (hl : (s.inst (blockOf x)).lock = .free)
    (hr : (s.inst (blockOf x)).sendRefusal s.params d = none) {st : Status} {j : Instance}
    (hw : (s.inst (blockOf x)).acquire.writeCommand s.params d = (st, j)) :
    exec x s = Ends s (blockOf x) j.release st .none := by
  rw [exec_of_writtenPacket hx, writeOperation, State.guarded_accepts ha, hr, State.onLocked_free hl, hw]

end

/-- The lock taken and released around the link's traffic leaves the traffic (R25). -/
theorem Instance.release_acquire_traffic {i : Instance} (hl : i.lock = .free) (e : Env) (tr : Word)
    (hf : List FifoWord) (fl : Flight) (se : List (List FifoWord)) (ph : Phase) (sn : Snap) (ft : Nat) :
    ({ i.acquire with
      env := e, regs := { i.regs with trigger := tr }, hfifo := hf, flight := fl, sent := se, phase := ph
      snap := sn, freeTick := ft } : Instance).release =
    { i with
      env := e, regs := { i.regs with trigger := tr }, hfifo := hf, flight := fl, sent := se, phase := ph
      snap := sn, freeTick := ft } := by
  rw [Instance.release, ← hl]
  rfl

/-- Settles O25: `WriteCommand` on a ready link, under the lock. -/
theorem writeCompletes : Obligations.WriteCompletes := by
  intro x s d m k p n i hx ha hrest hp hr hm hk h1 h2
  obtain ⟨hl, hc, he, hs, -⟩ := hrest
  rw [exec_write_ends hx ha hl hr (Instance.writeCommand_ready (i := i.acquire) d hs hc he hp hm hk h1 h2)]
  exact congrArg (Ends s n · .success .none) (Instance.release_acquire_traffic hl ..)

/-- Settles O26: `WriteCommand` with a completion counter, under the lock. -/
theorem writeCompletesOnCounter : Obligations.WriteCompletesOnCounter := by
  intro x s d m p n i hx ha hrest hp hr hm h1
  obtain ⟨hl, hc, he, hs, -⟩ := hrest
  obtain ⟨j, hw, hlink, htrigger, hcounter, hsent, hfifo⟩ :=
    Instance.writeCommand_counter (i := i.acquire) d hs hc he hp hm h1
  exact ⟨j.release, exec_write_ends hx ha hl hr hw, OnlyLink.release hl i.te hlink, htrigger, hcounter, hsent, hfifo⟩

/-- Settles O27: `WriteCommand` on a busy link, under the lock. -/
theorem busyLinkTimesOut : Obligations.BusyLinkTimesOut := by
  intro x s d p n i hx ha hrest hr hbusy
  obtain ⟨hl, hc, he, hs, -⟩ := hrest
  obtain ⟨w, hw⟩ := Instance.writeCommand_busy (i := i.acquire) d hs hc he hbusy
  refine ⟨w, ?_⟩
  rw [exec_write_ends hx ha hl hr hw]
  exact congrArg (Ends s n · .hardwareBusyTimeout .none) (Instance.release_acquire_traffic hl ..)

/-- Settles O28: `WriteCommand` whose completion is not seen, under the lock. -/
theorem completionTimesOut : Obligations.CompletionTimesOut := by
  intro x s d m p n i hx ha hrest hp hr hm h1 h2
  obtain ⟨hl, hc, he, hs, -⟩ := hrest
  obtain ⟨tr, hw⟩ := Instance.writeCommand_timedOut (i := i.acquire) d hs hc he hp hm h1 h2
  refine ⟨tr, ?_⟩
  rw [exec_write_ends hx ha hl hr hw]
  exact congrArg (Ends s n · .triggerTimeout .none) (Instance.release_acquire_traffic hl ..)

/-- Settles O29: the two refusals of a packet, the second by the number of its words. -/
theorem writeRefusals : Obligations.WriteRefusals := by
  intro x s d p n i words hx ha
  refine ⟨fun hlong hbig => exec_write_refused hx ha (if_pos ⟨hlong, hbig⟩), fun hfits hroom => ?_⟩
  refine exec_write_refused hx ha ((if_neg hfits).trans (if_pos ?_))
  rw [Instance.packetWords_length]
  exact hroom

/-- Settles O30: a write that ran did `WriteCommand` under the lock; one that a check stopped touched no block. -/
theorem writeFrame : Obligations.WriteFrame := by
  intro x s t d hx hrest h
  rw [exec_of_writtenPacket hx] at h
  generalize blockOf x = n at *
  obtain ⟨hl, hc, he, hs, -⟩ := hrest
  refine ⟨?_, SameMemory.write h⟩
  rcases State.guarded_next h with ⟨-, hran⟩ | ⟨st, rfl⟩
  · split at hran
    · cases hran
    · obtain ⟨-, rfl⟩ := State.onLocked_next hran
      have hlink := Instance.writeCommand_link s.params d (i := (s.inst n).acquire) hs hc he
      have hblock := OnlyLink.release hl (s.inst n).te hlink
      cases n <;> exact hblock
  · exact ⟨_, _, _, _, _, _, _, _, rfl⟩

/-! ### Micro-operations on an open block -/

section
variable {s : State} {n : InstId} (ho : Open s n)
include ho

/-- A micro-operation that is not refused (R82). -/
theorem microOperation_ok {f : Instance → Except Refusal (Output × Instance)} {out : Output} {j : Instance}
    (hf : f (s.inst n) = .ok (out, j)) : microOperation s n f = Ends s n j .success out := by
  rw [microOperation, State.guarded_whenFree_open ho, hf]
  rfl

/-- A micro-operation that is refused (R10 (c)). -/
theorem microOperation_error {f : Instance → Except Refusal (Output × Instance)} {r : Refusal}
    (hf : f (s.inst n) = .error r) : microOperation s n f = .refused r := by
  rw [microOperation, State.guarded_whenFree_open ho, hf]

/-- A pop delivers what `FifoPop` gives (R213). -/
theorem exec_pop_open {w : Word} {j : Instance} (h : (s.inst n).popWord = (w, j)) :
    exec (.pop n) s = Ends s n j .success (.word w) := by
  rw [exec, execPop]
  exact microOperation_ok ho (by rw [h])

end

/-- A pop takes the oldest word (R213). -/
theorem Instance.popWord_cons {i : Instance} {w : Word} {r : List Word} (h : i.rfifo = w :: r) :
    i.popWord = (w, { i with rfifo := r }) := by
  rw [Instance.popWord, h]

/-- Settles O56: a push that is not refused, a pop of a word, and the request of a turn-around. -/
theorem fifosAndBtaRequest : Obligations.FifosAndBtaRequest := by
  intro n s i ho
  refine ⟨fun w hz hroom => (pushRow_open ho ⟨.shortWord, w⟩ rfl).2 _ (Instance.checkedPush_ok _ hz hroom),
    fun w r hr => exec_pop_open ho (Instance.popWord_cons hr), ?_⟩
  rw [exec, execBtareq]
  exact microOperation_ok ho rfl

/-- A trigger hands the words over as they stand (R214). -/
theorem Instance.trigger_eq (i : Instance) : i.trigger = { i with
    regs := { i.regs with trigger := 1 }, phase := .triggered, flight := triggeredFlight i.flight
    hfifo := if i.flight = .lost then [] else i.hfifo
    sent := if i.regs.hostControl.triggerMode = .immediate then i.contents :: i.sent else i.sent } := by
  simp [Instance.trigger, Instance.writeTrigger]

/-- Settles O57: the trigger, a pop of an empty read FIFO, and the two refusals of a push. -/
theorem triggerAndRefusedPushes : Obligations.TriggerAndRefusedPushes := by
  intro n w s i ho
  have refused {r : Refusal} : i.checkedPush s.params ⟨.shortWord, w⟩ = .error r → exec (.push n w) s = .refused r :=
    (pushRow_open ho _ rfl).1 r
  refine ⟨?_, fun hr => ⟨_, exec_pop_open ho (Instance.popWord_empty hr)⟩,
    fun hb => refused (Instance.checkedPush_busy _ hb), fun hz hfull => refused (Instance.checkedPush_full _ hz hfull)⟩
  rw [← Instance.trigger_eq, exec, execTrig]
  exact microOperation_ok ho rfl

/-! ### Writes of registers -/

/-- A write of `HOST_CONTROL` with `IMM_BTA = 0` writes the register (R33). -/
theorem Instance.writeHostControl_plain {i : Instance} {h : HostControlReg} (hb : h.immBta = false) :
    i.writeHostControl h = i.setHostControl h :=
  if_neg (Bool.eq_false_iff.mp hb)

/-- With `IMM_BTA = 1` it requests a turn-around besides (R33, R252). -/
theorem Instance.writeHostControl_requests {i : Instance} {h : HostControlReg} (hb : h.immBta = true) :
    i.writeHostControl h = { i with
      regs := { i.regs with hostControl := h, btaActive := true }, phase := .triggered, btaSeen := true } := by
  have same : { h with immBta := true } = h := by rw [← hb]
  rw [Instance.writeHostControl, if_pos hb, Instance.btaRequest]
  simp only [Instance.setHostControl_regs, same]
  rfl

section
variable {s : State} {n : InstId} {k : BitVec 16} {v : Word} {r : RegName} (ho : Open s n)
include ho

/-- `REGW` of a register ends as `RegWrite` does (R210). -/
theorem exec_regw_ok (hk : RegName.ofIndex k.toNat = some r) {j : Instance}
    (hw : regWrite s.params r v (s.inst n) = .ok j) : exec (.regw n k v) s = Ends s n j .success .none := by
  rw [exec, execRegw]
  exact microOperation_ok ho (by rw [hk]; simp only [hw]; rfl)

/-- `REGW` is refused as `RegWrite` is (R210). -/
theorem exec_regw_error (hk : RegName.ofIndex k.toNat = some r) {e : Refusal}
    (hw : regWrite s.params r v (s.inst n) = .error e) : exec (.regw n k v) s = .refused e := by
  rw [exec, execRegw]
  exact microOperation_error ho (by rw [hk]; simp only [hw]; rfl)

/-- `REGW` past the list (R30). -/
theorem exec_regw_past (hk : 26 < k.toNat) : exec (.regw n k v) s = .refused .noSuchRegister := by
  rw [exec, execRegw]
  exact microOperation_error ho (by rw [RegName.ofIndex_past _ hk])

/-- `REGW WR_DATA` is a push (R36, R212). -/
theorem exec_regw_wrData : exec (.regw n 5 v) s = exec (.push n v) s := by
  obtain ⟨hrefused, hpushed⟩ := pushRow_open ho ⟨.shortWord, v⟩ rfl
  cases h : (s.inst n).checkedPush s.params ⟨.shortWord, v⟩ with
  | error e => exact (exec_regw_error (r := .wrData) ho rfl h).trans (hrefused e h).symm
  | ok j => exact (exec_regw_ok (r := .wrData) ho rfl h).trans (hpushed j h).symm

/-- A write of the program, the lengths or the SOL delay on a disabled interface (R98). -/
theorem exec_regw_program {j : Instance} (hk : RegName.ofIndex k.toNat = some r)
    (hr : regWrite s.params r v (s.inst n) = (s.inst n).programWrite j) (he : (s.inst n).regs.ifEnable = false) :
    exec (.regw n k v) s = Ends s n j .success .none :=
  exec_regw_ok ho hk (by rw [hr, Instance.programWrite, he]; rfl)

/-- On an enabled interface it is refused (R98, R414). -/
theorem exec_regw_live {j : Instance} (hk : RegName.ofIndex k.toNat = some r)
    (hr : regWrite s.params r v (s.inst n) = (s.inst n).programWrite j) (he : (s.inst n).regs.ifEnable = true) :
    exec (.regw n k v) s = .refused .liveProgramWrite :=
  exec_regw_error ho hk (by rw [hr, Instance.programWrite, he]; rfl)

end

/-- Settles O58: register by register on an open block. -/
theorem regWrites : Obligations.RegWrites := by
  intro n v s p i write put h ho
  refine ⟨exec_regw_ok ho rfl rfl, exec_regw_ok ho rfl rfl, fun hb => exec_regw_ok ho rfl ?_,
    fun hb => exec_regw_ok ho rfl ?_, exec_regw_ok ho rfl rfl, exec_regw_error ho rfl rfl, exec_regw_wrData ho,
    exec_regw_error ho rfl rfl, fun slot hi => ⟨fun he => ?_, fun he => ?_⟩,
    fun he => ⟨exec_regw_live (r := .pktLen) ho rfl rfl he, exec_regw_live (r := .solDelay) ho rfl rfl he⟩,
    fun he => ⟨exec_regw_program (r := .pktLen) ho rfl rfl he, exec_regw_program (r := .solDelay) ho rfl rfl he⟩,
    exec_regw_ok ho rfl rfl, exec_regw_ok ho rfl rfl, exec_regw_ok ho rfl ?_, exec_regw_ok ho rfl rfl,
    exec_regw_ok ho rfl rfl, exec_regw_error ho rfl ?_, fun k hk => exec_regw_past ho hk⟩
  · exact congrArg Except.ok (Instance.writeHostControl_plain hb)
  · exact congrArg Except.ok (Instance.writeHostControl_requests hb)
  · exact exec_regw_live ho (RegName.ofIndex_pktSeq slot hi) rfl he
  · exact ⟨halfSet i.regs.slots slot hi (halfOfRaw v), exec_regw_program ho (RegName.ofIndex_pktSeq slot hi) rfl he,
      halfGet_halfSet .., fun k' h' hne => halfGet_halfSet_other _ slot k' hi h' _ hne⟩
  · rw [← BitVec.ofNat_toNat]; rfl
  · rw [regWrite]; split <;> rfl

/-! ### Reads of registers -/

section
variable {s : State} {n : InstId} {k : BitVec 16} {r : RegName} (ho : Open s n)
include ho

/-- `REGR` of a register delivers what `RegRead` gives (R211). -/
theorem exec_regr_ok (hk : RegName.ofIndex k.toNat = some r) {v : RegValue} {j : Instance}
    (hr : regRead s.params r (s.inst n) = .ok (v, j)) : exec (.regr n k) s = Ends s n j .success (.reg v) := by
  rw [exec, execRegr]
  exact microOperation_ok ho (by rw [hk]; simp only [hr]; rfl)

/-- `REGR` is refused as `RegRead` is (R211). -/
theorem exec_regr_error (hk : RegName.ofIndex k.toNat = some r) {e : Refusal}
    (hr : regRead s.params r (s.inst n) = .error e) : exec (.regr n k) s = .refused e := by
  rw [exec, execRegr]
  exact microOperation_error ho (by rw [hk]; simp only [hr]; rfl)

/-- `REGR` past the list (R30). -/
theorem exec_regr_past (hk : 26 < k.toNat) : exec (.regr n k) s = .refused .noSuchRegister := by
  rw [exec, execRegr]
  exact microOperation_error ho (by rw [RegName.ofIndex_past _ hk])

/-- `REGR TRIGGER` (R34). -/
theorem exec_regr_trigger {w : Word} {j : Instance} (h : (s.inst n).readTrigger = (w, j)) :
    exec (.regr n 3) s = Ends s n j .success (.reg (.trigger w)) :=
  exec_regr_ok ho rfl (by rw [regRead, h])

/-- `REGR RD_DATA` (R37). -/
theorem exec_regr_rdData {w : Word} {j : Instance} (h : (s.inst n).popWord = (w, j)) :
    exec (.regr n 6) s = Ends s n j .success (.reg (.rdData w)) :=
  exec_regr_ok ho rfl (by rw [regRead, h])

end

/-- Words arrive at a read of the count once a turn-around has been requested (R85). -/
theorem Instance.arrivals_eq (i : Instance) :
    i.arrivals = i.arrived (if i.btaSeen then 1 else 0) (if i.btaSeen then i.panelAt 0 else []) := by
  cases h : i.btaSeen
  · rw [i.arrivals_unseen h]
    exact i.arrived_zero.symm
  · exact i.arrivals_seen h

/-- `RegRead(STATUS)`: one answer of each of the three faces (R35). -/
theorem Instance.readStatus_eq (i : Instance) :
    let arrived := i.rfifo ++ if i.btaSeen then i.panelAt 0 else []
    let e := i.env.error.answer (Config.errorAnswer i.id) 0
    i.readStatus = (.status arrived.length (i.btaAt 0) e, { i with
      rfifo := arrived
      regs := { i.regs with btaActive := i.btaAt 0, errorFlag := e }
      env := { i.env with
        panel := i.env.panel.advance (if i.btaSeen then 1 else 0)
        bta := i.env.bta.advance 1, error := i.env.error.advance 1 } }) := by
  simp only [Instance.readStatus, Instance.readCount, i.arrivals_eq, Instance.readBtaActive_eq,
    Instance.readErrorFlag, Oracle.draw_eq]
  rfl

/-- Settles O59: register by register on an open block. -/
theorem regReads : Obligations.RegReads := by
  intro n s i read gives ho
  refine ⟨exec_regr_ok ho rfl rfl, exec_regr_ok ho rfl rfl, exec_regr_ok ho rfl rfl,
    fun hb => exec_regr_trigger ho ?_, fun hz => exec_regr_trigger ho ?_,
    exec_regr_ok (r := .status) ho rfl (congrArg Except.ok i.readStatus_eq), exec_regr_error ho rfl rfl,
    fun w r hr => exec_regr_rdData ho (Instance.popWord_cons hr),
    fun hr => ⟨_, exec_regr_rdData ho (Instance.popWord_empty hr)⟩,
    fun slot hi => exec_regr_ok ho (RegName.ofIndex_pktSeq slot hi) rfl,
    exec_regr_ok ho rfl rfl, exec_regr_ok ho rfl rfl, exec_regr_ok ho rfl rfl, exec_regr_ok ho rfl rfl,
    exec_regr_ok ho rfl rfl, exec_regr_ok ho rfl rfl, exec_regr_ok ho rfl rfl,
    fun hp => ⟨Config.syncptValue i.id i.freeTick, exec_regr_ok (r := .syncpt) ho rfl (if_pos hp)⟩,
    fun hp => exec_regr_error ho rfl ?_, fun k hk => exec_regr_past ho hk⟩
  · rw [Instance.readTrigger_eq, if_neg hb]
  · rw [Instance.readTrigger_eq, if_pos hz, hz]
    rfl
  · rw [regRead, hp]
    rfl

/-! ### Polls -/

/-- The three numbers of R216 name a predicate (log 18). -/
theorem predicateOf_some {k : Nat} (h : k ≤ 2) : ∃ f, predicateOf k = some f := by
  match k, h with
  | 0, _ | 1, _ | 2, _ => exact ⟨_, rfl⟩

/-- No other number does (log 18). -/
theorem predicateOf_past {k : Nat} (h : 2 < k) : predicateOf k = none := by
  obtain ⟨m, rfl⟩ : ∃ m, k = m + 3 := ⟨k - 3, by omega⟩
  rfl

section
variable {s : State} {n : InstId} {pred : BitVec 16} {step max : Word} (ho : Open s n)
include ho

/-- `POLL` of an unknown predicate (log 18). -/
theorem exec_poll_unknown (hk : 2 < pred.toNat) : exec (.poll n pred step max) s = .refused .noSuchPredicate := by
  rw [exec, execPoll]
  exact microOperation_error ho (by rw [predicateOf_past hk])

variable {f : Instance → Bool × Instance} (hf : predicateOf pred.toNat = some f)
include hf

/-- `POLL` with a zero bound (R216). -/
theorem exec_poll_zero (h0 : step = 0 ∨ max = 0) : exec (.poll n pred step max) s = .refused .zeroPollBound := by
  rw [exec, execPoll]
  exact microOperation_error ho (by rw [hf]; exact if_pos h0)

/-- `POLL` runs the poll of its predicate (R216). -/
theorem exec_poll_runs (hs : step ≠ 0) (hm : max ≠ 0) {r : PollResult} {j : Instance}
    (hp : poll f (pollCount step.toNat max.toNat) (s.inst n) = (r, j)) :
    exec (.poll n pred step max) s = Ends s n j .success (.poll r) := by
  rw [exec, execPoll]
  exact microOperation_ok ho (by rw [hf]; simp only [if_neg (not_or.mpr ⟨hs, hm⟩), hp])

end

/-- A poll of the count with words queued ends at its first read (R254). -/
theorem poll_count_queued {N : Nat} {i : Instance} (hN : 0 < N) (h : i.rfifo ≠ []) :
    poll Instance.countIsNonZero N i = (.ready, i.readCount.2) := by
  obtain ⟨K, rfl⟩ : ∃ K, N = K + 1 := ⟨N - 1, by omega⟩
  simp only [poll, Instance.countIsNonZero, bne_iff_ne.mpr (Instance.readCount_queued h)]

/-- A poll of the count to which nothing arrives leaves the read FIFO empty (R254, R85). -/
theorem poll_count_nothing (N : Nat) {i : Instance} (hr : i.rfifo = [])
    (h : i.btaSeen = true → ∀ k, k < N → i.panelAt k = []) :
    ∃ j, poll Instance.countIsNonZero N i = (.timedOut, j) ∧ j.rfifo = [] := by
  cases hb : i.btaSeen
  · exact ⟨i, poll_count_unseen N i hb hr, hr⟩
  · exact ⟨i.arrived N [], poll_count_silent N i hb hr (h hb), by rw [Instance.arrived, hr]; rfl⟩

/-- Settles O60: the two refusals, the bound as a ceiling, then the outcomes of each predicate's poll. -/
theorem pollRuns : Obligations.PollRuns := by
  intro n pred step max s i N run ho
  refine ⟨fun hk => exec_poll_unknown ho hk, fun hk h0 => ?_, fun hs hm => ?_⟩
  · obtain ⟨f, hf⟩ := predicateOf_some hk
    exact exec_poll_zero ho hf h0
  have pos {w : Word} (h : w ≠ 0) : 0 < w.toNat :=
    Nat.pos_of_ne_zero fun e => h (BitVec.eq_of_toNat_eq e)
  have bound (k : Nat) : N ≤ k ↔ max.toNat ≤ k * step.toNat := pollCount_le _ _ k (pos hs)
  have hN : 0 < N := Nat.pos_of_ne_zero fun e => by
    have := (bound 0).mp e.le
    have := pos hm
    omega
  refine ⟨bound, fun hk => ?_, fun m hlt hready => ?_, fun hbusy => ?_, fun m hlt hclear => ?_, fun hset => ?_,
    fun hr => ?_, fun hr hsilent => ?_⟩
  · obtain ⟨f, hf⟩ := predicateOf_some hk
    exact ⟨_, _, exec_poll_runs ho hf hs hm rfl⟩
  · exact exec_poll_runs ho rfl hs hm (poll_trigger_ready m N i hlt hready)
  · obtain ⟨w, hw⟩ := poll_trigger_timedOut N i hbusy
    exact ⟨w, exec_poll_runs ho rfl hs hm hw⟩
  · exact exec_poll_runs ho rfl hs hm (poll_bta_ready m N i hlt hclear)
  · exact exec_poll_runs ho rfl hs hm (poll_bta_timedOut_set N i hN hset)
  · exact ⟨_, exec_poll_runs ho rfl hs hm (poll_count_queued hN hr), i.readCount_frame.1⟩
  · obtain ⟨j, hj, hempty⟩ := poll_count_nothing N hr hsilent
    exact ⟨j, exec_poll_runs ho rfl hs hm hj, hempty⟩

end Sys2Proof.Machine

/-! PROOFS. Reads and turn-arounds (43_bta_read.md): how `BTACHK` and `TREAD` run under the lock, how each ends, and
what a read, a BTA check or a ping leaves alone. -/

namespace Sys2Proof.Machine

/-! ### What a read leaves alone -/

/-- Nothing changed. -/
theorem OnlyRead.refl (i : Instance) : OnlyRead i i := ⟨_, _, _, _, _, _, _, _, _, _, _, _, _, _, rfl⟩

/-- Taking the lock and releasing it around a read (R25). -/
theorem OnlyRead.release {i j : Instance} (hl : i.lock = .free) (h : OnlyRead i.acquire j) : OnlyRead i j.release := by
  obtain ⟨e, tr, ba, im, hf, fl, rf, bs, sg, rl, se, ph, sn, ft, rfl⟩ := h
  refine ⟨e, tr, ba, im, hf, fl, rf, bs, sg, rl, se, ph, sn, ft, ?_⟩
  rw [Instance.release, ← hl]
  rfl

/-- A read takes no fatal fault. -/
theorem OnlyRead.fatal {i j : Instance} (h : OnlyRead i j) : j.fatal = i.fatal := by
  obtain ⟨_, _, _, _, _, _, _, _, _, _, _, _, _, _, rfl⟩ := h
  rfl

/-- A read keeps `out_buffer`. -/
theorem OnlyRead.outBuf {i j : Instance} (h : OnlyRead i j) : j.outBuf = i.outBuf := by
  obtain ⟨_, _, _, _, _, _, _, _, _, _, _, _, _, _, rfl⟩ := h
  rfl

/-- Words arriving are not sent. -/
theorem Instance.readCount_sent (i : Instance) : i.readCount.2.sent = i.sent := by
  obtain ⟨k, ws, h⟩ := i.arrivals_cases
  rw [Instance.readCount, h]
  rfl

/-- A step of a read keeps the snapshot. -/
theorem ReadStep.snap {i j : Instance} (h : ReadStep i j) : j.snap = i.snap := by
  obtain ⟨_, _, _, _, _, _, _, _, _, _, _, _, _, rfl⟩ := h
  rfl

/-- A step of the link keeps the read FIFO and `BTA_ACTIVE`. -/
theorem LinkStep.readSide {i j : Instance} (h : LinkStep i j) :
    j.rfifo = i.rfifo ∧ j.regs.btaActive = i.regs.btaActive := by
  obtain ⟨_, _, _, _, _, _, _, rfl⟩ := h
  exact ⟨rfl, rfl⟩

/-- Entering an operation leaves the read FIFO and `BTA_ACTIVE` alone. -/
theorem Instance.readSide_entered (i : Instance) :
    i.enterHost.overrideHost.rfifo = i.rfifo ∧ i.enterHost.overrideHost.regs.btaActive = i.regs.btaActive := by
  unfold Instance.overrideHost
  split <;> exact ⟨rfl, rfl⟩

/-- The exit path leaves `BTA_ACTIVE` alone. -/
theorem Instance.exitPath_btaActive (i : Instance) : i.exitPath.regs.btaActive = i.regs.btaActive := by
  unfold Instance.exitPath Instance.restoreHost
  split <;> rfl

/-! ### BTACHK -/

/-- `BtaCheckError` when the panel answers (R250, R256). -/
theorem Instance.btaCheck_answered {p : Params} {i : Instance} {ws : List Word} (h : PanelAnswers p i ws) :
    ∃ e, i.btaCheck p = (classifyBta ws, i.answered e) ∧ e.trigger = i.env.trigger := by
  obtain ⟨e, hseq, he⟩ := Instance.btaSequence_answered h
  exact ⟨e, by rw [Instance.btaCheck, hseq], by rw [he]⟩

/-- `BtaCheckError` on a read FIFO that is not empty (R251). -/
theorem Instance.btaCheck_stale {p : Params} {i : Instance} (h : i.readCount.1 ≠ 0) :
    i.btaCheck p = (.fifoNotEmptyAtStart, i.readCount.2) := by
  rw [Instance.btaCheck, Instance.btaSequence_stale h]

/-- `BTACHK` ends as `BtaCheckError` under the lock does, with the clock gate shut again (R250): it overrides nothing,
so nothing is restored. -/
theorem exec_btachk_ends {s : State} {n : InstId} (ha : Accepts s n) (hrest : AtRest (s.inst n)) {st : Status}
    {j : Instance} (hb : (s.inst n).acquire.enterHost.btaCheck s.params = (st, j)) :
    ∃ k, exec (.btachk n) s = Ends s n k st .none ∧ OnlyRead (s.inst n) k ∧
      k = { j with
        env := { j.env with calls := .clockDisable :: j.env.calls }
        lock := .free, hostClkOn := false, engine := .idle, phase := .none } := by
  have honly := Instance.btaAlone_onlyRead s.params hrest
  have hstep := (s.inst n).acquire.enterHost.btaCheck_read s.params
  rw [hb] at honly hstep
  obtain ⟨hlock, -, -, hnone, -⟩ := hrest
  have hsnap : j.snap.overrideActive = false := by rwa [hstep.snap]
  refine ⟨j.exitPath.release, ?_, honly, by rw [Instance.exitPath_none hsnap, Instance.release]⟩
  rw [exec, execBtachk, State.guarded_accepts ha, State.onLocked_free hlock, hb]

/-- Settles O35: the turn-around brings `ws`, and their class is the status. -/
theorem btaCheckClassifies : Obligations.BtaCheckClassifies := by
  intro n s ws i ha hrest hp
  obtain ⟨e, hb, he⟩ := Instance.btaCheck_answered (i := i.acquire.enterHost) hp
  obtain ⟨k, hk, honly, rfl⟩ := exec_btachk_ends ha hrest hb
  exact ⟨_, hk, honly, rfl, rfl, rfl, rfl, he⟩

/-- Settles O37: the wait for the bus reads its bound and gives up. -/
theorem btaTimesOut : Obligations.BtaTimesOut := by
  intro n s p i ha hrest hempty hquiet hset
  obtain ⟨j, hb, hreads, hr, -⟩ := Instance.btaCheck_timeout (i := i.acquire.enterHost) hempty hquiet hset
  obtain ⟨k, hk, honly, rfl⟩ := exec_btachk_ends ha hrest hb
  exact ⟨_, hk, honly, hreads, hr⟩

/-- Settles O38: the count is above the depth, and the words stay where they are. -/
theorem readFifoOverflows : Obligations.ReadFifoOverflows := by
  intro n s ws m p i ha hrest hempty hquiet hm hclear hsends hdepth
  obtain ⟨j, hb, hr, -⟩ :=
    Instance.btaCheck_overflow (i := i.acquire.enterHost) hempty hquiet hm hclear hsends hdepth
  obtain ⟨k, hk, honly, rfl⟩ := exec_btachk_ends ha hrest hb
  exact ⟨_, hk, honly, hr⟩

/-! ### TREAD -/

section
variable {s : State} {n : InstId} {isLong : Bool} {reg : Byte} {len : BitVec 16} (ha : Accepts s n)
include ha

/-- A read one of whose control packets is refused (R84, R412). -/
theorem exec_tread_refused {r : Refusal} (hr : (s.inst n).readRefusal s.params reg len = some r) :
    exec (.tread n isLong reg len) s = .refused r := by
  rw [exec, execTread, State.guarded_accepts ha, hr]

/-- A read that is not refused ends as `ReadCommand` under the lock does (R258). -/
theorem exec_tread_ends (hl : (s.inst n).lock = .free) (hr : (s.inst n).readRefusal s.params reg len = none)
    {st : Status} {b : Option (List Byte)} {j : Instance}
    (hc : (s.inst n).acquire.readCommand s.params reg len = (st, b, j)) :
    exec (.tread n isLong reg len) s = ((s.setInst n j.release).copyOut? n b).finish n st (readOutput b) := by
  rw [exec, execTread, State.guarded_accepts ha, hr, hc]
  exact State.whenFree_free hl _

end

/-- Settles O32: a packet that does not fit is refused; else `ReadCommand` runs under the lock and its bytes are
copied. -/
theorem readDelivers : Obligations.ReadDelivers := by
  intro n isLong reg len s p i marker ha
  refine ⟨fun hfull => exec_tread_refused ha (Instance.readRefusal_full hfull), fun ws hrest hp hr hl hpanel => ?_⟩
  obtain ⟨hlock, hclk, hengine, hsnap, -⟩ := hrest
  obtain ⟨j, hread, honly, hfields⟩ :=
    Instance.readCommand_answered (i := i.acquire) hsnap hclk hengine hp hl hpanel reg len
  have hframe := honly.release hlock
  refine ⟨j.release, ?_, hframe, hfields⟩
  rw [exec_tread_ends ha hlock hr hread]
  exact State.finish_copied hframe.outBuf _ _ _

/-- `ReadCommand` with words queued before its turn-around (R251, R258): both packets are sent, nothing is drained. -/
theorem Instance.readCommand_stale {p : Params} {i : Instance} (hs : i.snap.overrideActive = false)
    (hc : i.hostClkOn = false) (he : i.engine = .idle) (hp : PollsOk p) (hl : LinkReady p (readPolls p) 2 i)
    (hq : i.rfifo ≠ []) (reg : Byte) (len : BitVec 16) :
    ∃ j, i.readCommand p reg len = (.fifoNotEmptyAtStart, none, j) ∧ OnlyRead i j ∧ i.rfifo <+: j.rfifo ∧
      j.regs.btaActive = i.regs.btaActive ∧
      j.sent = (if i.sendsAtOnce then
        i.dcsreadWords p reg :: (i.ahead ++ i.maxretWords p len) :: i.sent else i.sent) ∧
      j.env.trigger = i.env.trigger.advance (linkReads p (readPolls p) 2) := by
  obtain ⟨k, hrequest, hlink, -, -, henv, hsent⟩ := Instance.requestRead_entered hp hl reg len
  obtain ⟨hrfifo, hactive⟩ := hlink.readSide
  rw [i.readSide_entered.1] at hrfifo
  rw [i.readSide_entered.2] at hactive
  have hcount : k.readCount.1 ≠ 0 := Instance.readCount_queued (by rwa [hrfifo])
  obtain ⟨hkept, hregs, htrigger⟩ := k.readCount_frame
  have hsteps : i.enterHost.overrideHost.readSteps p reg len = (.fifoNotEmptyAtStart, k.readCount.2) := by
    rw [Instance.readSteps, hrequest, andThen_success, Instance.btaSequence_stale hcount]
  have hread : i.readCommand p reg len = (.fifoNotEmptyAtStart, none, k.readCount.2.exitPath) := by
    rw [Instance.readCommand, hsteps]
  have honly := Instance.readCommand_read p reg len hs hc he
  rw [hread] at honly
  obtain ⟨-, frfifo, -, -, fsent, fenv, -⟩ := k.readCount.2.exitPath_fields
  refine ⟨_, hread, honly, ?_, ?_, ?_, ?_⟩
  · rwa [frfifo, ← hrfifo]
  · rw [Instance.exitPath_btaActive, hregs, hactive]
  · rw [fsent, k.readCount_sent, hsent]
  · rw [fenv]
    show k.readCount.2.env.trigger = _
    rw [htrigger, henv, i.env_entered]
    rfl

/-- Settles O36: the sequence by itself, `BtaCheckError`, then `ReadCommand`. -/
theorem staleWordsFail : Obligations.StaleWordsFail := by
  refine ⟨fun p i hcount => ⟨Instance.btaSequence_stale hcount, i.readCount_frame.1, i.readCount_frame.2.1⟩, ?_⟩
  intro n s i ha hrest hq
  refine ⟨?_, fun isLong reg len hp hr hl => ?_⟩
  · have hb := Instance.btaCheck_stale (p := s.params) (Instance.readCount_queued (i := i.acquire.enterHost) hq)
    obtain ⟨hkept, hregs, -⟩ := i.acquire.enterHost.readCount_frame
    obtain ⟨k, hk, honly, rfl⟩ := exec_btachk_ends ha hrest hb
    exact ⟨_, hk, hkept, hregs, honly.fatal.trans ha.1⟩
  · obtain ⟨hlock, hclk, hengine, hsnap, -⟩ := hrest
    obtain ⟨j, hread, honly, hkept, hactive, hsent, htrigger⟩ :=
      Instance.readCommand_stale (i := i.acquire) hsnap hclk hengine hp hl hq reg len
    exact ⟨j.release, exec_tread_ends ha hlock hr hread, hkept, hactive,
      (honly.release hlock).fatal.trans ha.1, hsent, htrigger⟩

/-! ### The frame of a read, a BTA check or a ping -/

/-- Copying bytes out touches no block. -/
theorem State.inst_copyOut? (s : State) (n m : InstId) (b : Option (List Byte)) :
    (s.copyOut? n b).inst m = s.inst m := by
  cases b <;> cases m <;> rfl

/-- Ending touches no block. -/
theorem State.inst_of_finish {s t : State} {n : InstId} {st : Status} {out : Output}
    (h : s.finish n st out = .next t) (m : InstId) : t.inst m = s.inst m := by
  rw [← Host.Outcome.next.inj h]
  cases m <;> rfl

/-- The block after an operation that ends by delivering bytes. -/
theorem State.inst_of_finish_copied {s t : State} {n : InstId} {j : Instance} {b : Option (List Byte)} {st : Status}
    {out : Output} (h : ((s.setInst n j).copyOut? n b).finish n st out = .next t) : t.inst n = j := by
  rw [State.inst_of_finish h, State.inst_copyOut?, State.inst_setInst]

section
variable {n : InstId} {s t : State} (hrest : AtRest (s.inst n))
include hrest

/-- A read changes only a read's traffic (R258, R372). -/
theorem exec_tread_onlyRead {isLong : Bool} {reg : Byte} {len : BitVec 16}
    (h : exec (.tread n isLong reg len) s = .next t) : OnlyRead (s.inst n) (t.inst n) := by
  obtain ⟨hlock, hclk, hengine, hsnap, -⟩ := hrest
  rcases State.guarded_next h with ⟨-, hran⟩ | ⟨st, rfl⟩
  · split at hran
    · cases hran
    · rw [State.inst_of_finish_copied (State.whenFree_next hran).2]
      exact (Instance.readCommand_read s.params reg len (i := (s.inst n).acquire) hsnap hclk hengine).release hlock
  · exact OnlyRead.refl _

/-- A BTA check changes only a read's traffic (R250, R372). -/
theorem exec_btachk_onlyRead (h : exec (.btachk n) s = .next t) : OnlyRead (s.inst n) (t.inst n) := by
  rcases State.guarded_next h with ⟨-, hran⟩ | ⟨st, rfl⟩
  · obtain ⟨-, rfl⟩ := State.onLocked_next hran
    have honly := Instance.btaAlone_onlyRead s.params hrest
    cases n <;> exact honly
  · exact OnlyRead.refl _

/-- A ping changes only a read's traffic and leaves the video-mode state as it was (R348, R372). -/
theorem exec_tping_frame {reg : Byte} {len : BitVec 16} {flags : Word}
    (h : exec (.tping n reg len flags) s = .next t) :
    OnlyRead (s.inst n) (t.inst n) ∧ (t.inst n).regs.control = (s.inst n).regs.control ∧
      (t.inst n).regs.hostControl = (s.inst n).regs.hostControl ∧ (t.inst n).hostActive = (s.inst n).hostActive := by
  rcases State.guarded_next h with ⟨-, hran⟩ | ⟨st, rfl⟩
  · split at hran
    · cases hran
    split at hran
    · cases hran
    · rw [State.inst_of_finish_copied (State.whenFree_next hran).2]
      obtain ⟨honly, hvideo⟩ := Instance.ping_frame (p := s.params) (reg := reg) (len := len) hrest
        (Instance.waitVblanks_env ((s.inst n).call .acquireFrameMutex).acquire.pingOverride pingSettleFrames)
        .releaseFrameMutex
      exact ⟨honly, hvideo _⟩
  · exact ⟨OnlyRead.refl _, rfl, rfl, rfl⟩

end

/-- Settles O39: the read, the BTA check and the ping in turn. -/
theorem readFrame : Obligations.ReadFrame := by
  intro x s t n hx hrest h
  clear_value n
  rcases hx with ⟨l, r, k, rfl⟩ | rfl | ⟨r, k, f, rfl⟩
  · exact ⟨exec_tread_onlyRead hrest h, ((exec_copies (.tread n l r k) (fun _ => ⟨nofun, nofun⟩) h).1 rfl).1, nofun⟩
  · exact ⟨exec_btachk_onlyRead hrest h, ((exec_copies (.btachk n) (fun _ => ⟨nofun, nofun⟩) h).2 rfl).2, nofun⟩
  · obtain ⟨honly, hvideo⟩ := exec_tping_frame hrest h
    exact ⟨honly, ((exec_copies (.tping n r k f) (fun _ => ⟨nofun, nofun⟩) h).1 rfl).1, fun _ => hvideo⟩

end Sys2Proof.Machine

/-! PROOFS. The clock lane (44_clock_lane_mode.md R290 to R305): a mode switch, the clock turn-on, and the enable
sequence under every clock policy. -/

namespace Sys2Proof.Machine

/-! ### A mode switch -/

section
variable {n : InstId} {on : Bool} {s : State} (ha : Accepts s n)
include ha

/-- A mode switch that would write an override above its ceiling is refused (R152; log 42). -/
theorem exec_seths_refused (hne : (s.inst n).hsMode ≠ on) (hfit : overridesFit s.params (s.inst n).cfg = false) :
    exec (.seths n on) s = .refused .overrideTooLarge := by
  rw [exec, execSeths, State.guarded_accepts ha, if_pos ⟨hne, by rw [hfit]; rfl⟩]

/-- A mode switch that is not refused ends as `SetHighSpeedMode` under the lock does (R292). -/
theorem exec_seths_ends (hl : (s.inst n).lock = .free)
    (hfit : (s.inst n).hsMode ≠ on → overridesFit s.params (s.inst n).cfg = true) {st : Status} {j : Instance}
    (hm : (s.inst n).acquire.setHighSpeed s.params on = (st, j)) :
    exec (.seths n on) s = Ends s n j.release st .none := by
  have hrun : ¬((s.inst n).hsMode ≠ on ∧ (!overridesFit s.params (s.inst n).cfg) = true) :=
    fun ⟨hne, hbig⟩ => by simp [hfit hne] at hbig
  rw [exec, execSeths, State.guarded_accepts ha, if_neg hrun, State.onLocked_free hl, hm]

end

/-- The mode asked is the block's: nothing is touched (R294). -/
theorem Instance.setHighSpeed_same {p : Params} {on : Bool} {i : Instance} (h : i.hsMode = on) :
    i.setHighSpeed p on = (.success, i) := if_pos h

/-- Settles O48: the mode the block is in, an override that does not fit, and a switch whose link is ready or never
is. -/
theorem modeSwitches : Obligations.ModeSwitches := by
  intro n on s p i khz ha hl
  refine ⟨fun hsame => ?_, exec_seths_refused ha, fun hne hfit hknown => ?_⟩
  · rw [exec_seths_ends ha hl (absurd hsame) (Instance.setHighSpeed_same (i := i.acquire) hsame),
      Instance.acquire_release hl]
  · obtain ⟨T, hT⟩ := Instance.computePhy_some (p := p) hknown (i.clockAt 0)
    refine ⟨T, hT, fun m hm hready => ?_, fun hbusy => ?_⟩
    · rw [exec_seths_ends ha hl (fun _ => hfit) (Instance.setHighSpeed_ready (i := i.acquire) hne hT hm hready),
        Instance.release, ← hl]
      rfl
    · obtain ⟨j, hj, hfatal, hreads⟩ := Instance.setHighSpeed_busy (i := i.acquire) hne hT hbusy
      exact ⟨j.release, exec_seths_ends ha hl (fun _ => hfit) hj, hfatal, rfl, hreads⟩

/-! ### The clock turned on -/

/-- `CLKON` is `TurnOnDsiClock` on the block (R305). -/
theorem exec_clkon_ends {n : InstId} {s : State} (ho : Open s n) :
    exec (.clkon n) s = Ends s n (s.inst n).turnOnClock.2 (s.inst n).turnOnClock.1 .none := by
  rw [exec, execClkon, State.guarded_accepts ho.1, State.whenFree_free ho.2, State.finishWith_eq]

/-- `TurnOnDsiClock` with no attempt that succeeds (R305). -/
theorem Instance.turnOnClock_exhausted {i : Instance} (h : ∀ k, k < 5 → i.attemptAt k = false) :
    ∃ j, i.turnOnClock = (.fatalHardwareFault, j) ∧ j.fatal = some .clockEnableRetriesExhausted ∧
      j.env.calls = attemptCalls 5 ++ i.env.calls := by
  obtain ⟨j, hj, hfatal, hcalls⟩ := Instance.clockAttempts_exhausted turnOnClockRetries 1 i h
  refine ⟨j, hj, hfatal, ?_⟩
  rw [hcalls, attemptCalls, turnOnClockRetries]
  simp only [Nat.add_comm]

/-- Settles O49: the attempt that succeeds, or none of the five. -/
theorem clockTurnsOn : Obligations.ClockTurnsOn := by
  intro n s i tried ho
  refine ⟨fun m hm hbefore hat => ?_, fun hnone => ?_⟩
  · rw [exec_clkon_ends ho, Instance.turnOnClock_ok hm hbefore hat]
    rfl
  · obtain ⟨j, hj, hfatal, hcalls⟩ := Instance.turnOnClock_exhausted hnone
    exact ⟨j, by rw [exec_clkon_ends ho, hj], hfatal, hcalls⟩

/-! ### The enable sequence: what is refused, and how it runs -/

/-- Every policy but the transmit-only one asks for a continuous clock (R291). -/
theorem isContinuous_eq_true {c : HsClkPolicy} : isContinuous c = true ↔ c ≠ .txOnly := by
  cases c <;> decide

/-- With a continuous clock an override above its ceiling is refused (R152; log 42). -/
theorem Instance.videoRefusal_override {p : Params} {i : Instance} (hc : i.cfg.hsClkPolicy ≠ .txOnly)
    (hfit : overridesFit p i.cfg = false) : i.videoRefusal p = some .overrideTooLarge := by
  rw [Instance.videoRefusal, if_pos (isContinuous_eq_true.mpr hc), hfit]
  rfl

/-- With a continuous clock and overrides that fit, what is refused is the self-check's packet (R224; log 23). -/
theorem Instance.videoRefusal_check {p : Params} {i : Instance} (hc : i.cfg.hsClkPolicy ≠ .txOnly)
    (hfit : overridesFit p i.cfg = true) :
    i.videoRefusal p = ({ i with hsMode := true } : Instance).sendRefusal p (nopPacket p) := by
  rw [Instance.videoRefusal, if_pos (isContinuous_eq_true.mpr hc), hfit]
  rfl

/-- What starts: any block with a transmit-only clock, and one whose overrides and self-check packet fit. -/
theorem Instance.videoRefusal_none {p : Params} {i : Instance} (h : i.cfg.hsClkPolicy = .txOnly ∨
      overridesFit p i.cfg = true ∧ ({ i with hsMode := true } : Instance).sendRefusal p (nopPacket p) = none) :
    i.videoRefusal p = none := by
  by_cases hc : i.cfg.hsClkPolicy = .txOnly
  · rw [Instance.videoRefusal, hc]
    rfl
  · obtain ⟨hfit, hroom⟩ := h.resolve_left hc
    exact (Instance.videoRefusal_check hc hfit).trans hroom

section
variable {n : InstId} {s : State} (ha : Accepts s n)
include ha

/-- `ENVIDEO` refused before it starts (log 42). -/
theorem exec_envideo_refused {r : Refusal} (hr : (s.inst n).videoRefusal s.params = some r) :
    exec (.envideo n) s = .refused r := by
  rw [exec, execEnvideo, State.guarded_accepts ha, hr]

/-- `ENVIDEO` that is not refused ends as `EnableVideoTransmission` under the lock does (R295). -/
theorem exec_envideo_ends (hl : (s.inst n).lock = .free) (hr : (s.inst n).videoRefusal s.params = none)
    {st : Status} {j : Instance} (hv : (s.inst n).acquire.enableVideo s.params = (st, j)) :
    exec (.envideo n) s = Ends s n j.release st .none := by
  rw [exec, execEnvideo, State.guarded_accepts ha, hr, State.onLocked_free hl, hv]

/-- `ENVIDEO` that answers a next state ran `EnableVideoTransmission` under the lock: its status is the result, and
the block is the one it left (R295). -/
theorem exec_envideo_next {t : State} (h : exec (.envideo n) s = .next t) :
    t.result = some ⟨n, ((s.inst n).acquire.enableVideo s.params).1, .none⟩ ∧
      t.inst n = ((s.inst n).acquire.enableVideo s.params).2.release := by
  rw [exec, execEnvideo, State.guarded_accepts ha] at h
  split at h
  · cases h
  · obtain ⟨-, rfl⟩ := State.onLocked_next h
    exact ⟨rfl, State.inst_setInst ..⟩

end

/-- A block at rest with the lock taken is one no operation has entered. -/
theorem AtRest.unentered_acquire {i : Instance} (h : AtRest i) : Unentered i.acquire := by
  obtain ⟨-, hclk, hengine, hsnap, -⟩ := h
  exact ⟨hsnap, hclk, hengine⟩

/-! ### Video on, block by block -/

/-- Taking the lock and releasing it around the video path (R25). -/
theorem OnlyVideo.release {i j : Instance} (hl : i.lock = .free) (h : OnlyVideo i.acquire j) :
    OnlyVideo i j.release := by
  obtain ⟨e, f, hs, r, hf, fl, rf, bs, se, ph, sn, ft, rfl, hregs⟩ := h
  refine ⟨e, f, hs, r, hf, fl, rf, bs, se, ph, sn, ft, ?_, hregs⟩
  rw [Instance.release, ← hl]
  rfl

/-- Taking the lock and releasing it around the way to a continuous clock (R25): only the frame speaks of the lock. -/
theorem ContinuousVideo.release {p : Params} {m : Nat} {ws : List Word} {act : PacketId} {l : PktLen}
    {i j : Instance} (hl : i.lock = .free) (h : ContinuousVideo p m ws act l i.acquire j) :
    ContinuousVideo p m ws act l i j.release :=
  { h with frame := h.frame.release hl }

/-- Settles O50: the two refusals, a known format under either kind of policy, an unknown one. -/
theorem videoStarts : Obligations.VideoStarts := by
  intro n s p i check ha hl
  refine ⟨fun hc hfit => exec_envideo_refused ha (Instance.videoRefusal_override hc hfit),
    fun hc hfit r hr => exec_envideo_refused ha ((Instance.videoRefusal_check hc hfit).trans hr),
    fun hf => ?_, fun hf hrun => ?_⟩
  · obtain ⟨act, hact⟩ := activeId_some hf
    obtain ⟨L, hL⟩ := Instance.computeLengths_some hf
    refine ⟨act, L, hact, hL, fun hc => ?_, fun m ws hc hfit hroom hrest hp hm h0 h1 hlink hpanel => ?_⟩
    · rw [exec_envideo_ends ha hl (Instance.videoRefusal_none (.inl hc))
        (Instance.enableVideo_txOnly (i := i.acquire) hc hact hL), Instance.release, ← hl]
      rfl
    · obtain ⟨j, hj, hvideo⟩ := Instance.enableVideo_continuous (i := i.acquire) hrest.unentered_acquire
        (isContinuous_eq_true.mpr hc) hact hL hf hp hm h0 h1 hlink hpanel
      exact ⟨j.release, hvideo.release hl,
        exec_envideo_ends ha hl (Instance.videoRefusal_none (.inr ⟨hfit, hroom⟩)) hj⟩
  · obtain ⟨j, hj, hfatal⟩ := Instance.enableVideo_unknown (p := p) (i := i.acquire) hf
    exact ⟨j.release, exec_envideo_ends ha hl (Instance.videoRefusal_none hrun) hj, hfatal⟩

/-! ### However the environment answers -/

/-- `j` is `i` with video on: the interface enabled, video the owner of the FIFO path, slot 5 the mirror of slot 3, no
fault taken, and the link in one of two modes (R194, R295 to R303). -/
structure VideoOn (i j : Instance) : Prop where
  fatal : j.fatal = i.fatal
  ifEnable : j.regs.ifEnable = true
  videoEnable : j.regs.control.videoEnable = true
  hostEnable : j.regs.control.hostEnable = false
  mirror : j.regs.slots.s5 = j.regs.slots.s3
  txOnly : i.cfg.hsClkPolicy = .txOnly → j.hsMode = i.hsMode ∧ j.regs.control.hsClkCtrl = .txOnly
  continuous : i.cfg.hsClkPolicy ≠ .txOnly →
    (j.hsMode = true ∧ j.regs.control.hsClkCtrl = .continuous) ∨
      (j.hsMode = false ∧ j.regs.control.hsClkCtrl = .txOnly)

/-- `EnableVideoTransmission` turns video on, or takes a fatal fault (R295). -/
theorem Instance.enableVideo_ends {p : Params} {i : Instance} (h : Unentered i) :
    SucceedsOrFatal (i.enableVideo p) (VideoOn i) := by
  refine Instance.programVideo_ends.andThen (fun j hj => ?_)
  obtain ⟨hfatal, hmirror, hmode, hcfg, hsnap, hclk, hengine⟩ := hj
  have hpolicy : (j.setIfEnable true).constructControl.cfg.hsClkPolicy = i.cfg.hsClkPolicy := by
    show j.cfg.hsClkPolicy = _
    rw [hcfg]
    rfl
  have hentered : Unentered (j.setIfEnable true).constructControl := by
    obtain ⟨hs, hc, he⟩ := h
    refine ⟨?_, hclk.trans hc, hengine.trans he⟩
    show j.snap.overrideActive = false
    rw [hsnap]
    exact hs
  simp only [hpolicy]
  by_cases hc : i.cfg.hsClkPolicy = .txOnly
  · rw [hc, if_neg (by decide)]
    exact .inl ⟨rfl, hfatal, rfl, rfl, rfl, hmirror, fun _ => ⟨hmode, rfl⟩, absurd hc⟩
  · rw [if_pos (isContinuous_eq_true.mpr hc)]
    rcases Instance.enterContinuous_ends (p := p) hentered with ⟨hst, hkeeps, hends⟩ | hfault
    · refine .inl ⟨hst, hkeeps.fatal.trans hfatal, hkeeps.ife, hkeeps.ve, hkeeps.he, ?_, fun ht => absurd ht hc,
        fun _ => hends⟩
      rw [hkeeps.slots]
      exact hmirror
    · exact .inr hfault

/-- Settles O51: `EnableVideoTransmission` under the lock turned video on, or took a fatal fault. -/
theorem videoEndsInOneMode : Obligations.VideoEndsInOneMode := by
  intro n s t hrest ha h
  obtain ⟨hresult, hblock⟩ := exec_envideo_next ha h
  rcases Instance.enableVideo_ends (p := s.params) hrest.unentered_acquire with ⟨hst, hon⟩ | ⟨hst, hfault⟩
  · rw [hresult, hblock, hst]
    exact .inr ⟨rfl, hon.fatal.trans ha.1, hon.ifEnable, hon.videoEnable, hon.hostEnable, hon.mirror, hon.txOnly,
      hon.continuous⟩
  · rw [hresult, hblock, hst]
    exact .inl ⟨rfl, hfault⟩

end Sys2Proof.Machine

/-! PROOFS. The lifecycle operations (45_lifecycle.md R321 to R348): how a `TransInit` that fails ends, the teardown,
`Enable` and `Disable` with the DC's registers, command mode, then `TransUpdate` with its packets and `TransPing`. -/

namespace Sys2Proof.Machine

/-- Settles O21: the checks pass, and what is delivered is read off the block. -/
theorem getFreqReads : Obligations.GetFreqReads := by
  intro n s ha
  rw [exec, execGetfreq, State.guarded_accepts ha, State.finish_eq]

/-! ### The other ends of TransInit -/

section
variable {n : InstId} {desc : BitVec 16} (flags : Word) {s : State} (hf : (s.inst n).fatal = none)
include hf

/-- `TransInit` of a block that is initialised does nothing (R337). -/
theorem exec_tinit_again (hi : (s.inst n).initialized = true) :
    exec (.tinit n desc flags) s = Ends s n (s.inst n) .success .none := by
  rw [exec, execTinit, hf, if_neg (by decide), if_pos hi, State.finish_eq]

/-- `TransInit` with a lane count or a channel that has no meaning is refused (R321). -/
theorem exec_tinit_illegal (hi : (s.inst n).initialized = false)
    (hd : descriptorOk (s.descriptor desc.toNat) = false) :
    exec (.tinit n desc flags) s = .refused .badDescriptor := by
  rw [exec, execTinit, hf, if_neg (by decide), hi, if_neg (by decide), hd, if_pos (by decide)]

/-- `TransInit` with an override above its ceiling is refused (R152; log 42). -/
theorem exec_tinit_tooLarge (hi : (s.inst n).initialized = false)
    (hd : descriptorOk (s.descriptor desc.toNat) = true)
    (ho : overridesFit s.params (s.descriptor desc.toNat) = false) :
    exec (.tinit n desc flags) s = .refused .overrideTooLarge := by
  rw [exec, execTinit, hf, if_neg (by decide), hi, if_neg (by decide), hd, if_neg (by decide), ho,
    if_pos (by decide)]

end

/-- A zeroed structure is zero, whatever it was zeroed from (R70). -/
theorem Instance.zeroStructure_zero (p : Params) (i : Instance) : StructureZero p (i.zeroStructure p) :=
  ⟨rfl, rfl, rfl, rfl, rfl, rfl, rfl, rfl, rfl, rfl, rfl, rfl, rfl, rfl⟩

/-- A `TransInit` one of whose calls fails unwinds (R322). -/
theorem Instance.transInit_unwinds {p : Params} {d : PanelDescriptor} {i : Instance}
    (h : ((i.zeroStructure p).initSteps p d).1 = .initFailed) :
    i.transInit p d = (.initFailed, ((i.zeroStructure p).initSteps p d).2.unwind p) := by
  have hsteps : (i.zeroStructure p).initSteps p d = (.initFailed, ((i.zeroStructure p).initSteps p d).2) :=
    Prod.ext h rfl
  rw [Instance.transInit, hsteps]

/-- Settles O15: initialised already, the two refusals, a call that fails, an unknown format. -/
theorem transInitOtherEnds : Obligations.TransInitOtherEnds := by
  intro n desc flags s p i d hf
  refine ⟨exec_tinit_again flags hf, exec_tinit_illegal flags hf, exec_tinit_tooLarge flags hf,
    fun hi hd ho hfails => ?_, fun hi hd hu hn hcalls => ?_⟩
  · obtain ⟨k, hk, hbefore, hwhich⟩ := hfails
    have hsteps := Instance.initSteps_failed (p := p) (d := d) (i := i.zeroStructure p) hk hbefore hwhich
    exact ⟨_, exec_tinit_runs flags hf hi hd ho (Instance.transInit_unwinds hsteps),
      Instance.zeroStructure_zero p _, rfl, rfl⟩
  · have hsteps := Instance.initSteps_fatal (p := p) (d := d) (i := i.zeroStructure p) hcalls hu hn
    obtain ⟨j, hj, hfatal⟩ := Instance.transInit_fatal hsteps
    exact ⟨j, exec_tinit_runs flags hf hi hd (overridesFit_of_none _ hn) hj, hfatal⟩

/-! ### TransDeinit -/

/-- A call made under a condition. -/
theorem Instance.call_ite (i : Instance) (b : Bool) (c : EnvCall) :
    (if b then i.call c else i) =
      { i with env := { i.env with calls := (if b then [c] else []) ++ i.env.calls } } := by
  cases b <;> rfl

/-- The calls of a teardown, the newest first (R322, R336). -/
def Instance.releaseCalls (i : Instance) : List EnvCall :=
  (if i.res.device then [EnvCall.closeDevice] else []) ++
  (if i.res.aperture then [EnvCall.unmapAperture] else []) ++
  (if i.res.power then [EnvCall.unregisterPowerClock] else []) ++
  (if i.te.isSome then [EnvCall.destroySemaphore] else []) ++
  (if i.res.edgeHandler then [EnvCall.unregisterEdgeHandler] else [])

/-- A teardown makes its calls and changes nothing else of the block (R322, R336). -/
theorem Instance.teardown_eq (i : Instance) :
    i.teardown = { i with env := { i.env with calls := i.releaseCalls ++ i.env.calls } } := by
  simp only [Instance.teardown, Instance.call_ite, Instance.releaseCalls, List.append_assoc]

/-- What `TransDeinit` calls, and the registers and FIFOs it leaves as they are (R336). -/
theorem Instance.transDeinit_frame (p : Params) (i : Instance) :
    (i.transDeinit p).env.calls = i.releaseCalls ++ i.env.calls ∧ (i.transDeinit p).regs = i.regs ∧
      (i.transDeinit p).hfifo = i.hfifo ∧ (i.transDeinit p).rfifo = i.rfifo := by
  rw [Instance.transDeinit, Instance.teardown_eq]
  exact ⟨rfl, rfl, rfl, rfl⟩

/-- `TransDeinit` with the lock held is refused (R426). -/
theorem exec_tdeinit_held {n : InstId} {s : State} (hl : (s.inst n).lock = .held) :
    exec (.tdeinit n) s = .refused .deinitWhileLocked := by
  rw [exec, execTdeinit, hl]

/-- Settles O16: with the lock free the teardown and the zeroing, with the lock held the refusal. -/
theorem transDeinitTearsDown : Obligations.TransDeinitTearsDown := by
  intro n s i
  exact ⟨fun hl => ⟨i.transDeinit s.params, exec_tdeinit_free hl, Instance.zeroStructure_zero s.params i.teardown, rfl,
    rfl, i.transDeinit_frame s.params⟩, exec_tdeinit_held⟩

/-! ### The DC's registers -/

/-- The DC's registers of a controller read back as they were written (R57, R58). -/
theorem State.dcRegs_setDcRegs_same {s : State} (h : sparseWf unlistedDc 0 s.dc = true) (c : Nat) (d : DcRegs) :
    (s.setDcRegs c d).dcRegs c = d :=
  sparseGet_set_same unlistedDc s.dc d h

/-- The blocks are no part of the DC's registers. -/
@[simp] theorem State.inst_setDcRegs (s : State) (c : Nat) (d : DcRegs) (n : InstId) :
    (s.setDcRegs c d).inst n = s.inst n := by
  cases n <;> rfl

/-! ### Disable -/

/-- `DISABLE` in `TransportReady` touches nothing (R337). -/
theorem exec_disable_ready {n : InstId} {s : State} (ha : Accepts s n) (hl : (s.inst n).lock = .free)
    (hr : (s.inst n).lifecycle = .transportReady) : exec (.disable n) s = Ends s n (s.inst n) .success .none := by
  rw [exec, execDisable, State.guarded_accepts ha, State.whenFree_free hl, if_pos hr, State.finish_eq]

/-- `DISABLE` in any other state writes the block and the DC (R333). -/
theorem exec_disable_runs {n : InstId} {s : State} (ha : Accepts s n) (hl : (s.inst n).lock = .free)
    (hr : (s.inst n).lifecycle ≠ .transportReady) :
    exec (.disable n) s = ((s.setInst n (s.inst n).disableLink).setDcRegs (s.inst n).ctrlIndex
      { s.dcRegs (s.inst n).ctrlIndex with outputActive := false }).finish n .success .none := by
  rw [exec, execDisable, State.guarded_accepts ha, State.whenFree_free hl, if_neg hr]

/-- Settles O19: `TransportReady` and every other state; the DC's register reads back as written. -/
theorem disableStopsTheLink : Obligations.DisableStopsTheLink := by
  intro n s i ha hl
  refine ⟨exec_disable_ready ha hl, fun hr hm => ⟨_, exec_disable_runs ha hl hr, ?_, ?_, State.setInst_mem .., rfl⟩⟩
  · rw [State.inst_of_finish rfl, State.inst_setDcRegs, State.inst_setInst]
    rfl
  · exact State.dcRegs_setDcRegs_same (by rw [State.setInst_dc]; exact hm.2) ..

/-! ### Command mode -/

/-- `CMDMODE` with overrides that fit ends as `TransEnableCommandMode` under the lock does (R330). -/
theorem exec_cmdmode_ends {n : InstId} {s : State} (ha : Accepts s n) (hl : (s.inst n).lock = .free)
    (hfit : overridesFit s.params (s.inst n).cfg = true) {st : Status} {j : Instance}
    (hm : (s.inst n).acquire.enableCommandMode s.params = (st, j)) :
    exec (.cmdmode n) s = Ends s n j.release st .none := by
  rw [exec, execCmdmode, State.guarded_accepts ha, if_pos hfit, State.onLocked_free hl, hm]

/-- `TransEnableCommandMode` from high-speed mode on a link that does not become ready (R293). -/
theorem Instance.enableCommandMode_busy {p : Params} {i : Instance} {T : PhyTimingSet} (hm : i.hsMode = true)
    (hT : i.computePhy p (i.clockAt 0) = some T)
    (hbusy : ∀ k, k < pollCount p.cmdReadyStep p.cmdReadyMax → i.triggerAt k ≠ 0) :
    ∃ j, i.enableCommandMode p = (.fatalHardwareFault, j) ∧ j.fatal = some .cmdModeNotReadyAfterModeSwitch := by
  have hne : i.ownHost.hsMode ≠ false := by
    show i.hsMode ≠ false
    rw [hm]
    decide
  obtain ⟨j, hj, hfatal, -⟩ := Instance.setHighSpeed_busy (p := p) (i := i.ownHost) hne hT hbusy
  refine ⟨j, ?_, hfatal⟩
  rw [Instance.enableCommandMode, Instance.toLowPower, if_pos (by exact hm), hj, andThen_failed (by simp)]

/-- Settles O20: low-power mode, high-speed mode on a link that becomes ready, and on one that never does. -/
theorem commandModeSwitches : Obligations.CommandModeSwitches := by
  intro n s p i ha hl hfit hknown
  obtain ⟨T, hT⟩ := Instance.computePhy_some (p := p) hknown (i.clockAt 0)
  refine ⟨T, hT, fun hlow => ?_, fun m hhigh hm hready => ?_, fun hhigh hbusy => ?_⟩
  · rw [exec_cmdmode_ends ha hl hfit (Instance.enableCommandMode_lowPower (i := i.acquire) hlow hT),
      Instance.release, ← hl]
    rfl
  · rw [exec_cmdmode_ends ha hl hfit (Instance.enableCommandMode_highSpeed (i := i.acquire) hhigh hT hm hready),
      Instance.release, ← hl]
    rfl
  · obtain ⟨j, hj, hfatal⟩ := Instance.enableCommandMode_busy (i := i.acquire) hhigh hT hbusy
    exact ⟨j.release, exec_cmdmode_ends ha hl hfit hj, hfatal, rfl⟩

/-! ### Enable -/

/-- Which `Enable` is in order: one of block 1 of a ganged panel comes right after that of block 0 (R96). -/
theorem enableInOrder_of_last {s : State} {n : InstId}
    (h : (s.inst n).cfg.videoMode = .ganged ∧ n = .i1 → s.gangedStep = .firstEnabled) :
    enableInOrder s n = true := by
  cases n with
  | i0 => rfl
  | i1 =>
    by_cases hg : s.inst1.cfg.videoMode = .ganged
    · simp [enableInOrder, h ⟨hg, rfl⟩]
    · simp [enableInOrder, State.inst, hg]

/-- An `Enable` that comes in order, with overrides that fit, is refused for its video path alone (log 42). -/
theorem enableRefusal_fits {s : State} {n : InstId} (ho : enableInOrder s n = true)
    (hfit : overridesFit s.params (s.inst n).cfg = true) :
    enableRefusal s n = (s.inst n).videoRefusal s.params := by
  rw [enableRefusal, ho, if_neg (by decide), hfit, if_neg (by decide)]

/-- An `Enable` that comes in order is refused for an override above its ceiling (R152; log 42). -/
theorem enableRefusal_tooLarge {s : State} {n : InstId} (ho : enableInOrder s n = true)
    (hfit : overridesFit s.params (s.inst n).cfg = false) : enableRefusal s n = some .overrideTooLarge := by
  rw [enableRefusal, ho, if_neg (by decide), hfit, if_pos (by decide)]

section
variable {n : InstId} {s : State} (ha : Accepts s n)
include ha

/-- `Enable` refused before it starts (log 42). -/
theorem exec_enable_refused {r : Refusal} (hr : enableRefusal s n = some r) :
    exec (.enable n) s = .refused r := by
  rw [exec, execEnable, State.guarded_accepts ha, hr]

/-- `Enable` that succeeds under its lock writes the block, then the DC (R326, R342). -/
theorem exec_enable_success (hl : (s.inst n).lock = .free) (hr : enableRefusal s n = none) {j : Instance}
    (hj : (s.inst n).acquire.enableLink s.params = (.success, j)) :
    exec (.enable n) s = .next { (s.setInst n j.release).dcAfterEnable n with
      result := some ⟨n, .success, .none⟩, gangedStep := gangedAfter j } := by
  rw [exec, execEnable, State.guarded_accepts ha, hr, hj]
  exact State.whenFree_free hl _

end

/-- The calls that end an `Enable` on the DC's side (R342; log 24). -/
def gangedCalls (p : Params) (n : InstId) (i : Instance) : List EnvCall :=
  if i.cfg.videoMode = .ganged ∧ n = .i1 then
    [.dcWriteGanged i.ctrlIndex (gangedPair p i.cfg.split i.split)]
  else []

/-- These calls depend on the panel and the controller only. -/
theorem gangedCalls_congr {i j : Instance} (p : Params) (n : InstId) (hcfg : j.cfg = i.cfg)
    (hctrl : j.ctrlIndex = i.ctrlIndex) : gangedCalls p n j = gangedCalls p n i := by
  simp only [gangedCalls, Instance.split, hcfg, hctrl]

/-- A result is no part of a block. -/
theorem State.inst_withResult (s : State) (r : Option Result) (g : GangedStep) (n : InstId) :
    ({ s with result := r, gangedStep := g } : State).inst n = s.inst n := by
  cases n <;> rfl

/-- The DC's writes that end an `Enable` change of the blocks only the calls of the one enabled (R342). -/
theorem State.inst_dcAfterEnable (s : State) (n : InstId) :
    (s.dcAfterEnable n).inst n = { s.inst n with
      env := { (s.inst n).env with
        calls := gangedCalls s.params n (s.inst n) ++ (s.inst n).env.calls } } := by
  rw [State.dcAfterEnable, gangedCalls]
  by_cases h : (s.inst n).cfg.videoMode = .ganged ∧ n = .i1
  · rw [if_pos h, if_pos h, State.inst_setDcRegs, State.inst_setInst]
    rfl
  · rw [if_neg h, if_neg h, State.inst_setDcRegs]
    rfl

/-- The DC's registers after an `Enable`: the output path active, and after block 1 of a ganged panel the pair (R57,
R342). -/
theorem State.dcRegs_dcAfterEnable {s : State} (h : sparseWf unlistedDc 0 s.dc = true) (n : InstId) :
    (s.dcAfterEnable n).dcRegs (s.inst n).ctrlIndex =
      ⟨true, if (s.inst n).cfg.videoMode = .ganged ∧ n = .i1 then
          gangedPair s.params (s.inst n).cfg.split (s.inst n).split
        else (s.dcRegs (s.inst n).ctrlIndex).ganged⟩ := by
  rw [State.dcAfterEnable]
  by_cases hn : (s.inst n).cfg.videoMode = .ganged ∧ n = .i1
  · rw [if_pos hn, if_pos hn]
    exact State.dcRegs_setDcRegs_same (by rw [State.setInst_dc]; exact h) ..
  · rw [if_neg hn, if_neg hn]
    exact State.dcRegs_setDcRegs_same h ..

/-- How an `Enable` that succeeds ends: `k` is the block it left, on the panel and the controller of the block enabled
(R326, R340, R342). -/
theorem exec_enable_ends {s : State} {n : InstId} {k : Instance} (ha : Accepts s n) (hm : MemoryOk s)
    (hl : (s.inst n).lock = .free) (hr : enableRefusal s n = none)
    (hk : (s.inst n).acquire.enableLink s.params = (.success, k)) (hcfg : k.cfg = (s.inst n).cfg)
    (hctrl : k.ctrlIndex = (s.inst n).ctrlIndex) :
    ∃ t, exec (.enable n) s = .next t ∧
      t.inst n = { k.release with
        env := { k.env with calls := gangedCalls s.params n (s.inst n) ++ k.env.calls } } ∧
      t.dcRegs (s.inst n).ctrlIndex =
        ⟨true, if (s.inst n).cfg.videoMode = .ganged ∧ n = .i1 then
            gangedPair s.params (s.inst n).cfg.split (s.inst n).split
          else (s.dcRegs (s.inst n).ctrlIndex).ganged⟩ ∧
      t.result = some ⟨n, .success, .none⟩ ∧ t.gangedStep = gangedAfter k := by
  have hcfg' : k.release.cfg = (s.inst n).cfg := hcfg
  have hctrl' : k.release.ctrlIndex = (s.inst n).ctrlIndex := hctrl
  have hinst := (s.setInst n k.release).inst_dcAfterEnable n
  have hdc := State.dcRegs_dcAfterEnable (s := s.setInst n k.release) (by rw [State.setInst_dc]; exact hm.2) n
  rw [State.inst_setInst, State.setInst_params] at hinst hdc
  rw [gangedCalls_congr _ _ hcfg' hctrl'] at hinst
  rw [hctrl', State.dcRegs_setInst, Instance.split, hcfg'] at hdc
  exact ⟨_, exec_enable_success ha hl hr hk, (State.inst_withResult ..).trans hinst, hdc, rfl, rfl⟩

/-- The video path leaves a block its panel, its name and its controller (R20, R21). -/
theorem OnlyVideo.identity {i j : Instance} (h : OnlyVideo i j) :
    j.cfg = i.cfg ∧ j.id = i.id ∧ j.ctrlIndex = i.ctrlIndex := by
  obtain ⟨_, _, _, _, _, _, _, _, _, _, _, _, rfl, -⟩ := h
  exact ⟨rfl, rfl, rfl⟩

/-- Settles O17: the two refusals, then a transmit-only clock and a continuous one. -/
theorem enableProgramsTheLink : Obligations.EnableProgramsTheLink := by
  intro n s p i g check half last ends ha hm hl horder
  have ho := enableInOrder_of_last horder
  have hends (k : Instance) (hr : enableRefusal s n = none) (hcfg : k.cfg = i.cfg) (hid : k.id = i.id)
      (hctrl : k.ctrlIndex = i.ctrlIndex) (hk : i.acquire.enableLink p = (.success, { k with
        padsCalibrated := true, hostActive := false, lifecycle := .enabled
        env := { k.env with calls := .padCalibrate :: .dcWriteOutputActive i.ctrlIndex true :: k.env.calls } })) :
      ends k.release := by
    obtain ⟨t, ht, hinst, hdc, hres, hgang⟩ := exec_enable_ends ha hm hl hr hk hcfg hctrl
    refine ⟨t, ht, hinst, congrArg DcRegs.outputActive hdc, fun hnot => ?_, fun hlast hside => ?_,
      fun hlast hside => ?_, hres, fun hself => ?_⟩
    · rw [hdc, if_neg hnot]
    · rw [hdc, if_pos hlast, hside]
      rfl
    · rw [hdc, if_pos hlast, hside]
      rfl
    · simp only [hgang, gangedAfter, hcfg, hid, hself]
  refine ⟨fun hfit => exec_enable_refused ha (enableRefusal_tooLarge ho hfit), fun hfit hc r hcheck => ?_,
    fun hfit hf => ?_⟩
  · exact exec_enable_refused ha ((enableRefusal_fits ho hfit).trans ((Instance.videoRefusal_check hc hfit).trans hcheck))
  · obtain ⟨⟨sol, f⟩, hsol⟩ := Instance.computeSol_some (i := g) hf
    obtain ⟨act, hact⟩ := activeId_some hf
    obtain ⟨L, hL⟩ := Instance.computeLengths_some (i := g) hf
    obtain ⟨T, hT⟩ := Instance.computePhy_some (p := p) (i := g) (.inl hf) (i.clockAt 0)
    refine ⟨sol, f, act, L, T, hsol, hact, hL, hT, fun hc => ?_,
      fun m ws hc hroom hrest hp hm5 h0 h1 hlink hpanel => ?_⟩
    · have hr := (enableRefusal_fits ho hfit).trans (Instance.videoRefusal_none (.inl hc))
      have hlink := Instance.enableLink_txOnly (i := i.acquire) hc hsol hact hL hT
      exact (congrArg ends (Instance.acquire_release (by exact hl))).mp (hends _ hr rfl rfl rfl hlink)
    · have hr := (enableRefusal_fits ho hfit).trans (Instance.videoRefusal_none (.inr ⟨hfit, hroom⟩))
      obtain ⟨k, hvideo, hk⟩ := Instance.enableLink_continuous (i := i.acquire) hrest.unentered_acquire
        (isContinuous_eq_true.mpr hc) hsol hact hL hT hf hp hm5 h0 h1 hlink hpanel
      obtain ⟨hcfg, hid, hctrl⟩ := hvideo.frame.identity
      exact ⟨k.release, hvideo.release (i := i.latched p sol f T) hl, hends k hr hcfg hid hctrl hk⟩

/-! ### The packets of an update -/

/-- The bytes of the pixel packets, put together again (R345). -/
theorem pixelPackets_payloads (p : Params) (bs : List Byte) :
    (pixelPackets p bs).map PacketDesc.payload = chunksOf (max p.updateChunkBytes 1) bs.length bs := by
  rw [pixelPackets]
  cases chunksOf (max p.updateChunkBytes 1) bs.length bs with
  | nil => rfl
  | cons c r =>
    rw [List.map_cons, List.map_map]
    exact congrArg (c :: ·) (List.map_id'' (fun _ => rfl) r)

/-- Every pixel packet is a long write of the opcode the spec names (R345). -/
theorem pixelPackets_long {p : Params} {bs : List Byte} {d : PacketDesc} (h : d ∈ pixelPackets p bs) :
    d.isLong = true ∧ d.cmdType = p.longWriteType := by
  rw [pixelPackets] at h
  split at h
  · cases h
  · rcases List.mem_cons.mp h with rfl | h
    · exact ⟨rfl, rfl⟩
    · obtain ⟨c, -, rfl⟩ := List.mem_map.mp h
      exact ⟨rfl, rfl⟩

/-- The first pixel packet starts a memory write, the others continue it (R345). -/
theorem pixelPackets_registers {p : Params} {bs : List Byte} {d : PacketDesc} {r : List PacketDesc}
    (h : pixelPackets p bs = d :: r) : d.reg = p.writeMemoryStart ∧ ∀ e, e ∈ r → e.reg = p.writeMemoryContinue := by
  rw [pixelPackets] at h
  split at h
  · cases h
  · obtain ⟨rfl, rfl⟩ := List.cons.inj h
    refine ⟨rfl, fun e he => ?_⟩
    obtain ⟨c, -, rfl⟩ := List.mem_map.mp he
    rfl

/-- A row of the rectangle is as long as its pixels (R345). -/
theorem rowBytes_length (m : Memory) (a : UpdateArgs) (r : Nat) :
    (rowBytes m a r).length = a.rectW.toNat * pixelBytes a := by
  rw [rowBytes, Memory.readBytes, List.length_map, List.length_range]

/-- Byte `k` of a read of host memory. -/
theorem Memory.getD_readBytes {m : Memory} {n k : Nat} (a : Nat) (h : k < n) :
    (m.readBytes a n).getD k 0 = m.read (a + k) := by
  rw [Memory.readBytes, List.getD_eq_getElem _ _ (by simpa using h), List.getElem_map, List.getElem_range]

/-- Settles O53: the chunks of the bytes, the rows of the rectangle, the sequence they follow. -/
theorem pixelPackets_holds : Obligations.PixelPackets := by
  refine ⟨fun p bs => ⟨?_, fun d hd => ?_, fun d r => pixelPackets_registers⟩, fun m a r c => ?_,
    fun n a s => ⟨fun h => if_pos h, fun h => if_neg h⟩⟩
  · rw [pixelPackets_payloads]
    exact chunksOf_flatten _ (lt_max_of_lt_right Nat.one_pos) _ _ (Nat.le_refl _)
  · have hchunk : d.payload ∈ chunksOf (max p.updateChunkBytes 1) bs.length bs :=
      pixelPackets_payloads p bs ▸ List.mem_map_of_mem hd
    obtain ⟨hlong, htype⟩ := pixelPackets_long hd
    exact ⟨hlong, htype, chunksOf_mem _ (lt_max_of_lt_right Nat.one_pos) _ _ _ hchunk⟩
  · obtain ⟨hlen, hbyte⟩ := flatMap_rows _ (rowBytes m a) (rowBytes_length m a) a.rectH.toNat
    exact ⟨hlen, fun hr hc => (hbyte r c hr hc).trans (Memory.getD_readBytes _ hc)⟩

/-! ### TransUpdate -/

section
variable {n : InstId} {a : UpdateArgs} {s : State} (ha : Accepts s n)
include ha

/-- Outside `CommandModeEnabled` an update has no meaning (R337). -/
theorem exec_tupdate_elsewhere (hc : (s.inst n).lifecycle ≠ .commandModeEnabled) :
    exec (.tupdate n a) s = .refused .notInCommandMode := by
  rw [exec, execTupdate, State.guarded_accepts ha, if_pos hc]

variable (hc : (s.inst n).lifecycle = .commandModeEnabled)
include hc

/-- An update one of whose packets is refused (R224; log 42). -/
theorem exec_tupdate_refused {r : Refusal}
    (hr : packetsRefusal s.params (s.inst n) (s.inst n).queued.length (updatePackets s n a) = some r) :
    exec (.tupdate n a) s = .refused r := by
  rw [exec, execTupdate, State.guarded_accepts ha, if_neg (not_not.mpr hc), hr]

/-- An update that is not refused ends as `TransUpdate` under the lock does (R345). -/
theorem exec_tupdate_ends (hl : (s.inst n).lock = .free)
    (hr : packetsRefusal s.params (s.inst n) (s.inst n).queued.length (updatePackets s n a) = none) {st : Status}
    {j : Instance}
    (hu : (s.inst n).acquire.update s.params (updateRect a) (updatePackets s n a) = (st, j)) :
    exec (.tupdate n a) s = Ends s n j.release st .none := by
  rw [exec, execTupdate, State.guarded_accepts ha, if_neg (not_not.mpr hc), hr, State.onLocked_free hl, hu]

end

/-- The block after an operation under the lock (R25). -/
theorem State.inst_of_onLocked {s t : State} {n : InstId} {f : Instance → Status × Output × Instance}
    (h : s.onLocked n f = .next t) : t.inst n = (f (s.inst n).acquire).2.2.release := by
  obtain ⟨-, rfl⟩ := State.onLocked_next h
  exact (State.inst_withResult ..).trans (State.inst_setInst ..)

/-- An update that answers a next state changes only the link's traffic and the handle (R345, R378). -/
theorem exec_tupdate_onlyLink {n : InstId} {a : UpdateArgs} {s t : State} (ha : Accepts s n) (hrest : AtRest (s.inst n))
    (h : exec (.tupdate n a) s = .next t) :
    OnlyLink { s.inst n with te := (s.inst n).te.map (fun _ => (⟨false, true⟩ : Te)) } (t.inst n) := by
  obtain ⟨hl, hclk, hengine, hsnap, -⟩ := hrest
  rw [exec, execTupdate, State.guarded_accepts ha] at h
  split at h
  · cases h
  split at h
  · cases h
  · have hlink := Instance.update_link (p := s.params) (i := (s.inst n).acquire) (updateRect a) (updatePackets s n a)
      hsnap hclk hengine
    rw [State.inst_of_onLocked h]
    exact OnlyLink.release hl _ hlink

/-- Settles O52: the refusals, a TE edge that does not come, a ready link, then the frame. -/
theorem updateRuns : Obligations.UpdateRuns := by
  intro n a s p i ps te' ha hrest
  have ⟨hl, hclk, hengine, hsnap, _⟩ := hrest
  refine ⟨exec_tupdate_elsewhere ha, fun hc => ⟨fun r => exec_tupdate_refused ha hc, fun hr => ⟨?_, ?_⟩⟩, fun t h => ?_⟩
  · intro b hte hlate
    obtain ⟨e, hu, htrigger⟩ :=
      Instance.update_late (p := p) (i := i.acquire) (updateRect a) ps hte hlate
    have hmasked : te' = some ⟨false, true⟩ := by
      show i.te.map _ = _
      rw [hte]
      rfl
    exact ⟨_, exec_tupdate_ends ha hc hl hr hu, hmasked.symm, rfl, rfl, htrigger, rfl⟩
  · intro hte hp hlink
    obtain ⟨j, hu, hrun⟩ := Instance.update_ready (i := i.acquire) (updateRect a) ps hsnap hclk hengine hte hp hlink
    have hframe := Instance.update_link (p := p) (i := i.acquire) (updateRect a) ps hsnap hclk hengine
    rw [hu] at hframe
    exact ⟨j.release, exec_tupdate_ends ha hc hl hr hu, OnlyLink.release hl te' hframe, hrun⟩
  · obtain ⟨hmem, hdc⟩ := (exec_copies (.tupdate n a) (fun _ => ⟨nofun, nofun⟩) h).2 rfl
    exact ⟨exec_tupdate_onlyLink ha hrest h, hmem, hdc⟩

/-! ### TransPing -/

section
variable {n : InstId} {reg : Byte} {len : BitVec 16} {flags : Word} {s : State} (ha : Accepts s n)
include ha

/-- A ping one of whose control packets is refused (R84, R412). -/
theorem exec_tping_refused {r : Refusal} (hr : (s.inst n).readRefusal s.params reg len = some r) :
    exec (.tping n reg len flags) s = .refused r := by
  rw [exec, execTping, State.guarded_accepts ha, hr]

/-- While the DC holds its frame mutex a ping waits (R97). -/
theorem exec_tping_blocked (hr : (s.inst n).readRefusal s.params reg len = none) (hm : s.frameMutex = true) :
    exec (.tping n reg len flags) s = .fault .blockedOnFrameMutex := by
  rw [exec, execTping, State.guarded_accepts ha, hr]
  exact if_pos hm

/-- A ping with the mutex free ends as `TransPing` under both locks does (R348). -/
theorem exec_tping_ends (hl : (s.inst n).lock = .free) (hr : (s.inst n).readRefusal s.params reg len = none)
    (hm : s.frameMutex = false) {st : Status} {b : Option (List Byte)} {j : Instance}
    (hp : ((s.inst n).call .acquireFrameMutex).acquire.ping s.params reg len = (st, b, j)) :
    exec (.tping n reg len flags) s =
      ((s.setInst n (j.release.call .releaseFrameMutex)).copyOut? n b).finish n st (.ping st (copiedCount b)) := by
  rw [exec, execTping, State.guarded_accepts ha, hr, hp]
  exact (if_neg (by rw [hm]; decide)).trans (State.whenFree_free hl _)

end

/-- The block a ping reads from: the frame mutex and the lock taken, the video-mode state overridden, three frames
waited for (R348). -/
def Instance.pingReady (i : Instance) : Instance :=
  (i.call .acquireFrameMutex).acquire.pingOverride.waitVblanks pingSettleFrames

/-- A ping is the read from that block, and the video-mode state written back (R348). -/
theorem Instance.ping_eq {p : Params} {i : Instance} {reg : Byte} {len : BitVec 16} {st : Status}
    {b : Option (List Byte)} {j : Instance} (h : i.pingReady.readCommand p reg len = (st, b, j)) :
    (i.call .acquireFrameMutex).acquire.ping p reg len =
      (st, b, (i.call .acquireFrameMutex).acquire.pingRestore j) := by
  rw [Instance.pingReady] at h
  rw [Instance.ping, h]

/-- Waiting for vertical blanks records the waits and changes nothing else (R382; log 24). -/
theorem Instance.waitVblanks_eq (i : Instance) (k : Nat) :
    i.waitVblanks k = { i with env := { i.env with calls := List.replicate k .waitVblank ++ i.env.calls } } := by
  induction k generalizing i with
  | zero => rfl
  | succ k ih =>
    rw [Instance.waitVblanks, ih, List.replicate_succ']
    simp only [Instance.call, List.append_assoc, List.singleton_append]

/-- That block, field by field (R348). -/
theorem Instance.pingReady_eq (i : Instance) :
    i.pingReady = { i with
      lock := .held, hostActive := true
      regs := { i.regs with
        hostControl := { i.regs.hostControl with triggerMode := .immediate }
        control := { i.regs.control with videoEnable := false, hostEnable := true } }
      env := { i.env with calls := [.waitVblank, .waitVblank, .waitVblank, .acquireFrameMutex] ++ i.env.calls } } := by
  rw [Instance.pingReady, Instance.waitVblanks_eq]
  simp only [Instance.call, Instance.acquire, Instance.pingOverride, Instance.setHostControl, Instance.setControl]
  rfl

/-- The read a ping makes when the link is ready and the panel answers (R258, R348): the host owns the FIFO path, so
both control packets leave at once. -/
theorem Instance.pingReady_answered {p : Params} {i : Instance} {ws : List Word} (hrest : AtRest i) (hp : PollsOk p)
    (hlink : LinkReady p (readPolls p) 2 i) (hpanel : PanelAnswers p i ws) (reg : Byte) (len : BitVec 16) :
    ∃ j : Instance, i.pingReady.readCommand p reg len =
        ((classifyResponse (unpackWords ws)).status,
          some ((classifyResponse (unpackWords ws)).copied (unpackWords ws) len.toNat), j) ∧
      j.hfifo = [] ∧ j.flight = .none ∧ j.rfifo = [] ∧ j.staging = unpackWords ws ∧
      j.sent = i.dcsreadWords p reg :: (i.ahead ++ i.maxretWords p len) :: i.sent ∧
      j.env.trigger = i.env.trigger.advance (linkReads p (readPolls p) 2) ∧
      j.env.syncpt = i.env.syncpt.advance (counterWaits p 2) ∧
      j.env.calls = EnvCall.clockDisable :: (counterCalls p 2 ++ ([EnvCall.clockEnable, .waitVblank, .waitVblank,
        .waitVblank, .acquireFrameMutex] ++ i.env.calls)) := by
  obtain ⟨-, hclk, hengine, hsnap, -⟩ := hrest
  obtain ⟨b, hb⟩ : ∃ b, b = i.pingReady := ⟨_, rfl⟩
  rw [← hb]
  rw [Instance.pingReady_eq] at hb
  obtain ⟨j, hread, -, hfifo, hflight, hrfifo, hstaging, -, hsent, htrigger, hcounter, hcalls⟩ :=
    Instance.readCommand_answered (i := b) (by rw [hb]; exact hsnap) (by rw [hb]; exact hclk) (by rw [hb]; exact hengine)
      hp (by rw [hb]; exact hlink) (by rw [hb]; exact hpanel) reg len
  subst hb
  exact ⟨j, hread, hfifo, hflight, hrfifo, hstaging, hsent.trans (if_pos rfl), htrigger, hcounter, hcalls⟩

/-- The block after a ping of `i` whose read left `j`: the video-mode state written back, the lock and the mutex
released (R348). -/
def Instance.pinged (i j : Instance) : Instance :=
  ((i.call .acquireFrameMutex).acquire.pingRestore j).release.call .releaseFrameMutex

/-- What a ping leaves as its read left it, and the mutex released last (R348). -/
theorem Instance.pinged_fields (i j : Instance) :
    (i.pinged j).hfifo = j.hfifo ∧ (i.pinged j).flight = j.flight ∧ (i.pinged j).rfifo = j.rfifo ∧
      (i.pinged j).staging = j.staging ∧ (i.pinged j).sent = j.sent ∧ (i.pinged j).env.trigger = j.env.trigger ∧
      (i.pinged j).env.syncpt = j.env.syncpt ∧ (i.pinged j).env.calls = .releaseFrameMutex :: j.env.calls := by
  simp only [Instance.pinged, Instance.pingRestore, Instance.call, Instance.release, Instance.setControl,
    Instance.setHostControl, and_self]

/-- A ping, whatever its read answers, changes only a read's traffic and leaves the video-mode state as it was (R348,
R372). -/
theorem Instance.pinged_frame {p : Params} {i : Instance} {reg : Byte} {len : BitVec 16} {st : Status}
    {b : Option (List Byte)} {j : Instance} (hrest : AtRest i)
    (hread : i.pingReady.readCommand p reg len = (st, b, j)) :
    OnlyRead i (i.pinged j) ∧ (i.pinged j).regs.control = i.regs.control ∧
      (i.pinged j).regs.hostControl = i.regs.hostControl ∧ (i.pinged j).hostActive = i.hostActive := by
  obtain ⟨honly, hvideo⟩ := Instance.ping_frame (p := p) (reg := reg) (len := len) hrest
    (Instance.waitVblanks_env (i.call .acquireFrameMutex).acquire.pingOverride pingSettleFrames) .releaseFrameMutex
  rw [← Instance.pingReady, hread] at honly
  exact ⟨honly, hvideo j⟩

/-- Settles O54: the refusal, the wait for the mutex, then the read of a ready link whose panel answers. -/
theorem pingReads : Obligations.PingReads := by
  intro n reg len flags s p i marker ha
  refine ⟨fun hfull => exec_tping_refused ha (Instance.readRefusal_full hfull), exec_tping_blocked ha,
    fun ws hrest hm hp hr hlink hpanel => ?_⟩
  obtain ⟨j, hread, hfifo, hflight, hrfifo, hstaging, hsent, htrigger, hcounter, hcalls⟩ :=
    Instance.pingReady_answered hrest hp hlink hpanel reg len
  obtain ⟨fhfifo, fflight, frfifo, fstaging, fsent, ftrigger, fcounter, fcalls⟩ := i.pinged_fields j
  obtain ⟨honly, hcontrol, hhost, hactive⟩ := Instance.pinged_frame hrest hread
  have ⟨hl, _⟩ := hrest
  have hexec := exec_tping_ends (flags := flags) ha hl hr hm (Instance.ping_eq hread)
  refine ⟨i.pinged j, hexec.trans (State.finish_copied honly.outBuf _ _ _), honly, ?_⟩
  rw [fhfifo, fflight, frfifo, fstaging, fsent, ftrigger, fcounter, fcalls, hcalls]
  exact ⟨hcontrol, hhost, hactive, hfifo, hflight, hrfifo, hstaging, hsent, htrigger, hcounter, rfl⟩

end Sys2Proof.Machine

/-! PROOFS. The checks before an instruction, the TE edge and the empty port (60_exceptions.md R364, R370, R371, R376). -/

namespace Sys2Proof.Machine

/-! ### The checks of R370 -/

/-- The micro-operations and the table's other rows begin with the two checks of R370 (log 19). -/
theorem exec_guarded_of_row {i : Instr} (hrow : isOperation i = false) (s : State) :
    ∃ k, exec i s = s.guarded (blockOf i) k := by
  refine exec_guarded i s ?_ ?_
  · rintro n desc flags rfl
    cases hrow
  · rintro n rfl
    cases hrow

/-- Settles O12: every operation but the two begins with the checks of R370, and the second of them answers. -/
theorem notInitializedFirst : Obligations.NotInitializedFirst := by
  intro i s _ hinit hdeinit hfatal hdown
  obtain ⟨k, hk⟩ := exec_guarded i s hinit hdeinit
  rw [hk, State.guarded_uninitialized hfatal hdown]

/-- Settles O13: a row begins with the same two checks, so each of them answers as before an operation. -/
theorem rowsAreChecked : Obligations.RowsAreChecked := by
  intro i s hrow
  obtain ⟨k, hk⟩ := exec_guarded_of_row hrow s
  rw [hk]
  exact ⟨fun hfatal => State.guarded_fatal (Option.isSome_iff_ne_none.mpr hfatal) k,
    fun hfatal hdown => State.guarded_uninitialized hfatal hdown k⟩

/-! ### The TE edge and the empty port -/

/-- An unmasked TE interrupt signals the handle and masks itself (R376). -/
theorem Instance.teHandler_unmasked {i : Instance} {b : Bool} (h : i.te = some ⟨b, false⟩) :
    i.teHandler = { i with te := some ⟨true, true⟩ } := by
  rw [Instance.teHandler, h]
  rfl

/-- A masked TE interrupt, or one without a handle, is lost (R376). -/
theorem Instance.teHandler_lost {i : Instance} (h : i.te = none ∨ ∃ b, i.te = some ⟨b, true⟩) :
    i.teHandler = i := by
  rcases h with hnone | ⟨b, hmasked⟩
  · rw [Instance.teHandler, hnone]
  · rw [Instance.teHandler, hmasked]
    rfl

/-- Moving the port on leaves the blocks as they are. -/
@[simp] theorem State.inst_setPort (s : State) (rest : List PortWord) (n : InstId) :
    ({ s with port := rest } : State).inst n = s.inst n := by
  cases n <;> rfl

/-- A step on a TE edge runs the block's handler, the port moved past the edge (R371; log 32). -/
theorem step_of_teEdge {s : State} {n : InstId} {w : Word} {rest : List PortWord}
    (h : s.port = ⟨.teEdge n, w⟩ :: rest) :
    step s = .next (({ s with port := rest }).setInst n (s.inst n).teHandler) := by
  rw [step, h]
  simp only [fetch, State.teEdge, State.inst_setPort]

/-- With nothing presented the machine waits (log 40). -/
theorem step_of_emptyPort {s : State} (h : s.port = []) : step s = .next s := by
  rw [step, h]
  rfl

/-- Settles O55: the edge runs the TE handler, masked or not, and an empty port changes nothing. -/
theorem teEdgeAndIdlePort : Obligations.TeEdgeAndIdlePort := by
  refine ⟨fun s n w rest hport => ⟨fun b hte => ?_, fun hlost => ?_⟩, fun s => step_of_emptyPort⟩
  · rw [step_of_teEdge hport, Instance.teHandler_unmasked hte]
  · rw [step_of_teEdge hport, Instance.teHandler_lost hlost, ← State.inst_setPort s rest n, State.setInst_inst]

end Sys2Proof.Machine
